-- ==== Sys2Proof/Word.lean ====
section
/-! DEFINITION. The bytes and characters of the two links: the plainest word types, and nothing else. -/

namespace Sys2Proof

/-- One byte of either link. -/
abbrev Byte := BitVec 8

/-- One character of the station bus (R118): 8 data bits and the ninth bit, the address mark. -/
structure BusChar where
  data : Byte
  mark : Bool
  deriving DecidableEq, Repr

end Sys2Proof
end

