-- ==== Sys2Proof/Syntax.lean ====
section
/-! DEFINITION. The commands of the block: one constructor per row of spec/opcode_table.json.

A command is one whole step of the part (95_what_each_step_holds.md). A request row (START ... QSTAT, UNKNOWN_KIND) is the
step in which the Host Port acts on the oldest frame of its intake (R166), so its fields are those of that frame; it has
no operand of its own. A reply row (ACK ... HELLO) is a valid reply of the terminal addressed by the turn under way. -/

namespace Sys2Proof

/-- The 58 rows of the table, in the table's order. -/
inductive Instr where
  | resetAssert
  | resetRelease
  | deviceSecond
  | warmupEnd (station : Nat)
  | ticketRelease (station : Nat)
  | ticketOverdue (station : Nat)
  | platingStart (group : Nat)
  | lifeEnd (group : Nat)
  | clockLimit
  | hostFrame (byte : Byte)
  | interByteGapExpiry
  | unknownKind
  | start
  | close
  | restart
  | restartClearing
  | clrcfg
  | defitem
  | defcrs
  | defstn
  | defterm
  | stock
  | rebind
  | submit
  | amend
  | retime
  | hold
  | cancel
  | pickup
  | refire
  | stnon
  | stnoff
  | pause
  | pauseall
  | resume
  | resumeall
  | halt
  | clear
  | qgroup
  | qstn
  | qitem
  | qterm
  | qstat
  | transmitterChoice
  | turn
  | railclrBroadcast
  | replyWindowExpiry
  | badReply (chars : List BusChar)
  | terminalLost (address : Nat)
  | ack
  | terminalStart (station : Byte) (ticket : BitVec 16)
  | bump (station : Byte) (ticket : BitVec 16)
  | taken (group : BitVec 16)
  | wait
  | fault
  | hello
  | hostByte (byte : Byte)
  | framingError
  deriving DecidableEq, Repr

end Sys2Proof
end

