-- ==== Sys2Proof/Config.lean ====
section
/-! DEFINITION. The sizes the spec fixes for the part (00_scope.md, "Further sizes that all chapters use", and the rules named).
The one value the spec leaves unstated is the last definition. -/

namespace Sys2Proof.Config

/-- Groups are numbered 1 to 512 (R37). -/
abbrev maxGroup : Nat := 512
/-- Item lines per group (R37, R42). -/
abbrev maxLines : Nat := 12
/-- Covers of a group, and count of a line (R37, R38). -/
abbrev maxCount : Nat := 400
/-- Ticket records in the pool (R81). -/
abbrev poolRecords : Nat := 2048
/-- Ticket numbers run 1 to 9,999 (R82). -/
abbrev maxTicketNumber : Nat := 9999
/-- The largest limited stock (R30); 65,535 in a frame means unlimited (R176). -/
abbrev maxStock : Nat := 65534
/-- The largest standing pool (R149). -/
abbrev maxPool : Nat := 9999
/-- The last value of the service clock (R5, R9). -/
abbrev clockLimit : Nat := 65535
/-- Stations are numbered 1 to 24 (R23). -/
abbrev maxStation : Nat := 24
/-- Terminal addresses run 1 to 30 (R27). -/
abbrev maxTerminal : Nat := 30
/-- The broadcast address of the station bus (R27, R118). -/
abbrev broadcastAddress : Nat := 31
/-- PASS terminals at any time (R28). -/
abbrev maxPass : Nat := 2
/-- Consecutive misses that make a LIVE terminal LOST (R130). -/
abbrev missLimit : Nat := 8
/-- Frames held by the intake (R166). -/
abbrev intakePlaces : Nat := 4
/-- BUSY replies held by the reply path (R168). -/
abbrev busyPlaces : Nat := 4
/-- Reports held by the report queue (R172). -/
abbrev reportPlaces : Nat := 96
/-- The discard count stops here (R172). -/
abbrev maxDiscards : Nat := 65535
/-- The part revision code (R10). -/
abbrev revision : Nat := 1

/-- The byte sent for a count above 255 in a field of one byte: the NOTE list and the shown record of QTERM can hold up to 512, and
REFIRE can make up to 400 RUSH tickets of a component (R179). The spec does not state it; a free value (entry 21). -/
opaque longCount : Nat → Byte

end Sys2Proof.Config
end

