-- ==== Sys2Proof/Machine/State.lean ====
section
/-! DEFINITION. The records and tables of the part, as plain data; the state right after reset; the reasons to stop.

Every number the spec calls a count, a number or a time is a Nat, or an Int where it can lie below 0 (R176, signed fields).
Tables are lists of the entries that are defined or in use, ascending by number; the pool of tickets is the list of the
records in use in creation order. -/

namespace Sys2Proof.Machine

/-! ### Names with codes (R178) -/

/-- Event state (R1). -/
inductive EventState where
  | setup | service | closed
  deriving DecidableEq, Repr

/-- Cause of an EVSTATE report (R10). -/
inductive EventCause where
  | start | close | limit | restart
  deriving DecidableEq, Repr

/-- State of a group record in use, and the final states a GRPGONE carries (R37, R39). -/
inductive GroupState where
  | planned | firing | ready | served | cancelled | abandoned
  deriving DecidableEq, Repr

/-- Kind of an item (R15). -/
inductive ItemKind where
  | plated | standing
  deriving DecidableEq, Repr

/-- State of a ticket record (R80, R83). -/
inductive TicketState where
  | queued | due | sent | posted | cooking | done | voiding
  deriving DecidableEq, Repr

/-- Kind of a ticket (R80). -/
inductive TicketKind where
  | normal | rush | standing
  deriving DecidableEq, Repr

/-- Mode of a station (R103). -/
inductive Mode where
  | off | warming | ready | paused | draining | halted
  deriving DecidableEq, Repr

/-- Cause of an STNMODE report (R114). -/
inductive ModeCause where
  | stnon | stnoff | pause | pauseall | resume | resumeall | halt | fault | clear | warm | drain | close
  deriving DecidableEq, Repr

/-- Kind of a terminal (R27). -/
inductive TermKind where
  | station | pass
  deriving DecidableEq, Repr

/-- State of a terminal (R131). -/
inductive TermState where
  | unknown | live | lost
  deriving DecidableEq, Repr

/-- State carried by a NOTE (R123, R146). -/
inductive NoteState where
  | ready | dying | gone
  deriving DecidableEq, Repr

/-- Display state of a group at the pass, where it has one (R142). -/
inductive Display where
  | ready | dying
  deriving DecidableEq, Repr

/-- Cause of an ITEM86 report (R35). -/
inductive Item86Cause where
  | commit | stock | define
  deriving DecidableEq, Repr

/-- Mark of a taken definition request (R19). -/
inductive DefMark where
  | new | replaced
  deriving DecidableEq, Repr

/-- Reasons of an INCOMPLETE reply (R6). -/
inductive Incomplete where
  | noStation | itemStn
  deriving DecidableEq, Repr

/-- Field codes of a BADFIELD reply (R177). -/
inductive FieldCode where
  | number | name | course | kind | lines | station | cook | batch | rest | hold | runsize | reorder | lookahead | subst
  | subof | platebase | tol | slots | advance | step | warmup | grace | load | primary | fallback | address | sect
  | covers | item | count | sum | length
  deriving DecidableEq, Repr

/-- The request kinds of R179, in the table's order. -/
inductive ReqKind where
  | start | close | restart | clrcfg | defitem | defcrs | defstn | defterm | stock | rebind | submit | amend | retime | hold
  | cancel | pickup | refire | stnon | stnoff | pause | pauseall | resume | resumeall | halt | clear | qgroup | qstn | qitem
  | qterm | qstat
  deriving DecidableEq, Repr

/-! ### Definitions: menu, courses, stations (R15 to R26) -/

/-- The stock of an item (R30). -/
inductive Stock where
  | limited (portions : Nat)
  | unlimited
  deriving DecidableEq, Repr

/-- A component line of an item (R16): station, C, B, R and H. -/
structure Component where
  station : Nat
  cook : Nat
  batch : Nat
  rest : Nat
  hold : Nat
  deriving DecidableEq, Repr

/-- An item record (R15) with its standing pool (R18, R142), which is 0 for a PLATED item. -/
structure Item where
  number : Nat
  name : List Byte
  course : Nat
  kind : ItemKind
  lines : List Component
  subst : Option Nat
  stock : Stock
  exhausted : Bool
  runSize : Nat
  reorder : Nat
  lookahead : Nat
  pool : Nat
  deriving DecidableEq, Repr

/-- A course record (R22): Dbase, Pc and Tol. -/
structure Course where
  number : Nat
  base : Nat
  perCover : Nat
  tol : Nat
  deriving DecidableEq, Repr

/-- The fields of a station that DEFSTN gives (R23): S, A, L, W, G, the load table, primary and fallback. -/
structure StationDef where
  slots : Nat
  advance : Nat
  step : Nat
  warmup : Nat
  grace : Nat
  load : List Nat
  primary : Nat
  fallback : Option Nat
  deriving DecidableEq, Repr

/-- A station: its definition, and beside it the mode and countdown (R103), the current terminal (R132) and the staged
mark, which names the staged ticket (R90). Its queue is the ordered view of the ticket pool that R85 gives. -/
structure Station where
  number : Nat
  defn : StationDef
  mode : Mode
  countdown : Nat
  current : Option Nat
  staged : Option Nat
  deriving DecidableEq, Repr

/-! ### Groups and tickets (R37, R38, R80) -/

/-- The five flags of a group (R40). -/
structure Flags where
  held : Bool
  late : Bool
  stretched : Bool
  short : Bool
  dying : Bool
  deriving DecidableEq, Repr

/-- An item line of a group (R38). -/
structure Line where
  item : Nat
  subFrom : Option Nat
  count : Nat
  shortfall : Nat
  drawn : Bool
  deriving DecidableEq, Repr

/-- A group record in use (R37), with the life end and display state the Pass Unit holds for it (R142). -/
structure Group where
  number : Nat
  tag : Nat
  sect : Nat
  course : Nat
  covers : Nat
  target : Nat
  lead : Nat
  state : GroupState
  flags : Flags
  proj : Int
  lines : List Line
  lifeEnd : Option Int
  display : Option Display
  deriving DecidableEq, Repr

/-- A ticket record in use (R80). Its staged mark is the station's (R90). Group 0 is a standing run's. -/
structure Ticket where
  number : Nat
  station : Nat
  group : Nat
  item : Nat
  comp : Nat
  subFrom : Option Nat
  portions : Nat
  kind : TicketKind
  release : Nat
  due : Int
  ceff : Nat
  advance : Nat
  state : TicketState
  overdue : Bool
  reprint : Bool
  postedAt : Option Nat
  startAt : Option Nat
  doneAt : Option Nat
  deriving DecidableEq, Repr

/-! ### The station bus (R118 to R141) -/

/-- A pending POST or VOID: the ticket and its station. -/
structure Slip where
  station : Nat
  ticket : Nat
  deriving DecidableEq, Repr

/-- A NOTE, and an entry of a shown record (R139), which keeps the section too (DESIGN CHOICE, entry 24). -/
structure Note where
  group : Nat
  sect : Nat
  state : NoteState
  deriving DecidableEq, Repr

/-- A defined terminal (R27) with its receipt mark (R126), pending frames (R127) and, for a PASS terminal, its NOTE list and
shown record (R139). POSTs, VOIDs and NOTEs stand oldest first; marks and RAILCLRs are station numbers. -/
structure Terminal where
  address : Nat
  kind : TermKind
  state : TermState
  misses : Nat
  receipt : Bool
  posts : List Slip
  voids : List Slip
  nextMarks : List Nat
  modeMarks : List Nat
  railclrs : List Nat
  notes : List Note
  shown : List Note
  deriving DecidableEq, Repr

/-- A frame of a turn, with the contents fixed when the turn begins (R121, R123). -/
inductive BusFrame where
  | poll
  | post (station ticket : Nat) (name : List Byte) (portions : Nat) (kind : TicketKind) (reprint : Bool) (due : Int)
  | void (station ticket : Nat)
  | next (station ticket : Nat)
  | mode (station : Nat) (mode : Mode)
  | railclr (station : Nat)
  | note (note : Note)
  deriving DecidableEq, Repr

/-- The turn under way: its frame is sent and its reply window is open (R120). `stale`: the ticket of its POST or VOID has been
freed (R127), or the broadcast mark was set during a NOTE (R139). `renewed`: a NOTE of the same group was handed over during
it (R139). `orphan`: CLRCFG removed the terminal addressed (R120). -/
structure Turn where
  address : Nat
  receipt : Bool
  frame : BusFrame
  stale : Bool
  renewed : Bool
  orphan : Bool
  deriving DecidableEq, Repr

/-- A valid reply of a terminal (R124). -/
inductive BusReply where
  | ack
  | start (station ticket : Nat)
  | bump (station ticket : Nat)
  | taken (group : Nat)
  | wait
  | fault
  | hello
  deriving DecidableEq, Repr

/-! ### Reports (R174) -/

/-- What a report carries besides the clock (R181). -/
inductive ReportBody where
  | started
  | evstate (state : EventState) (cause : EventCause)
  | grpready (group tag : Nat) (proj : Int) (target : Nat) (flags : Flags)
  | grplate (group tag : Nat) (proj : Int) (target : Nat) (late : Bool)
  | grpstretch (group tag item comp held hold : Nat)
  | grpshort (group tag item : Nat) (subFrom : Option Nat) (count shortfall : Nat)
  | grpdying (group tag : Nat) (lifeEnd : Int) (item comp : Nat) (state : GroupState)
  | grpgone (group tag : Nat) (final : GroupState)
  | tkover (ticket station group tag item comp start ceff : Nat)
  | stnmode (station : Nat) (mode : Mode) (cause : ModeCause) (terminal : Nat)
  | termstate (address : Nat) (kind : TermKind) (left entered : TermState)
  | item86 (item : Nat) (cause : Item86Cause)
  | gap (discards : Nat)
  deriving DecidableEq, Repr

/-- A report, with the service clock when it was raised. -/
structure Report where
  clock : Nat
  body : ReportBody
  deriving DecidableEq, Repr

/-! ### Replies (R169, R179) -/

/-- A request line's outcome in a SUBMIT reply (R44). -/
structure SubmitLine where
  committed : Nat
  sub : Nat
  moved : Nat
  shortfall : Nat
  deriving DecidableEq, Repr

/-- A changed line in an AMEND reply (R48). -/
structure AmendLine where
  item : Nat
  subFrom : Option Nat
  count : Nat
  committed : Nat
  sub : Nat
  moved : Nat
  shortfall : Nat
  deriving DecidableEq, Repr

/-- A component's portions by ticket state in a QGROUP reply (R61). -/
structure CompPortions where
  waiting : Nat
  dispatched : Nat
  done : Nat
  voiding : Nat
  deriving DecidableEq, Repr

/-- A line in a QGROUP reply (R61, R180). -/
structure LineView where
  line : Line
  comps : List CompPortions
  deriving DecidableEq, Repr

/-- A QGROUP reply (R61, R180). -/
structure GroupView where
  group : Group
  tickets : Nat
  first : Nat
  lines : List LineView
  deriving DecidableEq, Repr

/-- The Dispatch Unit's counts of a station's tickets by state (R102). -/
structure QueueCounts where
  queued : Nat
  due : Nat
  sent : Nat
  posted : Nat
  cooking : Nat
  voiding : Nat
  deriving DecidableEq, Repr

/-- A QSTN reply (R117, R102). -/
structure StationView where
  station : Station
  currentState : Option TermState
  held : Nat
  counts : QueueCounts
  head : List Ticket
  deriving DecidableEq, Repr

/-- A QTERM reply (R141). -/
structure TerminalView where
  terminal : Terminal
  primaryOf : Nat
  fallbackOf : List Nat
  currentFor : List Nat
  deriving DecidableEq, Repr

/-- A QSTAT reply (R170). -/
structure PartView where
  event : EventState
  clock : Nat
  groups : Nat
  freeTickets : Nat
  reports : Nat
  gap : Bool
  deriving DecidableEq, Repr

/-- The body of an OK reply (R179). -/
inductive OkBody where
  | empty
  | defined (number : Nat) (mark : DefMark)
  | stockSet (item : Nat) (stock : Stock) (exhausted : Bool)
  | rebound (station primary : Nat) (fallback current : Option Nat)
  | submitted (group : Nat) (flags : Flags) (proj : Int) (lines : List SubmitLine)
  | amended (flags : Flags) (proj : Int) (lines : List AmendLine)
  | timed (flags : Flags) (proj : Int)
  | cancelled (voiding : Nat)
  | served (group tag : Nat)
  | refired (flags : Flags) (proj : Int) (comps : List (Nat × Nat)) (lost : Nat)
  | modeSet (station : Nat) (mode : Mode)
  | modesSet (changed : Nat)
  | group (view : GroupView)
  | station (view : StationView)
  | item (item : Item) (inRuns : Nat)
  | terminal (view : TerminalView)
  | part (view : PartView)
  deriving DecidableEq, Repr

/-- The status of a reply and the body the status calls for (R169). -/
inductive Answer where
  | ok (body : OkBody)
  | badKind
  | badField (code : FieldCode) (index : Nat)
  | badState
  | noSuch
  | full
  | inFire
  | busy
  | groups
  | incomplete (reason : Incomplete) (station item : Nat)
  deriving DecidableEq, Repr

/-- A reply: the sequence byte and kind of the frame answered, as received (R167, R177), and the answer. -/
structure Reply where
  seq : Byte
  kind : Byte
  answer : Answer
  deriving DecidableEq, Repr

/-! ### The host port (R161 to R175) -/

/-- A checked host frame (R162, R166). -/
structure Frame where
  kind : Byte
  seq : Byte
  body : List Byte
  deriving DecidableEq, Repr

/-- The receiver's step and the bytes of the frame under way (R163). `content` holds kind, sequence and body. -/
inductive Rx where
  | hunt
  | length (high : Option Byte)
  | content (high low : Byte) (kept : List Byte)
  | check (high low : Byte) (kept : List Byte) (crcHigh : Option Byte)
  deriving DecidableEq, Repr

/-- The frame the transmitter is sending (R171). -/
inductive Sending where
  | reply (reply : Reply)
  | report (report : Report)
  deriving DecidableEq, Repr

/-- The Host Port: receiver, intake, reply path, report queue with gap mark and discard count, transmitter; and the mark that a
RESTART acted on has its clearing still to come (R11, R166). -/
structure HostPort where
  rx : Rx
  intake : List Frame
  replyPath : List Reply
  reports : List Report
  gap : Bool
  discards : Nat
  tx : Option Sending
  restartOwed : Bool
  deriving DecidableEq, Repr

/-! ### The rest of the part -/

/-- What the owners have still to act on at the present second (R5: separate events, in no order among themselves): stations
whose countdown has reached 0, stations with tickets reaching release, stations with tickets reaching their overdue time,
groups to test for readiness, groups reaching their life end, and the clock limit. -/
structure Owed where
  warm : List Nat
  release : List Nat
  overdue : List Nat
  plating : List Nat
  life : List Nat
  limit : Bool
  deriving DecidableEq, Repr

/-- All blocks of the part but the Host Port: event state, service clock and device second count; the four definition tables;
the group table, ticket pool and ticket-number counter; the draw order; the turn under way, the broadcast mark, the address
last given a turn, and the characters of the last frame driven on the pair. -/
structure Kitchen where
  event : EventState
  clock : Nat
  seconds : Nat
  owed : Owed
  items : List Item
  courses : List Course
  stations : List Station
  terminals : List Terminal
  groups : List Group
  tickets : List Ticket
  nextTicket : Nat
  drawOrder : List Nat
  turn : Option Turn
  broadcast : Bool
  lastTurn : Nat
  busLine : List BusChar
  deriving DecidableEq, Repr

/-- The kitchen in the course of one step, with the reports the step has raised so far, oldest first. -/
structure Work extends Kitchen where
  out : List Report
  deriving DecidableEq, Repr

/-- The state of the part: the kitchen's blocks, the Host Port, the level of RESETN, and the commands waiting. -/
structure State where
  kit : Kitchen
  host : HostPort
  resetLow : Bool
  pending : List Instr
  deriving DecidableEq, Repr

/-- No owner has anything to act on. -/
def Owed.none : Owed := ⟨[], [], [], [], [], false⟩

/-- The kitchen at power-on (R14). -/
def Kitchen.powerOn : Kitchen where
  event := .setup
  clock := 0
  seconds := 0
  owed := Owed.none
  items := []
  courses := []
  stations := []
  terminals := []
  groups := []
  tickets := []
  nextTicket := 1
  drawOrder := []
  turn := none
  broadcast := false
  lastTurn := 0
  busLine := []

/-- The Host Port at power-on: STARTED waits in the report queue (R14, R172, R175). -/
def HostPort.powerOn : HostPort where
  rx := .hunt
  intake := []
  replyPath := []
  reports := [⟨0, .started⟩]
  gap := false
  discards := 0
  tx := none
  restartOwed := false

/-- The part when RESETN has gone high (R14), with no command waiting. -/
def State.reset : State where
  kit := Kitchen.powerOn
  host := HostPort.powerOn
  resetLow := false
  pending := []

/-- The part stops with no fault: every command leaves it in a state the spec gives. -/
inductive Fault where
  deriving DecidableEq, Repr

/-- Why a command has no meaning. -/
inductive Refusal where
  /-- A command whose meaning is not written yet, by its mnemonic; raised by exec's arm only. Safe: no next state is claimed. -/
  | notModelled (mnemonic : String)
  deriving DecidableEq, Repr

end Sys2Proof.Machine
end

