-- ==== Sys2Proof/Machine/Operands.lean ====
section
/-! DEFINITION. Every form in which the part receives fields: the request kinds and bodies of the host line (R176, R179), and the
replies of the station bus (R119, R182), with the forms a host and a terminal send them in. -/

namespace Sys2Proof.Machine

/-! ### Fields (R176): unsigned, high byte first -/

def u8 (b : List Byte) (i : Nat) : Nat := (b.getD i 0).toNat
def u16 (b : List Byte) (i : Nat) : Nat := u8 b i * 256 + u8 b (i + 1)
def u32 (b : List Byte) (i : Nat) : Nat := u16 b i * 65536 + u16 b (i + 2)

/-- A field of n bytes, high byte first. -/
def be1 (v : Nat) : List Byte := [BitVec.ofNat 8 v]
def be2 (v : Nat) : List Byte := [BitVec.ofNat 8 (v / 256), BitVec.ofNat 8 v]
def be4 (v : Nat) : List Byte := be2 (v / 65536) ++ be2 v

/-- A 4-byte field in two's complement (R176). -/
def signed4 (v : Int) : List Byte := be4 (BitVec.ofInt 32 v).toNat

/-- A field in which 0 means absent (R176). -/
def present (n : Nat) : Option Nat := if n = 0 then none else some n

/-- A stock field: 65,535 means unlimited (R176). -/
def stockField (n : Nat) : Stock := if n = 65535 then .unlimited else .limited n

/-! ### Request kinds (R179) -/

def ReqKind.code : ReqKind → Byte
  | .start => 0x01 | .close => 0x02 | .restart => 0x03 | .clrcfg => 0x04
  | .defitem => 0x10 | .defcrs => 0x11 | .defstn => 0x12 | .defterm => 0x13 | .stock => 0x14 | .rebind => 0x15
  | .submit => 0x20 | .amend => 0x21 | .retime => 0x22 | .hold => 0x23 | .cancel => 0x24 | .pickup => 0x25 | .refire => 0x26
  | .stnon => 0x30 | .stnoff => 0x31 | .pause => 0x32 | .pauseall => 0x33 | .resume => 0x34 | .resumeall => 0x35
  | .halt => 0x36 | .clear => 0x37
  | .qgroup => 0x40 | .qstn => 0x41 | .qitem => 0x42 | .qterm => 0x43 | .qstat => 0x44

/-- The request kinds in the order of R179. -/
def allKinds : List ReqKind :=
  [.start, .close, .restart, .clrcfg, .defitem, .defcrs, .defstn, .defterm, .stock, .rebind, .submit, .amend, .retime, .hold,
   .cancel, .pickup, .refire, .stnon, .stnoff, .pause, .pauseall, .resume, .resumeall, .halt, .clear, .qgroup, .qstn, .qitem,
   .qterm, .qstat]

/-- The request kind of a kind byte, none where it is not a request kind (R167). -/
def kindOf (b : Byte) : Option ReqKind := allKinds.find? fun k => k.code == b

/-- The body length a kind requires; for DEFITEM and SUBMIT it follows from the line count the body carries (R167, R179). -/
def bodyLength (k : ReqKind) (b : List Byte) : Nat :=
  match k with
  | .start | .close | .restart | .clrcfg | .pauseall | .resumeall | .qstat => 0
  | .defitem => 28 + 8 * u8 b 27
  | .defcrs => 6
  | .defstn => 16
  | .defterm => 2
  | .stock => 3
  | .rebind => 3
  | .submit => 11 + 3 * u8 b 10
  | .amend => 6
  | .retime => 4
  | .hold | .cancel | .pickup => 2
  | .refire => 3
  | .stnon | .stnoff | .pause | .resume | .halt | .clear | .qstn | .qitem | .qterm => 1
  | .qgroup => 3

/-! ### Requests as the owning blocks receive them -/

/-- The fields of a DEFITEM, unchecked (R20). -/
structure ItemReq where
  number : Nat
  name : List Byte
  course : Nat
  kind : Nat
  subst : Nat
  stock : Nat
  runSize : Nat
  reorder : Nat
  lookahead : Nat
  lines : List Component
  deriving DecidableEq, Repr

/-- The fields of a DEFSTN, unchecked (R26). -/
structure StationReq where
  number : Nat
  slots : Nat
  advance : Nat
  step : Nat
  warmup : Nat
  grace : Nat
  load : List Nat
  primary : Nat
  fallback : Nat
  deriving DecidableEq, Repr

/-- A line of a SUBMIT: item and count (R41). -/
structure OrderLine where
  item : Nat
  count : Nat
  deriving DecidableEq, Repr

/-- The fields of a SUBMIT, unchecked (R41). -/
structure SubmitReq where
  tag : Nat
  sect : Nat
  course : Nat
  covers : Nat
  target : Nat
  lines : List OrderLine
  deriving DecidableEq, Repr

/-- A request with its fields, whatever values their bytes hold (R176). -/
inductive Request where
  | start | close | restart | clrcfg
  | defitem (r : ItemReq)
  | defcrs (number base perCover tol : Nat)
  | defstn (r : StationReq)
  | defterm (address kind : Nat)
  | stock (item stock : Nat)
  | rebind (station primary fallback : Nat)
  | submit (r : SubmitReq)
  | amend (group item subFrom count : Nat)
  | retime (group target : Nat)
  | hold (group : Nat)
  | cancel (group : Nat)
  | pickup (group : Nat)
  | refire (group item : Nat)
  | stnon (station : Nat)
  | stnoff (station : Nat)
  | pause (station : Nat)
  | pauseall
  | resume (station : Nat)
  | resumeall
  | halt (station : Nat)
  | clear (station : Nat)
  | qgroup (group first : Nat)
  | qstn (station : Nat)
  | qitem (item : Nat)
  | qterm (address : Nat)
  | qstat
  deriving DecidableEq, Repr

/-- The component line at an offset of a DEFITEM body (R179). -/
def componentAt (b : List Byte) (i : Nat) : Component := ⟨u8 b i, u16 b (i + 1), u8 b (i + 3), u16 b (i + 4), u16 b (i + 6)⟩

/-- Reads the fields of a body of the right length (R179). -/
def readRequest (k : ReqKind) (b : List Byte) : Request :=
  match k with
  | .start => .start
  | .close => .close
  | .restart => .restart
  | .clrcfg => .clrcfg
  | .defitem =>
    .defitem
      { number := u8 b 0, name := (b.drop 1).take 16, course := u8 b 17, kind := u8 b 18, subst := u8 b 19, stock := u16 b 20,
        runSize := u8 b 22, reorder := u16 b 23, lookahead := u16 b 25,
        lines := (List.range (u8 b 27)).map fun j => componentAt b (28 + 8 * j) }
  | .defcrs => .defcrs (u8 b 0) (u16 b 1) (u8 b 3) (u16 b 4)
  | .defstn =>
    .defstn
      { number := u8 b 0, slots := u8 b 1, advance := u16 b 2, step := u16 b 4, warmup := u16 b 6, grace := u16 b 8,
        load := [u8 b 10, u8 b 11, u8 b 12, u8 b 13], primary := u8 b 14, fallback := u8 b 15 }
  | .defterm => .defterm (u8 b 0) (u8 b 1)
  | .stock => .stock (u8 b 0) (u16 b 1)
  | .rebind => .rebind (u8 b 0) (u8 b 1) (u8 b 2)
  | .submit =>
    .submit
      { tag := u32 b 0, sect := u8 b 4, course := u8 b 5, covers := u16 b 6, target := u16 b 8,
        lines := (List.range (u8 b 10)).map fun j => ⟨u8 b (11 + 3 * j), u16 b (12 + 3 * j)⟩ }
  | .amend => .amend (u16 b 0) (u8 b 2) (u8 b 3) (u16 b 4)
  | .retime => .retime (u16 b 0) (u16 b 2)
  | .hold => .hold (u16 b 0)
  | .cancel => .cancel (u16 b 0)
  | .pickup => .pickup (u16 b 0)
  | .refire => .refire (u16 b 0) (u8 b 2)
  | .stnon => .stnon (u8 b 0)
  | .stnoff => .stnoff (u8 b 0)
  | .pause => .pause (u8 b 0)
  | .pauseall => .pauseall
  | .resume => .resume (u8 b 0)
  | .resumeall => .resumeall
  | .halt => .halt (u8 b 0)
  | .clear => .clear (u8 b 0)
  | .qgroup => .qgroup (u16 b 0) (u8 b 2)
  | .qstn => .qstn (u8 b 0)
  | .qitem => .qitem (u8 b 0)
  | .qterm => .qterm (u8 b 0)
  | .qstat => .qstat

/-- The request of a kind byte and body: none of BADKIND, of the wrong length, or the request (R167). -/
inductive Parsed where
  | badKind
  | badLength
  | request (k : ReqKind) (r : Request)
  deriving DecidableEq, Repr

def parseRequest (kind : Byte) (body : List Byte) : Parsed :=
  match kindOf kind with
  | none => .badKind
  | some k => if body.length = bodyLength k body then .request k (readRequest k body) else .badLength

/-! ### Requests as the host sends them (R179) -/

def Request.kind : Request → ReqKind
  | .start => .start | .close => .close | .restart => .restart | .clrcfg => .clrcfg
  | .defitem _ => .defitem | .defcrs _ _ _ _ => .defcrs | .defstn _ => .defstn | .defterm _ _ => .defterm
  | .stock _ _ => .stock | .rebind _ _ _ => .rebind
  | .submit _ => .submit | .amend _ _ _ _ => .amend | .retime _ _ => .retime | .hold _ => .hold | .cancel _ => .cancel
  | .pickup _ => .pickup | .refire _ _ => .refire
  | .stnon _ => .stnon | .stnoff _ => .stnoff | .pause _ => .pause | .pauseall => .pauseall | .resume _ => .resume
  | .resumeall => .resumeall | .halt _ => .halt | .clear _ => .clear
  | .qgroup _ _ => .qgroup | .qstn _ => .qstn | .qitem _ => .qitem | .qterm _ => .qterm | .qstat => .qstat

def componentBytes (c : Component) : List Byte := be1 c.station ++ be2 c.cook ++ be1 c.batch ++ be2 c.rest ++ be2 c.hold

/-- The request body of R179. -/
def Request.body : Request → List Byte
  | .start | .close | .restart | .clrcfg | .pauseall | .resumeall | .qstat => []
  | .defitem r =>
    be1 r.number ++ r.name ++ be1 r.course ++ be1 r.kind ++ be1 r.subst ++ be2 r.stock ++ be1 r.runSize ++ be2 r.reorder ++
      be2 r.lookahead ++ be1 r.lines.length ++ r.lines.flatMap componentBytes
  | .defcrs n base pc tol => be1 n ++ be2 base ++ be1 pc ++ be2 tol
  | .defstn r =>
    be1 r.number ++ be1 r.slots ++ be2 r.advance ++ be2 r.step ++ be2 r.warmup ++ be2 r.grace ++ r.load.flatMap be1 ++
      be1 r.primary ++ be1 r.fallback
  | .defterm a k => be1 a ++ be1 k
  | .stock i s => be1 i ++ be2 s
  | .rebind st p f => be1 st ++ be1 p ++ be1 f
  | .submit r =>
    be4 r.tag ++ be1 r.sect ++ be1 r.course ++ be2 r.covers ++ be2 r.target ++ be1 r.lines.length ++
      r.lines.flatMap fun l => be1 l.item ++ be2 l.count
  | .amend g i sf c => be2 g ++ be1 i ++ be1 sf ++ be2 c
  | .retime g t => be2 g ++ be2 t
  | .hold g | .cancel g | .pickup g => be2 g
  | .refire g i => be2 g ++ be1 i
  | .stnon n | .stnoff n | .pause n | .resume n | .halt n | .clear n | .qstn n | .qitem n | .qterm n => be1 n
  | .qgroup g f => be2 g ++ be1 f

def byteField (n : Nat) : Bool := n < 256
def wordField (n : Nat) : Bool := n < 65536

def Component.fits (c : Component) : Bool :=
  byteField c.station && wordField c.cook && byteField c.batch && wordField c.rest && wordField c.hold

/-- Every field is a value its bytes can hold, and a name or a load table has its size (R176, R179). -/
def Request.fits : Request → Bool
  | .start | .close | .restart | .clrcfg | .pauseall | .resumeall | .qstat => true
  | .defitem r =>
    byteField r.number && r.name.length == 16 && byteField r.course && byteField r.kind && byteField r.subst &&
      wordField r.stock && byteField r.runSize && wordField r.reorder && wordField r.lookahead &&
      byteField r.lines.length && r.lines.all Component.fits
  | .defcrs n base pc tol => byteField n && wordField base && byteField pc && wordField tol
  | .defstn r =>
    byteField r.number && byteField r.slots && wordField r.advance && wordField r.step && wordField r.warmup &&
      wordField r.grace && r.load.length == 4 && r.load.all byteField && byteField r.primary && byteField r.fallback
  | .defterm a k => byteField a && byteField k
  | .stock i s => byteField i && wordField s
  | .rebind st p f => byteField st && byteField p && byteField f
  | .submit r =>
    r.tag < 4294967296 && byteField r.sect && byteField r.course && wordField r.covers && wordField r.target &&
      byteField r.lines.length && r.lines.all fun l => byteField l.item && wordField l.count
  | .amend g i sf c => wordField g && byteField i && byteField sf && wordField c
  | .retime g t => wordField g && wordField t
  | .hold g | .cancel g | .pickup g => wordField g
  | .refire g i => wordField g && byteField i
  | .stnon n | .stnoff n | .pause n | .resume n | .halt n | .clear n | .qstn n | .qitem n | .qterm n => byteField n
  | .qgroup g f => wordField g && byteField f

/-! ### Replies of the station bus (R119, R182, R183) -/

/-- The check byte: 256 less the sum modulo 256, or 0 when the sum is 0 (R183). -/
def checkByte (bs : List Byte) : Byte := 0 - bs.foldl (· + ·) 0

/-- The body length of a reply kind, none where the kind is not a reply kind (R182). -/
def replyBodyLength (kind : Byte) : Option Nat :=
  if kind = 0x42 ∨ kind = 0x43 ∨ kind = 0x44 then some 2
  else if kind = 0x41 ∨ kind = 0x45 ∨ kind = 0x46 ∨ kind = 0x47 then some 0
  else none

/-- The reply of a kind, station character and body (R124, R182). -/
def readReply (kind station : Byte) (body : List Byte) : BusReply :=
  if kind = 0x42 then .start station.toNat (u16 body 0)
  else if kind = 0x43 then .bump station.toNat (u16 body 0)
  else if kind = 0x44 then .taken (u16 body 0)
  else if kind = 0x45 then .wait
  else if kind = 0x46 then .fault
  else if kind = 0x47 then .hello
  else .ack

/-- The judgement of the characters received in a reply window (R119). `incomplete`: nothing is wrong yet and more is to come. -/
inductive Verdict where
  | valid (r : BusReply)
  | bad
  | incomplete
  deriving DecidableEq, Repr

/-- Judges the characters received from the terminal addressed (R119): the address and its mark, the kind, the marks, the length
and the check byte. Characters after a reply received whole are discarded. -/
def judgeReply (address : Nat) (cs : List BusChar) : Verdict :=
  match cs with
  | [] => .incomplete
  | a :: rest =>
    if a.mark || a.data.toNat ≠ address then .bad
    else
      match rest with
      | [] => .incomplete
      | k :: rest =>
        match replyBodyLength k.data with
        | none => .bad
        | some n =>
          let tail := rest.take (n + 2)
          if k.mark || tail.any BusChar.mark then .bad
          else if tail.length < n + 2 then .incomplete
          else
            let bytes := tail.map BusChar.data
            if (k.data :: bytes).foldl (· + ·) 0 = 0 then
              .valid (readReply k.data (bytes.getD 0 0) ((bytes.drop 1).take n))
            else .bad

/-- Kind, station character and body of a reply as a terminal sends it (R124, R182). -/
def BusReply.parts : BusReply → Byte × Byte × List Byte
  | .ack => (0x41, 0, [])
  | .start st n => (0x42, BitVec.ofNat 8 st, be2 n)
  | .bump st n => (0x43, BitVec.ofNat 8 st, be2 n)
  | .taken g => (0x44, 0, be2 g)
  | .wait => (0x45, 0, [])
  | .fault => (0x46, 0, [])
  | .hello => (0x47, 0, [])

/-- The characters of a reply: every address mark clear, the check byte last (R118, R182). -/
def BusReply.chars (address : Nat) (r : BusReply) : List BusChar :=
  let bytes := r.parts.1 :: r.parts.2.1 :: r.parts.2.2
  (BitVec.ofNat 8 address :: bytes ++ [checkByte bytes]).map fun b => ⟨b, false⟩

end Sys2Proof.Machine
end

