-- ==== Sys2Proof/Machine/Ops.lean ====
section
/-! DEFINITION. The named operations over the part's tables: look-up, update, raising a report, and the pending frames of
the terminals. -/

namespace Sys2Proof.Machine

/-! ### Tables -/

/-- The entry of a table with the given number. -/
def entryOf {α : Type} (key : α → Nat) (n : Nat) (l : List α) : Option α := l.find? fun x => key x == n

/-- Enters x in an ascending table, in the place of an entry with the same number. -/
def insertEntry {α : Type} (key : α → Nat) (x : α) : List α → List α
  | [] => [x]
  | y :: rest => if key x < key y then x :: y :: rest else if key x = key y then x :: rest else y :: insertEntry key x rest

/-- Changes the entry with the given number, where there is one. -/
def updateEntry {α : Type} (key : α → Nat) (n : Nat) (f : α → α) (l : List α) : List α :=
  l.map fun x => if key x = n then f x else x

/-- An ascending set of numbers with n in it. -/
def addNumber (n : Nat) (l : List Nat) : List Nat := insertEntry id n l

/-- A set of numbers without n. -/
def dropNumber (n : Nat) (l : List Nat) : List Nat := l.filter (· != n)

def findItem (k : Kitchen) (n : Nat) : Option Item := entryOf Item.number n k.items
def findCourse (k : Kitchen) (n : Nat) : Option Course := entryOf Course.number n k.courses
def findStation (k : Kitchen) (n : Nat) : Option Station := entryOf Station.number n k.stations
def findTerminal (k : Kitchen) (n : Nat) : Option Terminal := entryOf Terminal.address n k.terminals
def findGroup (k : Kitchen) (n : Nat) : Option Group := entryOf Group.number n k.groups
def findTicket (k : Kitchen) (n : Nat) : Option Ticket := entryOf Ticket.number n k.tickets

def setItem (n : Nat) (f : Item → Item) (w : Work) : Work := { w with items := updateEntry Item.number n f w.items }
def setStation (n : Nat) (f : Station → Station) (w : Work) : Work :=
  { w with stations := updateEntry Station.number n f w.stations }
def setTerminal (n : Nat) (f : Terminal → Terminal) (w : Work) : Work :=
  { w with terminals := updateEntry Terminal.address n f w.terminals }
def setGroup (n : Nat) (f : Group → Group) (w : Work) : Work := { w with groups := updateEntry Group.number n f w.groups }
def setTicket (n : Nat) (f : Ticket → Ticket) (w : Work) : Work :=
  { w with tickets := updateEntry Ticket.number n f w.tickets }

/-- Does f for each of the numbers, in order. -/
def forEach (f : Nat → Work → Work) (ns : List Nat) (w : Work) : Work := ns.foldl (fun w n => f n w) w

/-- Raises a report: whole when raised, with the service clock it then has (R172). -/
def raise (b : ReportBody) (w : Work) : Work := { w with out := w.out ++ [⟨w.clock, b⟩] }

/-- Ticket records in use plus free records total 2,048 (R81). -/
def freeRecords (k : Kitchen) : Nat := Config.poolRecords - k.tickets.length

/-! ### What a ticket is -/

/-- A ticket holds a slot while SENT, POSTED, COOKING or VOIDING (R83). -/
def holdsSlot (t : Ticket) : Bool :=
  t.state == .sent || t.state == .posted || t.state == .cooking || t.state == .voiding

/-- The tickets on a rail are those SENT, POSTED and COOKING (R83). -/
def onRail (t : Ticket) : Bool := t.state == .sent || t.state == .posted || t.state == .cooking

/-- A dispatched ticket is SENT, POSTED, COOKING or DONE (R45). -/
def dispatched (t : Ticket) : Bool := onRail t || t.state == .done

/-- An undispatched ticket is QUEUED or DUE (R45). -/
def undispatched (t : Ticket) : Bool := t.state == .queued || t.state == .due

/-- A live plated ticket of a group: NORMAL or RUSH, not VOIDING (R143). -/
def livePlated (g : Nat) (t : Ticket) : Bool := t.group == g && t.kind != .standing && t.state != .voiding

/-- A ticket of one component of one line of a group (R38). -/
def ofComponent (g item : Nat) (sf : Option Nat) (c : Nat) (t : Ticket) : Bool :=
  t.group == g && t.item == item && t.subFrom == sf && t.comp == c && t.kind != .standing

/-- The portions in the tickets that p picks out. -/
def portionsOf (k : Kitchen) (p : Ticket → Bool) : Nat := ((k.tickets.filter p).map Ticket.portions).sum

/-- The component line of an item, by index. -/
def componentOf (k : Kitchen) (item c : Nat) : Option Component :=
  match findItem k item with
  | some i => i.lines[c]?
  | none => none

/-- Slots of a station that are held (R88). -/
def slotsHeld (k : Kitchen) (st : Nat) : Nat := (k.tickets.filter fun t => t.station == st && holdsSlot t).length

/-! ### Pending frames of a terminal (R127) -/

/-- At most one POST per ticket: one already pending stays in its place (R128). -/
def pendPost (st n : Nat) (t : Terminal) : Terminal :=
  if t.posts.any (fun p => p.ticket == n) then t else { t with posts := t.posts ++ [⟨st, n⟩] }

def pendVoid (st n : Nat) (t : Terminal) : Terminal :=
  if t.voids.any (fun p => p.ticket == n) then t else { t with voids := t.voids ++ [⟨st, n⟩] }

def unpendPost (n : Nat) (t : Terminal) : Terminal := { t with posts := t.posts.filter fun p => p.ticket != n }
def unpendVoid (n : Nat) (t : Terminal) : Terminal := { t with voids := t.voids.filter fun p => p.ticket != n }
def markNext (st : Nat) (t : Terminal) : Terminal := { t with nextMarks := addNumber st t.nextMarks }
def markMode (st : Nat) (t : Terminal) : Terminal := { t with modeMarks := addNumber st t.modeMarks }
def pendRailclr (st : Nat) (t : Terminal) : Terminal := { t with railclrs := addNumber st t.railclrs }

/-- What a terminal that ceases to be a station's current terminal loses and gets (R132, R138). -/
def loseStation (st : Nat) (t : Terminal) : Terminal :=
  pendRailclr st
    { t with
      posts := t.posts.filter fun p => p.station != st
      voids := t.voids.filter fun p => p.station != st
      nextMarks := dropNumber st t.nextMarks
      modeMarks := dropNumber st t.modeMarks }

/-- Acts on the current terminal of a station; a hand-over for a station with none makes nothing pending (R127). -/
def atCurrent (st : Nat) (f : Terminal → Terminal) (w : Work) : Work :=
  match findStation w.toKitchen st with
  | some s =>
    match s.current with
    | some a => setTerminal a f w
    | none => w
  | none => w

/-- The current terminal of a station, where it has one. -/
def currentOf (k : Kitchen) (st : Nat) : Option Nat :=
  match findStation k st with
  | some s => s.current
  | none => none

/-- Whether the frame of a turn is the POST or VOID of ticket n. -/
def carries (n : Nat) : BusFrame → Bool
  | .post _ m _ _ _ _ _ => m == n
  | .void _ m => m == n
  | .poll | .next _ _ | .mode _ _ | .railclr _ | .note _ => false

/-- A station whose staged ticket n has been freed: its staged mark clears (R101). -/
def unstage (n : Nat) (s : Station) : Station := if s.staged = some n then { s with staged := none } else s

/-- The terminal's share when ticket n is freed: a NEXT is handed over for each station it is current for that had n staged,
whatever number the ticket staged next bears (R90). -/
def renewNext (ss : List Station) (n : Nat) (t : Terminal) : Terminal :=
  (ss.filter fun s => s.staged == some n && s.current == some t.address).foldl (fun t s => markNext s.number t) t

/-- Takes a ticket record out of use: it leaves its queue and its slot; a staged mark that names it clears, and the change is
handed over; its pending POST and VOID are discarded, and a POST or VOID of it on the pair is accepted by nobody (R90, R101, R127).
What follows at the station and the group is the caller's. -/
def dropTicket (n : Nat) (w : Work) : Work :=
  { w with
    tickets := w.tickets.filter fun t => t.number != n
    stations := w.stations.map (unstage n)
    terminals := w.terminals.map fun t => renewNext w.stations n (unpendVoid n (unpendPost n t))
    turn := w.turn.map fun u => if carries n u.frame then { u with stale := true } else u }

/-! ### NOTEs (R139) -/

/-- A NOTE takes the place of the pending NOTE of its group, or goes to the end of the list. -/
def placeNote (n : Note) (l : List Note) : List Note :=
  if l.any (fun m => m.group == n.group) then l.map (fun m => if m.group == n.group then n else m) else l ++ [n]

/-- Whether the turn under way carries a NOTE of group g to the terminal. -/
def noteOnPair (turn : Option Turn) (address g : Nat) : Bool :=
  match turn with
  | some u =>
    match u.frame with
    | .note m => u.address == address && m.group == g
    | _ => false
  | none => false

/-- Enters a NOTE in one pass terminal's list (R139). -/
def enterNote (turn : Option Turn) (n : Note) (t : Terminal) : Terminal :=
  if t.kind = .pass then
    if n.state = .gone && !(t.shown.any (fun m => m.group == n.group)) && !(noteOnPair turn t.address n.group) then
      { t with notes := t.notes.filter fun m => m.group != n.group }
    else { t with notes := placeNote n t.notes }
  else t

/-- The Pass Unit hands a NOTE over for every pass terminal (R139). -/
def handNote (n : Note) (w : Work) : Work :=
  { w with
    terminals := w.terminals.map (enterNote w.turn n)
    turn := w.turn.map fun u =>
      match u.frame with
      | .note m => if m.group = n.group then { u with renewed := true } else u
      | _ => u }

/-- The broadcast mark is set: every shown record is emptied, and a NOTE on the pair will enter nothing (R122, R139). -/
def setBroadcast (w : Work) : Work :=
  { w with
    broadcast := true
    terminals := w.terminals.map fun t => { t with shown := [] }
    turn := w.turn.map fun u =>
      match u.frame with
      | .note _ => { u with stale := true }
      | _ => u }

end Sys2Proof.Machine
end

