-- ==== Sys2Proof/Machine/Timing.lean ====
section
/-! DEFINITION. The Timing Unit (04_back_timing_arithmetic.md): it holds no state (R63). -/

namespace Sys2Proof.Machine

/-- ceil(x / y) for y above 0 (00_scope.md, Conventions). -/
def ceilDiv (x y : Nat) : Nat := (x + (y - 1)) / y

/-- The plating lead D = Dbase + ceil(covers × Pc / 10) (R65). -/
def platingLead (base perCover covers : Nat) : Nat := base + ceilDiv (covers * perCover) 10

/-- Due = T − D − R (R66). -/
def dueTime (target lead rest : Nat) : Int := (target : Int) - lead - rest

/-- b = ceil(n / B), the number of batches (R67). -/
def batchCount (n limit : Nat) : Nat := ceilDiv n limit

/-- The portions of the batches, in index order: r batches of q + 1, then b − r of q (R67). -/
def batchSizes (n limit : Nat) : List Nat :=
  let b := batchCount n limit
  let q := n / b
  let r := n - q * b
  List.replicate r (q + 1) ++ List.replicate (b - r) q

/-- The largest batch m (R67). -/
def largestBatch (n limit : Nat) : Nat :=
  let b := batchCount n limit
  let q := n / b
  if n - q * b > 0 then q + 1 else q

/-- The load band of the largest batch m against the limit B (R68). -/
def loadBand (m limit : Nat) : Nat :=
  if m * 100 ≤ 25 * limit then 0
  else if m * 100 ≤ 50 * limit then 1
  else if m * 100 ≤ 75 * limit then 2
  else 3

/-- Ceff = C + ceil(C × LoadTable[band] / 100) (R69). -/
def effectiveCook (cook : Nat) (load : List Nat) (band : Nat) : Nat := cook + ceilDiv (cook * load.getD band 0) 100

/-- LS(w) = Due − Ceff − (wcount − 1 − w) × (Ceff + L) (R70). -/
def latestStart (due : Int) (ceff step wcount wave : Nat) : Int :=
  due - ceff - (((wcount - 1 - wave) * (ceff + step) : Nat) : Int)

/-- The release: LS(w) − A, or the clock where that is below it (R71). -/
def releaseTime (ls : Int) (advance clock : Nat) : Nat := (max (ls - advance) clock).toNat

/-- Held = R + (wcount − 1) × (Ceff + L) (R72). -/
def heldTime (rest wcount ceff step : Nat) : Nat := rest + (wcount - 1) * (ceff + step)

/-- A ticket description (R73). -/
structure TicketDesc where
  station : Nat
  group : Nat
  item : Nat
  comp : Nat
  subFrom : Option Nat
  portions : Nat
  kind : TicketKind
  release : Nat
  due : Int
  ceff : Nat
  advance : Nat
  deriving DecidableEq, Repr

/-- What a component or refire computation hands back (R63): the descriptions, and the held time to be judged against H (R72). -/
structure Computation where
  item : Nat
  comp : Nat
  tickets : List TicketDesc
  held : Nat
  hold : Nat
  deriving DecidableEq, Repr

/-- The stretched verdict: Held > H (R72). -/
def Computation.stretched (c : Computation) : Bool := c.hold < c.held

/-- Whom a computation is for: group, item, component index, substituted-from item. -/
structure CompKey where
  group : Nat
  item : Nat
  comp : Nat
  subFrom : Option Nat
  deriving DecidableEq, Repr

/-- The component computation on n portions (R64 to R73). -/
def componentComputation (clock target lead : Nat) (key : CompKey) (c : Component) (s : StationDef) (n : Nat) : Computation :=
  let due := dueTime target lead c.rest
  let ceff := effectiveCook c.cook s.load (loadBand (largestBatch n c.batch) c.batch)
  let wcount := ceilDiv (batchCount n c.batch) s.slots
  { item := key.item
    comp := key.comp
    tickets := (batchSizes n c.batch).mapIdx fun j p =>
      let ls := latestStart due ceff s.step wcount (j / s.slots)
      { station := c.station, group := key.group, item := key.item, comp := key.comp, subFrom := key.subFrom,
        portions := p, kind := .normal, release := releaseTime ls s.advance clock, due := ls + ceff, ceff := ceff,
        advance := s.advance }
    held := heldTime c.rest wcount ceff s.step
    hold := c.hold }

/-- The refire computation on n portions (R75). -/
def refireComputation (clock : Nat) (key : CompKey) (c : Component) (s : StationDef) (n : Nat) : Computation :=
  let ceff := effectiveCook c.cook s.load (loadBand (largestBatch n c.batch) c.batch)
  let wcount := ceilDiv (batchCount n c.batch) s.slots
  { item := key.item
    comp := key.comp
    tickets := (batchSizes n c.batch).mapIdx fun j p =>
      { station := c.station, group := key.group, item := key.item, comp := key.comp, subFrom := key.subFrom,
        portions := p, kind := .rush, release := clock,
        due := ((clock + s.advance + ceff + j / s.slots * (ceff + s.step) : Nat) : Int), ceff := ceff,
        advance := s.advance }
    held := heldTime c.rest wcount ceff s.step
    hold := c.hold }

/-- The run computation on p portions of a standing item (R76). -/
def runComputation (clock : Nat) (i : Item) (c : Component) (s : StationDef) (p : Nat) : TicketDesc :=
  let ceff := effectiveCook c.cook s.load (loadBand p i.runSize)
  { station := c.station, group := 0, item := i.number, comp := 0, subFrom := none, portions := p, kind := .standing,
    release := clock, due := ((clock + s.advance + ceff : Nat) : Int), ceff := ceff, advance := s.advance }

/-- The expected done of a live plated ticket (R77). -/
def expectedDone (clock : Nat) (t : Ticket) : Int :=
  match t.state with
  | .done => t.doneAt.getD 0
  | .cooking => ((t.startAt.getD 0 + t.ceff : Nat) : Int)
  | .sent | .posted => ((clock + t.ceff : Nat) : Int)
  | .queued | .due | .voiding => ((max t.release clock + t.advance + t.ceff : Nat) : Int)

/-- The rest R of a ticket's component. -/
def restOf (k : Kitchen) (t : Ticket) : Nat :=
  match componentOf k t.item t.comp with
  | some c => c.rest
  | none => 0

/-- The largest of a list of times, none of an empty one. -/
def latest : List Int → Option Int
  | [] => none
  | x :: xs => some (xs.foldl max x)

/-- The projected pass time P of a group (R78): T where it has no live plated ticket, else the largest ready time plus D. -/
def projection (k : Kitchen) (g : Group) : Int :=
  match latest ((k.tickets.filter (livePlated g.number)).map fun t => expectedDone k.clock t + restOf k t) with
  | none => g.target
  | some ready => ready + g.lead

end Sys2Proof.Machine
end

