-- ==== Sys2Proof/Machine/Flags.lean ====
section
/-! DEFINITION. The flags of a group (R40), the projected pass time kept with them (R56), and the display state that follows the
dying flag (R146). -/

namespace Sys2Proof.Machine

/-- Every flag is clear when a record is taken for a new group (R40). -/
def Flags.clear : Flags := ⟨false, false, false, false, false⟩

/-- The short flag's rule: a line has shortfall above 0 (R40, R57). -/
def anyShort (lines : List Line) : Bool := lines.any fun l => 0 < l.shortfall

/-- The lateness tolerance Tol of a group's course. -/
def tolOf (k : Kitchen) (course : Nat) : Nat :=
  match findCourse k course with
  | some c => c.tol
  | none => 0

/-- The late flag's rule: P > T + Tol (R40, R56). -/
def isLate (k : Kitchen) (g : Group) (p : Int) : Bool := (g.target : Int) + tolOf k g.course < p

/-- P is kept while a group is PLANNED or FIRING (R56). -/
def keepsProjection (g : Group) : Bool := g.state == .planned || g.state == .firing

/-- A recomputation of P (R56): GRPLATE is raised if the late flag changes. -/
def recompute (n : Nat) (w : Work) : Work :=
  match findGroup w.toKitchen n with
  | some g =>
    if keepsProjection g then
      let p := projection w.toKitchen g
      let late := isLate w.toKitchen g p
      let w' := setGroup n (fun g => { g with proj := p, flags := { g.flags with late := late } }) w
      if late = g.flags.late then w' else raise (.grplate n g.tag p g.target late) w'
    else w
  | none => w

/-- A ticket of the group has become SENT: a PLANNED group becomes FIRING, and P is recomputed (R59). -/
def groupSent (n : Nat) (w : Work) : Work :=
  recompute n (setGroup n (fun g => if g.state = .planned then { g with state := .firing } else g) w)

/-- The display state R146 gives a group. -/
def displayOf (g : Group) : Option Display :=
  if g.flags.dying && (g.state == .firing || g.state == .ready) then some .dying
  else if g.state = .ready then some .ready
  else none

/-- The state a NOTE carries for a display state; an absent one is sent as GONE (R146). -/
def noteState : Option Display → NoteState
  | some .ready => .ready
  | some .dying => .dying
  | none => .gone

/-- Brings the display state to what R146 gives, and hands a NOTE over if it changes. -/
def refreshDisplay (n : Nat) (w : Work) : Work :=
  match findGroup w.toKitchen n with
  | some g =>
    if displayOf g = g.display then w
    else handNote ⟨n, g.sect, noteState (displayOf g)⟩ (setGroup n (fun g => { g with display := displayOf g }) w)
  | none => w

end Sys2Proof.Machine
end

