-- ==== Sys2Proof/Machine/Queue.lean ====
section
/-! DEFINITION. The Dispatch Unit (05_station_queues_and_dispatch.md): numbering, queue order, the slot arbiter, staging; and the
freeing of a group with its tickets. -/

namespace Sys2Proof.Machine

/-! ### Creation (R82, R84) -/

/-- The number after n, 9,999 being followed by 1 (R82). -/
def numberAfter (n : Nat) : Nat := if Config.maxTicketNumber ≤ n then 1 else n + 1

/-- The first number from n on that is not in use; `fuel` numbers in use are passed over at most (R82). -/
def pickNumber (used : List Nat) : Nat → Nat → Nat
  | 0, n => n
  | fuel + 1, n => if used.contains n then pickNumber used fuel (numberAfter n) else n

/-- Takes a record for a description: next number, and DUE or QUEUED by release and event state (R82, R84). -/
def createTicket (d : TicketDesc) (w : Work) : Work :=
  let n := pickNumber (w.tickets.map Ticket.number) w.tickets.length w.nextTicket
  { w with
    tickets := w.tickets ++
      [{ number := n, station := d.station, group := d.group, item := d.item, comp := d.comp, subFrom := d.subFrom,
         portions := d.portions, kind := d.kind, release := d.release, due := d.due, ceff := d.ceff,
         advance := d.advance, state := if w.event = .service ∧ d.release ≤ w.clock then .due else .queued,
         overdue := false, reprint := false, postedAt := none, startAt := none, doneAt := none }]
    nextTicket := numberAfter n }

/-- Takes records for descriptions in creation order. -/
def createTickets (ds : List TicketDesc) (w : Work) : Work := ds.foldl (fun w d => createTicket d w) w

/-! ### Queue order (R85) -/

/-- STANDING stands before NORMAL (R85). -/
def kindRank : TicketKind → Nat
  | .standing => 0
  | .normal | .rush => 1

/-- Whether ticket a stands before ticket b behind the rush lane: release, kind, due, group, number (R85). -/
def standsBefore (a b : Ticket) : Bool :=
  if a.release ≠ b.release then a.release < b.release
  else if kindRank a.kind ≠ kindRank b.kind then kindRank a.kind < kindRank b.kind
  else if a.due ≠ b.due then a.due < b.due
  else if a.group ≠ b.group then a.group < b.group
  else a.number < b.number

def insertTicket (t : Ticket) : List Ticket → List Ticket
  | [] => [t]
  | u :: rest => if standsBefore t u then t :: u :: rest else u :: insertTicket t rest

def sortTickets (ts : List Ticket) : List Ticket := ts.foldr insertTicket []

/-- The queue of a station: the rush lane in creation order, then every other ticket by its keys; DONE tickets are not in it
(R85). -/
def queueOf (k : Kitchen) (st : Nat) : List Ticket :=
  let q := k.tickets.filter fun t => t.station == st && t.state != .done
  q.filter (fun t => t.kind == .rush) ++ sortTickets (q.filter fun t => t.kind != .rush)

/-! ### The slot arbiter (R87 to R90) -/

def groupHeld (k : Kitchen) (n : Nat) : Bool :=
  match findGroup k n with
  | some g => g.flags.held
  | none => false

def terminalLive (k : Kitchen) (a : Nat) : Bool :=
  match findTerminal k a with
  | some t => t.state == .live
  | none => false

/-- The station's share of eligibility: SERVICE, READY, and a LIVE current terminal (R87). -/
def stationAdmits (k : Kitchen) (s : Station) : Bool :=
  k.event == .service && s.mode == .ready &&
    match s.current with
    | some a => terminalLive k a
    | none => false

/-- A ticket is eligible when it is DUE, its group is not held, and its station admits (R87). -/
def eligible (k : Kitchen) (s : Station) (t : Ticket) : Bool :=
  t.state == .due && !(groupHeld k t.group) && stationAdmits k s

def firstEligible (k : Kitchen) (s : Station) : Option Ticket := (queueOf k s.number).find? (eligible k s)

/-- A DUE ticket becomes SENT (R88; any other is left, entry 19). -/
def becomeSent (t : Ticket) : Ticket := if t.state = .due then { t with state := .sent } else t

/-- Grants a slot: the ticket becomes SENT, a POST of it is made pending, and its group is told (R91). -/
def grant (t : Ticket) (w : Work) : Work :=
  groupSent t.group
    (atCurrent t.station (pendPost t.station t.number) (setTicket t.number becomeSent w))

/-- One grant, if the station has a free slot and an eligible ticket (R88). -/
def grantOne (st : Nat) (w : Work) : Work :=
  match findStation w.toKitchen st with
  | some s =>
    if slotsHeld w.toKitchen st < s.defn.slots then
      match firstEligible w.toKitchen s with
      | some t => grant t w
      | none => w
    else w
  | none => w

/-- Grants while a slot is free and a ticket eligible: as many times as there are slots is enough (R88). -/
def grantSlots (st : Nat) : Nat → Work → Work
  | 0, w => w
  | n + 1, w => grantSlots st n (grantOne st w)

/-- The ticket to stage: the first eligible one when every slot is held (R90). -/
def stagedTicket (k : Kitchen) (s : Station) : Option Nat :=
  if slotsHeld k s.number < s.defn.slots then none else (firstEligible k s).map Ticket.number

/-- Revises the staged ticket, and hands a NEXT over if it changes (R90). -/
def reviseStaged (st : Nat) (w : Work) : Work :=
  match findStation w.toKitchen st with
  | some s =>
    if stagedTicket w.toKitchen s = s.staged then w
    else
      atCurrent st (markNext st) (setStation st (fun x => { x with staged := stagedTicket w.toKitchen s }) w)
  | none => w

/-- One action of a station's slot arbiter (R88, R90). -/
def arbiter (st : Nat) (w : Work) : Work :=
  match findStation w.toKitchen st with
  | some s => reviseStaged st (grantSlots st s.defn.slots w)
  | none => w

/-! ### Modes and slots (R108, R114) -/

/-- A completed mode change: STNMODE, a MODE frame pending, the arbiter acts (R114). -/
def changeMode (st : Nat) (m : Mode) (countdown : Nat) (cause : ModeCause) (terminal : Nat) (w : Work) : Work :=
  arbiter st
    (atCurrent st (markMode st)
      (raise (.stnmode st m cause terminal)
        (setStation st (fun s => { s with mode := m, countdown := countdown }) w)))

/-- A DRAINING station with no slot held becomes OFF (R108). -/
def drainEnd (st : Nat) (w : Work) : Work :=
  match findStation w.toKitchen st with
  | some s => if s.mode = .draining ∧ slotsHeld w.toKitchen st = 0 then changeMode st .off 0 .drain 0 w else w
  | none => w

/-- A slot of the station has been freed: the arbiter acts, and a drain may end (R89, R94, R101). -/
def slotFreed (st : Nat) (w : Work) : Work := drainEnd st (arbiter st w)

/-! ### Freeing a group (R53, R54) -/

/-- The numbers of a group's ticket records, in creation order. -/
def ticketsOf (k : Kitchen) (g : Nat) : List Nat := (k.tickets.filter fun t => t.group == g).map Ticket.number

/-- Frees a group with the ticket records it still holds: GRPGONE is raised and NOTE GONE handed over (R54). -/
def freeGroup (n : Nat) (final : GroupState) (w : Work) : Work :=
  match findGroup w.toKitchen n with
  | some g =>
    let w := handNote ⟨n, g.sect, .gone⟩ (raise (.grpgone n g.tag final) w)
    let w := forEach dropTicket (ticketsOf w.toKitchen n) w
    { w with groups := w.groups.filter (fun g => g.number != n), drawOrder := dropNumber n w.drawOrder }
  | none => w

/-- The group is told that a ticket of it has been freed: P is recomputed, and a CANCELLED group with no ticket record left is
freed (R53, R59). -/
def groupTicketFreed (n : Nat) (w : Work) : Work :=
  match findGroup w.toKitchen n with
  | some g =>
    if g.state = .cancelled then
      if ticketsOf w.toKitchen n = [] then freeGroup n .cancelled w else w
    else recompute n w
  | none => w

/-- Stations in ascending number that satisfy p. -/
def stationsWhere (k : Kitchen) (p : Station → Bool) : List Nat := (k.stations.filter p).map Station.number

end Sys2Proof.Machine
end

