-- ==== Sys2Proof/Machine/Menu.lean ====
section
/-! DEFINITION. The Menu Store's stock operations (R30 to R35). -/

namespace Sys2Proof.Machine

/-- The portions a commitment of n would take (R32). -/
def takeable : Stock → Nat → Nat
  | .unlimited, n => n
  | .limited k, n => min n k

/-- The stock after a commitment of n (R32). -/
def stockAfter : Stock → Nat → Stock
  | .unlimited, _ => .unlimited
  | .limited k, n => .limited (k - n)

/-- The stock after a return of n: it stops at 65,534 (R33). -/
def stockReturned : Stock → Nat → Stock
  | .unlimited, _ => .unlimited
  | .limited k, n => .limited (min (k + n) Config.maxStock)

/-- An item with a stock: the exhausted mark is set exactly when the stock is a limited 0 (R30). -/
def withStock (st : Stock) (i : Item) : Item := { i with stock := st, exhausted := st == .limited 0 }

/-- Commitment: the portions taken of an item, out of n asked for (R32). -/
def commit (item n : Nat) (w : Work) : Work × Nat :=
  match findItem w.toKitchen item with
  | some i => (setItem item (fun i => withStock (stockAfter i.stock n) i) w, takeable i.stock n)
  | none => (w, 0)

/-- Return of n portions to an item (R33); with no portions nothing is returned. -/
def giveBack (item n : Nat) (w : Work) : Work :=
  if n = 0 then w else setItem item (fun i => withStock (stockReturned i.stock n) i) w

/-- Whether an item was exhausted in an earlier table. -/
def wasExhausted (items : List Item) (n : Nat) : Bool := items.any fun i => i.number == n && i.exhausted

/-- The settlement of a taken request: ITEM86 with cause COMMIT for each item newly exhausted, ascending (R34). -/
def settleStock (before : List Item) (w : Work) : Work :=
  forEach (fun n w => raise (.item86 n .commit) w)
    ((w.items.filter fun i => i.exhausted && !(wasExhausted before i.number)).map Item.number) w

/-- A component line names an undefined station (R16). -/
def hasLooseStation (k : Kitchen) (i : Item) : Bool := i.lines.any fun c => (findStation k c.station).isNone

/-- The portions of a short line that its substitute takes over, out of n offered (R42): a PLATED substitute commits them, a
STANDING one takes what its stock allows without commitment, and one naming an undefined station takes none. -/
def offer (sub n : Nat) (w : Work) : Work × Nat :=
  match findItem w.toKitchen sub with
  | some y =>
    if hasLooseStation w.toKitchen y then (w, 0)
    else
      match y.kind with
      | .plated => commit sub n w
      | .standing => (w, takeable y.stock n)
  | none => (w, 0)

end Sys2Proof.Machine
end

