-- ==== Sys2Proof/Machine/Pass.lean ====
section
/-! DEFINITION. The Pass Unit (08_the_pass.md): readiness, life ends, the draw order, draws, and standing runs. -/

namespace Sys2Proof.Machine

/-! ### Lines and tickets of a group -/

def itemKind (k : Kitchen) (item : Nat) : Option ItemKind := (findItem k item).map Item.kind

/-- A STANDING line not yet drawn (R153). -/
def undrawn (k : Kitchen) (l : Line) : Bool := itemKind k l.item == some .standing && !l.drawn

/-- Every live plated ticket of the group is DONE (R143). -/
def allDone (k : Kitchen) (g : Nat) : Bool := (k.tickets.filter (livePlated g)).all fun t => t.state == .done

/-- The plating start T − D is at or before a time (R65). -/
def platingReached (g : Group) (time : Nat) : Bool := (g.target : Int) - g.lead ≤ time

/-- The readiness test (R143). -/
def testPasses (k : Kitchen) (g : Group) : Bool :=
  k.event == .service && keepsProjection g && !g.flags.held && allDone k g.number && platingReached g k.clock

/-! ### Life end (R147) -/

/-- done time + H of a DONE live plated ticket of the group, where it is one. -/
def lifeOf (k : Kitchen) (g : Nat) (t : Ticket) : Option Int :=
  if livePlated g t && t.state == .done then
    match t.doneAt, componentOf k t.item t.comp with
    | some d, some c => some ((d + c.hold : Nat) : Int)
    | _, _ => none
  else none

/-- The least of a list of times, none of an empty one. -/
def earliest : List Int → Option Int
  | [] => none
  | x :: xs => some (xs.foldl min x)

/-- The life end R147 gives a group. -/
def lifeEndOf (k : Kitchen) (g : Nat) : Option Int := earliest (k.tickets.filterMap (lifeOf k g))

def recomputeLife (n : Nat) (w : Work) : Work :=
  setGroup n (fun g => { g with lifeEnd := lifeEndOf w.toKitchen n }) w

/-- The line and component, first in record order, with a DONE ticket that gives the life end (R148). -/
def lifeEndSource (k : Kitchen) (g : Group) (life : Int) : Nat × Nat :=
  let hits := g.lines.flatMap fun l =>
    (List.range (((findItem k l.item).map fun i => i.lines.length).getD 0)).filterMap fun c =>
      if k.tickets.any (fun t => ofComponent g.number l.item l.subFrom c t && lifeOf k g.number t == some life) then
        some (l.item, c)
      else none
  hits.headD (0, 0)

/-! ### Entry to READY (R144) -/

def becomeReady (n : Nat) (w : Work) : Work :=
  match findGroup w.toKitchen n with
  | some g =>
    let w := setGroup n (fun g => { g with state := .ready }) w
    let w := refreshDisplay n (raise (.grpready n g.tag g.proj g.target g.flags) w)
    { w with drawOrder := dropNumber n w.drawOrder }
  | none => w

/-! ### The draw order (R153) -/

/-- Whether group a stands before group b in the draw order: by T, then by number. -/
def drawsBefore (k : Kitchen) (a b : Nat) : Bool :=
  let ta := ((findGroup k a).map Group.target).getD 0
  let tb := ((findGroup k b).map Group.target).getD 0
  if ta ≠ tb then ta < tb else a < b

def insertDraw (k : Kitchen) (n : Nat) : List Nat → List Nat
  | [] => [n]
  | m :: rest => if drawsBefore k n m then n :: m :: rest else m :: insertDraw k n rest

/-- The group joins the draw order, or takes its place by the T it now has. -/
def joinDraw (n : Nat) (w : Work) : Work := { w with drawOrder := insertDraw w.toKitchen n (dropNumber n w.drawOrder) }

def leaveDraw (n : Nat) (w : Work) : Work := { w with drawOrder := dropNumber n w.drawOrder }

/-- Tests a group for readiness: it becomes READY, joins the draw order, or is out of it (R143, R153). -/
def testGroup (n : Nat) (w : Work) : Work :=
  match findGroup w.toKitchen n with
  | some g =>
    if testPasses w.toKitchen g then
      if g.lines.any (undrawn w.toKitchen) then joinDraw n w else becomeReady n w
    else leaveDraw n w
  | none => leaveDraw n w

/-- A group whose test would no longer pass leaves the draw order (R153). -/
def checkDraw (n : Nat) (w : Work) : Work :=
  match findGroup w.toKitchen n with
  | some g => if testPasses w.toKitchen g then w else leaveDraw n w
  | none => leaveDraw n w

/-- The Group Table hands a group over: life end, then readiness (R147, R143). -/
def handOver (n : Nat) (w : Work) : Work := testGroup n (recomputeLife n w)

/-! ### Draws (R154, R155) -/

/-- A run ticket of the item is in use. -/
def hasRun (k : Kitchen) (item : Nat) : Bool := k.tickets.any fun t => t.kind == .standing && t.item == item

/-- Whether the undrawn lines of an item on a group, c portions together, wait (R154). `ahead` are the items of undrawn lines of
earlier groups in the draw order. -/
def lineWaits (k : Kitchen) (ahead : List Nat) (item c : Nat) : Bool :=
  ahead.contains item ||
    match findItem k item with
    | some i => !(c ≤ i.pool) && !(i.exhausted && !(hasRun k item))
    | none => true

/-- The portions of a group's undrawn lines of an item, judged together (R154). -/
def undrawnCount (k : Kitchen) (g : Group) (item : Nat) : Nat :=
  ((g.lines.filter fun l => undrawn k l && l.item == item).map Line.count).sum

/-- One line's draw: it takes the lesser of its count and the pool, and the rest is its shortfall (R154, R155). -/
def drawLine (n : Nat) (l : Line) (w : Work) : Work :=
  match findGroup w.toKitchen n, findItem w.toKitchen l.item with
  | some g, some i =>
    let took := min l.count i.pool
    let short := l.count - took
    let w := setItem l.item (fun i => { i with pool := i.pool - took }) w
    let same := fun m : Line => m.item == l.item && m.subFrom == l.subFrom
    let w := setGroup n (fun g =>
      { g with
        lines := g.lines.map fun m => if same m then { m with drawn := true, shortfall := short } else m
        flags := { g.flags with short := g.flags.short || 0 < short } }) w
    if 0 < short then raise (.grpshort n g.tag l.item l.subFrom l.count short) w else w
  | _, _ => w

/-- A group none of whose lines waits draws them all and becomes READY (R154). All lines come in record order, so the GRPSHORTs of
lines of different items do too; the spec gives that order for the lines of one item (DESIGN CHOICE, entry 25). -/
def drawGroup (n : Nat) (lines : List Line) (w : Work) : Work :=
  becomeReady n (lines.foldl (fun w l => drawLine n l w) w)

/-- The walk of a draw pass over the rest of the draw order (R154). -/
def drawWalk : List Nat → List Nat → Work → Work
  | [], _, w => w
  | n :: rest, ahead, w =>
    match findGroup w.toKitchen n with
    | some g =>
      let lines := g.lines.filter (undrawn w.toKitchen)
      let items := lines.map Line.item
      if items.any (fun x => lineWaits w.toKitchen ahead x (undrawnCount w.toKitchen g x)) then
        drawWalk rest (ahead ++ items) w
      else drawWalk rest ahead (drawGroup n lines w)
    | none => drawWalk rest ahead w

/-- A draw pass (R154). -/
def drawPass (w : Work) : Work := drawWalk w.drawOrder [] w

/-! ### Standing runs (R150 to R152) -/

/-- The demand of a standing item (R150). -/
def demand (k : Kitchen) (i : Item) : Nat :=
  ((k.groups.filter fun g => keepsProjection g && !g.flags.held && platingReached g (k.clock + i.lookahead)).map
    fun g => undrawnCount k g i.number).sum

/-- The portions in the item's run tickets not DONE (R151); a run ticket is freed when it becomes DONE (R95). -/
def inRuns (k : Kitchen) (item : Nat) : Nat :=
  portionsOf k fun t => t.kind == .standing && t.item == item && t.state != .done

/-- All the conditions of a run, the free ticket record among them (R151). -/
def runWanted (k : Kitchen) (i : Item) : Bool :=
  k.event == .service && i.kind == .standing && i.stock != .limited 0 &&
    !(k.tickets.any fun t => t.kind == .standing && t.item == i.number && undispatched t) &&
    i.pool + inRuns k i.number < demand k i + i.reorder && 0 < freeRecords k

/-- Creates a run ticket (R152). -/
def createRun (i : Item) (w : Work) : Work :=
  match i.lines with
  | [] => w
  | c :: _ =>
    match findStation w.toKitchen c.station with
    | some s =>
      let before := w.items
      let taken := commit i.number (takeable i.stock i.runSize) w
      arbiter c.station
        (createTicket (runComputation w.clock i c s.defn (takeable i.stock i.runSize)) (settleStock before taken.1))
    | none => w

/-- One test of an item (R151). -/
def runTest (item : Nat) (w : Work) : Work :=
  match findItem w.toKitchen item with
  | some i => if runWanted w.toKitchen i then createRun i w else w
  | none => w

/-- The items tested in ascending number (R151). -/
def runTests (w : Work) : Work := forEach runTest (w.items.map Item.number) w

/-- Draw passes and run tests until no run is created; each round that goes on has created a ticket, so the pool's records
bound the rounds. -/
def passRounds : Nat → Work → Work
  | 0, w => w
  | n + 1, w =>
    let drawn := drawPass w
    let w' := runTests drawn
    if w'.tickets.length = drawn.tickets.length then w' else passRounds n w'

/-- What the Pass Unit does after an event: draws and run tests, in SERVICE alone (R151, R154; DESIGN CHOICE, entry 9). -/
def passSettle (w : Work) : Work := if w.event = .service then passRounds Config.poolRecords w else w

end Sys2Proof.Machine
end

