-- ==== Sys2Proof/Machine/Frames.lean ====
section
/-! DEFINITION. What the part sends: the codes of R178, the bodies of replies and reports (R177, R179 to R181), the host frame with
its CRC-16, and the frames of the station bus with their check byte (R182, R183). -/

namespace Sys2Proof.Machine

/-! ### Coded values (R177, R178) -/

def EventState.code : EventState → Nat
  | .setup => 1 | .service => 2 | .closed => 3

def EventCause.code : EventCause → Nat
  | .start => 1 | .close => 2 | .limit => 3 | .restart => 4

def GroupState.code : GroupState → Nat
  | .planned => 1 | .firing => 2 | .ready => 3 | .served => 4 | .cancelled => 5 | .abandoned => 6

def ItemKind.code : ItemKind → Nat
  | .plated => 1 | .standing => 2

def TicketState.code : TicketState → Nat
  | .queued => 1 | .due => 2 | .sent => 3 | .posted => 4 | .cooking => 5 | .done => 6 | .voiding => 7

def TicketKind.code : TicketKind → Nat
  | .normal => 1 | .rush => 2 | .standing => 3

def Mode.code : Mode → Nat
  | .off => 1 | .warming => 2 | .ready => 3 | .paused => 4 | .draining => 5 | .halted => 6

def ModeCause.code : ModeCause → Nat
  | .stnon => 1 | .stnoff => 2 | .pause => 3 | .pauseall => 4 | .resume => 5 | .resumeall => 6 | .halt => 7 | .fault => 8
  | .clear => 9 | .warm => 10 | .drain => 11 | .close => 12

def TermKind.code : TermKind → Nat
  | .station => 1 | .pass => 2

def TermState.code : TermState → Nat
  | .unknown => 1 | .live => 2 | .lost => 3

def NoteState.code : NoteState → Nat
  | .ready => 1 | .dying => 2 | .gone => 3

def Item86Cause.code : Item86Cause → Nat
  | .commit => 1 | .stock => 2 | .define => 3

def DefMark.code : DefMark → Nat
  | .new => 1 | .replaced => 2

/-- The value 2 is not used (R177). -/
def Incomplete.code : Incomplete → Nat
  | .noStation => 1 | .itemStn => 3

def FieldCode.code : FieldCode → Nat
  | .number => 0x01 | .name => 0x02 | .course => 0x03 | .kind => 0x04 | .lines => 0x05 | .station => 0x06 | .cook => 0x07
  | .batch => 0x08 | .rest => 0x09 | .hold => 0x0A | .runsize => 0x0B | .reorder => 0x0C | .lookahead => 0x0D
  | .subst => 0x0E | .subof => 0x0F | .platebase => 0x10 | .tol => 0x11 | .slots => 0x12 | .advance => 0x13 | .step => 0x14
  | .warmup => 0x15 | .grace => 0x16 | .load => 0x17 | .primary => 0x18 | .fallback => 0x19 | .address => 0x1A
  | .sect => 0x1B | .covers => 0x1C | .item => 0x1D | .count => 0x1E | .sum => 0x1F | .length => 0x20

def bit (b : Bool) (place : Nat) : Nat := if b then 2 ^ place else 0

def mark1 (b : Bool) : List Byte := be1 (bit b 0)

/-- The group flags byte (R178). -/
def Flags.byte (f : Flags) : Nat := bit f.held 0 + bit f.late 1 + bit f.stretched 2 + bit f.short 3 + bit f.dying 4

/-- The ticket marks byte (R178). -/
def marksByte (t : Ticket) (staged : Bool) : Nat := bit t.overdue 0 + bit t.reprint 1 + bit staged 2

/-- An absent number is sent as 0 (R176). -/
def absent0 (n : Option Nat) : Nat := n.getD 0

/-- A count in a field of one byte; above 255 the spec does not say what is sent (entry 21). -/
def count1 (n : Nat) : List Byte := if n < 256 then be1 n else [Config.longCount n]

/-- Unlimited stock is sent as 65,535 (R176). -/
def stockCode : Stock → Nat
  | .unlimited => 65535
  | .limited n => n

/-- A station set in QTERM: the lowest bit of the last byte is station 1 (R179). -/
def stationSet (l : List Nat) : List Byte :=
  let v := ((List.range 24).map fun i => bit (l.contains (i + 1)) i).sum
  be1 (v / 65536) ++ be2 v

/-! ### OK reply bodies (R179, R180) -/

def itemBytes (i : Item) (inRuns : Nat) : List Byte :=
  be1 i.number ++ i.name ++ be1 i.course ++ be1 i.kind.code ++ be1 i.lines.length ++ be1 (absent0 i.subst) ++ be1 i.runSize ++
    be2 i.reorder ++ be2 i.lookahead ++ be2 (stockCode i.stock) ++ mark1 i.exhausted ++ be2 i.pool ++ be2 inRuns ++
    i.lines.flatMap componentBytes

def ticketBytes (staged : Option Nat) (t : Ticket) : List Byte :=
  be2 t.number ++ be2 t.group ++ be1 t.item ++ be1 t.comp ++ be1 t.portions ++ be1 t.kind.code ++ be1 t.state.code ++
    be2 t.release ++ signed4 t.due ++ be2 (absent0 t.startAt) ++ be1 (marksByte t (staged == some t.number))

def stationBytes (v : StationView) : List Byte :=
  let s := v.station
  let d := s.defn
  be1 d.slots ++ be2 d.advance ++ be2 d.step ++ be2 d.warmup ++ be2 d.grace ++ d.load.flatMap be1 ++ be1 d.primary ++
    be1 (absent0 d.fallback) ++ be1 s.mode.code ++ be2 s.countdown ++ be1 (absent0 s.current) ++
    be1 ((v.currentState.map TermState.code).getD 0) ++ be1 v.held ++ be2 (absent0 s.staged) ++ be2 v.counts.queued ++
    be2 v.counts.due ++ be2 v.counts.sent ++ be2 v.counts.posted ++ be2 v.counts.cooking ++ be2 v.counts.voiding ++
    be1 v.head.length ++ v.head.flatMap (ticketBytes s.staged)

def terminalBytes (v : TerminalView) : List Byte :=
  let t := v.terminal
  be1 t.kind.code ++ be1 t.state.code ++ be1 t.misses ++ mark1 t.receipt ++ be1 v.primaryOf ++ stationSet v.fallbackOf ++
    stationSet v.currentFor ++ be1 t.railclrs.length ++ be2 t.voids.length ++ be2 t.posts.length ++
    be1 t.nextMarks.length ++ be1 t.modeMarks.length ++ count1 t.notes.length ++ count1 t.shown.length

def lineBytes (v : LineView) : List Byte :=
  be1 v.line.item ++ be1 (absent0 v.line.subFrom) ++ be2 v.line.count ++ be2 v.line.shortfall ++ mark1 v.line.drawn ++
    be1 v.comps.length ++ v.comps.flatMap fun c => be2 c.waiting ++ be2 c.dispatched ++ be2 c.done ++ be2 c.voiding

def groupBytes (v : GroupView) : List Byte :=
  let g := v.group
  be4 g.tag ++ be1 g.sect ++ be1 g.course ++ be2 g.covers ++ be2 g.target ++ be2 g.lead ++ be1 g.state.code ++
    be1 g.flags.byte ++ signed4 g.proj ++ be2 v.tickets ++ be1 g.lines.length ++ be1 v.first ++ be1 v.lines.length ++
    v.lines.flatMap lineBytes

def submitLineBytes (l : SubmitLine) : List Byte := be2 l.committed ++ be1 l.sub ++ be2 l.moved ++ be2 l.shortfall

def amendLineBytes (l : AmendLine) : List Byte :=
  be1 l.item ++ be1 (absent0 l.subFrom) ++ be2 l.count ++ be2 l.committed ++ be1 l.sub ++ be2 l.moved ++ be2 l.shortfall

/-- The OK reply body of R179. -/
def OkBody.bytes : OkBody → List Byte
  | .empty => []
  | .defined n m => be1 n ++ be1 m.code
  | .stockSet i s e => be1 i ++ be2 (stockCode s) ++ mark1 e
  | .rebound st p f c => be1 st ++ be1 p ++ be1 (absent0 f) ++ be1 (absent0 c)
  | .submitted g f p ls => be2 g ++ be1 f.byte ++ signed4 p ++ be1 ls.length ++ ls.flatMap submitLineBytes
  | .amended f p ls => be1 f.byte ++ signed4 p ++ be1 ls.length ++ ls.flatMap amendLineBytes
  | .timed f p => be1 f.byte ++ signed4 p
  | .cancelled n => be2 n
  | .served g tag => be2 g ++ be4 tag
  | .refired f p cs e =>
    be1 f.byte ++ signed4 p ++ be1 cs.length ++ (cs.flatMap fun c => be2 c.1 ++ count1 c.2) ++ be2 e
  | .modeSet st m => be1 st ++ be1 m.code
  | .modesSet n => be1 n
  | .group v => groupBytes v
  | .station v => stationBytes v
  | .item i r => itemBytes i r
  | .terminal v => terminalBytes v
  | .part v =>
    be1 v.event.code ++ be2 v.clock ++ be2 v.groups ++ be2 v.freeTickets ++ be1 v.reports ++ mark1 v.gap ++
      be1 Config.revision

/-- The status code and the further body the status calls for (R177). -/
def Answer.bytes : Answer → Nat × List Byte
  | .ok b => (0x00, b.bytes)
  | .badKind => (0x01, [])
  | .badField c i => (0x02, be1 c.code ++ be1 i)
  | .badState => (0x03, [])
  | .noSuch => (0x04, [])
  | .full => (0x05, [])
  | .inFire => (0x06, [])
  | .busy => (0x07, [])
  | .groups => (0x08, [])
  | .incomplete r st i => (0x09, be1 r.code ++ be1 st ++ be1 i)

/-! ### Report kinds and bodies (R181) -/

def ReportBody.kind : ReportBody → Byte
  | .started => 0xE0 | .evstate _ _ => 0xE1 | .grpready _ _ _ _ _ => 0xE2 | .grplate _ _ _ _ _ => 0xE3
  | .grpstretch _ _ _ _ _ _ => 0xE4 | .grpshort _ _ _ _ _ _ => 0xE5 | .grpdying _ _ _ _ _ _ => 0xE6
  | .grpgone _ _ _ => 0xE7 | .tkover _ _ _ _ _ _ _ _ => 0xE8 | .stnmode _ _ _ _ => 0xE9 | .termstate _ _ _ _ => 0xEA
  | .item86 _ _ => 0xEB | .gap _ => 0xEC

def groupTag (g tag : Nat) : List Byte := be2 g ++ be4 tag

def ReportBody.bytes : ReportBody → List Byte
  | .started => be1 Config.revision
  | .evstate s c => be1 s.code ++ be1 c.code
  | .grpready g tag p t f => groupTag g tag ++ signed4 p ++ be2 t ++ be1 f.byte
  | .grplate g tag p t l => groupTag g tag ++ signed4 p ++ be2 t ++ mark1 l
  | .grpstretch g tag i c held h => groupTag g tag ++ be1 i ++ be1 c ++ be4 held ++ be2 h
  | .grpshort g tag i sf c s => groupTag g tag ++ be1 i ++ be1 (absent0 sf) ++ be2 c ++ be2 s
  | .grpdying g tag l i c s => groupTag g tag ++ signed4 l ++ be1 i ++ be1 c ++ be1 s.code
  | .grpgone g tag s => groupTag g tag ++ be1 s.code
  | .tkover n st g tag i c start ceff =>
    be2 n ++ be1 st ++ be2 g ++ be4 tag ++ be1 i ++ be1 c ++ be2 start ++ be2 ceff
  | .stnmode st m c t => be1 st ++ be1 m.code ++ be1 c.code ++ be1 t
  | .termstate a k l e => be1 a ++ be1 k.code ++ be1 l.code ++ be1 e.code
  | .item86 i c => be1 i ++ be1 c.code
  | .gap n => be2 n

/-! ### The host frame (R162, R177, R183) -/

/-- One of the 8 shifts of a byte: the shifted register, exclusive-ored with 1021h where the top bit was 1 (R183). -/
def crcShift (r : BitVec 16) : BitVec 16 := if r.msb then (r <<< 1) ^^^ 0x1021 else r <<< 1

/-- The register after one covered byte (R183). -/
def crcByte (r : BitVec 16) (b : Byte) : BitVec 16 :=
  let r := r ^^^ (b.setWidth 16 <<< 8)
  crcShift (crcShift (crcShift (crcShift (crcShift (crcShift (crcShift (crcShift r)))))))

/-- The CRC-16 of the covered bytes (R183). -/
def crc16 (bs : List Byte) : BitVec 16 := bs.foldl crcByte 0xFFFF

/-- A frame on the host line (R177). -/
def hostBytes (kind seq : Byte) (body : List Byte) : List Byte :=
  let covered := be2 (2 + body.length) ++ [kind, seq] ++ body
  [0xA5] ++ covered ++ be2 (crc16 covered).toNat

/-- The kind byte of a reply: the request kind plus 80h, or FFh (R177). -/
def replyKind (kind : Byte) : Byte := if (kindOf kind).isSome then kind + 0x80 else 0xFF

/-- A reply's bytes on the line: the status and the kind answered begin the body (R177). -/
def Reply.bytes (r : Reply) : List Byte :=
  hostBytes (replyKind r.kind) r.seq (be1 r.answer.bytes.1 ++ [r.kind] ++ r.answer.bytes.2)

/-- A report's bytes on the line: sequence 0, the clock first in the body (R171, R181). -/
def Report.bytes (r : Report) : List Byte := hostBytes r.body.kind 0 (be2 r.clock ++ r.body.bytes)

/-- The bytes the transmitter is sending on HTXD. -/
def Sending.bytes : Sending → List Byte
  | .reply r => r.bytes
  | .report r => r.bytes

/-! ### Frames of the station bus (R118, R182, R183) -/

def BusFrame.kind : BusFrame → Byte
  | .poll => 0x01 | .post _ _ _ _ _ _ _ => 0x02 | .void _ _ => 0x03 | .next _ _ => 0x04 | .mode _ _ => 0x05
  | .railclr _ => 0x06 | .note _ => 0x07

def BusFrame.station : BusFrame → Nat
  | .poll => 0
  | .post st _ _ _ _ _ _ => st
  | .void st _ => st
  | .next st _ => st
  | .mode st _ => st
  | .railclr st => st
  | .note _ => 0

/-- The body behind the receipt mark (R182). -/
def BusFrame.body : BusFrame → List Byte
  | .poll => []
  | .post _ n name p k r d => be2 n ++ name ++ be1 p ++ be1 k.code ++ mark1 r ++ signed4 d
  | .void _ n => be2 n
  | .next _ n => be2 n
  | .mode _ m => be1 m.code
  | .railclr _ => []
  | .note n => be2 n.group ++ be1 n.sect ++ be1 n.state.code

/-- The characters of a frame of the part: the address with its mark set, then kind, station, body and check byte. -/
def busChars (address : Nat) (kind station : Byte) (body : List Byte) : List BusChar :=
  let bytes := kind :: station :: body
  ⟨BitVec.ofNat 8 address, true⟩ :: (bytes ++ [checkByte bytes]).map fun b => ⟨b, false⟩

/-- An addressed frame carries the receipt mark first (R126, R182). -/
def frameChars (address : Nat) (receipt : Bool) (f : BusFrame) : List BusChar :=
  busChars address f.kind (BitVec.ofNat 8 f.station) (mark1 receipt ++ f.body)

/-- The RAILCLR broadcast: address 31, station 0 for all stations, no body (R122, R182). -/
def broadcastChars : List BusChar := busChars Config.broadcastAddress 0x06 0 []

end Sys2Proof.Machine
end

