-- ==== Sys2Proof/Machine/Bus.lean ====
section
/-! DEFINITION. The Station Bus Controller (07_the_station_bus.md): the current terminal, turns, replies and misses, and the
signals handed to the Dispatch Unit, the Pass Unit and the Station Table. -/

namespace Sys2Proof.Machine

/-! ### The current terminal (R132, R133) -/

/-- The primary if it is LIVE, else the fallback if it is LIVE, else none (R132). -/
def chooseCurrent (k : Kitchen) (s : Station) : Option Nat :=
  if terminalLive k s.defn.primary then some s.defn.primary
  else
    match s.defn.fallback with
    | some f => if terminalLive k f then some f else none
    | none => none

/-- Every VOIDING ticket of the station is freed with its slot, and its group is told (R100, R132). -/
def freeVoiding (st : Nat) (w : Work) : Work :=
  (w.tickets.filter fun t => t.station == st && t.state == .voiding).foldl
    (fun w t => groupTicketFreed t.group (dropTicket t.number w)) w

/-- A POST of a ticket made again: reprint-pending is set (R128). -/
def repost (st a n : Nat) (w : Work) : Work :=
  setTerminal a (pendPost st n) (setTicket n (fun t => { t with reprint := true }) w)

/-- Re-posts the station's SENT, POSTED and COOKING tickets at a terminal, in queue order, and sets its NEXT and MODE marks
there (R128, R133, R137). -/
def rebuildRail (st a : Nat) (w : Work) : Work :=
  setTerminal a (fun t => markMode st (markNext st t))
    (forEach (repost st a) (((queueOf w.toKitchen st).filter onRail).map Ticket.number) w)

/-- The current terminal of a station is chosen again. Where it changes, the old terminal loses the station and VOIDING tickets
are freed (R132); the rail is rebuilt at the new one (R133); then the station's arbiter acts, and a drain may end (DESIGN CHOICE,
entry 12). -/
def rechoose (st : Nat) (w : Work) : Work :=
  match findStation w.toKitchen st with
  | some s =>
    let new := chooseCurrent w.toKitchen s
    if new = s.current then w
    else
      let w := setStation st (fun s => { s with current := new }) w
      let w :=
        match s.current with
        | some old => freeVoiding st (setTerminal old (loseStation st) w)
        | none => w
      let w :=
        match new with
        | some a => rebuildRail st a w
        | none => w
      slotFreed st w
  | none => w

/-- The stations a terminal is bound to choose again, ascending (R131, R132). -/
def rechooseBound (a : Nat) (w : Work) : Work :=
  forEach rechoose (stationsWhere w.toKitchen fun s => s.defn.primary == a || s.defn.fallback == some a) w

/-- A valid reply: miss count 0, receipt mark set; an UNKNOWN or LOST terminal becomes LIVE (R125 steps 1 and 2). -/
def terminalHeard (a : Nat) (w : Work) : Work :=
  match findTerminal w.toKitchen a with
  | some t =>
    let w := setTerminal a (fun t => { t with misses := 0, receipt := true, state := .live }) w
    if t.state = .live then w else rechooseBound a (raise (.termstate a t.kind t.state .live) w)
  | none => w

/-- A LIVE terminal becomes LOST (R130, R131). -/
def terminalDown (a : Nat) (w : Work) : Work :=
  match findTerminal w.toKitchen a with
  | some t =>
    rechooseBound a (raise (.termstate a t.kind .live .lost) (setTerminal a (fun t => { t with state := .lost }) w))
  | none => w

/-- A LIVE terminal whose miss count has reached 8 (R130). -/
def atLimit (t : Terminal) : Bool := t.state == .live && decide (Config.missLimit ≤ t.misses)

/-! ### Turns (R120 to R122) -/

/-- The next address of the round: the lowest defined above the last served, else the lowest defined (R120). -/
def nextAddress (k : Kitchen) : Option Nat :=
  match k.terminals.find? fun t => k.lastTurn < t.address with
  | some t => some t.address
  | none => (k.terminals.head?).map Terminal.address

def itemName (k : Kitchen) (item : Nat) : List Byte := ((findItem k item).map Item.name).getD []

/-- The POST of a ticket, with its contents as they stand (R91, R123). -/
def postFrame (k : Kitchen) (p : Slip) : BusFrame :=
  match findTicket k p.ticket with
  | some t => .post p.station t.number (itemName k t.item) t.portions t.kind t.reprint t.due
  | none => .poll

/-- The frame chosen for a terminal when its turn begins (R121). -/
def chooseFrame (k : Kitchen) (t : Terminal) : BusFrame :=
  match t.state with
  | .unknown | .lost => .poll
  | .live =>
    match t.kind with
    | .pass =>
      match t.notes with
      | n :: _ => .note n
      | [] => .poll
    | .station =>
      match t.railclrs, t.voids, t.posts, t.nextMarks, t.modeMarks with
      | st :: _, _, _, _, _ => .railclr st
      | [], v :: _, _, _, _ => .void v.station v.ticket
      | [], [], p :: _, _, _ => postFrame k p
      | [], [], [], st :: _, _ => .next st (((findStation k st).bind Station.staged).getD 0)
      | [], [], [], [], st :: _ => .mode st (((findStation k st).map Station.mode).getD .off)
      | [], [], [], [], [] => .poll

/-- A NEXT or MODE mark is cleared when its frame's turn begins (R127). -/
def clearMark (f : BusFrame) (t : Terminal) : Terminal :=
  match f with
  | .next st _ => { t with nextMarks := dropNumber st t.nextMarks }
  | .mode st _ => { t with modeMarks := dropNumber st t.modeMarks }
  | .poll | .post _ _ _ _ _ _ _ | .void _ _ | .railclr _ | .note _ => t

/-- Begins a turn: the frame is chosen and sent, and the reply window opens (R120, R121). -/
def beginTurn (a : Nat) (w : Work) : Work :=
  match findTerminal w.toKitchen a with
  | some t =>
    let f := chooseFrame w.toKitchen t
    let w := setTerminal a (clearMark f) w
    { w with
      turn := some { address := a, receipt := t.receipt, frame := f, stale := false, renewed := false, orphan := false }
      lastTurn := a
      busLine := frameChars a t.receipt f }
  | none => w

/-- Sends the broadcast while the mark is set, and clears the mark (R122). -/
def sendBroadcast (w : Work) : Work :=
  if w.broadcast then { w with broadcast := false, busLine := broadcastChars } else w

/-- TURN (R120): with no turn under way; a pending broadcast goes first (R122; DESIGN CHOICE, entry 7). -/
def takeTurn (w : Work) : Work :=
  if w.turn.isSome then w
  else
    let w := sendBroadcast w
    match nextAddress w.toKitchen with
    | some a => beginTurn a w
    | none => w

/-! ### Signals (R92 to R96, R100, R157) -/

/-- An acknowledged POST, by the state of the ticket (R92). -/
def postAcked (st n : Nat) (w : Work) : Work :=
  match findTicket w.toKitchen n with
  | some t =>
    if w.event = .service ∧ t.station = st then
      match t.state with
      | .sent =>
        recompute t.group
          (setTicket n (fun t => { t with state := .posted, postedAt := some w.clock, reprint := false }) w)
      | .posted | .cooking => setTicket n (fun t => { t with reprint := false }) w
      | .queued | .due | .done | .voiding => w
    else w
  | none => w

/-- An acknowledged VOID frees the VOIDING ticket with its slot (R100). The station is told before the group, so an STNMODE
(OFF, DRAIN) stands before a GRPGONE (DESIGN CHOICE, entry 23). -/
def voidAcked (st n : Nat) (w : Work) : Work :=
  match findTicket w.toKitchen n with
  | some t =>
    if t.station = st ∧ t.state = .voiding then groupTicketFreed t.group (slotFreed st (dropTicket n w)) else w
  | none => w

/-- Whether a START or BUMP is from the current terminal and names a ticket of the station (R93, R94, R96). -/
def signalTaken (k : Kitchen) (a st : Nat) (t : Ticket) : Bool :=
  k.event == .service && currentOf k st == some a && t.station == st

/-- A START from a terminal (R93). -/
def takeStart (a st n : Nat) (w : Work) : Work :=
  match findTicket w.toKitchen n with
  | some t =>
    if signalTaken w.toKitchen a st t then
      match t.state with
      | .sent =>
        recompute t.group
          (setTerminal a (unpendPost n)
            (setTicket n (fun t =>
              { t with state := .cooking, startAt := some w.clock, postedAt := some w.clock, reprint := false }) w))
      | .posted => recompute t.group (setTicket n (fun t => { t with state := .cooking, startAt := some w.clock }) w)
      | .queued | .due | .cooking | .done | .voiding => w
    else w
  | none => w

/-- A ticket at its BUMP: DONE, with the times left absent filled (R94). -/
def bumped (clock : Nat) (t : Ticket) : Ticket :=
  match t.state with
  | .sent =>
    { t with state := .done, doneAt := some clock, postedAt := some clock, startAt := some clock, reprint := false }
  | .posted => { t with state := .done, doneAt := some clock, startAt := t.postedAt }
  | .cooking => { t with state := .done, doneAt := some clock }
  | .queued | .due | .done | .voiding => t

/-- Portions of a bumped run go into the pool, which stops at 9,999 (R95, R149). -/
def fillPool (item portions : Nat) (w : Work) : Work :=
  setItem item (fun i => { i with pool := min (i.pool + portions) Config.maxPool }) w

/-- What follows a ticket's becoming DONE: a run's portions go to the pool and it is freed (R95); a group's is told to the Group
Table and the group handed to the Pass Unit (R94, R59). -/
def afterBump (t : Ticket) (w : Work) : Work :=
  if t.kind = .standing then slotFreed t.station (dropTicket t.number (fillPool t.item t.portions w))
  else handOver t.group (recompute t.group (slotFreed t.station w))

/-- A BUMP from a terminal (R94). -/
def takeBump (a st n : Nat) (w : Work) : Work :=
  match findTicket w.toKitchen n with
  | some t =>
    if signalTaken w.toKitchen a st t && onRail t then
      let w' := setTicket n (bumped w.clock) w
      afterBump t (if t.state = .sent then setTerminal a (unpendPost n) w' else w')
    else w
  | none => w

/-- A TAKEN from a pass terminal serves a READY group, and is ignored otherwise (R157). -/
def takeTaken (a g : Nat) (w : Work) : Work :=
  match findTerminal w.toKitchen a, findGroup w.toKitchen g with
  | some t, some x => if t.kind = .pass ∧ x.state = .ready ∧ w.event = .service then freeGroup g .served w else w
  | _, _ => w

/-- A FAULT halts every station for which the terminal is current, ascending (R112). -/
def takeFault (a : Nat) (w : Work) : Work :=
  forEach (fun st => changeMode st .halted 0 .fault a)
    (stationsWhere w.toKitchen fun s => s.current == some a && s.mode != .off && s.mode != .halted) w

/-- A HELLO: the rails of the stations the terminal is current for are re-posted, and a pass terminal's shown groups are noted
again (R137; DEDUCED, entry 14). The stations come in ascending number (DESIGN CHOICE, entry 12), and the NOTEs of the shown groups
in the order of the shown record, that of first acceptance (DESIGN CHOICE, entry 24). -/
def takeHello (a : Nat) (w : Work) : Work :=
  let w := forEach (fun st => rebuildRail st a) (stationsWhere w.toKitchen fun s => s.current == some a) w
  setTerminal a (fun t => if t.kind = .pass then { t with notes := t.shown.foldl (fun l n => placeNote n l) t.notes } else t) w

/-! ### The end of a turn (R123 to R130) -/

/-- Whether a reply accepts the frame it answers (R124). -/
def accepts : BusReply → Bool
  | .ack | .start _ _ | .bump _ _ | .taken _ => true
  | .wait | .fault | .hello => false

/-- The shown record after an accepted NOTE (R139). It keeps the section with the group, for the NOTE that a HELLO makes pending
(DESIGN CHOICE, entry 24). -/
def showNote (n : Note) (t : Terminal) : Terminal :=
  if n.state = .gone then { t with shown := t.shown.filter fun m => m.group != n.group }
  else { t with shown := placeNote n t.shown }

/-- The frame of the turn is accepted (R123, R125 step 3). -/
def acceptFrame (u : Turn) (w : Work) : Work :=
  match u.frame with
  | .poll | .next _ _ | .mode _ _ => w
  | .post st n _ _ _ _ _ =>
    if !u.stale && currentOf w.toKitchen st == some u.address then
      postAcked st n (setTerminal u.address (unpendPost n) w)
    else w
  | .void st n =>
    if !u.stale && currentOf w.toKitchen st == some u.address then
      voidAcked st n (setTerminal u.address (unpendVoid n) w)
    else w
  | .railclr st => setTerminal u.address (fun t => { t with railclrs := dropNumber st t.railclrs }) w
  | .note n =>
    setTerminal u.address (fun t =>
      let t := if u.renewed then t else { t with notes := t.notes.filter fun m => m.group != n.group }
      if u.stale || t.kind != .pass then t else showNote n t) w

/-- The frame of the turn is not accepted: it stays pending, and a NEXT or MODE mark is set again while the terminal is current
for the station (R127, R129, R130; DEDUCED, entry 14). -/
def keepFrame (u : Turn) (w : Work) : Work :=
  match u.frame with
  | .next st _ => if currentOf w.toKitchen st = some u.address then setTerminal u.address (markNext st) w else w
  | .mode st _ => if currentOf w.toKitchen st = some u.address then setTerminal u.address (markMode st) w else w
  | .poll | .post _ _ _ _ _ _ _ | .void _ _ | .railclr _ | .note _ => w

/-- The reply's report is handed on (R124, R125 step 4). -/
def handOn (a : Nat) (r : BusReply) (w : Work) : Work :=
  match r with
  | .ack | .wait => w
  | .start st n => takeStart a st n w
  | .bump st n => takeBump a st n w
  | .taken g => takeTaken a g w
  | .fault => takeFault a w
  | .hello => takeHello a w

/-- A valid reply to the turn under way, in the steps of R125; with no turn under way the characters are discarded (R119), and
so is the reply of a terminal that CLRCFG removed (R120). -/
def handleReply (r : BusReply) (w : Work) : Work :=
  match w.turn with
  | some u =>
    let w := { w with turn := none }
    if u.orphan || (findTerminal w.toKitchen u.address).isNone then w
    else
      let w := terminalHeard u.address w
      let w := if accepts r then acceptFrame u w else keepFrame u w
      passSettle (handOn u.address r w)
  | none => w

/-- A terminal whose miss count has just reached 8 while LIVE becomes LOST (R130). -/
def loseAtLimit (a : Nat) (w : Work) : Work :=
  match findTerminal w.toKitchen a with
  | some t => if atLimit t then passSettle (terminalDown a w) else w
  | none => w

/-- The terminal's side of a miss: the count rises and stops at 8, and the receipt mark clears (R130). -/
def missed (t : Terminal) : Terminal := { t with misses := min (t.misses + 1) Config.missLimit, receipt := false }

/-- A miss: the turn ends, the frame stays pending, and at the eighth miss a LIVE terminal becomes LOST (R130). -/
def missTurn (w : Work) : Work :=
  match w.turn with
  | some u =>
    let w := { w with turn := none }
    if u.orphan || (findTerminal w.toKitchen u.address).isNone then w
    else loseAtLimit u.address (keepFrame u (setTerminal u.address missed w))
  | none => w

/-- A bad reply to the turn under way is a miss; characters that make a valid reply, or none at all, are no bad reply (R119;
DESIGN CHOICE, entry 18). -/
def badReply (cs : List BusChar) (w : Work) : Work :=
  match w.turn with
  | some u =>
    if cs = [] then w
    else
      match judgeReply u.address cs with
      | .valid _ => w
      | .bad | .incomplete => missTurn w
  | none => w

/-- The turn under way is the one whose miss brings the LIVE terminal's count to 8. -/
def lastMissDue (k : Kitchen) (a : Nat) : Bool :=
  match k.turn, findTerminal k a with
  | some u, some t => u.address == a && !u.orphan && t.state == .live && t.misses + 1 == Config.missLimit
  | _, _ => false

/-- The miss of the turn under way is the eighth of the LIVE terminal it addresses, which becomes LOST (R130). In every other
case the step does not occur (DESIGN CHOICE, entry 7). -/
def loseTerminal (a : Nat) (w : Work) : Work := if lastMissDue w.toKitchen a then missTurn w else w

end Sys2Proof.Machine
end

