-- ==== Sys2Proof/Machine/Defs.lean ====
section
/-! DEFINITION. The definition requests, STOCK, REBIND, CLRCFG, and the item query (02_menu_courses_and_stations.md, R13, R136). -/

namespace Sys2Proof.Machine

/-- One field check: refused when the first part holds, with a code and an index (R19). -/
abbrev FieldCheck := Bool × FieldCode × Nat

/-- The first field found wrong (R19). -/
def firstBad (cs : List FieldCheck) : Option Answer :=
  match cs.find? fun c => c.1 with
  | some (_, code, index) => some (.badField code index)
  | none => none

def outside (lo hi n : Nat) : Bool := n < lo || hi < n

/-- A definition request in its steps (R19): GROUPS while a group is in use, then the field checks, then the taking. -/
def define (checks : List FieldCheck) (take : Work → Work × Answer) (w : Work) : Work × Answer :=
  if w.groups ≠ [] then (w, .groups)
  else
    match firstBad checks with
    | some a => (w, a)
    | none => take w

def markOf {α : Type} (old : Option α) : DefMark := if old.isSome then .replaced else .new

/-! ### DEFITEM (R20, R21) -/

/-- The terminal character set, 20h to 7Eh (R176). -/
def terminalChar (b : Byte) : Bool := 0x20 ≤ b.toNat && b.toNat ≤ 0x7E

/-- The kind byte of a STANDING item is 2 (R178). -/
def isStandingCode (n : Nat) : Bool := n == 2

/-- Check 6 of R20 on one component line. -/
def componentChecks (standing : Bool) (index : Nat) (c : Component) : List FieldCheck :=
  [(outside 1 24 c.station, .station, index), (7200 < c.cook, .cook, index),
   (!standing && outside 1 240 c.batch, .batch, index), (!standing && 1800 < c.rest, .rest, index),
   (!standing && outside 60 7200 c.hold, .hold, index)]

/-- Check 8 of R20. -/
def badSubstitute (k : Kitchen) (r : ItemReq) : Bool :=
  if isStandingCode r.kind then r.subst != 0
  else
    r.subst != 0 &&
      match findItem k r.subst with
      | some y => y.number == r.number || y.course != r.course
      | none => true

/-- Check 9 of R20. -/
def movesSubstitute (k : Kitchen) (r : ItemReq) : Bool :=
  match findItem k r.number with
  | some old => k.items.any (fun i => i.number != r.number && i.subst == some r.number) && old.course != r.course
  | none => false

/-- The checks of R20, in order. -/
def itemChecks (k : Kitchen) (r : ItemReq) : List FieldCheck :=
  let standing := isStandingCode r.kind
  [(r.number == 0, .number, 0), (r.name.any fun b => !terminalChar b, .name, 0),
   (outside 1 8 r.course || (findCourse k r.course).isNone, .course, 0), (outside 1 2 r.kind, .kind, 0),
   (outside 1 6 r.lines.length || (standing && r.lines.length != 1), .lines, 0)] ++
  (r.lines.mapIdx (componentChecks standing)).flatten ++
  [(standing && outside 1 240 r.runSize, .runsize, 0), (standing && 999 < r.reorder, .reorder, 0),
   (standing && 3600 < r.lookahead, .lookahead, 0), (badSubstitute k r, .subst, 0), (movesSubstitute k r, .subof, 0)]

/-- The record a DEFITEM that passes gives (R21): the parameters that do not belong to the kind are kept as 0. -/
def itemOf (r : ItemReq) : Item :=
  let standing := isStandingCode r.kind
  withStock (stockField r.stock)
    { number := r.number, name := r.name, course := r.course, kind := if standing then .standing else .plated,
      lines := if standing then r.lines.map fun c => { c with batch := 0, rest := 0, hold := 0 } else r.lines,
      subst := present r.subst, stock := .unlimited, exhausted := false,
      runSize := if standing then r.runSize else 0, reorder := if standing then r.reorder else 0,
      lookahead := if standing then r.lookahead else 0, pool := 0 }

def takeItem (r : ItemReq) (w : Work) : Work × Answer :=
  let before := w.items
  let w' := { w with items := insertEntry Item.number (itemOf r) w.items }
  (if (itemOf r).exhausted && !(wasExhausted before r.number) then raise (.item86 r.number .define) w' else w',
   .ok (.defined r.number (markOf (findItem w.toKitchen r.number))))

def defItem (r : ItemReq) (w : Work) : Work × Answer := define (itemChecks w.toKitchen r) (takeItem r) w

/-! ### DEFCRS (R22) -/

def courseChecks (number base tol : Nat) : List FieldCheck :=
  [(outside 1 8 number, .number, 0), (1800 < base, .platebase, 0), (900 < tol, .tol, 0)]

def takeCourse (c : Course) (w : Work) : Work × Answer :=
  ({ w with courses := insertEntry Course.number c w.courses },
   .ok (.defined c.number (markOf (findCourse w.toKitchen c.number))))

def defCourse (number base perCover tol : Nat) (w : Work) : Work × Answer :=
  define (courseChecks number base tol) (takeCourse ⟨number, base, perCover, tol⟩) w

/-! ### Bindings (R25), DEFSTN (R26) and REBIND (R136) -/

def isStationTerminal (k : Kitchen) (a : Nat) : Bool :=
  match findTerminal k a with
  | some t => t.kind == .station
  | none => false

/-- The binding check (R25); a fallback of 0 is absent. -/
def bindingChecks (k : Kitchen) (st primary fallback : Nat) : List FieldCheck :=
  [(outside 1 30 primary || !isStationTerminal k primary ||
      k.stations.any (fun s => s.number != st && s.defn.primary == primary), .primary, 0),
   (fallback != 0 && (outside 1 30 fallback || !isStationTerminal k fallback || fallback == primary), .fallback, 0)]

def stationChecks (k : Kitchen) (r : StationReq) : List FieldCheck :=
  [(outside 1 24 r.number, .number, 0), (outside 1 8 r.slots, .slots, 0), (600 < r.advance, .advance, 0),
   (600 < r.step, .step, 0), (3600 < r.warmup, .warmup, 0), (900 < r.grace, .grace, 0)] ++
  r.load.mapIdx (fun i p => (decide (100 < p), .load, i)) ++ bindingChecks k r.number r.primary r.fallback

def stationDefOf (r : StationReq) : StationDef :=
  ⟨r.slots, r.advance, r.step, r.warmup, r.grace, r.load, r.primary, present r.fallback⟩

/-- A new station is OFF, and its current terminal is chosen at once; a defined one keeps its mode, countdown and staged mark,
and chooses again if its binding differs (R23, R26). -/
def takeStation (r : StationReq) (w : Work) : Work × Answer :=
  match findStation w.toKitchen r.number with
  | none =>
    let s : Station := { number := r.number, defn := stationDefOf r, mode := .off, countdown := 0, current := none, staged := none }
    (rechoose r.number { w with stations := insertEntry Station.number s w.stations }, .ok (.defined r.number .new))
  | some old =>
    let w' := setStation r.number (fun s => { s with defn := stationDefOf r }) w
    (if old.defn.primary = r.primary ∧ old.defn.fallback = present r.fallback then w' else rechoose r.number w',
     .ok (.defined r.number .replaced))

def defStation (r : StationReq) (w : Work) : Work × Answer := define (stationChecks w.toKitchen r) (takeStation r) w

/-- REBIND (R136): it is not refused for groups in use. The index byte of each BADFIELD is 0 (DESIGN CHOICE, entry 22). -/
def rebind (st primary fallback : Nat) (w : Work) : Work × Answer :=
  if outside 1 24 st then (w, .badField .number 0)
  else
    match findStation w.toKitchen st with
    | none => (w, .noSuch)
    | some _ =>
      match firstBad (bindingChecks w.toKitchen st primary fallback) with
      | some a => (w, a)
      | none =>
        let bound := fun s : Station => { s with defn := { s.defn with primary := primary, fallback := present fallback } }
        let w' := passSettle (rechoose st (setStation st bound w))
        (w', .ok (.rebound st primary (present fallback) (currentOf w'.toKitchen st)))

/-! ### DEFTERM (R28, R29) -/

/-- The kind byte of a PASS terminal is 2 (R178). -/
def termKindOf (n : Nat) : TermKind := if n = 2 then .pass else .station

def boundTo (s : Station) (a : Nat) : Bool := s.defn.primary == a || s.defn.fallback == some a

/-- Checks 1 to 3 of R28. -/
def terminalChecks (k : Kitchen) (a kind : Nat) : List FieldCheck :=
  [(outside 1 30 a, .address, 0), (outside 1 2 kind, .kind, 0),
   ((match findTerminal k a with
      | some t => t.kind != termKindOf kind
      | none => false) && k.stations.any (fun s => boundTo s a), .kind, 0)]

/-- Check 4 of R28: two terminals at other addresses are already of kind PASS. -/
def passFull (k : Kitchen) (a kind : Nat) : Bool :=
  termKindOf kind == .pass &&
    decide (Config.maxPass ≤ (k.terminals.filter fun t => t.kind == .pass && t.address != a).length)

def newTerminal (a kind : Nat) : Terminal :=
  { address := a, kind := termKindOf kind, state := .unknown, misses := 0, receipt := false, posts := [], voids := [],
    nextMarks := [], modeMarks := [], railclrs := [], notes := [], shown := [] }

/-- What a defined terminal keeps: all of it with the same kind; with the other, its state, miss count and receipt mark, while
any RAILCLR pending and both NOTE lists go (R29, R139). -/
def redefined (kind : Nat) (t : Terminal) : Terminal :=
  if t.kind = termKindOf kind then t else { t with kind := termKindOf kind, railclrs := [], notes := [], shown := [] }

def takeTerminal (a kind : Nat) (w : Work) : Work × Answer :=
  if passFull w.toKitchen a kind then (w, .full)
  else
    match findTerminal w.toKitchen a with
    | none => ({ w with terminals := insertEntry Terminal.address (newTerminal a kind) w.terminals }, .ok (.defined a .new))
    | some _ => (setTerminal a (redefined kind) w, .ok (.defined a .replaced))

def defTerminal (a kind : Nat) (w : Work) : Work × Answer := define (terminalChecks w.toKitchen a kind) (takeTerminal a kind) w

/-! ### STOCK (R31), QITEM (R36) and CLRCFG (R13) -/

/-- STOCK (R31). The index byte of its BADFIELD is 0 (DESIGN CHOICE, entry 22). -/
def setStock (item stock : Nat) (w : Work) : Work × Answer :=
  if item = 0 then (w, .badField .number 0)
  else
    match findItem w.toKitchen item with
    | none => (w, .noSuch)
    | some i =>
      let j := withStock (stockField stock) i
      let w' := setItem item (withStock (stockField stock)) w
      (passSettle (if j.exhausted && !i.exhausted then raise (.item86 item .stock) w' else w'),
       .ok (.stockSet item j.stock j.exhausted))

/-- QITEM (R36). The index byte of its BADFIELD is 0 (DESIGN CHOICE, entry 22). -/
def queryItem (item : Nat) (w : Work) : Work × Answer :=
  if item = 0 then (w, .badField .number 0)
  else
    match findItem w.toKitchen item with
    | none => (w, .noSuch)
    | some i => (w, .ok (.item i (inRuns w.toKitchen item)))

/-- CLRCFG (R13): refused while a group is in use; else the four tables are emptied, and one broadcast is owed. -/
def clearConfig (w : Work) : Work × Answer :=
  if w.groups ≠ [] then (w, .groups)
  else
    (setBroadcast
      { w with
        items := []
        courses := []
        stations := []
        terminals := []
        drawOrder := []
        owed := Owed.none
        lastTurn := 0
        turn := w.turn.map fun u => { u with orphan := true } },
     .ok .empty)

end Sys2Proof.Machine
end

