-- ==== Sys2Proof/Machine/Groups.lean ====
section
/-! DEFINITION. The requests of the Group Table and REFIRE (03_firing_groups.md, R158 to R160). -/

namespace Sys2Proof.Machine

/-! ### Shared by the group requests -/

/-- Steps 1 and 2 of R45: the number, and the record. The index byte of the BADFIELD is 0 (DESIGN CHOICE, entry 22). -/
def judgeGroup (n : Nat) (w : Work) (act : Group → Work × Answer) : Work × Answer :=
  if outside 1 Config.maxGroup n then (w, .badField .number 0)
  else
    match findGroup w.toKitchen n with
    | none => (w, .noSuch)
    | some g => act g

/-- Steps 1 to 3 of R45: and the group is PLANNED or FIRING. -/
def judgeActive (n : Nat) (w : Work) (act : Group → Work × Answer) : Work × Answer :=
  judgeGroup n w fun g => if keepsProjection g then act g else (w, .badState)

/-- The flags and P of a group as they stand. -/
def flagsAndP (k : Kitchen) (n : Nat) : Flags × Int :=
  match findGroup k n with
  | some g => (g.flags, g.proj)
  | none => (Flags.clear, 0)

/-- The sum of the counts of lines (R38). -/
def totalCount (ls : List Line) : Nat := (ls.map Line.count).sum

/-- Whether a line is the one that item and substituted-from name (R38). -/
def isLine (item : Nat) (sf : Option Nat) (l : Line) : Bool := l.item == item && l.subFrom == sf

/-- Portions of a line committed: its count less its shortfall, for a PLATED item (R42). -/
def committedOf (k : Kitchen) (l : Line) : Nat := if itemKind k l.item = some .plated then l.count - l.shortfall else 0

/-- d of a component: the portions in its dispatched tickets (R45). -/
def dispatchedOf (k : Kitchen) (g : Nat) (l : Line) (c : Nat) : Nat :=
  portionsOf k fun t => ofComponent g l.item l.subFrom c t && dispatched t

/-- The component lines of an item, none where it is undefined. -/
def componentsOf (k : Kitchen) (item : Nat) : List Component := ((findItem k item).map Item.lines).getD []

/-- The largest d among the components of a line (R52). -/
def largestDispatched (k : Kitchen) (g : Nat) (l : Line) : Nat :=
  ((List.range (componentsOf k l.item).length).map (dispatchedOf k g l)).foldl max 0

/-- A component computation on n portions, where n is above 0 (R64). -/
def computeFor (k : Kitchen) (g : Group) (l : Line) (idx : Nat) (c : Component) (n : Nat) : List Computation :=
  if n = 0 then []
  else
    match findStation k c.station with
    | some s => [componentComputation k.clock g.target g.lead ⟨g.number, l.item, idx, l.subFrom⟩ c s.defn n]
    | none => []

/-- The computations of a line: for every component of a PLATED line, on count less shortfall less d (R43, R46, R50, R74). -/
def lineComputations (k : Kitchen) (g : Group) (l : Line) : List Computation :=
  if itemKind k l.item = some .plated then
    ((componentsOf k l.item).mapIdx fun idx c =>
      computeFor k g l idx c (l.count - l.shortfall - dispatchedOf k g.number l idx)).flatten
  else []

/-- The numbers of the undispatched tickets of a line (R46). -/
def waitingTickets (k : Kitchen) (g : Nat) (l : Line) : List Nat :=
  (k.tickets.filter fun t =>
    t.group == g && t.item == l.item && t.subFrom == l.subFrom && t.kind != .standing && undispatched t).map Ticket.number

/-- The ticket descriptions of computations, in creation order. -/
def descsOf (cs : List Computation) : List TicketDesc := cs.flatMap Computation.tickets

/-- The pool's answer: the free records and those the request frees are enough (R81). -/
def poolHas (k : Kitchen) (frees : List Nat) (cs : List Computation) : Bool :=
  (descsOf cs).length ≤ freeRecords k + frees.length

/-- The freeings take effect first, then the new records are taken in creation order (R81). -/
def rebuild (frees : List Nat) (cs : List Computation) (w : Work) : Work :=
  createTickets (descsOf cs) (forEach dropTicket frees w)

/-- The stations a rebuild concerns: those of the tickets freed and of the new ones, ascending (DESIGN CHOICE, entry 23). -/
def touched (k : Kitchen) (frees : List Nat) (cs : List Computation) : List Nat :=
  stationsWhere k fun s =>
    (descsOf cs).any (fun d => d.station == s.number) ||
      k.tickets.any (fun t => frees.contains t.number && t.station == s.number)

/-- The arbiters of stations act (R84, R89); that they act in ascending number is the model's (DESIGN CHOICE, entry 23). -/
def arbiters (sts : List Nat) (w : Work) : Work := forEach arbiter sts w

/-- The shortfall a line had before a request, 0 where it was not there. -/
def oldShortfall (before : List Line) (l : Line) : Nat :=
  match before.find? (isLine l.item l.subFrom) with
  | some m => m.shortfall
  | none => 0

/-- GRPSHORT for each line whose shortfall rose, in record order (R44, R48, R57). At a REFIRE, for which R160 gives no order, it is
record order too (DESIGN CHOICE, entry 25). -/
def raiseShort (g : Group) (before after : List Line) (w : Work) : Work :=
  (after.filter fun l => oldShortfall before l < l.shortfall).foldl
    (fun w l => raise (.grpshort g.number g.tag l.item l.subFrom l.count l.shortfall) w) w

/-- GRPSTRETCH for each stretched computation, in creation order (R44, R58; at a REFIRE DESIGN CHOICE, entry 25). -/
def raiseStretch (g : Group) (cs : List Computation) (w : Work) : Work :=
  (cs.filter Computation.stretched).foldl
    (fun w c => raise (.grpstretch g.number g.tag c.item c.comp c.held c.hold) w) w

/-- The group's part in a taken request: lines and flags, the reports in the order of R44, and P with its late flag. -/
def settleGroup (items : List Item) (g : Group) (lines : List Line) (cs : List Computation) (w : Work) : Work :=
  let w := setGroup g.number (fun x =>
    { x with
      lines := lines
      flags := { x.flags with short := anyShort lines, stretched := x.flags.stretched || cs.any Computation.stretched } }) w
  recompute g.number (raiseStretch g cs (raiseShort g g.lines lines (settleStock items w)))

/-! ### SUBMIT (R41 to R44) -/

/-- Check 5 of R41 on the line with the given index. -/
def orderChecks (k : Kitchen) (r : SubmitReq) (index : Nat) (l : OrderLine) : List FieldCheck :=
  let earlier := (r.lines.take index).any fun m => m.item == l.item
  let item := findItem k l.item
  [((match item with
      | some i => l.item == 0 || i.course != r.course
      | none => true) || earlier, .item, index),
   (outside 1 Config.maxCount l.count, .count, index),
   ((match item with
      | some i => i.kind == .plated && hasLooseStation k i
      | none => false), .station, index)]

/-- The checks of R41, in order. The index byte of a field that is no line field is 0 (DESIGN CHOICE, entry 22). -/
def submitChecks (k : Kitchen) (r : SubmitReq) : List FieldCheck :=
  [(r.sect == 0, .sect, 0), (outside 1 8 r.course || (findCourse k r.course).isNone, .course, 0),
   (outside 1 Config.maxCount r.covers, .covers, 0), (outside 1 Config.maxLines r.lines.length, .lines, 0)] ++
  (r.lines.mapIdx (orderChecks k r)).flatten ++
  [(decide (r.covers < (r.lines.map OrderLine.count).sum), .sum, 0)]

/-- The walk over a SUBMIT's lines (R42): the stock, the ordered lines and the substituted lines so far, and the reply's lines. -/
structure Walk where
  work : Work
  ordered : List Line
  subs : List Line
  info : List SubmitLine

/-- The portions that go to a substitute: none without one, or with no portions short, or with no room for its line. -/
def substitute (sub : Option Nat) (short : Nat) (room : Bool) (w : Work) : Work × Nat :=
  match sub with
  | some y => if short = 0 || !room then (w, 0) else offer y short w
  | none => (w, 0)

/-- One line of the walk (R42); `places` is the number of ordered lines. -/
def walkLine (places : Nat) (s : Walk) (l : OrderLine) : Walk :=
  match findItem s.work.toKitchen l.item with
  | some x =>
    match x.kind with
    | .standing =>
      { s with
        ordered := s.ordered ++ [⟨l.item, none, l.count, 0, false⟩]
        info := s.info ++ [⟨0, 0, 0, 0⟩] }
    | .plated =>
      let c := commit l.item l.count s.work
      let short := l.count - c.2
      let u := substitute x.subst short (decide (places + s.subs.length < Config.maxLines)) c.1
      { work := u.1
        ordered := s.ordered ++ [⟨l.item, none, l.count - u.2, short - u.2, false⟩]
        subs := if u.2 = 0 then s.subs else s.subs ++ [⟨x.subst.getD 0, some l.item, u.2, 0, false⟩]
        info := s.info ++ [⟨c.2, if u.2 = 0 then 0 else x.subst.getD 0, u.2, short - u.2⟩] }
  | none => s

/-- The whole walk. -/
def walk (r : SubmitReq) (w : Work) : Walk := r.lines.foldl (walkLine r.lines.length) ⟨w, [], [], []⟩

/-- The lines of the record: a line left with count 0 is removed when the walk ends (R42). -/
def Walk.lines (s : Walk) : List Line := (s.ordered.filter fun l => l.count != 0) ++ s.subs

/-- The lowest free group number (R37). -/
def lowestFree (k : Kitchen) : Option Nat :=
  ((List.range Config.maxGroup).map (· + 1)).find? fun n => (findGroup k n).isNone

/-- The new record of a SUBMIT (R37, R43). -/
def newGroup (k : Kitchen) (r : SubmitReq) (n : Nat) : Group :=
  let lead :=
    match findCourse k r.course with
    | some c => platingLead c.base c.perCover r.covers
    | none => 0
  { number := n, tag := r.tag, sect := r.sect, course := r.course, covers := r.covers, target := r.target, lead := lead,
    state := .planned, flags := Flags.clear, proj := 0, lines := [], lifeEnd := none, display := none }

/-- SUBMIT: checks, commitment, ticket allocation, creation (R41 to R44). The reply shows the group before the arbiters and the
Pass Unit act (DESIGN CHOICE, entry 8). -/
def submit (r : SubmitReq) (w : Work) : Work × Answer :=
  match firstBad (submitChecks w.toKitchen r) with
  | some a => (w, a)
  | none =>
    match lowestFree w.toKitchen with
    | none => (w, .full)
    | some n =>
      let s := walk r w
      let g := newGroup w.toKitchen r n
      let cs := s.lines.flatMap (lineComputations s.work.toKitchen g)
      if poolHas w.toKitchen [] cs then
        let w1 := createTickets (descsOf cs) { s.work with groups := insertEntry Group.number g s.work.groups }
        let w2 := settleGroup w.items g s.lines cs w1
        let fp := flagsAndP w2.toKitchen n
        (passSettle (handOver n (arbiters (touched w2.toKitchen [] cs) w2)), .ok (.submitted n fp.1 fp.2 s.info))
      else (w, .full)

/-! ### AMEND (R45 to R49) -/

/-- The present count of a line, 0 where the group does not hold it. -/
def presentCount (g : Group) (item : Nat) (sf : Option Nat) : Nat :=
  ((g.lines.find? (isLine item sf)).map Line.count).getD 0

/-- Steps 4 to 9 of R45; none where the request goes on. The index byte of each BADFIELD is 0 (DESIGN CHOICE, entry 22). -/
def amendRefusal (k : Kitchen) (g : Group) (item subFrom count : Nat) : Option Answer :=
  let held := g.lines.any (isLine item (present subFrom))
  match findItem k item with
  | none => some (.badField .item 0)
  | some i =>
    if item = 0 ∨ i.course ≠ g.course then some (.badField .item 0)
    else if subFrom ≠ 0 ∧ !held then some .noSuch
    else if Config.maxCount < count ∨ (count = 0 ∧ !held) then some (.badField .count 0)
    else if presentCount g item (present subFrom) < count ∧ i.kind = .plated ∧ hasLooseStation k i then
      some (.badField .station 0)
    else if g.covers < totalCount g.lines - presentCount g item (present subFrom) + count then some (.badField .sum 0)
    else if !held ∧ subFrom = 0 ∧ Config.maxLines ≤ g.lines.length then some .full
    else none

/-- A changed line in the reply: as it stands, with what the request moved to its substitute (DESIGN CHOICE, entry 10). -/
def amendLine (k : Kitchen) (l : Line) (sub moved : Nat) : AmendLine :=
  ⟨l.item, l.subFrom, l.count, committedOf k l, sub, moved, l.shortfall⟩

/-- Puts a line in its place in the record, or at the end; a count of 0 removes it (R46, R47, R49). -/
def putLine (l : Line) (ls : List Line) : List Line :=
  let placed := if ls.any (isLine l.item l.subFrom) then ls.map (fun m => if isLine l.item l.subFrom m then l else m) else ls ++ [l]
  placed.filter fun m => m.count != 0

/-- The taking of an AMEND whose stock is settled in `w` and whose lines are `lines`, of which `changed` are rebuilt (R48). -/
def takeAmend (before : Work) (g : Group) (lines changed : List Line) (info : List AmendLine) (w : Work) : Work × Answer :=
  let frees := changed.flatMap (waitingTickets w.toKitchen g.number)
  let cs := (lines.filter fun l => changed.any (isLine l.item l.subFrom)).flatMap (lineComputations w.toKitchen g)
  if poolHas w.toKitchen frees cs then
    let sts := touched w.toKitchen frees cs
    let w2 := settleGroup before.items g lines cs (rebuild frees cs w)
    let fp := flagsAndP w2.toKitchen g.number
    (passSettle (handOver g.number (arbiters sts w2)), .ok (.amended fp.1 fp.2 info))
  else (before, .full)

/-- An AMEND that lowers the count of a PLATED line (R46). -/
def amendDown (g : Group) (l : Line) (count : Nat) (w : Work) : Work × Answer :=
  let short := l.shortfall - (l.count - count)
  let l' := { l with count := count, shortfall := short }
  if count - short < largestDispatched w.toKitchen g.number l then (w, .inFire)
  else
    takeAmend w g (putLine l' g.lines) [l'] [amendLine w.toKitchen l' 0 0]
      (giveBack l.item ((l.count - l.shortfall) - (count - short)) w)

/-- Whether the group's line of a substitute can take portions, and has room if it is new (R47; DESIGN CHOICE,
entry 15). -/
def subRoom (g : Group) (x y : Nat) (adding : Bool) : Bool :=
  match g.lines.find? (isLine y (some x)) with
  | some m => !m.drawn
  | none => g.lines.length + (if adding then 1 else 0) < Config.maxLines

/-- An AMEND that raises the count of a PLATED line, or adds one (R47). `l` is the line as it stands, with count 0 if added. Where
both a line of X and a line of its substitute are new, X's comes first in the record (DESIGN CHOICE, entry 10). -/
def amendUp (g : Group) (x : Item) (l : Line) (adding : Bool) (count : Nat) (w : Work) : Work × Answer :=
  let added := count - l.count
  let c := commit x.number added w
  let short := added - c.2
  let sub := if l.subFrom = none then x.subst else none
  let y := sub.getD 0
  let u := substitute sub short (subRoom g x.number y adding) c.1
  let l' := { l with count := count - u.2, shortfall := l.shortfall + (short - u.2) }
  let lines := putLine l' g.lines
  if u.2 = 0 then takeAmend w g lines [l'] [amendLine w.toKitchen l' 0 0] u.1
  else
    let old := (g.lines.find? (isLine y (some x.number))).getD ⟨y, some x.number, 0, 0, false⟩
    let m := { old with count := old.count + u.2 }
    takeAmend w g (putLine m lines) [l', m] [amendLine w.toKitchen l' y u.2, amendLine w.toKitchen m 0 0] u.1

/-- An AMEND of a STANDING line: no stock, no tickets, no substitution (R49). -/
def amendStanding (g : Group) (l : Line) (count : Nat) (w : Work) : Work × Answer :=
  if l.drawn then (w, .inFire)
  else
    let l' := { l with count := count }
    takeAmend w g (putLine l' g.lines) [] [amendLine w.toKitchen l' 0 0] w

/-- AMEND (R45 to R49); a new count equal to the present one is taken and changes nothing (R45). -/
def amend (n item subFrom count : Nat) (w : Work) : Work × Answer :=
  judgeActive n w fun g =>
    match amendRefusal w.toKitchen g item subFrom count, findItem w.toKitchen item with
    | some a, _ => (w, a)
    | none, none => (w, .badField .item 0)
    | none, some x =>
      let old := g.lines.find? (isLine item (present subFrom))
      let l := old.getD ⟨item, present subFrom, 0, 0, false⟩
      if count = l.count then (w, .ok (.amended g.flags g.proj [amendLine w.toKitchen l 0 0]))
      else
        match x.kind with
        | .standing => amendStanding g l count w
        | .plated => if count < l.count then amendDown g l count w else amendUp g x l old.isNone count w

/-! ### RETIME and HOLD (R50, R51) -/

def retime (n target : Nat) (w : Work) : Work × Answer :=
  judgeActive n w fun g =>
    let g' := { g with target := target, flags := { g.flags with held := false } }
    let frees := g.lines.flatMap (waitingTickets w.toKitchen n)
    let cs := g.lines.flatMap (lineComputations w.toKitchen g')
    let sts := touched w.toKitchen frees cs
    let w1 := setGroup n (fun x => { x with target := target, flags := { x.flags with held := false } }) (rebuild frees cs w)
    let w2 := settleGroup w.items g' g.lines cs w1
    let fp := flagsAndP w2.toKitchen n
    (passSettle (handOver n (arbiters sts w2)), .ok (.timed fp.1 fp.2))

/-- The stations at which a group has a ticket, ascending (DESIGN CHOICE, entries 13 and 23). -/
def groupStations (k : Kitchen) (n : Nat) : List Nat :=
  stationsWhere k fun s => k.tickets.any fun t => t.group == n && t.station == s.number

def hold (n : Nat) (w : Work) : Work × Answer :=
  judgeActive n w fun g =>
    let answer := Answer.ok (.timed { g.flags with held := true } g.proj)
    if g.flags.held then (w, answer)
    else
      let w1 := setGroup n (fun x => { x with flags := { x.flags with held := true } }) w
      (passSettle (arbiters (groupStations w.toKitchen n) (checkDraw n w1)), answer)

/-! ### CANCEL and PICKUP (R52, R55) -/

/-- What CANCEL does to one ticket, by its state (R52, R99). -/
def cancelTicket (t : Ticket) (w : Work) : Work :=
  if onRail t then
    match currentOf w.toKitchen t.station with
    | some a =>
      setTerminal a (fun x => pendVoid t.station t.number (unpendPost t.number x))
        (setTicket t.number (fun t => { t with state := .voiding }) w)
    | none => dropTicket t.number w
  else dropTicket t.number w

/-- The stock a line's cancellation returns: count less shortfall less the largest d, of a PLATED line (R52). -/
def cancelReturn (k : Kitchen) (g : Nat) (l : Line) : Nat := committedOf k l - largestDispatched k g l

/-- CANCEL (R52); the order of its parts is the model's (DESIGN CHOICE, entry 13). -/
def cancel (n : Nat) (w : Work) : Work × Answer :=
  judgeGroup n w fun g =>
    if keepsProjection g || g.state == .ready then
      let sts := groupStations w.toKitchen n
      let w1 := leaveDraw n (setGroup n (fun x => { x with state := .cancelled, flags := { x.flags with held := false } }) w)
      let w2 := (w.tickets.filter fun t => t.group == n).foldl (fun w t => cancelTicket t w) w1
      let w3 := g.lines.foldl (fun w' l => giveBack l.item (cancelReturn w.toKitchen n l) w') w2
      let w4 := refreshDisplay n (forEach slotFreed sts w3)
      let left := (ticketsOf w4.toKitchen n).length
      (passSettle (if left = 0 then freeGroup n .cancelled w4 else w4), .ok (.cancelled left))
    else (w, .badState)

def pickup (n : Nat) (w : Work) : Work × Answer :=
  judgeGroup n w fun g =>
    if g.state = .ready then (passSettle (freeGroup n .served w), .ok (.served n g.tag)) else (w, .badState)

/-! ### REFIRE (R158 to R160) -/

/-- What a REFIRE makes of one component of one line: n_c, u_c and the computations (R159). -/
structure RefireComp where
  index : Nat
  done : Nat
  waiting : Nat
  redone : Nat
  rush : List Computation
  rebuilt : List Computation

/-- What a REFIRE makes of one line (R159). -/
structure RefirePlan where
  line : Line
  asked : Nat
  lost : Nat
  comps : List RefireComp

/-- The lines of an item on a group, the ordered line first (R159); then the lines substituted from other items, two or more of
which stand in record order, and so take the stock in that order (DESIGN CHOICE, entry 11). -/
def refireLines (g : Group) (item : Nat) : List Line :=
  (g.lines.filter (isLine item none)) ++ g.lines.filter fun l => l.item == item && l.subFrom != none

def doneOf (k : Kitchen) (g : Nat) (l : Line) (c : Nat) : Nat :=
  portionsOf k fun t => ofComponent g l.item l.subFrom c t && t.state == .done

def waitingOf (k : Kitchen) (g : Nat) (l : Line) (c : Nat) : Nat :=
  portionsOf k fun t => ofComponent g l.item l.subFrom c t && undispatched t

/-- The refire portions r of a line: the largest n_c (R159). -/
def refirePortions (k : Kitchen) (g : Nat) (l : Line) : Nat :=
  ((List.range (componentsOf k l.item).length).map (doneOf k g l)).foldl max 0

/-- One component's part in a refire that loses e portions (R159). -/
def refireComp (k : Kitchen) (g : Group) (l : Line) (e idx : Nat) (c : Component) : RefireComp :=
  let n := doneOf k g.number l idx
  let u := waitingOf k g.number l idx
  { index := idx
    done := n
    waiting := u
    redone := n - e
    rush :=
      if n - e = 0 then []
      else
        match findStation k c.station with
        | some s => [refireComputation k.clock ⟨g.number, l.item, idx, l.subFrom⟩ c s.defn (n - e)]
        | none => []
    rebuilt := if n < e then computeFor k g l idx c (u - (e - n)) else [] }

/-- The plans of the lines with a DONE ticket, each line's stock being what the lines before it would leave (R159). -/
def refirePlans (k : Kitchen) (g : Group) : List Line → Stock → List RefirePlan
  | [], _ => []
  | l :: rest, stock =>
    let r := refirePortions k g.number l
    if r = 0 then refirePlans k g rest stock
    else
      let e := r - takeable stock r
      ⟨l, r, e, (componentsOf k l.item).mapIdx (refireComp k g l e)⟩ :: refirePlans k g rest (stockAfter stock r)

/-- The INFIRE check: a component cannot lose its portions from its undispatched ones (R159). -/
def RefirePlan.inFire (p : RefirePlan) : Bool := p.comps.any fun c => decide (c.done < p.lost ∧ c.waiting < p.lost - c.done)

/-- The tickets a plan frees: the line's DONE tickets, and the undispatched tickets of each component that loses from them. -/
def RefirePlan.frees (k : Kitchen) (g : Nat) (p : RefirePlan) : List Nat :=
  (k.tickets.filter fun t =>
    t.group == g && t.item == p.line.item && t.subFrom == p.line.subFrom && t.kind != .standing &&
      (t.state == .done || (undispatched t && p.comps.any fun c => c.index == t.comp && c.done < p.lost))).map Ticket.number

/-- The computations of a plan, in component index order (R38; DEDUCED, entry 11). -/
def RefirePlan.computations (p : RefirePlan) : List Computation := p.comps.flatMap fun c => c.rush ++ c.rebuilt

/-- The lines after a refire: e is added to each line's shortfall (R159). -/
def refiredLines (plans : List RefirePlan) (ls : List Line) : List Line :=
  ls.map fun l =>
    match plans.find? fun p => isLine p.line.item p.line.subFrom l with
    | some p => { l with shortfall := l.shortfall + p.lost }
    | none => l

/-- For each component of the item: the portions redone and the RUSH tickets, summed over the lines (R160). -/
def refireCounts (k : Kitchen) (item : Nat) (plans : List RefirePlan) : List (Nat × Nat) :=
  (List.range (componentsOf k item).length).map fun idx =>
    let mine := plans.flatMap fun p => p.comps.filter fun c => c.index == idx
    ((mine.map RefireComp.redone).sum, ((mine.flatMap RefireComp.rush).map fun c => c.tickets.length).sum)

/-- The flag clears where the life end is absent or later than the clock (R160). -/
def clearDying (n : Nat) (w : Work) : Work :=
  match lifeEndOf w.toKitchen n with
  | some e =>
    if (w.clock : Int) < e then setGroup n (fun g => { g with flags := { g.flags with dying := false } }) w else w
  | none => setGroup n (fun g => { g with flags := { g.flags with dying := false } }) w

/-- A taken REFIRE (R159, R160). -/
def takeRefire (g : Group) (item : Nat) (plans : List RefirePlan) (w : Work) : Work × Answer :=
  let n := g.number
  let frees := plans.flatMap (RefirePlan.frees w.toKitchen n)
  let cs := plans.flatMap RefirePlan.computations
  if poolHas w.toKitchen frees cs then
    let sts := touched w.toKitchen frees cs
    let w1 := rebuild frees cs ((plans.map RefirePlan.asked).foldl (fun w r => (commit item r w).1) w)
    let w2 := setGroup n (fun x => { x with state := if x.state = .ready then .firing else x.state }) w1
    let w3 := refreshDisplay n (clearDying n (recomputeLife n w2))
    let w4 := settleGroup w.items g (refiredLines plans g.lines) cs w3
    let fp := flagsAndP w4.toKitchen n
    (passSettle (arbiters sts (checkDraw n w4)),
     .ok (.refired fp.1 fp.2 (refireCounts w.toKitchen item plans) ((plans.map RefirePlan.lost).sum)))
  else (w, .full)

/-- REFIRE, judged in the order of R158. The index byte of the BADFIELD is 0 (DESIGN CHOICE, entry 22). -/
def refire (n item : Nat) (w : Work) : Work × Answer :=
  judgeGroup n w fun g =>
    if g.state ≠ .firing ∧ g.state ≠ .ready then (w, .badState)
    else
      match findItem w.toKitchen item with
      | none => (w, .badField .item 0)
      | some x =>
        if item = 0 then (w, .badField .item 0)
        else if !(g.lines.any fun l => l.item == item) then (w, .noSuch)
        else
          let plans := refirePlans w.toKitchen g (refireLines g item) x.stock
          if plans = [] then (w, .badState)
          else if plans.any RefirePlan.inFire then (w, .inFire)
          else takeRefire g item plans w

/-! ### QGROUP (R61, R180) -/

def compPortions (k : Kitchen) (g : Nat) (l : Line) (c : Nat) : CompPortions :=
  let mine := fun p : Ticket → Bool => portionsOf k fun t => ofComponent g l.item l.subFrom c t && p t
  ⟨mine undispatched, mine onRail, mine fun t => t.state == .done, mine fun t => t.state == .voiding⟩

def lineView (k : Kitchen) (g : Nat) (l : Line) : LineView :=
  ⟨l, if itemKind k l.item = some .plated then (List.range (componentsOf k l.item).length).map (compPortions k g l) else []⟩

/-- The bytes a line takes in a QGROUP reply (R180). -/
def lineSize (v : LineView) : Nat := 8 + 8 * v.comps.length

/-- As many whole lines as fit, stopping before the first that would not (R180). -/
def fitLines : Nat → List LineView → List LineView
  | _, [] => []
  | room, v :: rest => if lineSize v ≤ room then v :: fitLines (room - lineSize v) rest else []

/-- The room for lines: 254 bytes after status and kind, less the 23 of the record and the counts (R180). -/
def lineRoom : Nat := 254 - 23

def queryGroup (n first : Nat) (w : Work) : Work × Answer :=
  judgeGroup n w fun g =>
    (w, .ok (.group ⟨g, (ticketsOf w.toKitchen n).length, first,
      fitLines lineRoom ((g.lines.drop first).map (lineView w.toKitchen n))⟩))

end Sys2Proof.Machine
end

