-- ==== Sys2Proof/Machine/Modes.lean ====
section
/-! DEFINITION. The mode requests and the queries of stations and terminals (06_station_modes.md, R102, R141). -/

namespace Sys2Proof.Machine

/-- Steps 1 and 2 of R104: the number, and the record. The index byte of the BADFIELD is 0 (DESIGN CHOICE, entry 22). -/
def judgeStation (n : Nat) (w : Work) (act : Station → Work × Answer) : Work × Answer :=
  if outside 1 Config.maxStation n then (w, .badField .number 0)
  else
    match findStation w.toKitchen n with
    | none => (w, .noSuch)
    | some s => act s

/-- A mode request that is taken: the change, and the reply with the mode it ends in (R104, R114). -/
def takeMode (n : Nat) (m : Mode) (countdown : Nat) (cause : ModeCause) (w : Work) : Work × Answer :=
  (passSettle (changeMode n m countdown cause 0 w), .ok (.modeSet n m))

/-- A warm-up begins: WARMING with the countdown at W, or READY at once where W is 0 (R105, R113). -/
def warmUp (n : Nat) (s : Station) (cause : ModeCause) (w : Work) : Work × Answer :=
  if s.defn.warmup = 0 then takeMode n .ready 0 cause w else takeMode n .warming s.defn.warmup cause w

/-- STNON (R105). -/
def stationOn (n : Nat) (w : Work) : Work × Answer :=
  judgeStation n w fun s => if s.mode = .off then warmUp n s .stnon w else (w, .badState)

/-- STNOFF (R107): DRAINING if a slot is held, else OFF. -/
def stationOff (n : Nat) (w : Work) : Work × Answer :=
  judgeStation n w fun s =>
    if s.mode = .warming ∨ s.mode = .ready ∨ s.mode = .paused then
      takeMode n (if slotsHeld w.toKitchen n = 0 then .off else .draining) 0 .stnoff w
    else (w, .badState)

/-- PAUSE (R109). -/
def pauseStation (n : Nat) (w : Work) : Work × Answer :=
  judgeStation n w fun s => if s.mode = .ready then takeMode n .paused 0 .pause w else (w, .badState)

/-- RESUME (R109). -/
def resumeStation (n : Nat) (w : Work) : Work × Answer :=
  judgeStation n w fun s => if s.mode = .paused then takeMode n .ready 0 .resume w else (w, .badState)

/-- HALT (R111). -/
def haltStation (n : Nat) (w : Work) : Work × Answer :=
  judgeStation n w fun s =>
    if s.mode = .off ∨ s.mode = .halted then (w, .badState) else takeMode n .halted 0 .halt w

/-- CLEAR (R113). -/
def clearStation (n : Nat) (w : Work) : Work × Answer :=
  judgeStation n w fun s => if s.mode = .halted then warmUp n s .clear w else (w, .badState)

/-- Every station in one mode passes to another, ascending, one STNMODE each; the reply carries how many (R110). Each station's
change is whole, with its arbiter's grants and the GRPLATE they raise, before the next station's STNMODE (DESIGN CHOICE, entry 23). -/
def changeAll (old new : Mode) (cause : ModeCause) (w : Work) : Work × Answer :=
  let sts := stationsWhere w.toKitchen fun s => s.mode == old
  (passSettle (forEach (fun n => changeMode n new 0 cause 0) sts w), .ok (.modesSet sts.length))

/-- PAUSEALL (R110). -/
def pauseAll (w : Work) : Work × Answer := changeAll .ready .paused .pauseall w

/-- RESUMEALL (R110). -/
def resumeAll (w : Work) : Work × Answer := changeAll .paused .ready .resumeall w

/-! ### QSTN and QTERM -/

/-- The count of a station's tickets in a state (R102). -/
def stateCount (k : Kitchen) (st : Nat) (s : TicketState) : Nat :=
  (k.tickets.filter fun t => t.station == st && t.state == s).length

def stationView (k : Kitchen) (s : Station) : StationView :=
  { station := s
    currentState := (s.current.bind (findTerminal k)).map Terminal.state
    held := slotsHeld k s.number
    counts :=
      ⟨stateCount k s.number .queued, stateCount k s.number .due, stateCount k s.number .sent,
       stateCount k s.number .posted, stateCount k s.number .cooking, stateCount k s.number .voiding⟩
    head := (queueOf k s.number).take 8 }

/-- QSTN (R117). -/
def queryStation (n : Nat) (w : Work) : Work × Answer :=
  judgeStation n w fun s => (w, .ok (.station (stationView w.toKitchen s)))

/-- QTERM (R141). The index byte of its BADFIELD is 0 (DESIGN CHOICE, entry 22). -/
def queryTerminal (a : Nat) (w : Work) : Work × Answer :=
  if outside 1 Config.maxTerminal a then (w, .badField .number 0)
  else
    match findTerminal w.toKitchen a with
    | none => (w, .noSuch)
    | some t =>
      (w, .ok (.terminal
        { terminal := t
          primaryOf := (stationsWhere w.toKitchen fun s => s.defn.primary == a).headD 0
          fallbackOf := stationsWhere w.toKitchen fun s => s.defn.fallback == some a
          currentFor := stationsWhere w.toKitchen fun s => s.current == some a }))

end Sys2Proof.Machine
end

