-- ==== Sys2Proof/Machine/Event.lean ====
section
/-! DEFINITION. The Event Controller and the events of time (01_event_life_and_the_service_clock.md, R86, R98, R106, R143, R148). -/

namespace Sys2Proof.Machine

/-! ### START (R6, R7) -/

/-- The first component line that names an undefined station, items ascending: station and item (R6). -/
def firstLoose (k : Kitchen) : Option (Nat × Nat) :=
  (k.items.flatMap fun i => i.lines.map fun c => (c.station, i.number)).find? fun p => (findStation k p.1).isNone

/-- QUEUED tickets that p picks out become DUE, and their groups are told (R86), ascending (DESIGN CHOICE, entry 23). -/
def makeDue (p : Ticket → Bool) (w : Work) : Work :=
  let hit := fun t : Ticket => t.state == .queued && p t
  let gs := (w.groups.filter fun g => w.tickets.any fun t => t.group == g.number && hit t).map Group.number
  forEach recompute gs { w with tickets := w.tickets.map fun t => if hit t then { t with state := .due } else t }

/-- The numbers of the PLANNED and FIRING groups, ascending (the order in which they are recomputed at an advance and tested at
START: DESIGN CHOICE, entries 13 and 23). -/
def activeGroups (k : Kitchen) : List Nat := (k.groups.filter keepsProjection).map Group.number

/-- START (R6, R7). -/
def startEvent (w : Work) : Work × Answer :=
  if w.stations = [] then (w, .incomplete .noStation 0 0)
  else
    match firstLoose w.toKitchen with
    | some (st, i) => (w, .incomplete .itemStn st i)
    | none =>
      let w1 : Work := { w with event := .service, items := w.items.map fun i => { i with pool := 0 } }
      let w2 := arbiters (w.stations.map Station.number) (makeDue (fun t => t.release == 0) w1)
      let w3 := raise (.evstate .service .start) w2
      (passSettle (forEach testGroup (activeGroups w3.toKitchen) w3), .ok .empty)

/-! ### CLOSE and the clock limit (R8, R9) -/

/-- The final state of a group at CLOSE (R8 step 2). -/
def closedState (g : Group) : GroupState := if g.state = .cancelled then .cancelled else .abandoned

/-- One station at CLOSE (R8 step 4): STNMODE, and a MODE frame for its current terminal. -/
def closeStation (st : Nat) (w : Work) : Work :=
  atCurrent st (markMode st)
    (raise (.stnmode st .off .close 0) (setStation st (fun s => { s with mode := .off, countdown := 0 }) w))

/-- Step 1 of R8: the event is CLOSED, and its clock stands. -/
def stopEvent (w : Work) : Work := { w with event := .closed, owed := Owed.none }

/-- Step 2 of R8: every group in use is freed, with GRPGONE, ascending. -/
def goneReports (w : Work) : Work := w.groups.foldl (fun w g => raise (.grpgone g.number g.tag (closedState g)) w) w

/-- Steps 2 and 3 of R8: no group, no ticket and no staged mark is left. -/
def sweepRecords (w : Work) : Work :=
  { w with groups := [], drawOrder := [], tickets := [], stations := w.stations.map fun s => { s with staged := none } }

/-- Step 4 of R8: every station that is not OFF becomes OFF, ascending. -/
def closeStations (w : Work) : Work := forEach closeStation (stationsWhere w.toKitchen fun s => s.mode != .off) w

/-- Step 5 of R8: a terminal without its pending POSTs, VOIDs, NEXT marks and NOTEs. -/
def sweptTerminal (t : Terminal) : Terminal := { t with posts := [], voids := [], nextMarks := [], notes := [] }

/-- Step 5 of R8: the pending frames go; the frame on the pair is then accepted by nobody. -/
def sweepFrames (w : Work) : Work :=
  { w with terminals := w.terminals.map sweptTerminal, turn := w.turn.map fun u => { u with stale := true } }

/-- The closing of the event, steps 1 to 5 of R8 and then EVSTATE with its cause (R8, R9). -/
def closeEvent (cause : EventCause) (w : Work) : Work :=
  raise (.evstate .closed cause) (setBroadcast (sweepFrames (closeStations (sweepRecords (goneReports (stopEvent w))))))

/-- CLOSE (R8). -/
def closeRequest (w : Work) : Work × Answer := (closeEvent .close w, .ok .empty)

/-! ### The clearing of RESTART (R11) -/

def clearedStation (s : Station) : Station := { s with mode := .off, countdown := 0, current := none, staged := none }

def clearedTerminal (t : Terminal) : Terminal :=
  { t with
    state := .unknown, misses := 0, receipt := false, posts := [], voids := [], nextMarks := [], modeMarks := [],
    railclrs := [], notes := [], shown := [] }

/-- What RESTART leaves of the kitchen (R11); the report queue is the Host Port's. -/
def clearedKitchen (k : Kitchen) : Kitchen :=
  { k with
    event := .setup
    clock := 0
    owed := Owed.none
    items := k.items.map fun i => { i with pool := 0 }
    stations := k.stations.map clearedStation
    terminals := k.terminals.map clearedTerminal
    groups := []
    tickets := []
    nextTicket := 1
    drawOrder := []
    broadcast := true
    turn := k.turn.map fun u => { u with stale := true } }

/-! ### The events of a second -/

/-- Changes what the owners still have to act on. -/
def setOwed (f : Owed → Owed) (w : Work) : Work := { w with owed := f w.owed }

/-- A WARMING station whose countdown has reached 0 becomes READY (R106). -/
def endWarmup (st : Nat) (w : Work) : Work :=
  if w.owed.warm.contains st then
    let w := setOwed (fun o => { o with warm := dropNumber st o.warm }) w
    match findStation w.toKitchen st with
    | some s => if s.mode = .warming ∧ s.countdown = 0 then passSettle (changeMode st .ready 0 .warm 0 w) else w
    | none => w
  else w

/-- A station's tickets whose release the clock has reached become DUE together, and its arbiter acts once (R86). -/
def releaseTickets (st : Nat) (w : Work) : Work :=
  if w.owed.release.contains st then
    let w := setOwed (fun o => { o with release := dropNumber st o.release }) w
    if w.event = .service then
      passSettle (arbiter st (makeDue (fun t => t.station == st && decide (t.release ≤ w.clock)) w))
    else w
  else w

/-- A ticket COOKING when the clock took its value, whose overdue time that value has reached, with its mark clear (R98; DEDUCED,
entry 6). -/
def overdueNow (k : Kitchen) (s : Station) (t : Ticket) : Bool :=
  t.station == s.number && t.state == .cooking && !t.overdue && decide (t.startAt.getD 0 < k.clock) &&
    decide (t.startAt.getD 0 + t.ceff + s.defn.grace ≤ k.clock)

/-- One ticket is marked overdue, and TKOVER raised for it (R98). -/
def markOverdue (t : Ticket) (w : Work) : Work :=
  raise (.tkover t.number t.station t.group (((findGroup w.toKitchen t.group).map Group.tag).getD 0) t.item t.comp
      (t.startAt.getD 0) t.ceff)
    (setTicket t.number (fun t => { t with overdue := true }) w)

/-- A station's overdue tickets are marked, in queue order (R98). -/
def overdueTickets (st : Nat) (w : Work) : Work :=
  if w.owed.overdue.contains st then
    let w := setOwed (fun o => { o with overdue := dropNumber st o.overdue }) w
    match findStation w.toKitchen st with
    | some s =>
      if w.event = .service then
        ((queueOf w.toKitchen st).filter (overdueNow w.toKitchen s)).foldl (fun w t => markOverdue t w) w
      else w
    | none => w
  else w

/-- A group passes the test and waits to draw. -/
def joins (k : Kitchen) (n : Nat) : Bool :=
  match findGroup k n with
  | some g => testPasses k g && g.lines.any (undrawn k)
  | none => false

/-- A group is tested at the clock's new value. Every group whose test comes to pass at that value joins before the draw pass
(R143, R153; DESIGN CHOICE, entry 6). -/
def startPlating (n : Nat) (w : Work) : Work :=
  if w.owed.plating.contains n then
    let w := setOwed (fun o => { o with plating := dropNumber n o.plating }) w
    let w := testGroup n w
    passSettle (if joins w.toKitchen n then forEach joinDraw (w.owed.plating.filter (joins w.toKitchen)) w else w)
  else w

/-- A FIRING or READY group whose life end the clock has reached, with the dying flag clear (R148). -/
def lifeReached (k : Kitchen) (g : Group) : Bool :=
  (g.state == .firing || g.state == .ready) && !g.flags.dying &&
    match g.lifeEnd with
    | some e => decide (e ≤ k.clock)
    | none => false

/-- A group's life end is reached: the dying flag, GRPDYING, and NOTE DYING (R148). -/
def reachLife (n : Nat) (w : Work) : Work :=
  if w.owed.life.contains n then
    let w := setOwed (fun o => { o with life := dropNumber n o.life }) w
    match findGroup w.toKitchen n with
    | some g =>
      if lifeReached w.toKitchen g ∧ w.event = .service then
        let e := g.lifeEnd.getD 0
        let src := lifeEndSource w.toKitchen g e
        let w := setGroup n (fun g => { g with flags := { g.flags with dying := true } }) w
        refreshDisplay n (raise (.grpdying n g.tag e src.1 src.2 g.state) w)
      else w
    | none => w
  else w

/-- The service clock stands at 65,535: the event is closed (R9). -/
def reachLimit (w : Work) : Work :=
  if w.owed.limit && w.event == .service then closeEvent .limit w
  else setOwed (fun o => { o with limit := false }) w

/-- Everything the owners still have to act on at the present second is acted on, in the model's order (DESIGN CHOICE,
entries 5 and 23). -/
def settleOwed (w : Work) : Work :=
  let w := forEach endWarmup w.owed.warm w
  let w := forEach releaseTickets w.owed.release w
  let w := forEach overdueTickets w.owed.overdue w
  let w := forEach reachLife w.owed.life w
  let w := forEach startPlating w.owed.plating w
  reachLimit w

/-- The warm-up countdown of a WARMING station falls by 1 (R106). -/
def countDown (s : Station) : Station := if s.mode = .warming then { s with countdown := s.countdown - 1 } else s

/-- What the owners have to act on at a new second (R5, R86, R98, R106, R143, R148). -/
def owedNow (k : Kitchen) : Owed :=
  let service := k.event == .service
  { warm := stationsWhere k fun s => s.mode == .warming && s.countdown == 0
    release := stationsWhere k fun s =>
      service && k.tickets.any fun t => t.station == s.number && t.state == .queued && decide (t.release ≤ k.clock)
    overdue := stationsWhere k fun s => service && k.tickets.any (overdueNow k s)
    plating := (k.groups.filter fun g => service && keepsProjection g && platingReached g k.clock).map Group.number
    life := (k.groups.filter fun g => service && lifeReached k g).map Group.number
    limit := service && k.clock == Config.clockLimit }

/-- The device second count advances, and the warm-up countdowns with it (R4, R106). -/
def tickDevice (w : Work) : Work := { w with seconds := w.seconds + 1, stations := w.stations.map countDown }

/-- The service clock advances (R5). -/
def tickClock (w : Work) : Work := { w with clock := w.clock + 1 }

/-- The advance itself: the device second count, the countdowns, and in SERVICE the service clock, with P recomputed for every
PLANNED and FIRING group, in ascending number (DESIGN CHOICE, entry 23), and the standing items tested (R4, R5, R56, R106,
R151). -/
def advance (w : Work) : Work :=
  if w.event = .service ∧ w.clock < Config.clockLimit then
    let w := tickClock (tickDevice w)
    let w := forEach recompute (activeGroups w.toKitchen) w
    passSettle (setOwed (fun _ => owedNow w.toKitchen) w)
  else
    let w := tickDevice w
    setOwed (fun _ => { Owed.none with warm := (owedNow w.toKitchen).warm }) w

/-- A device second (R4); what was owed at the second before comes first (DESIGN CHOICE, entry 5). -/
def deviceSecond (w : Work) : Work := advance (settleOwed w)

/-! ### QSTAT (R170) -/

def queryPart (reports : Nat) (gap : Bool) (w : Work) : Work × Answer :=
  (w, .ok (.part ⟨w.event, w.clock, w.groups.length, freeRecords w.toKitchen, reports, gap⟩))

end Sys2Proof.Machine
end

