-- ==== Sys2Proof/Machine/HostPort.lean ====
section
/-! DEFINITION. The Host Port (09_host_port_and_messages.md): the report queue, the receiver, the intake, the reply path and the
transmitter; the event gate; and the steps of the part as changes of State. -/

namespace Sys2Proof.Machine

/-! ### The report queue (R172) -/

/-- A report joins at the tail, or is discarded with the gap mark set (R172). -/
def pushReport (h : HostPort) (r : Report) : HostPort :=
  if h.reports.length < Config.reportPlaces then { h with reports := h.reports ++ [r] }
  else { h with gap := true, discards := min (h.discards + 1) Config.maxDiscards }

def pushReports (h : HostPort) (rs : List Report) : HostPort := rs.foldl pushReport h

/-! ### A step of the kitchen -/

/-- The kitchen with no report raised yet. -/
def begun (k : Kitchen) : Work := { k with out := [] }

/-- Does a step of the kitchen; the reports it raises join the queue in the order raised. -/
def inKitchen (f : Work → Work) (s : State) : State :=
  let w := f (begun s.kit)
  { s with kit := w.toKitchen, host := pushReports s.host w.out }

/-- While RESETN is low the part does nothing (R14). -/
def unlessReset (f : State → State) (s : State) : State := if s.resetLow then s else f s

/-! ### The receiver (R163 to R165) -/

/-- A received byte before a frame is complete (R163). The second CRC byte completes a frame, and is not this event. -/
def receiveByte (b : Byte) (h : HostPort) : HostPort :=
  match h.rx with
  | .hunt => if b = 0xA5 then { h with rx := .length none } else h
  | .length none => { h with rx := .length (some b) }
  | .length (some hi) =>
    let n := hi.toNat * 256 + b.toNat
    if 2 ≤ n ∧ n ≤ 258 then { h with rx := .content hi b [] } else { h with rx := .hunt }
  | .content hi lo kept =>
    let kept := kept ++ [b]
    if kept.length = hi.toNat * 256 + lo.toNat then { h with rx := .check hi lo kept none }
    else { h with rx := .content hi lo kept }
  | .check hi lo kept none => { h with rx := .check hi lo kept (some b) }
  | .check _ _ _ (some _) => h

/-- A checked frame of its content bytes: kind, sequence, body (R162). -/
def frameOf (content : List Byte) : Frame := ⟨content.getD 0 0, content.getD 1 0, content.drop 2⟩

def isBusy (r : Reply) : Bool := r.answer == .busy

/-- A checked frame joins the intake, or is answered BUSY, or with four BUSY replies waiting is discarded (R165, R168). -/
def arrive (f : Frame) (h : HostPort) : HostPort :=
  if h.intake.length < Config.intakePlaces then { h with intake := h.intake ++ [f] }
  else if (h.replyPath.filter isBusy).length < Config.busyPlaces then
    { h with replyPath := h.replyPath ++ [⟨f.seq, f.kind, .busy⟩] }
  else h

/-- The second CRC byte completes the frame under way, which is checked (R165); in every other step it is not this event. -/
def completeFrame (b : Byte) (h : HostPort) : HostPort :=
  match h.rx with
  | .check hi lo kept (some crcHigh) =>
    let h := { h with rx := .hunt }
    if crc16 (hi :: lo :: kept) = crcHigh ++ b then arrive (frameOf kept) h else h
  | .hunt | .length _ | .content _ _ _ | .check _ _ _ none => h

/-- The frame under way is abandoned: the step is HUNT (R164). -/
def abandonFrame (h : HostPort) : HostPort := { h with rx := .hunt }

/-! ### The event gate (R2) -/

/-- Whether the gate passes a request in SETUP, in SERVICE and in CLOSED. -/
def gateTable : ReqKind → Bool × Bool × Bool
  | .start => (true, false, false)
  | .close => (false, true, false)
  | .restart => (true, true, true)
  | .clrcfg | .defitem | .defcrs | .defstn | .defterm => (true, false, false)
  | .stock | .rebind => (true, true, true)
  | .submit | .amend | .retime | .hold | .cancel | .pickup | .refire => (true, true, false)
  | .stnon | .stnoff | .pause | .pauseall | .resume | .resumeall | .halt | .clear => (true, true, false)
  | .qgroup | .qstn | .qitem | .qterm | .qstat => (true, true, true)

def gatePasses (k : ReqKind) (e : EventState) : Bool :=
  match e with
  | .setup => (gateTable k).1
  | .service => (gateTable k).2.1
  | .closed => (gateTable k).2.2

/-! ### Acting on a frame (R166, R167) -/

/-- The block that owns a request makes its answer (R167). -/
def perform (reports : Nat) (gap : Bool) (r : Request) (w : Work) : Work × Answer :=
  match r with
  | .start => startEvent w
  | .close => closeRequest w
  | .restart => (w, .ok .empty)
  | .clrcfg => clearConfig w
  | .defitem r => defItem r w
  | .defcrs n base pc tol => defCourse n base pc tol w
  | .defstn r => defStation r w
  | .defterm a k => defTerminal a k w
  | .stock i s => setStock i s w
  | .rebind st p f => rebind st p f w
  | .submit r => submit r w
  | .amend g i sf c => amend g i sf c w
  | .retime g t => retime g t w
  | .hold g => hold g w
  | .cancel g => cancel g w
  | .pickup g => pickup g w
  | .refire g i => refire g i w
  | .stnon n => stationOn n w
  | .stnoff n => stationOff n w
  | .pause n => pauseStation n w
  | .pauseall => pauseAll w
  | .resume n => resumeStation n w
  | .resumeall => resumeAll w
  | .halt n => haltStation n w
  | .clear n => clearStation n w
  | .qgroup g first => queryGroup g first w
  | .qstn n => queryStation n w
  | .qitem i => queryItem i w
  | .qterm a => queryTerminal a w
  | .qstat => queryPart reports gap w

/-- A frame is judged by kind, then by length, then by the gate, and then performed (R167, R2). -/
def answerFrame (reports : Nat) (gap : Bool) (f : Frame) (w : Work) : Work × Answer :=
  match parseRequest f.kind f.body with
  | .badKind => (w, .badKind)
  | .badLength => (w, .badField .length 0)
  | .request k r => if gatePasses k w.event then perform reports gap r w else (w, .badState)

/-- The reply of a request acted on is waiting in the reply path (R166). -/
def replyWaiting (h : HostPort) : Bool := h.replyPath.any fun r => !isBusy r

/-- The transmitter is sending the reply of a request acted on. -/
def sendingReply (h : HostPort) : Bool :=
  match h.tx with
  | some (.reply r) => !isBusy r
  | _ => false

/-- The clearing of RESTART: the kitchen, and the report queue with EVSTATE (SETUP, RESTART) alone (R11, R172). -/
def restartClear (s : State) : State :=
  { s with
    kit := clearedKitchen s.kit
    host :=
      { s.host with
        reports := [⟨0, .evstate .setup .restart⟩]
        gap := false
        discards := 0
        restartOwed := false } }

/-- The frame being sent has ended (DESIGN CHOICE, entry 4). If it was the reply to RESTART, the clearing is completed at that
moment (R11). -/
def frameEnded (s : State) : State :=
  let s' := { s with host := { s.host with tx := none } }
  if s.host.restartOwed && !replyWaiting s.host then restartClear s' else s'

/-- The reply being sent, if it is a request's, has ended before the next request is acted on (R166, R171). -/
def replyEnded (s : State) : State := if sendingReply s.host || s.host.restartOwed then frameEnded s else s

/-- RESTART acted on has its clearing still to come. -/
def isRestart (f : Frame) (a : Answer) : Bool := f.kind == ReqKind.restart.code && a == .ok .empty

/-- Acts on a frame, already taken from the intake: its reply joins the reply path and its reports the queue (R166). -/
def actOn (f : Frame) (s : State) : State :=
  let done := answerFrame s.host.reports.length s.host.gap f (begun s.kit)
  { s with
    kit := done.1.toKitchen
    host :=
      pushReports
        { s.host with
          replyPath := s.host.replyPath ++ [⟨f.seq, f.kind, done.2⟩]
          restartOwed := s.host.restartOwed || isRestart f done.2 }
        done.1.out }

/-- A clock limit reached and not yet acted on closes the event before the next request is judged (R9; DEDUCED, entry 5). -/
def limitFirst (s : State) : State := if s.kit.owed.limit then inKitchen reachLimit s else s

/-- The Host Port acts on the oldest frame of the intake where its kind is one of `mine` and no reply to an earlier request is
waiting (R166); in every other case the step does not occur (DESIGN CHOICE, entries 3 and 4). -/
def actOnOldest (mine : Byte → Bool) (s : State) : State :=
  match s.host.intake with
  | f :: rest =>
    if mine f.kind && !replyWaiting s.host then
      actOn f (limitFirst (replyEnded { s with host := { s.host with intake := rest } }))
    else s
  | [] => s

/-- A frame of the kind is acted on. -/
def actOnKind (k : ReqKind) (s : State) : State := unlessReset (actOnOldest fun b => b == k.code) s

/-! ### The transmitter (R171, R173) -/

/-- The oldest report is removed for sending; a set gap mark puts a GAP at the tail (R173). -/
def sendReport (clock : Nat) (r : Report) (rest : List Report) (h : HostPort) : HostPort :=
  if h.gap then
    { h with tx := some (.report r), reports := rest ++ [⟨clock, .gap h.discards⟩], gap := false, discards := 0 }
  else { h with tx := some (.report r), reports := rest }

/-- The idle transmitter's choice: the oldest reply, else the oldest report, else nothing (R171). -/
def chooseNext (clock : Nat) (h : HostPort) : HostPort :=
  match h.replyPath with
  | r :: rest => { h with tx := some (.reply r), replyPath := rest }
  | [] =>
    match h.reports with
    | r :: rest => sendReport clock r rest h
    | [] => h

/-- The frame being sent, if any, has ended, and the transmitter chooses (R171). -/
def transmit (s : State) : State :=
  let s := frameEnded s
  { s with host := chooseNext s.kit.clock s.host }

/-- The bytes of the frame the transmitter is sending on HTXD, in order; none while it is idle (R161, R171, R177). -/
def sentBytes (s : State) : List Byte :=
  match s.host.tx with
  | some f => f.bytes
  | none => []

/-! ### RESETN (R14, R175) -/

/-- RESETN low: the power-on state, with both links silent and no report waiting yet (DESIGN CHOICE, entry 17). -/
def assertReset (s : State) : State :=
  if s.resetLow then s
  else { s with kit := Kitchen.powerOn, host := { HostPort.powerOn with reports := [] }, resetLow := true }

/-- RESETN goes high: the state right after reset, with the commands that wait outside the part. -/
def releaseReset (s : State) : State := if s.resetLow then { State.reset with pending := s.pending } else s

/-! ### Steps whose condition is the Host Port's -/

/-- A step of the Host Port's receiver. -/
def inReceiver (f : HostPort → HostPort) (s : State) : State := unlessReset (fun s => { s with host := f s.host }) s

/-- A step of the kitchen's blocks. -/
def inPart (f : Work → Work) (s : State) : State := unlessReset (inKitchen f) s

/-- The reply to a RESTART has been sent: the clearing is completed (R11). It is still to come while the reply waits. -/
def completeClearing (s : State) : State := if s.host.restartOwed && !(replyWaiting s.host) then frameEnded s else s

/-- The broadcast, sent between turns while its mark is set (R122). -/
def broadcastTurn (w : Work) : Work := if w.turn.isSome then w else sendBroadcast w

end Sys2Proof.Machine
end

