-- ==== Sys2Proof/Machine/BusSteps.lean ====
section
/-! DEFINITION. The commands of the station bus: turns and what ends them, one meaning per command. -/

namespace Sys2Proof.Machine

open Host

/-- TURN: the next terminal of the round is given its turn (R120). -/
def execTurn (s : State) : Outcome State Fault Refusal := .next (inPart takeTurn s)

/-- RAILCLR_BROADCAST: the broadcast is sent between turns (R122). -/
def execRailclrBroadcast (s : State) : Outcome State Fault Refusal := .next (inPart broadcastTurn s)

/-- REPLY_WINDOW_EXPIRY: 20 ms with no character (R119). -/
def execReplyWindowExpiry (s : State) : Outcome State Fault Refusal := .next (inPart missTurn s)

/-- BAD_REPLY: the characters received fail the checks (R119). -/
def execBadReply (chars : List BusChar) (s : State) : Outcome State Fault Refusal := .next (inPart (badReply chars) s)

/-- TERMINAL_LOST: a LIVE terminal's miss count reaches 8 (R130). -/
def execTerminalLost (address : Nat) (s : State) : Outcome State Fault Refusal := .next (inPart (loseTerminal address) s)

/-- ACK (R124, R125). -/
def execAck (s : State) : Outcome State Fault Refusal := .next (inPart (handleReply .ack) s)

/-- START of a terminal (R93, R124). -/
def execTerminalStart (station : Byte) (ticket : BitVec 16) (s : State) : Outcome State Fault Refusal := .next (inPart (handleReply (.start station.toNat ticket.toNat)) s)

/-- BUMP (R94, R124). -/
def execBump (station : Byte) (ticket : BitVec 16) (s : State) : Outcome State Fault Refusal := .next (inPart (handleReply (.bump station.toNat ticket.toNat)) s)

/-- TAKEN (R124, R157). -/
def execTaken (group : BitVec 16) (s : State) : Outcome State Fault Refusal := .next (inPart (handleReply (.taken group.toNat)) s)

/-- WAIT (R124, R129). -/
def execWait (s : State) : Outcome State Fault Refusal := .next (inPart (handleReply .wait) s)

/-- FAULT (R112, R124). -/
def execFault (s : State) : Outcome State Fault Refusal := .next (inPart (handleReply .fault) s)

/-- HELLO (R124, R137). -/
def execHello (s : State) : Outcome State Fault Refusal := .next (inPart (handleReply .hello) s)

end Sys2Proof.Machine
end

