-- ==== Sys2Proof/Machine/HostLine.lean ====
section
/-! DEFINITION. The commands of the host line: one meaning per command. -/

namespace Sys2Proof.Machine

open Host

/-- HOST_BYTE: a byte of the host line that does not complete a frame (R163). -/
def execHostByte (byte : Byte) (s : State) : Outcome State Fault Refusal := .next (inReceiver (receiveByte byte) s)

/-- HOST_FRAME: the second CRC byte completes a frame, which is checked (R165). -/
def execHostFrame (byte : Byte) (s : State) : Outcome State Fault Refusal := .next (inReceiver (completeFrame byte) s)

/-- INTER_BYTE_GAP_EXPIRY: more than 50 ms inside a frame (R164). -/
def execInterByteGapExpiry (s : State) : Outcome State Fault Refusal := .next (inReceiver abandonFrame s)

/-- FRAMING_ERROR: a byte without its stop bit (R164). -/
def execFramingError (s : State) : Outcome State Fault Refusal := .next (inReceiver abandonFrame s)

/-- TRANSMITTER_CHOICE: the transmitter, idle, chooses what to send (R171). -/
def execTransmitterChoice (s : State) : Outcome State Fault Refusal := .next (unlessReset transmit s)

end Sys2Proof.Machine
end

