-- ==== Sys2Proof/Machine/Requests.lean ====
section
/-! DEFINITION. The requests: one meaning per request kind of R179, and one for a frame of no kind. Each is the step in which the Host Port acts
on the oldest frame of its intake (R166), where that frame is of its kind. -/

namespace Sys2Proof.Machine

open Host

/-- UNKNOWN_KIND: the oldest frame has a kind that is no request kind, and is answered BADKIND (R167). -/
def execUnknownKind (s : State) : Outcome State Fault Refusal := .next (unlessReset (actOnOldest fun b => (kindOf b).isNone) s)

/-- START (R6, R7). -/
def execStart (s : State) : Outcome State Fault Refusal := .next (actOnKind .start s)

/-- CLOSE (R8). -/
def execClose (s : State) : Outcome State Fault Refusal := .next (actOnKind .close s)

/-- RESTART (R11). -/
def execRestart (s : State) : Outcome State Fault Refusal := .next (actOnKind .restart s)

/-- CLRCFG (R13). -/
def execClrcfg (s : State) : Outcome State Fault Refusal := .next (actOnKind .clrcfg s)

/-- DEFITEM (R20, R21). -/
def execDefitem (s : State) : Outcome State Fault Refusal := .next (actOnKind .defitem s)

/-- DEFCRS (R22). -/
def execDefcrs (s : State) : Outcome State Fault Refusal := .next (actOnKind .defcrs s)

/-- DEFSTN (R26). -/
def execDefstn (s : State) : Outcome State Fault Refusal := .next (actOnKind .defstn s)

/-- DEFTERM (R28, R29). -/
def execDefterm (s : State) : Outcome State Fault Refusal := .next (actOnKind .defterm s)

/-- STOCK (R31). -/
def execStock (s : State) : Outcome State Fault Refusal := .next (actOnKind .stock s)

/-- REBIND (R136). -/
def execRebind (s : State) : Outcome State Fault Refusal := .next (actOnKind .rebind s)

/-- SUBMIT (R41 to R44). -/
def execSubmit (s : State) : Outcome State Fault Refusal := .next (actOnKind .submit s)

/-- AMEND (R45 to R49). -/
def execAmend (s : State) : Outcome State Fault Refusal := .next (actOnKind .amend s)

/-- RETIME (R50). -/
def execRetime (s : State) : Outcome State Fault Refusal := .next (actOnKind .retime s)

/-- HOLD (R51). -/
def execHold (s : State) : Outcome State Fault Refusal := .next (actOnKind .hold s)

/-- CANCEL (R52). -/
def execCancel (s : State) : Outcome State Fault Refusal := .next (actOnKind .cancel s)

/-- PICKUP (R55). -/
def execPickup (s : State) : Outcome State Fault Refusal := .next (actOnKind .pickup s)

/-- REFIRE (R158 to R160). -/
def execRefire (s : State) : Outcome State Fault Refusal := .next (actOnKind .refire s)

/-- STNON (R105). -/
def execStnon (s : State) : Outcome State Fault Refusal := .next (actOnKind .stnon s)

/-- STNOFF (R107). -/
def execStnoff (s : State) : Outcome State Fault Refusal := .next (actOnKind .stnoff s)

/-- PAUSE (R109). -/
def execPause (s : State) : Outcome State Fault Refusal := .next (actOnKind .pause s)

/-- PAUSEALL (R110). -/
def execPauseall (s : State) : Outcome State Fault Refusal := .next (actOnKind .pauseall s)

/-- RESUME (R109). -/
def execResume (s : State) : Outcome State Fault Refusal := .next (actOnKind .resume s)

/-- RESUMEALL (R110). -/
def execResumeall (s : State) : Outcome State Fault Refusal := .next (actOnKind .resumeall s)

/-- HALT (R111). -/
def execHalt (s : State) : Outcome State Fault Refusal := .next (actOnKind .halt s)

/-- CLEAR (R113). -/
def execClear (s : State) : Outcome State Fault Refusal := .next (actOnKind .clear s)

/-- QGROUP (R61). -/
def execQgroup (s : State) : Outcome State Fault Refusal := .next (actOnKind .qgroup s)

/-- QSTN (R117). -/
def execQstn (s : State) : Outcome State Fault Refusal := .next (actOnKind .qstn s)

/-- QITEM (R36). -/
def execQitem (s : State) : Outcome State Fault Refusal := .next (actOnKind .qitem s)

/-- QTERM (R141). -/
def execQterm (s : State) : Outcome State Fault Refusal := .next (actOnKind .qterm s)

/-- QSTAT (R170). -/
def execQstat (s : State) : Outcome State Fault Refusal := .next (actOnKind .qstat s)

/-- RESTART_CLEARING: the reply to RESTART has been sent, and the part is cleared (R11). -/
def execRestartClearing (s : State) : Outcome State Fault Refusal := .next (unlessReset completeClearing s)

end Sys2Proof.Machine
end

