-- ==== Sys2Proof/Machine/Time.lean ====
section
/-! DEFINITION. The commands of reset and of time: one meaning per command. -/

namespace Sys2Proof.Machine

open Host

/-- RESET_ASSERT: RESETN falls (R14, R175). -/
def execResetAssert (s : State) : Outcome State Fault Refusal := .next (assertReset s)

/-- RESET_RELEASE: RESETN rises (R14). -/
def execResetRelease (s : State) : Outcome State Fault Refusal := .next (releaseReset s)

/-- DEVICE_SECOND: the device second count advances (R4). -/
def execDeviceSecond (s : State) : Outcome State Fault Refusal := .next (inPart deviceSecond s)

/-- WARMUP_END: the countdown of a WARMING station has reached 0 (R106). -/
def execWarmupEnd (station : Nat) (s : State) : Outcome State Fault Refusal := .next (inPart (endWarmup station) s)

/-- TICKET_RELEASE: the clock has reached the release of QUEUED tickets of a station (R86). -/
def execTicketRelease (station : Nat) (s : State) : Outcome State Fault Refusal := .next (inPart (releaseTickets station) s)

/-- TICKET_OVERDUE: the clock has reached the overdue time of COOKING tickets of a station (R98). -/
def execTicketOverdue (station : Nat) (s : State) : Outcome State Fault Refusal := .next (inPart (overdueTickets station) s)

/-- PLATING_START: the clock has reached a group's plating start (R143). -/
def execPlatingStart (group : Nat) (s : State) : Outcome State Fault Refusal := .next (inPart (startPlating group) s)

/-- LIFE_END: the clock has reached a group's life end (R148). -/
def execLifeEnd (group : Nat) (s : State) : Outcome State Fault Refusal := .next (inPart (reachLife group) s)

/-- CLOCK_LIMIT: the service clock has reached 65,535 (R9). -/
def execClockLimit (s : State) : Outcome State Fault Refusal := .next (inPart reachLimit s)

end Sys2Proof.Machine
end

