-- ==== Sys2Proof/Machine/Dispatch.lean ====
section
/-! DEFINITION. exec: one arm per command. -/

namespace Sys2Proof.Machine

open Host

def exec (i : Instr) (s : State) : Host.Outcome State Fault Refusal :=
  match i with
  | .resetAssert => Sys2Proof.Machine.execResetAssert s
  | .resetRelease => Sys2Proof.Machine.execResetRelease s
  | .deviceSecond => Sys2Proof.Machine.execDeviceSecond s
  | .warmupEnd station => Sys2Proof.Machine.execWarmupEnd station s
  | .ticketRelease station => Sys2Proof.Machine.execTicketRelease station s
  | .ticketOverdue station => Sys2Proof.Machine.execTicketOverdue station s
  | .platingStart group => Sys2Proof.Machine.execPlatingStart group s
  | .lifeEnd group => Sys2Proof.Machine.execLifeEnd group s
  | .clockLimit => Sys2Proof.Machine.execClockLimit s
  | .hostFrame byte => Sys2Proof.Machine.execHostFrame byte s
  | .interByteGapExpiry => Sys2Proof.Machine.execInterByteGapExpiry s
  | .unknownKind => Sys2Proof.Machine.execUnknownKind s
  | .start => Sys2Proof.Machine.execStart s
  | .close => Sys2Proof.Machine.execClose s
  | .restart => Sys2Proof.Machine.execRestart s
  | .restartClearing => Sys2Proof.Machine.execRestartClearing s
  | .clrcfg => Sys2Proof.Machine.execClrcfg s
  | .defitem => Sys2Proof.Machine.execDefitem s
  | .defcrs => Sys2Proof.Machine.execDefcrs s
  | .defstn => Sys2Proof.Machine.execDefstn s
  | .defterm => Sys2Proof.Machine.execDefterm s
  | .stock => Sys2Proof.Machine.execStock s
  | .rebind => Sys2Proof.Machine.execRebind s
  | .submit => Sys2Proof.Machine.execSubmit s
  | .amend => Sys2Proof.Machine.execAmend s
  | .retime => Sys2Proof.Machine.execRetime s
  | .hold => Sys2Proof.Machine.execHold s
  | .cancel => Sys2Proof.Machine.execCancel s
  | .pickup => Sys2Proof.Machine.execPickup s
  | .refire => Sys2Proof.Machine.execRefire s
  | .stnon => Sys2Proof.Machine.execStnon s
  | .stnoff => Sys2Proof.Machine.execStnoff s
  | .pause => Sys2Proof.Machine.execPause s
  | .pauseall => Sys2Proof.Machine.execPauseall s
  | .resume => Sys2Proof.Machine.execResume s
  | .resumeall => Sys2Proof.Machine.execResumeall s
  | .halt => Sys2Proof.Machine.execHalt s
  | .clear => Sys2Proof.Machine.execClear s
  | .qgroup => Sys2Proof.Machine.execQgroup s
  | .qstn => Sys2Proof.Machine.execQstn s
  | .qitem => Sys2Proof.Machine.execQitem s
  | .qterm => Sys2Proof.Machine.execQterm s
  | .qstat => Sys2Proof.Machine.execQstat s
  | .transmitterChoice => Sys2Proof.Machine.execTransmitterChoice s
  | .turn => Sys2Proof.Machine.execTurn s
  | .railclrBroadcast => Sys2Proof.Machine.execRailclrBroadcast s
  | .replyWindowExpiry => Sys2Proof.Machine.execReplyWindowExpiry s
  | .badReply chars => Sys2Proof.Machine.execBadReply chars s
  | .terminalLost address => Sys2Proof.Machine.execTerminalLost address s
  | .ack => Sys2Proof.Machine.execAck s
  | .terminalStart station ticket => Sys2Proof.Machine.execTerminalStart station ticket s
  | .bump station ticket => Sys2Proof.Machine.execBump station ticket s
  | .taken group => Sys2Proof.Machine.execTaken group s
  | .wait => Sys2Proof.Machine.execWait s
  | .fault => Sys2Proof.Machine.execFault s
  | .hello => Sys2Proof.Machine.execHello s
  | .hostByte byte => Sys2Proof.Machine.execHostByte byte s
  | .framingError => Sys2Proof.Machine.execFramingError s

end Sys2Proof.Machine
end

