-- ==== Sys2Proof/Safety.lean ====
section
/-! DEFINITION. What a sound state is, and the views of a state that claims are stated in. -/

namespace Sys2Proof.Machine

/-! ### Definitions: what the freeze of R3 holds fixed -/

/-- An item without its stock, exhausted mark and pool. -/
def Item.definition (i : Item) : Item := { i with stock := .unlimited, exhausted := false, pool := 0 }

/-- A station's number and record without its binding. -/
def Station.fixed (s : Station) : Nat × StationDef := (s.number, { s.defn with primary := 0, fallback := none })

/-- A terminal's address and kind. -/
def Terminal.ident (t : Terminal) : Nat × TermKind := (t.address, t.kind)

/-- The item, course, station and terminal definitions but for item stock and station binding (R3). -/
structure Definitions where
  items : List Item
  courses : List Course
  stations : List (Nat × StationDef)
  terminals : List (Nat × TermKind)
  deriving DecidableEq, Repr

def Kitchen.definitions (k : Kitchen) : Definitions :=
  ⟨k.items.map Item.definition, k.courses, k.stations.map Station.fixed, k.terminals.map Terminal.ident⟩

/-! ### Sound states -/

/-- The mark follows the stock, the stock and the pool stay in their ranges (R30, R149). -/
def Item.sound (i : Item) : Prop :=
  (i.exhausted = true ↔ i.stock = .limited 0) ∧ (∀ n, i.stock = .limited n → n ≤ Config.maxStock) ∧ i.pool ≤ Config.maxPool

def Kitchen.stockSound (k : Kitchen) : Prop := ∀ i ∈ k.items, i.sound

/-- Terminal entries stand ascending, miss counts stop at 8, and no LIVE terminal has 8 misses (R27, R130). -/
def Kitchen.busSound (k : Kitchen) : Prop :=
  k.terminals.Pairwise (fun a b => a.address < b.address) ∧
    ∀ t ∈ k.terminals, t.misses ≤ Config.missLimit ∧ (t.state = .live → t.misses < Config.missLimit)

/-- The receiver holds a frame of a right length, and never more of it than that (R163). -/
def Rx.sound : Rx → Prop
  | .hunt | .length _ => True
  | .content hi lo kept =>
    2 ≤ hi.toNat * 256 + lo.toNat ∧ hi.toNat * 256 + lo.toNat ≤ 258 ∧ kept.length < hi.toNat * 256 + lo.toNat
  | .check hi lo kept _ =>
    2 ≤ hi.toNat * 256 + lo.toNat ∧ hi.toNat * 256 + lo.toNat ≤ 258 ∧ kept.length = hi.toNat * 256 + lo.toNat

/-- The Host Port's bounds (R163, R166, R168, R172, R173), and a RESTART's clearing is still to come only while its reply waits
or is being sent (R11). -/
structure HostPort.sound (h : HostPort) : Prop where
  rx : h.rx.sound
  intake : h.intake.length ≤ Config.intakePlaces
  busy : (h.replyPath.filter isBusy).length ≤ Config.busyPlaces
  answers : (h.replyPath.filter fun r => !isBusy r).length ≤ 1
  reports : h.reports.length ≤ Config.reportPlaces
  gapFull : h.gap = true → h.reports.length = Config.reportPlaces
  gapCounts : h.gap = true ↔ 0 < h.discards
  discards : h.discards ≤ Config.maxDiscards
  restart : h.restartOwed = true → replyWaiting h = true ∨ sendingReply h = true

/-- The marks and RAILCLRs of a terminal stand ascending, each number once (R121, R127). -/
def Terminal.marksAscend (t : Terminal) : Prop :=
  t.railclrs.Pairwise (· < ·) ∧ t.nextMarks.Pairwise (· < ·) ∧ t.modeMarks.Pairwise (· < ·)

/-- What names a line within its group (R38). -/
def Line.key (l : Line) : Nat × Option Nat := (l.item, l.subFrom)

/-- The portions of a line's component in the group's tickets, but for those VOIDING. -/
def livePortions (k : Kitchen) (g item : Nat) (sf : Option Nat) (c : Nat) : Nat :=
  portionsOf k fun t => ofComponent g item sf c t && t.state != .voiding

/-- The records of the part are sound. Tables stand ascending (R15, R23, R37). Ticket records in use have different numbers, are at
most 2,048, and the number counter is in its range (R81, R82). A ticket is a run's, in SERVICE, or of a group in use (R80, R95). The
tickets SENT, POSTED, COOKING or VOIDING of a station are at most its slots (R88). The marks of terminals stand ascending (R121). The
lines of a group have different keys (R38). No group's ticket is larger than a batch (R67); and while a group is not CANCELLED, the
portions committed to a line are in tickets, for each component whose station is defined (R43, R50). No CANCELLED group stands in
the draw order (R52, R153). -/
structure Kitchen.recordsSound (k : Kitchen) : Prop where
  items : k.items.Pairwise fun a b => a.number < b.number
  stations : k.stations.Pairwise fun a b => a.number < b.number
  groups : k.groups.Pairwise fun a b => a.number < b.number
  numbers : (k.tickets.map Ticket.number).Nodup
  pool : k.tickets.length ≤ Config.poolRecords
  counter : 1 ≤ k.nextTicket ∧ k.nextTicket ≤ Config.maxTicketNumber
  homes : ∀ t ∈ k.tickets, (t.kind = .standing ∧ k.event = .service) ∨ ∃ g ∈ k.groups, g.number = t.group
  slots : ∀ x ∈ k.stations, slotsHeld k x.number ≤ x.defn.slots
  marks : ∀ t ∈ k.terminals, t.marksAscend
  lines : ∀ g ∈ k.groups, (g.lines.map Line.key).Nodup
  batches : ∀ t ∈ k.tickets, t.kind ≠ .standing → ∀ c, componentOf k t.item t.comp = some c → t.portions ≤ max c.batch 1
  covered : ∀ g ∈ k.groups, g.state ≠ .cancelled → ∀ l ∈ g.lines, ∀ i c, componentOf k l.item i = some c →
    findStation k c.station ≠ none → committedOf k l ≤ livePortions k g.number l.item l.subFrom i
  draws : ∀ n ∈ k.drawOrder, ∀ g ∈ k.groups, g.number = n → g.state ≠ .cancelled

/-! ### The views claims use -/

/-- What of a group no dispatch, draw or run changes. -/
def Group.plan (g : Group) : Group :=
  { g with
    state := .planned, flags := ⟨g.flags.held, false, g.flags.stretched, false, g.flags.dying⟩, proj := 0, lines := [],
    lifeEnd := none, display := none }

/-- What a ticket takes over from its description (R73). -/
def Ticket.desc (t : Ticket) : TicketDesc :=
  ⟨t.station, t.group, t.item, t.comp, t.subFrom, t.portions, t.kind, t.release, t.due, t.ceff, t.advance⟩

/-- A ticket up to its grant: DUE and SENT are one. -/
def Ticket.order (t : Ticket) : Ticket := { t with state := if t.state = .sent then .due else t.state }

/-- A station without its staged mark. -/
def Station.post (s : Station) : Station := { s with staged := none }

/-- A terminal without the frames a grant, a staging or a NOTE adds. -/
def Terminal.link (t : Terminal) : Terminal := { t with posts := [], nextMarks := [], notes := [] }

/-- A terminal's address, kind, state, miss count and receipt mark. -/
def Terminal.health (t : Terminal) : Nat × TermKind × TermState × Nat × Bool :=
  (t.address, t.kind, t.state, t.misses, t.receipt)

/-! ### What an operation leaves as it is -/

/-- The event state, the counts of seconds, the courses, the broadcast mark and the round stay; items keep their definitions,
stations theirs but for the binding, terminals their health; reports are only added, at the present clock; and sound stocks
stay sound. Groups, tickets, the draw order and the turn under way are free. -/
structure Steady (w w' : Work) : Prop where
  event : w'.event = w.event
  clock : w'.clock = w.clock
  seconds : w'.seconds = w.seconds
  owed : w'.owed = w.owed
  courses : w'.courses = w.courses
  broadcast : w'.broadcast = w.broadcast
  lastTurn : w'.lastTurn = w.lastTurn
  busLine : w'.busLine = w.busLine
  items : w'.items.map Item.definition = w.items.map Item.definition
  stations : w'.stations.map Station.fixed = w.stations.map Station.fixed
  terminals : w'.terminals.map Terminal.health = w.terminals.map Terminal.health
  out : ∃ rs : List Report, w'.out = w.out ++ rs ∧ ∀ r ∈ rs, r.clock = w.clock
  stock : w.stockSound → w'.stockSound

/-- What the slot arbiters and the Pass Unit may do after an event: they grant DUE tickets, stage, draw and create standing runs.
No plan of a group changes; no mode, binding or countdown of a station; nothing of a terminal but its POSTs, NEXT marks and NOTEs;
the turn under way stays; no ticket changes but by its grant, and the tickets added are standing runs. -/
structure Settles (w w' : Work) : Prop where
  steady : Steady w w'
  groups : w'.groups.map Group.plan = w.groups.map Group.plan
  stations : w'.stations.map Station.post = w.stations.map Station.post
  terminals : w'.terminals.map Terminal.link = w.terminals.map Terminal.link
  turn : w'.turn.map Turn.address = w.turn.map Turn.address
  tickets : ∃ runs : List Ticket, w'.tickets.map Ticket.order = w.tickets.map Ticket.order ++ runs ∧
    ∀ t ∈ runs, t.group = 0 ∧ t.kind = .standing

/-! ### Tables of checks -/

/-- A row of a table of field checks: when the field is refused, and the code and index of the BADFIELD. -/
abbrev CheckRow := Prop × FieldCode × Nat

/-- A list of field checks is the table given, row by row: each refuses exactly when its row says, with its code and index. -/
def ChecksAre : List FieldCheck → List CheckRow → Prop
  | [], [] => True
  | c :: cs, row :: rows => (c.1 = true ↔ row.1) ∧ c.2 = row.2 ∧ ChecksAre cs rows
  | [], _ :: _ | _ :: _, [] => False

/-- The answer of a table of refusals: that of the first row that holds, none where no row does. -/
def FirstThatHolds : List (Prop × Answer) → Option Answer → Prop
  | [], o => o = none
  | (p, a) :: rest, o => (p → o = some a) ∧ (¬p → FirstThatHolds rest o)

/-! ### Steps -/

/-- The part is running, the oldest frame of its intake reads as the request, no reply to an earlier request is waiting or
being sent (R166), no clock limit is still to be acted on (R9), and the event gate passes the request (R2). -/
structure Asks (s : State) (r : Request) (seq : Byte) (rest : List Frame) : Prop where
  high : s.resetLow = false
  front : ∃ body, s.host.intake = ⟨r.kind.code, seq, body⟩ :: rest ∧ parseRequest r.kind.code body = .request r.kind r
  noneWaiting : replyWaiting s.host = false
  noneSending : sendingReply s.host = false
  noClearing : s.host.restartOwed = false
  noLimit : s.kit.owed.limit = false
  gate : gatePasses r.kind s.kit.event = true

/-- The part is running, `f` is the oldest frame of its intake, no reply to an earlier request is waiting or being sent (R166),
and no clock limit is still to be acted on (R9). -/
structure Faces (s : State) (f : Frame) (rest : List Frame) : Prop where
  high : s.resetLow = false
  front : s.host.intake = f :: rest
  noneWaiting : replyWaiting s.host = false
  noneSending : sendingReply s.host = false
  noClearing : s.host.restartOwed = false
  noLimit : s.kit.owed.limit = false

/-- The state after a request is acted on: the frame has left the intake, the reply stands at the end of the reply path, the
reports raised have joined the queue, and the kitchen is as given (R166). -/
def answered (s : State) (k : ReqKind) (seq : Byte) (rest : List Frame) (a : Answer) (w : Work) : State :=
  { s with
    kit := w.toKitchen
    host := pushReports { s.host with intake := rest, replyPath := s.host.replyPath ++ [⟨seq, k.code, a⟩] } w.out }

/-- The state after a step of the kitchen. -/
def moved (s : State) (w : Work) : State := { s with kit := w.toKitchen, host := pushReports s.host w.out }

/-- The state after a request that is refused: the frame has left the intake, the reply stands at the end of the reply path, and
nothing else has changed. -/
def turnedAway (s : State) (k : ReqKind) (seq : Byte) (rest : List Frame) (a : Answer) : State :=
  { s with host := { s.host with intake := rest, replyPath := s.host.replyPath ++ [⟨seq, k.code, a⟩] } }

/-- The command in which a request of a kind is acted on. -/
def ReqKind.command : ReqKind → Instr
  | .start => .start | .close => .close | .restart => .restart | .clrcfg => .clrcfg | .defitem => .defitem
  | .defcrs => .defcrs | .defstn => .defstn | .defterm => .defterm | .stock => .stock | .rebind => .rebind
  | .submit => .submit | .amend => .amend | .retime => .retime | .hold => .hold | .cancel => .cancel | .pickup => .pickup
  | .refire => .refire | .stnon => .stnon | .stnoff => .stnoff | .pause => .pause | .pauseall => .pauseall
  | .resume => .resume | .resumeall => .resumeall | .halt => .halt | .clear => .clear | .qgroup => .qgroup | .qstn => .qstn
  | .qitem => .qitem | .qterm => .qterm | .qstat => .qstat

/-- The commands in which the valid replies of a terminal are taken, with the station, ticket and group the reply names. -/
def replyCommands (st : Byte) (n g : BitVec 16) : List (Instr × BusReply) :=
  [(.ack, .ack), (.terminalStart st n, .start st.toNat n.toNat), (.bump st n, .bump st.toNat n.toNat),
   (.taken g, .taken g.toNat), (.wait, .wait), (.fault, .fault), (.hello, .hello)]

/-- The part is running, the turn `u` is under way, and it is a turn of the defined terminal `t`. -/
structure Addressed (s : State) (u : Turn) (t : Terminal) : Prop where
  high : s.resetLow = false
  turn : s.kit.turn = some u
  own : u.orphan = false
  known : findTerminal s.kit u.address = some t

/-- The kitchen with the turn ended, before anything follows from it. -/
def turnEnded (s : State) : Work := { begun s.kit with turn := none }

/-- The kitchen after steps 1 and 2 of R125: the turn is ended and its terminal is heard. -/
def heard (s : State) (u : Turn) : Work := terminalHeard u.address (turnEnded s)

end Sys2Proof.Machine
end

