-- ==== Sys2Proof/WellFormed.lean ====
section
/-! DEFINITION. Which commands name something the part has: the checks on operands that are not already in the types. -/

namespace Sys2Proof

/-- A station number, 1 to 24 (R23). -/
def wfStation (n : Nat) : Bool := 1 ≤ n && n ≤ Config.maxStation

/-- A group number, 1 to 512 (R37). -/
def wfGroup (n : Nat) : Bool := 1 ≤ n && n ≤ Config.maxGroup

/-- A terminal address, 1 to 30 (R27). -/
def wfTerminal (n : Nat) : Bool := 1 ≤ n && n ≤ Config.maxTerminal

/-- A command whose operands name a station, group or terminal the part can have, and a bad reply of at least one character
(R119: with no character the reply is missing, and the window expires). -/
def Instr.wf : Instr → Bool
  | .warmupEnd n => wfStation n
  | .ticketRelease n => wfStation n
  | .ticketOverdue n => wfStation n
  | .platingStart n => wfGroup n
  | .lifeEnd n => wfGroup n
  | .badReply cs => !cs.isEmpty
  | .terminalLost n => wfTerminal n
  | .resetAssert | .resetRelease | .deviceSecond | .clockLimit | .hostFrame _ | .interByteGapExpiry | .unknownKind
  | .start | .close | .restart | .restartClearing | .clrcfg | .defitem | .defcrs | .defstn | .defterm | .stock | .rebind
  | .submit | .amend | .retime | .hold | .cancel | .pickup | .refire | .stnon | .stnoff | .pause | .pauseall | .resume
  | .resumeall | .halt | .clear | .qgroup | .qstn | .qitem | .qterm | .qstat | .transmitterChoice | .turn
  | .railclrBroadcast | .replyWindowExpiry | .ack | .terminalStart _ _ | .bump _ _ | .taken _ | .wait | .fault | .hello
  | .hostByte _ | .framingError => true

end Sys2Proof
end

