-- ==== Sys2Proof/Certificates/Slice0/Obligations.lean ====
section
/-! DEFINITION. The statements for the provers. -/

open Sys2Proof Sys2Proof.Machine Host

/-! ### Steps and reset -/

/-- A step carries out the command at the front of the queue with the rest of the queue left; with no command waiting the block
idles (the model's choice, log entry 1). -/
def Obligations.StepRunsFrontCommand : Prop :=
  (∀ (c : Instr) (rest : List Instr) (s : State), s.pending = c :: rest → step s = exec c { s with pending := rest }) ∧
    ∀ s : State, s.pending = [] → step s = .next s

/-- The power-on state (R14): SETUP, both counts at 0, empty tables, 2,048 free ticket records, the next ticket number 1, the
receiver in HUNT, the intake and the reply path empty, and STARTED alone in the report queue with the gap mark clear.
The power-on state keeps the bounds of the Host Port, and its stocks, terminal table and records are sound.
RESETN falling puts the part in its power-on state with no report waiting, whatever state it was in; RESETN rising leaves the
power-on state with STARTED waiting; an edge to the level RESETN already has is no event (log entries 3 and 17).
While RESETN is held low no command but its release changes anything (R14, R4). -/
def Obligations.ResetLeavesPowerOnState : Prop :=
  (let s := State.reset
   s.kit.event = .setup ∧ s.kit.clock = 0 ∧ s.kit.seconds = 0 ∧ s.kit.items = [] ∧ s.kit.courses = [] ∧ s.kit.stations = [] ∧
     s.kit.terminals = [] ∧ s.kit.groups = [] ∧ s.kit.tickets = [] ∧ freeRecords s.kit = 2048 ∧ s.kit.nextTicket = 1 ∧
     s.kit.drawOrder = [] ∧ s.kit.turn = none ∧ s.kit.broadcast = false ∧ s.host.rx = .hunt ∧ s.host.intake = [] ∧
     s.host.replyPath = [] ∧ s.host.reports = [⟨0, .started⟩] ∧ s.host.gap = false ∧ s.host.discards = 0 ∧ s.host.tx = none ∧
     s.resetLow = false ∧ s.pending = []) ∧
  (State.reset.host.sound ∧ State.reset.kit.stockSound ∧ State.reset.kit.busSound ∧ State.reset.kit.recordsSound) ∧
  (∀ s : State,
     (s.resetLow = false →
       exec .resetAssert s =
         .next { kit := Kitchen.powerOn, host := { HostPort.powerOn with reports := [] }, resetLow := true, pending := s.pending }) ∧
     (s.resetLow = true → exec .resetRelease s = .next { State.reset with pending := s.pending }) ∧
     (s.resetLow = true → exec .resetAssert s = .next s) ∧ (s.resetLow = false → exec .resetRelease s = .next s)) ∧
  (∀ (c : Instr) (s : State), s.resetLow = true → c ≠ .resetRelease → exec c s = .next s)

/-! ### The second and the events of time -/

/-- A device second (R4, R5). What the second before still owes comes first: warm-ups, releases, overdue tickets, life ends, plating
starts, each ascending, and the clock limit, by what their own commands do (log entries 5, 23). Then the device second count rises by
1, and the countdown of a WARMING station falls by 1 (R106). In SERVICE below the limit the clock rises by 1, P is recomputed for the
PLANNED and FIRING groups (R56), and these are owed for the new second: WARMING stations with countdown 0 (R106), stations with a QUEUED
ticket at its release (R86), stations with a COOKING ticket not marked, started before, at START plus Ceff plus G (R98), PLANNED and
FIRING groups at T − D (R143), FIRING and READY groups not dying at their life end (R148), and the limit at 65,535 (R9). In any
other case only the warm-ups are owed. With the limit owed in SERVICE the event closes and the clock stands (log entry 5).
That the groups are recomputed in ascending number is log entry 23, the settling log entry 9. -/
def Obligations.DeviceSecondAdvances : Prop :=
  ∀ s : State, s.resetLow = false →
    let w0 := begun s.kit
    let w1 := forEach endWarmup w0.owed.warm w0
    let w2 := forEach releaseTickets w1.owed.release w1
    let w3 := forEach overdueTickets w2.owed.overdue w2
    let w4 := forEach reachLife w3.owed.life w3
    let w5 := forEach startPlating w4.owed.plating w4
    let w6 := reachLimit w5
    let ticked : Work :=
      { w6 with
        seconds := w6.seconds + 1
        stations := w6.stations.map fun x => if x.mode = .warming then { x with countdown := x.countdown - 1 } else x }
    let served : Work := { ticked with clock := ticked.clock + 1 }
    let now := forEach recompute ((served.groups.filter fun g => g.state == .planned || g.state == .firing).map Group.number) served
    let warmed := fun w : Work => (w.stations.filter fun x => x.mode == .warming && x.countdown == 0).map Station.number
    let due : Owed :=
      { warm := warmed now
        release :=
          (now.stations.filter fun x =>
            now.tickets.any fun t => t.station == x.number && t.state == .queued && decide (t.release ≤ now.clock)).map Station.number
        overdue :=
          (now.stations.filter fun x =>
            now.tickets.any fun t =>
              t.station == x.number && t.state == .cooking && !t.overdue && decide (t.startAt.getD 0 < now.clock) &&
                decide (t.startAt.getD 0 + t.ceff + x.defn.grace ≤ now.clock)).map Station.number
        plating :=
          (now.groups.filter fun g =>
            (g.state == .planned || g.state == .firing) && decide ((g.target : Int) - g.lead ≤ now.clock)).map Group.number
        life :=
          (now.groups.filter fun g =>
            (g.state == .firing || g.state == .ready) && !g.flags.dying && g.lifeEnd.any fun e => decide (e ≤ (now.clock : Int))).map
            Group.number
        limit := now.clock == 65535 }
    (∀ n, exec (.warmupEnd n) s = .next (moved s (endWarmup n w0)) ∧
       exec (.ticketRelease n) s = .next (moved s (releaseTickets n w0)) ∧
       exec (.ticketOverdue n) s = .next (moved s (overdueTickets n w0)) ∧ exec (.lifeEnd n) s = .next (moved s (reachLife n w0)) ∧
       exec (.platingStart n) s = .next (moved s (startPlating n w0)) ∧ exec .clockLimit s = .next (moved s (reachLimit w0))) ∧
    (s.kit.owed = Owed.none → w6 = w0) ∧
    ∃ w : Work, exec .deviceSecond s = .next (moved s w) ∧ w.seconds = s.kit.seconds + 1 ∧
      (w6.event = .service → w6.clock < 65535 →
        w = passSettle { now with owed := due } ∧ Settles { served with owed := due } w) ∧
      (w6.event ≠ .service ∨ 65535 ≤ w6.clock → w = { ticked with owed := { Owed.none with warm := warmed ticked } }) ∧
      (s.kit.owed.limit = true → s.kit.event = .service → w6.event = .closed ∧ w.event = .closed ∧ w.clock = s.kit.clock)

/-- The end of a warm-up (R106, R114): the WARMING station whose countdown has reached 0 becomes READY, STNMODE (READY, WARM) is
raised, a MODE frame is made pending for its current terminal, and its arbiter acts. Where it is not owed it does not occur.
What the Pass Unit then does, settling, is log entry 9. -/
def Obligations.WarmupEndMakesReady : Prop :=
  ∀ (s : State) (st : Nat), s.resetLow = false →
    (st ∉ s.kit.owed.warm → exec (.warmupEnd st) s = .next s) ∧
    ∀ x : Station, st ∈ s.kit.owed.warm → findStation s.kit st = some x → x.mode = .warming → x.countdown = 0 →
      let w0 := setOwed (fun o => { o with warm := dropNumber st o.warm }) (begun s.kit)
      let w1 := atCurrent st (markMode st)
        (raise (.stnmode st .ready .warm 0) (setStation st (fun y => { y with mode := .ready, countdown := 0 }) w0))
      ∃ w : Work, exec (.warmupEnd st) s = .next (moved s w) ∧ w = passSettle (arbiter st w1) ∧ Settles w1 w

/-- A release reached (R86): every QUEUED ticket of the station whose release the clock has reached becomes DUE, no other ticket
changes, P is recomputed for their groups, in ascending number (log entry 23), and then the station's arbiter acts once.
What the Pass Unit then does, settling, is log entry 9. -/
def Obligations.ReleaseMakesTicketsDue : Prop :=
  ∀ (s : State) (st : Nat), s.resetLow = false →
    (st ∉ s.kit.owed.release → exec (.ticketRelease st) s = .next s) ∧
    (st ∈ s.kit.owed.release → s.kit.event = .service →
      let reached := fun t : Ticket => t.station == st && decide (t.release ≤ s.kit.clock)
      let w0 := setOwed (fun o => { o with release := dropNumber st o.release }) (begun s.kit)
      let w1 : Work :=
        { w0 with tickets := s.kit.tickets.map fun t => if t.state == .queued && reached t then { t with state := .due } else t }
      let told := (s.kit.groups.filter fun g =>
        s.kit.tickets.any fun t => t.group == g.number && (t.state == .queued && reached t)).map Group.number
      ∃ w : Work, exec (.ticketRelease st) s = .next (moved s w) ∧
        w = passSettle (arbiter st (told.foldl (fun w n => recompute n w) w1)) ∧ Settles w1 w)

/-- Overdue tickets (R98): each COOKING ticket of the station whose start, Ceff and grace lie at or before the clock and whose mark
is clear is marked, and TKOVER is raised for each in queue order; nothing else changes. -/
def Obligations.OverdueTicketsMarked : Prop :=
  ∀ (s : State) (st : Nat) (x : Station), s.resetLow = false → s.kit.event = .service → st ∈ s.kit.owed.overdue →
    findStation s.kit st = some x →
    let late := (queueOf s.kit st).filter fun t =>
      t.station == st && t.state == .cooking && !t.overdue && decide (t.startAt.getD 0 < s.kit.clock) &&
        decide (t.startAt.getD 0 + t.ceff + x.defn.grace ≤ s.kit.clock)
    exec (.ticketOverdue st) s =
      .next (moved s
        { begun s.kit with
          owed := { s.kit.owed with overdue := dropNumber st s.kit.owed.overdue }
          tickets := s.kit.tickets.map fun t =>
            if late.any (fun u => u.number == t.number) then { t with overdue := true } else t
          out := late.map fun t =>
            ⟨s.kit.clock, .tkover t.number st t.group (((findGroup s.kit t.group).map Group.tag).getD 0) t.item t.comp
              (t.startAt.getD 0) t.ceff⟩ })

/-- The readiness test (R143): SERVICE, PLANNED or FIRING, not held, every live plated ticket DONE, and the clock at or past T − D.
A plating start reached (R143, R144, R153): a group that passes the test and has no undrawn STANDING line becomes READY and
GRPREADY is raised; one with undrawn lines joins the draw order, and so does every other group still to be tested at the same value
that passes and has an undrawn STANDING line, and no other (log entry 6); one that does not pass is out of the draw order. Then the
Pass Unit settles (log entry 9). -/
def Obligations.PlatingStartTestsGroup : Prop :=
  (∀ (k : Kitchen) (g : Group), testPasses k g = true ↔
     k.event = .service ∧ (g.state = .planned ∨ g.state = .firing) ∧ g.flags.held = false ∧
       (∀ t ∈ k.tickets, t.group = g.number → t.kind ≠ .standing → t.state ≠ .voiding → t.state = .done) ∧
       (g.target : Int) - g.lead ≤ k.clock) ∧
  (∀ (s : State) (n : Nat), s.resetLow = false →
     (n ∉ s.kit.owed.plating → exec (.platingStart n) s = .next s) ∧
     ∀ g : Group, n ∈ s.kit.owed.plating → findGroup s.kit n = some g →
       let waits := fun h : Group => ∃ l ∈ h.lines, l.drawn = false ∧ (findItem s.kit l.item).map Item.kind = some .standing
       let w0 := setOwed (fun o => { o with plating := dropNumber n o.plating }) (begun s.kit)
       (testPasses s.kit g = true → ¬waits g →
         ∃ w : Work, exec (.platingStart n) s = .next (moved s (passSettle w)) ∧ Settles w0 (passSettle w) ∧
           (∃ h, findGroup w.toKitchen n = some h ∧ h.state = .ready ∧ h.lines = g.lines ∧ h.proj = g.proj) ∧
           w.out = [⟨s.kit.clock, .grpready n g.tag g.proj g.target g.flags⟩] ∧ n ∉ w.drawOrder ∧ w.tickets = s.kit.tickets) ∧
       (testPasses s.kit g = true → waits g →
         ∃ w : Work, exec (.platingStart n) s = .next (moved s (passSettle w)) ∧ Settles w0 (passSettle w) ∧
           w.groups = s.kit.groups ∧ w.tickets = s.kit.tickets ∧ w.out = [] ∧
           ∀ m, m ∈ w.drawOrder ↔ m ∈ s.kit.drawOrder ∨ m = n ∨
             m ∈ s.kit.owed.plating ∧ ∃ h, findGroup s.kit m = some h ∧ testPasses s.kit h = true ∧ waits h) ∧
       (testPasses s.kit g = false →
         exec (.platingStart n) s = .next (moved s (passSettle { w0 with drawOrder := dropNumber n s.kit.drawOrder }))))

/-- A life end reached (R148): a FIRING or READY group with the dying flag clear and its life end at or before the clock gets the
dying flag, GRPDYING is raised with the life end, the line and component that give it and the group's state, and its display
becomes DYING, with a NOTE DYING handed over where it was not DYING already. Where it is not owed it does not occur.
The line and component named are the first, in record order of lines and then of components, of which a DONE ticket gives the life
end: its done time + H. -/
def Obligations.LifeEndMarksDying : Prop :=
  (∀ (k : Kitchen) (g : Group) (e : Int),
    let gives := fun (l : Line) (c : Nat) =>
      ∃ t ∈ k.tickets, t.group = g.number ∧ t.item = l.item ∧ t.subFrom = l.subFrom ∧ t.comp = c ∧ t.kind ≠ .standing ∧
        t.state = .done ∧ ∃ d i x, t.doneAt = some d ∧ findItem k l.item = some i ∧ i.lines[c]? = some x ∧ e = d + x.hold
    ∀ before l later c, g.lines = before ++ l :: later → (∀ m ∈ before, ∀ j, ¬gives m j) → gives l c → (∀ j, j < c → ¬gives l j) →
      lifeEndSource k g e = (l.item, c)) ∧
  ∀ (s : State) (n : Nat), s.resetLow = false →
    (n ∉ s.kit.owed.life → exec (.lifeEnd n) s = .next s) ∧
    ∀ (g : Group) (e : Int), n ∈ s.kit.owed.life → s.kit.event = .service → findGroup s.kit n = some g →
      (g.state = .firing ∨ g.state = .ready) → g.flags.dying = false → g.lifeEnd = some e → e ≤ s.kit.clock →
      let told := handNote ⟨n, g.sect, .dying⟩ (begun s.kit)
      ∃ w : Work, exec (.lifeEnd n) s = .next (moved s w) ∧
        (∃ h, findGroup w.toKitchen n = some h ∧ h.flags = { g.flags with dying := true } ∧ h.state = g.state ∧
          h.display = some .dying ∧ h.lines = g.lines ∧ h.proj = g.proj ∧ h.lifeEnd = some e) ∧
        w.out =
          [⟨s.kit.clock, .grpdying n g.tag e (lifeEndSource s.kit g e).1 (lifeEndSource s.kit g e).2 g.state⟩] ∧
        (g.display ≠ some .dying → w.terminals = told.terminals ∧ w.turn = told.turn) ∧
        (g.display = some .dying → w.terminals = s.kit.terminals ∧ w.turn = s.kit.turn) ∧
        w.toKitchen =
          { s.kit with
            groups := w.groups, terminals := w.terminals, turn := w.turn
            owed := { s.kit.owed with life := dropNumber n s.kit.owed.life } } ∧
        ∀ m, m ≠ n → findGroup w.toKitchen m = findGroup s.kit m

/-- The closing of the event, by CLOSE and by the clock limit (R8, R9). The clock stands; no group and no ticket is left; every
station is OFF with no staged ticket; no terminal has a POST, VOID, NEXT mark or NOTE pending, and the shown records are empty;
the broadcast is owed; item stock, definitions and the ticket-number counter stay. With stations ascending, as every step keeps
them: each station that was not OFF is OFF with countdown 0, and a MODE mark for it is set at its current terminal; an OFF one loses
its staged mark alone; RAILCLRs addressed to a terminal stay; the frame on the pair is accepted by nobody; and nothing else changes. The reports are GRPGONE for every group,
STNMODE (OFF, CLOSE) for every station that was not OFF, and EVSTATE with its cause. That the event of the
clock limit waits as owed, so that `owed.limit` stands for the clock at 65,535, and that a CLOCK_LIMIT not owed leaves the state as
it is, are the model's choices (log entries 5 and 3). -/
def Obligations.ClosingSweepsEvent : Prop :=
  let swept : Kitchen → EventCause → Work → Prop := fun k cause w =>
    w.event = .closed ∧ w.clock = k.clock ∧ w.seconds = k.seconds ∧ w.groups = [] ∧ w.tickets = [] ∧ w.drawOrder = [] ∧
      w.owed = Owed.none ∧ w.items = k.items ∧ w.courses = k.courses ∧ w.nextTicket = k.nextTicket ∧ w.broadcast = true ∧
      w.stations.map Station.fixed = k.stations.map Station.fixed ∧ w.stations.map Station.current = k.stations.map Station.current ∧
      (∀ x ∈ w.stations, x.mode = .off ∧ x.staged = none) ∧
      w.terminals.map Terminal.health = k.terminals.map Terminal.health ∧
      (∀ t ∈ w.terminals, t.posts = [] ∧ t.voids = [] ∧ t.nextMarks = [] ∧ t.notes = [] ∧ t.shown = []) ∧
      (k.stations.Pairwise (fun a b => a.number < b.number) →
        ∃ marks : Terminal → List Nat,
          (∀ t m, m ∈ marks t ↔
            m ∈ t.modeMarks ∨ ∃ x ∈ k.stations, x.number = m ∧ x.mode ≠ .off ∧ x.current = some t.address) ∧
          w.toKitchen =
            { k with
              event := .closed, owed := Owed.none, groups := [], tickets := [], drawOrder := [], broadcast := true
              stations := k.stations.map fun x =>
                if x.mode = .off then { x with staged := none } else { x with mode := .off, countdown := 0, staged := none }
              terminals := k.terminals.map fun t =>
                { t with posts := [], voids := [], nextMarks := [], modeMarks := marks t, notes := [], shown := [] }
              turn := k.turn.map fun u => { u with stale := true } }) ∧
      w.out =
        (k.groups.map fun g =>
          ⟨k.clock, .grpgone g.number g.tag (if g.state = .cancelled then .cancelled else .abandoned)⟩) ++
        ((k.stations.filter fun x => x.mode != .off).map fun x => ⟨k.clock, .stnmode x.number .off .close 0⟩) ++
        [⟨k.clock, .evstate .closed cause⟩]
  (∀ (s : State) (seq : Byte) (rest : List Frame), Asks s .close seq rest →
    ∃ w : Work, exec .close s = .next (answered s .close seq rest (.ok .empty) w) ∧ swept s.kit .close w) ∧
  (∀ s : State, s.resetLow = false → s.kit.event = .service → s.kit.owed.limit = true →
    ∃ w : Work, exec .clockLimit s = .next (moved s w) ∧ swept s.kit .limit w) ∧
  (∀ s : State, s.resetLow = false → s.kit.owed.limit = false → exec .clockLimit s = .next s)

/-! ### The host line -/

/-- The receiver's table (R163): what each received byte does in each step; a second CRC byte ends the frame in HUNT; RESTART with
its clearing, CLRCFG and CLOSE leave the step as it is. -/
def Obligations.HostBytesFollowTable : Prop :=
  (∀ (s : State) (b : Byte), s.resetLow = false →
    let leads := fun (c : Instr) (r : Rx) => exec c s = .next { s with host := { s.host with rx := r } }
    (s.host.rx = .hunt → b = 0xA5 → leads (.hostByte b) (.length none)) ∧
    (s.host.rx = .hunt → b ≠ 0xA5 → leads (.hostByte b) .hunt) ∧
    (s.host.rx = .length none → leads (.hostByte b) (.length (some b))) ∧
    (∀ hi, s.host.rx = .length (some hi) →
      let n := hi.toNat * 256 + b.toNat
      (2 ≤ n ∧ n ≤ 258 → leads (.hostByte b) (.content hi b [])) ∧ (n < 2 ∨ 258 < n → leads (.hostByte b) .hunt)) ∧
    (∀ hi lo kept, s.host.rx = .content hi lo kept →
      (kept.length + 1 = hi.toNat * 256 + lo.toNat → leads (.hostByte b) (.check hi lo (kept ++ [b]) none)) ∧
      (kept.length + 1 ≠ hi.toNat * 256 + lo.toNat → leads (.hostByte b) (.content hi lo (kept ++ [b])))) ∧
    (∀ hi lo kept, s.host.rx = .check hi lo kept none → leads (.hostByte b) (.check hi lo kept (some b))) ∧
    (∀ hi lo kept c, s.host.rx = .check hi lo kept (some c) →
      ∃ t, exec (.hostFrame b) s = .next t ∧ t.host.rx = .hunt ∧ t.kit = s.kit)) ∧
  (∀ (s t : State) (c : Instr), c ∈ [Instr.restart, .restartClearing, .clrcfg, .close] → exec c s = .next t →
    t.host.rx = s.host.rx) ∧
  State.reset.host.rx = .hunt

/-- The check of a completed frame (R165, R168): with a wrong CRC it is discarded; with the right one it joins the intake while
that holds fewer than 4 frames, whatever its kind and body, and is answered BUSY otherwise, or with four BUSY replies waiting
discarded. Nothing else changes but the receiver's step.
A gap of more than 50 ms or a framing error abandons the frame under way: the step is HUNT and nothing else changes
(R164, R161). -/
def Obligations.FramesJudgedOrAbandoned : Prop :=
  (crc16 [] = 0xFFFF ∧ ∀ (bs : List Byte) (b : Byte),
    crc16 (bs ++ [b]) =
      Nat.iterate (fun r : BitVec 16 => if r.msb then (r <<< 1) ^^^ 0x1021 else r <<< 1) 8
        (crc16 bs ^^^ (b.setWidth 16 <<< 8))) ∧
  (∀ (s : State) (hi lo c b : Byte) (kept : List Byte), s.resetLow = false → s.host.rx = .check hi lo kept (some c) →
     let f := frameOf kept
     let busy := (s.host.replyPath.filter isBusy).length
     let leads := fun h : HostPort => exec (.hostFrame b) s = .next { s with host := { h with rx := .hunt } }
     (crc16 (hi :: lo :: kept) ≠ c ++ b → leads s.host) ∧
     (crc16 (hi :: lo :: kept) = c ++ b → s.host.intake.length < 4 → leads { s.host with intake := s.host.intake ++ [f] }) ∧
     (crc16 (hi :: lo :: kept) = c ++ b → 4 ≤ s.host.intake.length → busy < 4 →
       leads { s.host with replyPath := s.host.replyPath ++ [⟨f.seq, f.kind, .busy⟩] }) ∧
     (crc16 (hi :: lo :: kept) = c ++ b → 4 ≤ s.host.intake.length → 4 ≤ busy → leads s.host)) ∧
  (∀ (s : State) (c : Instr), s.resetLow = false → c = .interByteGapExpiry ∨ c = .framingError →
     exec c s = .next { s with host := { s.host with rx := .hunt } })

/-- Every frame a host can send is received: the bytes of a frame of any kind, sequence and body of at most 256 bytes, received
one after another from HUNT with room in the intake, put that frame at the intake's tail and change nothing else. -/
def Obligations.HostFramesReadBack : Prop :=
  ∀ (kind seq : Byte) (body : List Byte) (s : State), body.length ≤ 256 → s.resetLow = false → s.host.rx = .hunt →
    s.host.intake.length < 4 →
    let bytes := hostBytes kind seq body
    let commands := bytes.dropLast.map Instr.hostByte ++ [.hostFrame (bytes.getLastD 0)]
    Host.Core.run Sys2Proof.core commands.length ({ s with pending := commands } : State) =
      .next ({ s with pending := [], host := { s.host with intake := s.host.intake ++ [⟨kind, seq, body⟩] } } : State)

/-- The transmitter's choice (R171, R173, R11): the frame being sent has ended, and the oldest reply goes, else the oldest report,
with a GAP at the tail if the gap mark is set, else nothing. With a RESTART acted on, its own reply still in the path, the oldest
reply goes and the clearing waits; at the end of RESTART's reply the clearing comes first, and then a BUSY reply that waits is
sent, else EVSTATE. That the frame being sent has ended is log entry 4.
How a report joins (R172): below 96 at the tail; at 96 it is discarded, the gap mark is set, and the discard count rises by 1 and
stops at 65,535; several join in the order raised, each judged on its own.
The bytes sent (R162, R177 to R181, R183): a frame is the sync byte, the length, kind, sequence, body and CRC-16, high bytes first. A
reply has its request's kind plus 80h, or FFh, and its body begins with the status and the kind answered; a report has its own kind,
sequence 0 and the clock first. Behind these stand the fields of the tables, in their codes; QueriesAnswered says those of the
queries. A count above 255 in one byte is log entry 21. -/
def Obligations.TransmitterChooses : Prop :=
  (∀ s : State, s.resetLow = false →
    let leads := fun h : HostPort => exec .transmitterChoice s = .next { s with host := h }
    (s.host.restartOwed = false →
      (∀ r rest, s.host.replyPath = r :: rest → leads { s.host with tx := some (.reply r), replyPath := rest }) ∧
      (∀ r rest, s.host.replyPath = [] → s.host.reports = r :: rest → s.host.gap = false →
        leads { s.host with tx := some (.report r), reports := rest }) ∧
      (∀ r rest, s.host.replyPath = [] → s.host.reports = r :: rest → s.host.gap = true →
        leads
          { s.host with
            tx := some (.report r), reports := rest ++ [⟨s.kit.clock, .gap s.host.discards⟩], gap := false, discards := 0 }) ∧
      (s.host.replyPath = [] → s.host.reports = [] → leads { s.host with tx := none })) ∧
    (s.host.restartOwed = true → s.host.replyPath = [] →
      exec .transmitterChoice s =
        .next
          { s with
            kit := clearedKitchen s.kit
            host :=
              { s.host with
                tx := some (.report ⟨0, .evstate .setup .restart⟩), reports := [], gap := false, discards := 0,
                restartOwed := false } }) ∧
    (∀ r rest, s.host.restartOwed = true → s.host.replyPath = r :: rest →
      ((∃ q ∈ s.host.replyPath, isBusy q = false) → leads { s.host with tx := some (.reply r), replyPath := rest }) ∧
      ((∀ q ∈ s.host.replyPath, isBusy q = true) →
        exec .transmitterChoice s =
          .next
            { s with
              kit := clearedKitchen s.kit
              host :=
                { s.host with
                  tx := some (.reply r), replyPath := rest, reports := [⟨0, .evstate .setup .restart⟩], gap := false,
                  discards := 0, restartOwed := false } })) ∧
    ∀ q : Reply, isBusy q = true ↔ q.answer = .busy) ∧
  (∀ h : HostPort, pushReports h [] = h ∧ ∀ r rs,
    (h.reports.length < 96 → pushReports h (r :: rs) = pushReports { h with reports := h.reports ++ [r] } rs) ∧
    (96 ≤ h.reports.length →
      pushReports h (r :: rs) = pushReports { h with gap := true, discards := min (h.discards + 1) 65535 } rs)) ∧
  (let byte := BitVec.ofNat 8
   let two := fun v : Nat => [byte (v / 256), byte v]
   let four := fun v : Nat => [byte (v / 16777216), byte (v / 65536), byte (v / 256), byte v]
   let signed := fun v : Int => four (BitVec.ofInt 32 v).toNat
   let none0 := fun o : Option Nat => byte (o.getD 0)
   let mark := fun b : Bool => (if b then 1 else 0 : Byte)
   let flags := fun f : Flags =>
     byte ((if f.held then 1 else 0) + (if f.late then 2 else 0) + (if f.stretched then 4 else 0) + (if f.short then 8 else 0) +
       if f.dying then 16 else 0)
   let stock := fun st : Stock => match st with | .unlimited => two 65535 | .limited v => two v
   let event := fun e : EventState => (match e with | .setup => 1 | .service => 2 | .closed => 3 : Byte)
   let group := fun g : GroupState =>
     (match g with | .planned => 1 | .firing => 2 | .ready => 3 | .served => 4 | .cancelled => 5 | .abandoned => 6 : Byte)
   let mode := fun m : Mode =>
     (match m with | .off => 1 | .warming => 2 | .ready => 3 | .paused => 4 | .draining => 5 | .halted => 6 : Byte)
   let heard := fun t : TermState => (match t with | .unknown => 1 | .live => 2 | .lost => 3 : Byte)
   let cause := fun c : ModeCause =>
     (match c with
      | .stnon => 1 | .stnoff => 2 | .pause => 3 | .pauseall => 4 | .resume => 5 | .resumeall => 6 | .halt => 7 | .fault => 8
      | .clear => 9 | .warm => 10 | .drain => 11 | .close => 12 : Byte)
   (∀ kind seq body,
     let covered := two (body.length + 2) ++ [kind, seq] ++ body
     hostBytes kind seq body = 0xA5 :: covered ++ two (crc16 covered).toNat) ∧
   (∀ (r : Reply) (status : Byte) (more : List Byte),
     (status, more) =
       (match r.answer with
        | .ok b => (0x00, b.bytes) | .badKind => (0x01, []) | .badField c i => (0x02, [byte c.code, byte i]) | .badState => (0x03, [])
        | .noSuch => (0x04, []) | .full => (0x05, []) | .inFire => (0x06, []) | .busy => (0x07, []) | .groups => (0x08, [])
        | .incomplete why st i => (0x09, [match why with | .noStation => 1 | .itemStn => 3, byte st, byte i])) →
     r.bytes = hostBytes (if (kindOf r.kind).isSome then r.kind + 0x80 else 0xFF) r.seq (status :: r.kind :: more)) ∧
   ([FieldCode.number, .name, .course, .kind, .lines, .station, .cook, .batch, .rest, .hold, .runsize, .reorder, .lookahead, .subst,
       .subof, .platebase, .tol, .slots, .advance, .step, .warmup, .grace, .load, .primary, .fallback, .address, .sect, .covers, .item,
       .count, .sum, .length].map FieldCode.code = (List.range 32).map fun i => i + 1) ∧
   (∀ b : OkBody,
     match b with
     | .empty => b.bytes = []
     | .defined n m => b.bytes = [byte n, match m with | .new => 1 | .replaced => 2]
     | .stockSet i st e => b.bytes = byte i :: stock st ++ [mark e]
     | .rebound st p f c => b.bytes = [byte st, byte p, none0 f, none0 c]
     | .submitted g f p ls =>
       b.bytes = two g ++ [flags f] ++ signed p ++ [byte ls.length] ++
         ls.flatMap fun l => two l.committed ++ [byte l.sub] ++ two l.moved ++ two l.shortfall
     | .amended f p ls =>
       b.bytes = flags f :: signed p ++ [byte ls.length] ++
         ls.flatMap fun l =>
           [byte l.item, none0 l.subFrom] ++ two l.count ++ two l.committed ++ [byte l.sub] ++ two l.moved ++ two l.shortfall
     | .timed f p => b.bytes = flags f :: signed p
     | .cancelled n => b.bytes = two n
     | .served g tag => b.bytes = two g ++ four tag
     | .refired f p cs e =>
       b.bytes = flags f :: signed p ++ [byte cs.length] ++
         (cs.flatMap fun c => two c.1 ++ [if c.2 < 256 then byte c.2 else Config.longCount c.2]) ++ two e
     | .modeSet st m => b.bytes = [byte st, mode m]
     | .modesSet n => b.bytes = [byte n]
     | .group _ | .station _ | .item _ _ | .terminal _ | .part _ => True) ∧
   ∀ (r : Report) (kind : Byte) (more : List Byte),
     (kind, more) =
       (match r.body with
        | .started => (0xE0, [1])
        | .evstate st c => (0xE1, [event st, match c with | .start => 1 | .close => 2 | .limit => 3 | .restart => 4])
        | .grpready g tag p t f => (0xE2, two g ++ four tag ++ signed p ++ two t ++ [flags f])
        | .grplate g tag p t l => (0xE3, two g ++ four tag ++ signed p ++ two t ++ [mark l])
        | .grpstretch g tag i c held h => (0xE4, two g ++ four tag ++ [byte i, byte c] ++ four held ++ two h)
        | .grpshort g tag i sf c v => (0xE5, two g ++ four tag ++ [byte i, none0 sf] ++ two c ++ two v)
        | .grpdying g tag e i c st => (0xE6, two g ++ four tag ++ signed e ++ [byte i, byte c, group st])
        | .grpgone g tag st => (0xE7, two g ++ four tag ++ [group st])
        | .tkover n st g tag i c start ceff =>
          (0xE8, two n ++ [byte st] ++ two g ++ four tag ++ [byte i, byte c] ++ two start ++ two ceff)
        | .stnmode st m c t => (0xE9, [byte st, mode m, cause c, byte t])
        | .termstate a k l e => (0xEA, [byte a, match k with | .station => 1 | .pass => 2, heard l, heard e])
        | .item86 i c => (0xEB, [byte i, match c with | .commit => 1 | .stock => 2 | .define => 3])
        | .gap n => (0xEC, two n)) →
     r.bytes = hostBytes kind 0 (two r.clock ++ more))

/-- Every step of the part keeps the Host Port's bounds: at most 4 frames in the intake, at most 4 BUSY replies and one reply of a
request in the reply path, at most 96 reports, the gap mark set only over a full queue and just while reports have been
discarded, and a frame under way of a length from 2 to 258 (R163, R166, R168, R172, R173). -/
def Obligations.HostPortSoundKept : Prop :=
  ∀ s t : State, s.host.sound → step s = .next t → t.host.sound

/-! ### Requests in general -/

/-- Every request reads back from the body its host sends: the fields of each kind of R179, at every value they can hold. The kind bytes,
the layout of each body, high bytes first, and the length each kind requires, which follows from the line count in a DEFITEM and a
SUBMIT, are those of the table (R176, R179, R167). -/
def Obligations.RequestBodiesReadBack : Prop :=
  (∀ r : Request, r.fits = true → parseRequest r.kind.code r.body = .request r.kind r) ∧
  (([.start, .close, .restart, .clrcfg, .defitem, .defcrs, .defstn, .defterm, .stock, .rebind, .submit, .amend, .retime, .hold, .cancel,
      .pickup, .refire, .stnon, .stnoff, .pause, .pauseall, .resume, .resumeall, .halt, .clear, .qgroup, .qstn, .qitem, .qterm,
      .qstat] : List ReqKind).map ReqKind.code =
    [0x01, 0x02, 0x03, 0x04, 0x10, 0x11, 0x12, 0x13, 0x14, 0x15, 0x20, 0x21, 0x22, 0x23, 0x24, 0x25, 0x26, 0x30, 0x31, 0x32, 0x33, 0x34,
      0x35, 0x36, 0x37, 0x40, 0x41, 0x42, 0x43, 0x44]) ∧
  (∀ (b : Byte) (k : ReqKind), kindOf b = some k ↔ b = k.code) ∧
  (let byte := BitVec.ofNat 8
   let two := fun v : Nat => [byte (v / 256), byte v]
   ∀ (r : Request) (kind : ReqKind) (fields : List Byte),
     (kind, fields) =
       (match r with
        | .start => (.start, []) | .close => (.close, []) | .restart => (.restart, []) | .clrcfg => (.clrcfg, [])
        | .defitem q =>
          (.defitem,
            byte q.number :: q.name ++ [byte q.course, byte q.kind, byte q.subst] ++ two q.stock ++ [byte q.runSize] ++
              two q.reorder ++ two q.lookahead ++ [byte q.lines.length] ++
              q.lines.flatMap fun c => byte c.station :: two c.cook ++ [byte c.batch] ++ two c.rest ++ two c.hold)
        | .defcrs n base perCover tol => (.defcrs, byte n :: two base ++ [byte perCover] ++ two tol)
        | .defstn q =>
          (.defstn,
            [byte q.number, byte q.slots] ++ two q.advance ++ two q.step ++ two q.warmup ++ two q.grace ++ q.load.map byte ++
              [byte q.primary, byte q.fallback])
        | .defterm a k => (.defterm, [byte a, byte k])
        | .stock i v => (.stock, byte i :: two v)
        | .rebind st p f => (.rebind, [byte st, byte p, byte f])
        | .submit q =>
          (.submit,
            [byte (q.tag / 16777216), byte (q.tag / 65536), byte (q.tag / 256), byte q.tag, byte q.sect, byte q.course] ++
              two q.covers ++ two q.target ++ [byte q.lines.length] ++ q.lines.flatMap fun l => byte l.item :: two l.count)
        | .amend g i sf c => (.amend, two g ++ [byte i, byte sf] ++ two c)
        | .retime g t => (.retime, two g ++ two t)
        | .hold g => (.hold, two g) | .cancel g => (.cancel, two g) | .pickup g => (.pickup, two g)
        | .refire g i => (.refire, two g ++ [byte i])
        | .stnon n => (.stnon, [byte n]) | .stnoff n => (.stnoff, [byte n]) | .pause n => (.pause, [byte n])
        | .pauseall => (.pauseall, []) | .resume n => (.resume, [byte n]) | .resumeall => (.resumeall, [])
        | .halt n => (.halt, [byte n]) | .clear n => (.clear, [byte n])
        | .qgroup g first => (.qgroup, two g ++ [byte first])
        | .qstn n => (.qstn, [byte n]) | .qitem n => (.qitem, [byte n]) | .qterm n => (.qterm, [byte n]) | .qstat => (.qstat, [])) →
     r.kind = kind ∧ r.body = fields) ∧
  (∀ (b : List Byte) (k : ReqKind) (n : Nat),
     n =
       (match k with
        | .start | .close | .restart | .clrcfg | .pauseall | .resumeall | .qstat => 0
        | .stnon | .stnoff | .pause | .resume | .halt | .clear | .qstn | .qitem | .qterm => 1
        | .defterm | .hold | .cancel | .pickup => 2
        | .stock | .rebind | .refire | .qgroup => 3
        | .retime => 4
        | .defcrs | .amend => 6
        | .defstn => 16
        | .defitem => 28 + 8 * (b.getD 27 0).toNat
        | .submit => 11 + 3 * (b.getD 10 0).toNat) →
     bodyLength k b = n)

/-- The event gate (R2): a request of the right length that the event state does not admit is answered BADSTATE, its fields
unread and nothing else changed; every other request goes on to the block that owns it. A frame of unknown kind is answered BADKIND and
does not come to the gate. -/
def Obligations.GateRefusesByTable : Prop :=
  let refusedIn : EventState → List ReqKind
    | .setup => [.close]
    | .service => [.start, .clrcfg, .defitem, .defcrs, .defstn, .defterm]
    | .closed =>
      [.start, .close, .clrcfg, .defitem, .defcrs, .defstn, .defterm, .submit, .amend, .retime, .hold, .cancel, .pickup,
       .refire, .stnon, .stnoff, .pause, .pauseall, .resume, .resumeall, .halt, .clear]
  (∀ (s : State) (f : Frame) (rest : List Frame), Faces s f rest → kindOf f.kind = none →
    exec .unknownKind s =
      .next
        { s with host := { s.host with intake := rest, replyPath := s.host.replyPath ++ [⟨f.seq, f.kind, .badKind⟩] } }) ∧
  ∀ (s : State) (f : Frame) (rest : List Frame) (k : ReqKind), Faces s f rest → f.kind = k.code →
    f.body.length = bodyLength k f.body →
    (k ∈ refusedIn s.kit.event → exec k.command s = .next (turnedAway s k f.seq rest .badState)) ∧
    (k ∉ refusedIn s.kit.event → k ≠ .restart →
      let done := perform s.host.reports.length s.host.gap (readRequest k f.body) (begun s.kit)
      exec k.command s = .next (answered s k f.seq rest done.2 done.1)) ∧
    (k = .restart →
      exec k.command s = .next
        { s with
          host :=
            { s.host with
              intake := rest, replyPath := s.host.replyPath ++ [⟨f.seq, 0x03, .ok .empty⟩], restartOwed := true } })

/-- Frames that are no requests (R167): an unknown kind is answered BADKIND with the kind byte as received, a wrong body length
BADFIELD with code LENGTH and index 0, and nothing else changes.
When a request is acted on (R166): not with the intake empty, not behind a reply that waits, and only as the kind the oldest
frame has. A reply being sent has ended when the next request is acted on (log entry 4), and a clock limit still owed closes the
event before it (log entry 5). -/
def Obligations.FramesActedOnInTurn : Prop :=
  (∀ (s : State) (f : Frame) (rest : List Frame), Faces s f rest →
     let leads := fun (c : Instr) (a : Answer) =>
       exec c s =
         .next { s with host := { s.host with intake := rest, replyPath := s.host.replyPath ++ [⟨f.seq, f.kind, a⟩] } }
     (kindOf f.kind = none → leads .unknownKind .badKind) ∧
     ∀ k : ReqKind, f.kind = k.code → f.body.length ≠ bodyLength k f.body → leads k.command (.badField .length 0)) ∧
  (∀ (s : State) (k : ReqKind), s.resetLow = false →
     (s.host.intake = [] → exec k.command s = .next s ∧ exec .unknownKind s = .next s) ∧
     (replyWaiting s.host = true → exec k.command s = .next s ∧ exec .unknownKind s = .next s) ∧
     (∀ f rest, s.host.intake = f :: rest → f.kind ≠ k.code → exec k.command s = .next s) ∧
     (∀ f rest, s.host.intake = f :: rest → (kindOf f.kind).isSome = true → exec .unknownKind s = .next s) ∧
     (sendingReply s.host = true → s.host.restartOwed = false → replyWaiting s.host = false → s.host.intake ≠ [] →
       ∀ f rest, s.host.intake = f :: rest → f.kind = k.code →
         exec k.command s = exec k.command { s with host := { s.host with tx := none } }) ∧
     (∀ f rest, s.host.intake = f :: rest → f.kind = k.code → sendingReply s.host = false → s.host.restartOwed = false →
       replyWaiting s.host = false → s.kit.owed.limit = true → s.kit.event = .service →
       exec k.command s = exec k.command (moved s (closeEvent .limit (begun s.kit)))))

/-! ### The event and the definitions -/

/-- START (R6, R7). With no station defined, or a component line that names an undefined one (the first, items ascending and lines
in order), it is answered INCOMPLETE and nothing changes. Otherwise the event is SERVICE with every pool 0; every QUEUED ticket
of release 0 is DUE and its group's P recomputed; the arbiter of every station acts; EVSTATE (SERVICE, START) is raised; every PLANNED and
FIRING group is tested; and the Pass Unit settles. The order of these parts is log entry 13, that the reports stand after the
reply log entry 8, the settling log entry 9. -/
def Obligations.StartOpensService : Prop :=
  ∀ (s : State) (seq : Byte) (rest : List Frame), Asks s .start seq rest →
    let loose :=
      (s.kit.items.flatMap fun i => i.lines.map fun c => (c.station, i.number)).find? fun p => (findStation s.kit p.1).isNone
    (s.kit.stations = [] → exec .start s = .next (turnedAway s .start seq rest (.incomplete .noStation 0 0))) ∧
    (∀ st i, s.kit.stations ≠ [] → loose = some (st, i) →
      exec .start s = .next (turnedAway s .start seq rest (.incomplete .itemStn st i))) ∧
    (s.kit.stations ≠ [] → loose = none →
      let begin : Work := { begun s.kit with event := .service, items := s.kit.items.map fun i => { i with pool := 0 } }
      let w1 : Work :=
        { begin with
          tickets := s.kit.tickets.map fun t => if t.state == .queued && t.release == 0 then { t with state := .due } else t }
      let told := (s.kit.groups.filter fun g =>
        s.kit.tickets.any fun t => t.group == g.number && (t.state == .queued && t.release == 0)).map Group.number
      let due := told.foldl (fun w n => recompute n w) w1
      let opened := raise (.evstate .service .start) (forEach arbiter (s.kit.stations.map Station.number) due)
      let active := (opened.groups.filter fun g => g.state == .planned || g.state == .firing).map Group.number
      ∃ w : Work, exec .start s = .next (answered s .start seq rest (.ok .empty) w) ∧
        w = passSettle (forEach testGroup active opened) ∧ Settles w1 w ∧
        ⟨s.kit.clock, .evstate .service .start⟩ ∈ w.out)

/-- RESTART (R11, R12). It is answered OK at once with nothing cleared; when its reply has been sent the part is cleared: SETUP at
clock 0, no group, no ticket, the next ticket number 1, pools 0 with the stock kept, every station OFF with no current terminal,
every terminal UNKNOWN with nothing pending, the broadcast owed, and EVSTATE (SETUP, RESTART) alone in the report queue. The
definitions, the device second count, the intake and the reply path stay.
The frame behind RESTART (R12, R166): acted on with the clearing still to come and no reply of a request waiting, so that RESTART's reply
is the one being sent, it finds the clearing completed first, and is then judged in SETUP: one that the gate refuses there is answered
BADSTATE, and one that it passes is a request of the cleared part. That RESTART's reply has then ended is log entry 4. -/
def Obligations.RestartAnsweredThenCleared : Prop :=
  (∀ (s : State) (seq : Byte) (rest : List Frame), Asks s .restart seq rest →
    exec .restart s =
      .next
        { s with
          host :=
            { s.host with
              intake := rest, replyPath := s.host.replyPath ++ [⟨seq, 0x03, .ok .empty⟩], restartOwed := true } }) ∧
  (∀ (s : State) (f : Frame) (rest : List Frame), s.resetLow = false → s.host.restartOwed = true → replyWaiting s.host = false →
    s.host.intake = f :: rest →
    ∃ t : State, exec .restartClearing s = .next t ∧ t.kit.event = .setup ∧ t.host.intake = f :: rest ∧
      t.host.replyPath = s.host.replyPath ∧ (∀ k : ReqKind, f.kind = k.code → exec k.command s = exec k.command t) ∧
      (kindOf f.kind = none → exec .unknownKind s = exec .unknownKind t) ∧
      ∀ r : Request, f.kind = r.kind.code → parseRequest f.kind f.body = .request r.kind r →
        (gatePasses r.kind .setup = true → Asks t r f.seq rest) ∧
        (gatePasses r.kind .setup = false → exec r.kind.command s = .next (turnedAway t r.kind f.seq rest .badState))) ∧
  ∀ s : State, s.resetLow = false →
    (s.host.restartOwed = false ∨ replyWaiting s.host = true → exec .restartClearing s = .next s) ∧
    (s.host.restartOwed = true → replyWaiting s.host = false →
      ∃ k : Kitchen,
        exec .restartClearing s =
          .next
            { s with
              kit := k
              host :=
                { s.host with
                  tx := none, reports := [⟨0, .evstate .setup .restart⟩], gap := false, discards := 0, restartOwed := false } } ∧
        k.event = .setup ∧ k.clock = 0 ∧ k.seconds = s.kit.seconds ∧ k.groups = [] ∧ k.tickets = [] ∧ k.nextTicket = 1 ∧
        k.drawOrder = [] ∧ k.owed = Owed.none ∧ k.broadcast = true ∧ k.definitions = s.kit.definitions ∧
        k.items = s.kit.items.map (fun i => { i with pool := 0 }) ∧
        k.stations =
          s.kit.stations.map (fun x => { x with mode := .off, countdown := 0, current := none, staged := none }) ∧
        k.terminals =
          s.kit.terminals.map (fun t => ⟨t.address, t.kind, .unknown, 0, false, [], [], [], [], [], [], []⟩))

/-- CLRCFG (R13): refused with GROUPS while a group is in use; otherwise the four tables are emptied, the broadcast is owed, no
report is raised, and the counts, the ticket-number counter, the report queue and the event state stay. No warm-up is owed any more
and nothing stands in the draw order; the round begins again at the lowest address that is defined next (R120), which the model holds
as 0 for the address last served (log entry 17). A turn under way runs to its end for a terminal that is gone; a NOTE in it will enter
nothing. -/
def Obligations.ConfigCleared : Prop :=
  ∀ (s : State) (seq : Byte) (rest : List Frame), Asks s .clrcfg seq rest →
    (s.kit.groups ≠ [] → exec .clrcfg s = .next (turnedAway s .clrcfg seq rest .groups)) ∧
    (s.kit.groups = [] →
      ∃ w : Work, exec .clrcfg s = .next (answered s .clrcfg seq rest (.ok .empty) w) ∧ w.items = [] ∧ w.courses = [] ∧
        w.stations = [] ∧ w.terminals = [] ∧ w.groups = [] ∧ w.broadcast = true ∧ w.out = [] ∧ w.event = s.kit.event ∧
        w.clock = s.kit.clock ∧ w.seconds = s.kit.seconds ∧ w.tickets = s.kit.tickets ∧ w.nextTicket = s.kit.nextTicket ∧
        w.lastTurn = 0 ∧ w.drawOrder = [] ∧ w.owed = Owed.none ∧ w.busLine = s.kit.busLine ∧ (s.kit.turn = none → w.turn = none) ∧
        ∀ u, s.kit.turn = some u →
          ((∃ n, u.frame = .note n) → w.turn = some { u with orphan := true, stale := true }) ∧
          ((∀ n, u.frame ≠ .note n) → w.turn = some { u with orphan := true }))

/-- The four definition requests (R19): GROUPS while a group is in use, whatever the fields; else the first field found wrong in
the order of the kind's checks is answered BADFIELD with its code and index; nothing changes.
The checks of each kind in their order, each with what it refuses, its code and its index: those of R22, R28, R26 with R25, and R20.
The limits of the definitions: a course, terminal, station or item passes its checks exactly when its fields lie in the ranges
of R22, R28, R23 with R25, and R15 to R18 with R20. -/
def Obligations.DefinitionsJudged : Prop :=
  (∀ (s : State) (seq : Byte) (rest : List Frame) (r : Request) (checks : List FieldCheck), Asks s r seq rest →
     (∃ d, r = .defitem d ∧ checks = itemChecks s.kit d) ∨ (∃ n b p t, r = .defcrs n b p t ∧ checks = courseChecks n b t) ∨
       (∃ d, r = .defstn d ∧ checks = stationChecks s.kit d) ∨ (∃ a k, r = .defterm a k ∧ checks = terminalChecks s.kit a k) →
     (s.kit.groups ≠ [] → exec r.kind.command s = .next (turnedAway s r.kind seq rest .groups)) ∧
     ∀ earlier code index later, s.kit.groups = [] → checks = earlier ++ (true, code, index) :: later →
       (∀ c ∈ earlier, c.1 = false) →
       exec r.kind.command s = .next (turnedAway s r.kind seq rest (.badField code index))) ∧
  ((∀ n base tol, firstBad (courseChecks n base tol) = none ↔ (1 ≤ n ∧ n ≤ 8) ∧ base ≤ 1800 ∧ tol ≤ 900) ∧
   (∀ (k : Kitchen) (a kind : Nat), firstBad (terminalChecks k a kind) = none ↔
     (1 ≤ a ∧ a ≤ 30) ∧ (kind = 1 ∨ kind = 2) ∧
       ∀ t, findTerminal k a = some t → t.kind ≠ termKindOf kind →
         ∀ x ∈ k.stations, x.defn.primary ≠ a ∧ x.defn.fallback ≠ some a) ∧
   (∀ (k : Kitchen) (r : StationReq), firstBad (stationChecks k r) = none ↔
     (1 ≤ r.number ∧ r.number ≤ 24) ∧ (1 ≤ r.slots ∧ r.slots ≤ 8) ∧ r.advance ≤ 600 ∧ r.step ≤ 600 ∧ r.warmup ≤ 3600 ∧
       r.grace ≤ 900 ∧ (∀ p ∈ r.load, p ≤ 100) ∧
       ((1 ≤ r.primary ∧ r.primary ≤ 30) ∧ isStationTerminal k r.primary = true ∧
         ∀ x ∈ k.stations, x.number ≠ r.number → x.defn.primary ≠ r.primary) ∧
       (r.fallback = 0 ∨
         (1 ≤ r.fallback ∧ r.fallback ≤ 30) ∧ isStationTerminal k r.fallback = true ∧ r.fallback ≠ r.primary)) ∧
   ∀ (k : Kitchen) (r : ItemReq), firstBad (itemChecks k r) = none ↔
     r.number ≠ 0 ∧ (∀ b ∈ r.name, 0x20 ≤ b.toNat ∧ b.toNat ≤ 0x7E) ∧ ((1 ≤ r.course ∧ r.course ≤ 8) ∧ findCourse k r.course ≠ none) ∧
       (r.kind = 1 ∨ r.kind = 2) ∧ (1 ≤ r.lines.length ∧ r.lines.length ≤ 6) ∧ (r.kind = 2 → r.lines.length = 1) ∧
       (∀ c ∈ r.lines, (1 ≤ c.station ∧ c.station ≤ 24) ∧ c.cook ≤ 7200 ∧
         (r.kind = 1 → (1 ≤ c.batch ∧ c.batch ≤ 240) ∧ c.rest ≤ 1800 ∧ (60 ≤ c.hold ∧ c.hold ≤ 7200))) ∧
       (r.kind = 2 → (1 ≤ r.runSize ∧ r.runSize ≤ 240) ∧ r.reorder ≤ 999 ∧ r.lookahead ≤ 3600 ∧ r.subst = 0) ∧
       (r.kind = 1 → r.subst = 0 ∨
         ∃ y, findItem k r.subst = some y ∧ y.number ≠ r.number ∧ y.course = r.course) ∧
       (∀ old, findItem k r.number = some old → old.course ≠ r.course →
         ∀ i ∈ k.items, i.number ≠ r.number → i.subst ≠ some r.number)) ∧
  (∀ n base tol, ChecksAre (courseChecks n base tol)
     [(n < 1 ∨ 8 < n, .number, 0), (1800 < base, .platebase, 0), (900 < tol, .tol, 0)]) ∧
  (∀ (k : Kitchen) (a kind : Nat), ChecksAre (terminalChecks k a kind)
     [(a < 1 ∨ 30 < a, .address, 0), (kind ≠ 1 ∧ kind ≠ 2, .kind, 0),
      ((∃ t, findTerminal k a = some t ∧ t.kind ≠ (if kind = 2 then .pass else .station)) ∧
        ∃ x ∈ k.stations, x.defn.primary = a ∨ x.defn.fallback = some a, .kind, 0)]) ∧
  (∀ (k : Kitchen) (r : StationReq), ChecksAre (stationChecks k r)
     (([(r.number < 1 ∨ 24 < r.number, .number, 0), (r.slots < 1 ∨ 8 < r.slots, .slots, 0), (600 < r.advance, .advance, 0),
        (600 < r.step, .step, 0), (3600 < r.warmup, .warmup, 0), (900 < r.grace, .grace, 0)] : List CheckRow) ++
       r.load.mapIdx (fun i p => ((100 < p, .load, i) : CheckRow)) ++
       [(r.primary < 1 ∨ 30 < r.primary ∨ (∀ t, findTerminal k r.primary = some t → t.kind ≠ .station) ∨
           ∃ x ∈ k.stations, x.number ≠ r.number ∧ x.defn.primary = r.primary, .primary, 0),
        (r.fallback ≠ 0 ∧ (30 < r.fallback ∨ (∀ t, findTerminal k r.fallback = some t → t.kind ≠ .station) ∨
           r.fallback = r.primary), .fallback, 0)])) ∧
  ∀ (k : Kitchen) (r : ItemReq),
    let standing := r.kind = 2
    ChecksAre (itemChecks k r)
      (([(r.number = 0, .number, 0), (∃ b ∈ r.name, b.toNat < 0x20 ∨ 0x7E < b.toNat, .name, 0),
         (r.course < 1 ∨ 8 < r.course ∨ findCourse k r.course = none, .course, 0), (r.kind ≠ 1 ∧ r.kind ≠ 2, .kind, 0),
         (r.lines.length < 1 ∨ 6 < r.lines.length ∨ (standing ∧ r.lines.length ≠ 1), .lines, 0)] : List CheckRow) ++
        (r.lines.mapIdx fun i c =>
          ([(c.station < 1 ∨ 24 < c.station, .station, i), (7200 < c.cook, .cook, i),
            (¬standing ∧ (c.batch < 1 ∨ 240 < c.batch), .batch, i), (¬standing ∧ 1800 < c.rest, .rest, i),
            (¬standing ∧ (c.hold < 60 ∨ 7200 < c.hold), .hold, i)] : List CheckRow)).flatten ++
        [(standing ∧ (r.runSize < 1 ∨ 240 < r.runSize), .runsize, 0), (standing ∧ 999 < r.reorder, .reorder, 0),
         (standing ∧ 3600 < r.lookahead, .lookahead, 0),
         (r.subst ≠ 0 ∧ (standing ∨ ∀ y, findItem k r.subst = some y → y.number = r.number ∨ y.course ≠ r.course), .subst, 0),
         (∃ old, findItem k r.number = some old ∧ old.course ≠ r.course ∧
           ∃ i ∈ k.items, i.number ≠ r.number ∧ i.subst = some r.number, .subof, 0)])

/-- DEFITEM taken (R21, R30, R35): the item stands in the table with the fields of its kind, those of
the other kind 0 (U, V and K of a PLATED item; B, R and H on the line of a STANDING one), pool 0 and its exhausted mark by its
stock; ITEM86 (DEFINE) is raised if it is exhausted and was not; every other item, and everything else, is as before.
DEFCRS taken (R22): the course stands in the table with its fields; every other course, and everything else, is as before. -/
def Obligations.ItemAndCourseDefined : Prop :=
  (∀ (s : State) (seq : Byte) (rest : List Frame) (r : ItemReq), Asks s (.defitem r) seq rest → s.kit.groups = [] →
     firstBad (itemChecks s.kit r) = none →
     let fresh := r.stock = 0 ∧ ∀ i ∈ s.kit.items, i.number = r.number → i.exhausted = false
     ∃ w : Work,
       exec .defitem s =
         .next (answered s .defitem seq rest
           (.ok (.defined r.number (if findItem s.kit r.number = none then .new else .replaced))) w) ∧
       (∃ i, findItem w.toKitchen r.number = some i ∧ i.name = r.name ∧ i.course = r.course ∧
         i.stock = (if r.stock = 65535 then .unlimited else .limited r.stock) ∧ (i.exhausted = true ↔ r.stock = 0) ∧ i.pool = 0 ∧
         i.subst = (if r.subst = 0 then none else some r.subst) ∧
         (r.kind = 1 → i.kind = .plated ∧ i.lines = r.lines ∧ i.runSize = 0 ∧ i.reorder = 0 ∧ i.lookahead = 0) ∧
         (r.kind = 2 → i.kind = .standing ∧ i.runSize = r.runSize ∧ i.reorder = r.reorder ∧ i.lookahead = r.lookahead ∧
           i.lines = r.lines.map fun c => { c with batch := 0, rest := 0, hold := 0 })) ∧
       (∀ m, m ≠ r.number → findItem w.toKitchen m = findItem s.kit m) ∧
       (fresh → w.out = [⟨s.kit.clock, .item86 r.number .define⟩]) ∧ (¬fresh → w.out = []) ∧
       w.toKitchen = { s.kit with items := w.items }) ∧
  (∀ (s : State) (seq : Byte) (rest : List Frame) (n base pc tol : Nat), Asks s (.defcrs n base pc tol) seq rest →
     s.kit.groups = [] → (1 ≤ n ∧ n ≤ 8) → base ≤ 1800 → tol ≤ 900 →
     ∃ w : Work,
       exec .defcrs s =
         .next (answered s .defcrs seq rest (.ok (.defined n (if findCourse s.kit n = none then .new else .replaced))) w) ∧
       findCourse w.toKitchen n = some ⟨n, base, pc, tol⟩ ∧ (∀ m, m ≠ n → findCourse w.toKitchen m = findCourse s.kit m) ∧
       w.out = [] ∧ w.toKitchen = { s.kit with courses := w.courses })

/-- DEFSTN taken (R26, R132). A new station is OFF with its fields, and its current terminal is the primary if that is LIVE, else
the fallback if that is LIVE, else none. A defined one gets its new fields; with the same binding nothing else changes; with a
new one its current terminal is chosen again, while its mode, countdown and empty staged mark stay, also those of a DRAINING
station that holds a slot. What the choice does to tickets, reports and the pending frames of the old and the new terminal is what
StationRebound says of it; nothing else changes. -/
def Obligations.StationDefined : Prop :=
  ∀ (s : State) (seq : Byte) (rest : List Frame) (r : StationReq), Asks s (.defstn r) seq rest → s.kit.groups = [] →
    firstBad (stationChecks s.kit r) = none →
    let chosen :=
      if terminalLive s.kit r.primary then some r.primary
      else if r.fallback ≠ 0 ∧ terminalLive s.kit r.fallback then some r.fallback else none
    let placed : Work :=
      { begun s.kit with
        stations := insertEntry Station.number ⟨r.number, stationDefOf r, .off, 0, none, none⟩ s.kit.stations }
    let changed := setStation r.number (fun y => { y with defn := stationDefOf r }) (begun s.kit)
    ∃ w : Work,
      exec .defstn s =
        .next (answered s .defstn seq rest
          (.ok (.defined r.number (if findStation s.kit r.number = none then .new else .replaced))) w) ∧
      (∃ x, findStation w.toKitchen r.number = some x ∧ x.defn = stationDefOf r ∧
        (∀ old, findStation s.kit r.number = some old → old.defn.primary = r.primary →
          old.defn.fallback = present r.fallback → x = { old with defn := stationDefOf r } ∧
            w = changed) ∧
        (∀ old, findStation s.kit r.number = some old →
          old.defn.primary ≠ r.primary ∨ old.defn.fallback ≠ present r.fallback →
            w = rechoose r.number changed ∧ x.current = chosen ∧ (old.staged = none → x.staged = none) ∧
            (old.mode ≠ .draining ∨
                ((∃ t ∈ s.kit.tickets, t.station = r.number ∧ (t.state = .sent ∨ t.state = .posted ∨ t.state = .cooking)) ∧
                  ∀ t ∈ s.kit.tickets, t.station = r.number → t.state ≠ .voiding) →
              x.mode = old.mode ∧ x.countdown = old.countdown)) ∧
        (findStation s.kit r.number = none →
          w = rechoose r.number placed ∧ x.mode = .off ∧ x.countdown = 0 ∧ x.current = chosen)) ∧
      stationDefOf r =
        ⟨r.slots, r.advance, r.step, r.warmup, r.grace, r.load, r.primary, if r.fallback = 0 then none else some r.fallback⟩ ∧
      (∀ m, m ≠ r.number → (findStation w.toKitchen m).map Station.post = (findStation s.kit m).map Station.post) ∧
      w.items.map Item.definition = s.kit.items.map Item.definition ∧ w.courses = s.kit.courses ∧
      w.terminals.map Terminal.health = s.kit.terminals.map Terminal.health ∧ w.event = s.kit.event ∧ w.clock = s.kit.clock

/-- DEFTERM taken (R28, R29): a third PASS terminal is answered FULL; a new address is UNKNOWN with nothing pending; the same kind
changes nothing; another kind drops its RAILCLRs and NOTE lists and keeps its state, miss count and receipt mark. -/
def Obligations.TerminalDefined : Prop :=
  ∀ (s : State) (seq : Byte) (rest : List Frame) (a kind : Nat), Asks s (.defterm a kind) seq rest → s.kit.groups = [] →
    firstBad (terminalChecks s.kit a kind) = none →
    let full := kind = 2 ∧ 2 ≤ (s.kit.terminals.filter fun t => t.kind == .pass && t.address != a).length
    let asked : TermKind := if kind = 2 then .pass else .station
    (full → exec .defterm s = .next (turnedAway s .defterm seq rest .full)) ∧
    (¬full →
      ∃ w : Work,
        exec .defterm s =
          .next (answered s .defterm seq rest
            (.ok (.defined a (if findTerminal s.kit a = none then .new else .replaced))) w) ∧
        (findTerminal s.kit a = none →
          findTerminal w.toKitchen a = some ⟨a, asked, .unknown, 0, false, [], [], [], [], [], [], []⟩) ∧
        (∀ t, findTerminal s.kit a = some t → t.kind = asked → findTerminal w.toKitchen a = some t) ∧
        (∀ t, findTerminal s.kit a = some t → t.kind ≠ asked →
          findTerminal w.toKitchen a = some { t with kind := asked, railclrs := [], notes := [], shown := [] }) ∧
        (∀ m, m ≠ a → findTerminal w.toKitchen m = findTerminal s.kit m) ∧
        w.out = [] ∧ w.toKitchen = { s.kit with terminals := w.terminals })

/-- STOCK (R31, R30, R35): item 0 is BADFIELD NUMBER, an undefined one NOSUCH; else the item has the stock, 65,535 being unlimited,
and its mark by it, ITEM86 (STOCK) is raised if it becomes exhausted, and the Pass Unit settles. The index byte 0 is log entry 22, the
settling log entry 9. -/
def Obligations.StockSet : Prop :=
  ∀ (s : State) (seq : Byte) (rest : List Frame) (n v : Nat), Asks s (.stock n v) seq rest →
    let st : Stock := if v = 65535 then .unlimited else .limited v
    (n = 0 → exec .stock s = .next (turnedAway s .stock seq rest (.badField .number 0))) ∧
    (n ≠ 0 → findItem s.kit n = none → exec .stock s = .next (turnedAway s .stock seq rest .noSuch)) ∧
    ∀ i, n ≠ 0 → findItem s.kit n = some i →
      let w1 : Work :=
        { begun s.kit with
          items := updateEntry Item.number n (fun j => { j with stock := st, exhausted := v == 0 }) s.kit.items
          out := if v = 0 ∧ i.exhausted = false then [⟨s.kit.clock, .item86 n .stock⟩] else [] }
      exec .stock s = .next (answered s .stock seq rest (.ok (.stockSet n st (v == 0))) (passSettle w1)) ∧
        Settles w1 (passSettle w1)

/-- REBIND (R136, R132, R133): a number outside 1 to 24 is BADFIELD NUMBER, an undefined station NOSUCH, a wrong binding the BADFIELD
of R25 (its index byte 0: log entry 22); else the station has the new binding and its current terminal by it, and the reply carries
them.
The choice of a station's current terminal (R132, R133): the primary if LIVE, else the fallback if LIVE, else none. Where it changes, the
old one loses the station: its POSTs, VOIDs and marks of it are dropped and a RAILCLR is pending there; the VOIDING tickets of the
station are freed and their groups told; the rail is rebuilt at the new one (HelloRepostsRails says how); and the arbiter acts (order:
log entry 12; settling: log entry 9). The stations bound to a terminal choose again in ascending number (log entry 12). -/
def Obligations.StationRebound : Prop :=
  (∀ (s : State) (seq : Byte) (rest : List Frame) (n p f : Nat), Asks s (.rebind n p f) seq rest →
    (n < 1 ∨ 24 < n → exec .rebind s = .next (turnedAway s .rebind seq rest (.badField .number 0))) ∧
    (1 ≤ n ∧ n ≤ 24 → findStation s.kit n = none → exec .rebind s = .next (turnedAway s .rebind seq rest .noSuch)) ∧
    ChecksAre (bindingChecks s.kit n p f)
      [(p < 1 ∨ 30 < p ∨ (∀ t, findTerminal s.kit p = some t → t.kind ≠ .station) ∨
          ∃ x ∈ s.kit.stations, x.number ≠ n ∧ x.defn.primary = p, .primary, 0),
       (f ≠ 0 ∧ (30 < f ∨ (∀ t, findTerminal s.kit f = some t → t.kind ≠ .station) ∨ f = p), .fallback, 0)] ∧
    (∀ x a, 1 ≤ n ∧ n ≤ 24 → findStation s.kit n = some x → firstBad (bindingChecks s.kit n p f) = some a →
      exec .rebind s = .next (turnedAway s .rebind seq rest a)) ∧
    (∀ x, 1 ≤ n ∧ n ≤ 24 → findStation s.kit n = some x → firstBad (bindingChecks s.kit n p f) = none →
      let current :=
        if terminalLive s.kit p then some p else if f ≠ 0 ∧ terminalLive s.kit f then some f else none
      let bound := setStation n (fun y => { y with defn := { y.defn with primary := p, fallback := present f } }) (begun s.kit)
      ∃ w : Work,
        exec .rebind s = .next (answered s .rebind seq rest (.ok (.rebound n p (present f) current)) w) ∧
        w = passSettle (rechoose n bound) ∧
        (∃ y, findStation w.toKitchen n = some y ∧ y.defn = { x.defn with primary := p, fallback := present f } ∧
          y.current = current) ∧
        (∀ m, m ≠ n → (findStation w.toKitchen m).map Station.post = (findStation s.kit m).map Station.post) ∧
        w.items.map Item.definition = s.kit.items.map Item.definition ∧
        w.terminals.map Terminal.health = s.kit.terminals.map Terminal.health ∧ w.event = s.kit.event ∧
        w.clock = s.kit.clock ∧ w.courses = s.kit.courses)) ∧
  (∀ (st : Nat) (w : Work) (x : Station), findStation w.toKitchen st = some x →
    let current :=
      if terminalLive w.toKitchen x.defn.primary then some x.defn.primary
      else
        match x.defn.fallback with
        | some f => if terminalLive w.toKitchen f then some f else none
        | none => none
    let moving := setStation st (fun y => { y with current := current }) w
    let left :=
      match x.current with
      | some old => freeVoiding st (setTerminal old (loseStation st) moving)
      | none => moving
    let railed :=
      match current with
      | some a => rebuildRail st a left
      | none => left
    (x.current = current → rechoose st w = w) ∧ (x.current ≠ current → rechoose st w = slotFreed st railed)) ∧
  (∀ (a : Nat) (w : Work),
    rechooseBound a w =
      ((w.stations.filter fun x => x.defn.primary == a || x.defn.fallback == some a).map Station.number).foldl
        (fun w st => rechoose st w) w) ∧
  (∀ (k : Kitchen) (a : Nat), terminalLive k a = true ↔ ∃ t, findTerminal k a = some t ∧ t.state = .live) ∧
  (∀ (st : Nat) (t : Terminal),
    let u := loseStation st t
    u.posts = t.posts.filter (fun p => p.station != st) ∧ u.voids = t.voids.filter (fun p => p.station != st) ∧
      u.nextMarks = t.nextMarks.filter (fun m => m != st) ∧ u.modeMarks = t.modeMarks.filter (fun m => m != st) ∧
      (∀ m, m ∈ u.railclrs ↔ m = st ∨ m ∈ t.railclrs) ∧
      u = { t with
            posts := u.posts, voids := u.voids, nextMarks := u.nextMarks, modeMarks := u.modeMarks, railclrs := u.railclrs }) ∧
  ∀ (st : Nat) (w : Work),
    let lost := fun t : Ticket => t.station == st && t.state == .voiding
    freeVoiding st w =
        (w.tickets.filter lost).foldl (fun w t => groupTicketFreed t.group (dropTicket t.number w)) w ∧
      (freeVoiding st w).tickets = w.tickets.filter fun t => !(w.tickets.any fun u => u.number == t.number && lost u)

/-! ### Groups -/

/-- The first steps of every request that names a group (R45, R52, R55, R61, R158): a number outside 1 to 512 is BADFIELD NUMBER,
one not in use NOSUCH, and a state that does not admit the request BADSTATE; nothing changes.
The refusals of the station requests (R104, R105, R107, R109, R111, R113, R117): a number outside 1 to 24 is BADFIELD NUMBER, an undefined station
NOSUCH, and a mode that does not admit the request BADSTATE; nothing changes. The index byte 0 of these BADFIELDs is log entry 22. -/
def Obligations.RecordRequestsJudged : Prop :=
  (∀ (s : State) (seq : Byte) (rest : List Frame) (r : Request) (n item sf count target first : Nat), Asks s r seq rest →
     r ∈ [Request.amend n item sf count, .retime n target, .hold n, .cancel n, .pickup n, .refire n item, .qgroup n first] →
     (n < 1 ∨ 512 < n → exec r.kind.command s = .next (turnedAway s r.kind seq rest (.badField .number 0))) ∧
     (1 ≤ n ∧ n ≤ 512 → findGroup s.kit n = none → exec r.kind.command s = .next (turnedAway s r.kind seq rest .noSuch)) ∧
     ∀ g, 1 ≤ n ∧ n ≤ 512 → findGroup s.kit n = some g →
       (r.kind ∈ [ReqKind.amend, .retime, .hold] ∧ g.state ≠ .planned ∧ g.state ≠ .firing) ∨
         (r.kind = .cancel ∧ g.state ≠ .planned ∧ g.state ≠ .firing ∧ g.state ≠ .ready) ∨
         (r.kind = .pickup ∧ g.state ≠ .ready) ∨ (r.kind = .refire ∧ g.state ≠ .firing ∧ g.state ≠ .ready) →
       exec r.kind.command s = .next (turnedAway s r.kind seq rest .badState)) ∧
  (∀ (s : State) (seq : Byte) (rest : List Frame) (r : Request) (n : Nat), Asks s r seq rest →
     r ∈ [Request.stnon n, .stnoff n, .pause n, .resume n, .halt n, .clear n, .qstn n] →
     (n < 1 ∨ 24 < n → exec r.kind.command s = .next (turnedAway s r.kind seq rest (.badField .number 0))) ∧
     (1 ≤ n ∧ n ≤ 24 → findStation s.kit n = none → exec r.kind.command s = .next (turnedAway s r.kind seq rest .noSuch)) ∧
     ∀ x, 1 ≤ n ∧ n ≤ 24 → findStation s.kit n = some x →
       (r.kind = .stnon ∧ x.mode ≠ .off) ∨
         (r.kind = .stnoff ∧ x.mode ≠ .warming ∧ x.mode ≠ .ready ∧ x.mode ≠ .paused) ∨
         (r.kind = .pause ∧ x.mode ≠ .ready) ∨ (r.kind = .resume ∧ x.mode ≠ .paused) ∨
         (r.kind = .halt ∧ (x.mode = .off ∨ x.mode = .halted)) ∨ (r.kind = .clear ∧ x.mode ≠ .halted) →
       exec r.kind.command s = .next (turnedAway s r.kind seq rest .badState))

/-- Freeing tickets and making their successors (R46, R81, R84): the freed records leave the pool, the new ones stand behind the
rest in the order of the descriptions, DUE in SERVICE with the release reached and QUEUED otherwise, with no mark and no time.
The number of a new ticket (R82): the first from the counter on, 9,999 being followed by 1, that no record in use carries; and
the counter moves to the number after it. So the numbers in use stay different.
The freeing of one ticket (R90, R101, R127): its record leaves the pool, its pending POST and VOID go, a staged mark that names it
clears with a NEXT handed over to the station's current terminal, and a POST or VOID of it on the pair is accepted by nobody. -/
def Obligations.TicketsFreedAndCreated : Prop :=
  (∀ (n : Nat) (w : Work),
     let w' := dropTicket n w
     let onPair := fun u : Turn =>
       (∃ st name p kind re due, u.frame = .post st n name p kind re due) ∨ ∃ st, u.frame = .void st n
     w'.tickets = w.tickets.filter (fun t => t.number != n) ∧
       w'.stations = w.stations.map (fun x => if x.staged = some n then { x with staged := none } else x) ∧
       (∃ share : Terminal → Terminal, w'.terminals = w.terminals.map share ∧ ∀ t,
         share t = { t with
           posts := t.posts.filter fun p => p.ticket != n, voids := t.voids.filter fun p => p.ticket != n
           nextMarks := (share t).nextMarks } ∧
         ∀ m, m ∈ (share t).nextMarks ↔
           m ∈ t.nextMarks ∨ ∃ x ∈ w.stations, x.number = m ∧ x.staged = some n ∧ x.current = some t.address) ∧
       (∀ u, w.turn = some u → (onPair u → w'.turn = some { u with stale := true }) ∧ (¬onPair u → w'.turn = some u)) ∧
       (w.turn = none → w'.turn = none) ∧
       w' = { w with tickets := w'.tickets, stations := w'.stations, terminals := w'.terminals, turn := w'.turn }) ∧
  (∀ (frees : List Nat) (cs : List Computation) (w : Work), ∃ news : List Ticket,
     (rebuild frees cs w).tickets = (w.tickets.filter fun t => !frees.contains t.number) ++ news ∧
     news.map Ticket.desc = cs.flatMap Computation.tickets ∧
     ∀ t ∈ news, t.state = (if w.event = .service ∧ t.release ≤ w.clock then .due else .queued) ∧ t.overdue = false ∧
       t.reprint = false ∧ t.postedAt = none ∧ t.startAt = none ∧ t.doneAt = none) ∧
  (∀ (d : TicketDesc) (w : Work), w.tickets.length < 9999 → 1 ≤ w.nextTicket → w.nextTicket ≤ 9999 →
     ∃ t passed, (createTicket d w).tickets = w.tickets ++ [t] ∧ t.number ∉ w.tickets.map Ticket.number ∧
       1 ≤ t.number ∧ t.number ≤ 9999 ∧ t.number = (w.nextTicket - 1 + passed) % 9999 + 1 ∧
       (∀ j, j < passed → (w.nextTicket - 1 + j) % 9999 + 1 ∈ w.tickets.map Ticket.number) ∧
       (createTicket d w).nextTicket = t.number % 9999 + 1 ∧
       ((w.tickets.map Ticket.number).Nodup → ((createTicket d w).tickets.map Ticket.number).Nodup))

/-- The checks of a SUBMIT in their order, each with what it refuses, its code and its index (R41; the index 0 of a field that is no
line field is log entry 22). SUBMIT (R41 to R44, R37): the first wrong field is BADFIELD; with every group number in use, or too few
free ticket records, it is FULL, and nothing changes; else the group of the lowest free number is entered with its lead D, its lines
by the walk of R42 and its tickets, the reports of R44 are raised (GroupSettled says which), and the reply carries the number, the
flags, P and the lines (log entry 8). The order of the arbiters is log entry 23, the settling log entry 9. -/
def Obligations.GroupSubmitted : Prop :=
  (∀ (k : Kitchen) (r : SubmitReq), ChecksAre (submitChecks k r)
     (([(r.sect = 0, .sect, 0), (r.course < 1 ∨ 8 < r.course ∨ findCourse k r.course = none, .course, 0),
        (r.covers < 1 ∨ 400 < r.covers, .covers, 0), (r.lines.length < 1 ∨ 12 < r.lines.length, .lines, 0)] : List CheckRow) ++
       (r.lines.mapIdx fun i l =>
         ([(l.item = 0 ∨ (∀ y, findItem k l.item = some y → y.course ≠ r.course) ∨ ∃ m ∈ r.lines.take i, m.item = l.item,
              .item, i),
           (l.count < 1 ∨ 400 < l.count, .count, i),
           (∃ y, findItem k l.item = some y ∧ y.kind = .plated ∧ ∃ c ∈ y.lines, findStation k c.station = none,
              .station, i)] : List CheckRow)).flatten ++
       [(r.covers < (r.lines.map OrderLine.count).sum, .sum, 0)])) ∧
  ∀ (s : State) (seq : Byte) (rest : List Frame) (r : SubmitReq), Asks s (.submit r) seq rest →
    (∀ a, firstBad (submitChecks s.kit r) = some a → exec .submit s = .next (turnedAway s .submit seq rest a)) ∧
    (firstBad (submitChecks s.kit r) = none → (∀ m, 1 ≤ m → m ≤ 512 → findGroup s.kit m ≠ none) →
      exec .submit s = .next (turnedAway s .submit seq rest .full)) ∧
    ∀ n c, firstBad (submitChecks s.kit r) = none → 1 ≤ n → n ≤ 512 → findGroup s.kit n = none →
      (∀ m, 1 ≤ m → m < n → findGroup s.kit m ≠ none) → findCourse s.kit r.course = some c →
      let g : Group :=
        { number := n, tag := r.tag, sect := r.sect, course := r.course, covers := r.covers, target := r.target,
          lead := c.base + (r.covers * c.perCover + 9) / 10, state := .planned, flags := ⟨false, false, false, false, false⟩,
          proj := 0, lines := [], lifeEnd := none, display := none }
      let walked := walk r (begun s.kit)
      let cs := walked.lines.flatMap (lineComputations walked.work.toKitchen g)
      let fitting := (cs.flatMap Computation.tickets).length ≤ 2048 - s.kit.tickets.length
      (¬fitting → exec .submit s = .next (turnedAway s .submit seq rest .full)) ∧
      (fitting →
        let w1 := settleGroup s.kit.items g walked.lines cs
          (rebuild [] cs { walked.work with groups := insertEntry Group.number g s.kit.groups })
        let sts := (s.kit.stations.filter fun x =>
          (cs.flatMap Computation.tickets).any fun d => d.station == x.number).map Station.number
        ∃ (h : Group) (w : Work), findGroup w1.toKitchen n = some h ∧
          exec .submit s = .next (answered s .submit seq rest (.ok (.submitted n h.flags h.proj walked.info)) w) ∧
          w = passSettle (handOver n (arbiters sts w1)) ∧ Settles w1 w ∧
          w.groups.map Group.plan =
            (insertEntry Group.number
              { g with flags := { g.flags with stretched := cs.any fun x => x.hold < x.held } } s.kit.groups).map Group.plan)

/-- The walk of a SUBMIT over one line (R42, R32). A PLATED line takes what the stock allows, and the mark follows the stock. What it
lacks goes to its substitute, on a line of its own: a PLATED one commits it as far as its stock allows, a STANDING one takes no
stock and no more than it holds. With no portion to take, an undefined station, or 12 lines already (as entry 15 counts them)
nothing moves. The rest is the line's shortfall. A STANDING line takes nothing. The record has the ordered lines, without those
left with count 0, and then the substituted ones. -/
def Obligations.WalkCommitsStock : Prop :=
  (∀ (places : Nat) (v : Walk) (l : OrderLine) (x : Item), findItem v.work.toKitchen l.item = some x →
    let u := walkLine places v l
    let stockOf := fun n => (findItem u.work.toKitchen n).map fun i => (i.stock, i.exhausted)
    let alone := fun (k : Nat) =>
      u.subs = v.subs ∧ u.ordered = v.ordered ++ [⟨l.item, none, l.count, l.count - k, false⟩] ∧
        u.info = v.info ++ [⟨min l.count k, 0, 0, l.count - k⟩]
    (x.kind = .standing →
      u.work = v.work ∧ u.subs = v.subs ∧ u.ordered = v.ordered ++ [⟨l.item, none, l.count, 0, false⟩] ∧
        u.info = v.info ++ [⟨0, 0, 0, 0⟩]) ∧
    (x.kind = .plated → x.stock = .unlimited →
      stockOf l.item = some (.unlimited, false) ∧ u.subs = v.subs ∧
        u.ordered = v.ordered ++ [⟨l.item, none, l.count, 0, false⟩] ∧ u.info = v.info ++ [⟨l.count, 0, 0, 0⟩]) ∧
    (∀ k, x.kind = .plated → x.subst = none ∨ l.count ≤ k → x.stock = .limited k →
      stockOf l.item = some (.limited (k - l.count), decide (k ≤ l.count)) ∧
        (∀ m, m ≠ l.item → findItem u.work.toKitchen m = findItem v.work.toKitchen m) ∧ alone k) ∧
    (∀ k n, x.kind = .plated → x.subst = some n → x.stock = .limited k → k < l.count → n ≠ l.item →
      (12 ≤ places + v.subs.length ∨
        ∀ y, findItem v.work.toKitchen n = some y → ∃ c ∈ y.lines, findStation v.work.toKitchen c.station = none) →
      stockOf l.item = some (.limited 0, true) ∧
        (∀ m, m ≠ l.item → findItem u.work.toKitchen m = findItem v.work.toKitchen m) ∧ alone k) ∧
    (∀ k n y, x.kind = .plated → x.subst = some n → x.stock = .limited k → k < l.count → n ≠ l.item →
      places + v.subs.length < 12 → findItem v.work.toKitchen n = some y →
      (∀ c ∈ y.lines, findStation v.work.toKitchen c.station ≠ none) →
      let gone :=
        match y.stock with
        | .unlimited => l.count - k
        | .limited m => min (l.count - k) m
      stockOf l.item = some (.limited 0, true) ∧
        (∀ m, m ≠ l.item → m ≠ n → findItem u.work.toKitchen m = findItem v.work.toKitchen m) ∧
        (y.kind = .standing → findItem u.work.toKitchen n = some y) ∧
        (y.kind = .plated → y.stock = .unlimited → stockOf n = some (.unlimited, false)) ∧
        (∀ m, y.kind = .plated → y.stock = .limited m → stockOf n = some (.limited (m - gone), decide (m ≤ gone))) ∧
        (gone = 0 → alone k) ∧
        (gone ≠ 0 →
          u.subs = v.subs ++ [⟨n, some l.item, gone, 0, false⟩] ∧
            u.ordered = v.ordered ++ [⟨l.item, none, l.count - gone, l.count - k - gone, false⟩] ∧
            u.info = v.info ++ [⟨k, n, gone, l.count - k - gone⟩]))) ∧
  ∀ (r : SubmitReq) (w : Work),
    let v := r.lines.foldl (walkLine r.lines.length) ⟨w, [], [], []⟩
    walk r w = v ∧ (walk r w).lines = v.ordered.filter (fun l => l.count != 0) ++ v.subs

/-- The refusals of an AMEND past the state of the group, in their order (R45, steps 4 to 9; the index byte 0 is log entry 22).
AMEND (R45 to R49). Past these: a count equal to the present one changes
nothing; a drawn STANDING line is INFIRE and an undrawn one gets its new count; a PLATED line that goes down takes the reduction
from its shortfall first, and is INFIRE where it would fall below what is dispatched; one that goes up commits the portions added,
and what it lacks goes to its substitute. The lines changed are then rebuilt.
A line stands in its place in the record, a new one at the end, and one with count 0 is removed (R46, R47, R49). A substitute's line
that is held takes portions unless it is drawn; a new one needs room within 12 lines. A commitment takes what the stock allows (R32), a
substitution as at SUBMIT (R42).
The taking of an AMEND (R46, R48): with too few records it is FULL and nothing changes; else the group has its new lines, the
undispatched tickets of the changed lines are replaced by those of their computations, the arbiters act, the group is handed to the
Pass Unit (GroupSettled says how), and the reply carries flags, P and lines. The reply is
log entries 8 and 10, the room for a new line log entry 15, the order of the arbiters log entry 23, the settling log entry 9. -/
def Obligations.LineAmended : Prop :=
  (∀ (k : Kitchen) (g : Group) (item sf count : Nat),
     let named := fun l : Line => l.item == item && l.subFrom == (if sf = 0 then none else some sf)
     let held := ∃ l ∈ g.lines, named l = true
     let present := ((g.lines.find? named).map Line.count).getD 0
     FirstThatHolds
       [(item = 0 ∨ ∀ y, findItem k item = some y → y.course ≠ g.course, .badField .item 0), (sf ≠ 0 ∧ ¬held, .noSuch),
        (400 < count ∨ (count = 0 ∧ ¬held), .badField .count 0),
        (present < count ∧
          ∃ y, findItem k item = some y ∧ y.kind = .plated ∧ ∃ c ∈ y.lines, findStation k c.station = none, .badField .station 0),
        (g.covers < (g.lines.map Line.count).sum - present + count, .badField .sum 0),
        (¬held ∧ sf = 0 ∧ 12 ≤ g.lines.length, .full)]
       (amendRefusal k g item sf count)) ∧
  (∀ (l : Line) (ls : List Line),
     let same := fun m : Line => m.item == l.item && m.subFrom == l.subFrom
     putLine l ls = ((if ls.any same then ls.map fun m => if same m then l else m else ls ++ [l]).filter fun m => m.count != 0)) ∧
  (∀ (g : Group) (x y : Nat) (adding : Bool),
     let named := g.lines.find? fun l => l.item == y && l.subFrom == some x
     (∀ m, named = some m → (subRoom g x y adding = true ↔ m.drawn = false)) ∧
     (named = none → (subRoom g x y adding = true ↔ g.lines.length + (if adding then 1 else 0) < 12))) ∧
  (∀ (w : Work) (item n : Nat) (i : Item), findItem w.toKitchen item = some i →
     let after := fun j : Item =>
       match j.stock with
       | .unlimited => { j with exhausted := false }
       | .limited k => { j with stock := .limited (k - n), exhausted := decide (k ≤ n) }
     let taken :=
       match i.stock with
       | .unlimited => n
       | .limited k => min n k
     let loose := ∃ c ∈ i.lines, findStation w.toKitchen c.station = none
     commit item n w = ({ w with items := w.items.map fun j => if j.number = item then after j else j }, taken) ∧
     ∀ room : Bool, substitute none n room w = (w, 0) ∧
       (n = 0 ∨ room = false ∨ loose → substitute (some item) n room w = (w, 0)) ∧
       (n ≠ 0 → room = true → ¬loose → i.kind = .plated → substitute (some item) n room w = commit item n w) ∧
       (n ≠ 0 → room = true → ¬loose → i.kind = .standing → substitute (some item) n room w = (w, taken))) ∧
  (∀ (s : State) (seq : Byte) (rest : List Frame) (n item sf count : Nat) (g : Group), Asks s (.amend n item sf count) seq rest →
     1 ≤ n → n ≤ 512 → findGroup s.kit n = some g → g.state = .planned ∨ g.state = .firing →
     let w0 := begun s.kit
     let from_ := if sf = 0 then none else some sf
     let old := g.lines.find? fun m => m.item == item && m.subFrom == from_
     let l : Line := old.getD ⟨item, from_, 0, 0, false⟩
     let leads := fun (r : Work × Answer) => exec .amend s = .next (answered s .amend seq rest r.2 r.1)
     let told := fun (m : Line) (sub moved : Nat) =>
       (⟨m.item, m.subFrom, m.count, m.count - m.shortfall, sub, moved, m.shortfall⟩ : AmendLine)
     (∀ a, amendRefusal s.kit g item sf count = some a → exec .amend s = .next (turnedAway s .amend seq rest a)) ∧
     ∀ x, amendRefusal s.kit g item sf count = none → findItem s.kit item = some x →
       (count = l.count → x.kind = .plated → leads (w0, .ok (.amended g.flags g.proj [told l 0 0]))) ∧
       (count = l.count → x.kind = .standing →
         leads (w0, .ok (.amended g.flags g.proj [⟨l.item, l.subFrom, l.count, 0, 0, 0, l.shortfall⟩]))) ∧
       (count ≠ l.count → x.kind = .standing → l.drawn = true → leads (w0, .inFire)) ∧
       (count ≠ l.count → x.kind = .standing → l.drawn = false →
         leads (takeAmend w0 g (putLine { l with count := count } g.lines) []
           [⟨l.item, l.subFrom, count, 0, 0, 0, l.shortfall⟩] w0)) ∧
       (count < l.count → x.kind = .plated →
         let m : Line := { l with count := count, shortfall := l.shortfall - (l.count - count) }
         let d := largestDispatched s.kit n l
         (count - m.shortfall < d → leads (w0, .inFire)) ∧
         (d ≤ count - m.shortfall →
           leads (takeAmend w0 g (putLine m g.lines) [m] [told m 0 0]
             (giveBack item ((l.count - l.shortfall) - (count - m.shortfall)) w0)))) ∧
       (l.count < count → x.kind = .plated →
         let added := count - l.count
         let sub := if sf = 0 then x.subst else none
         let room := subRoom g item (sub.getD 0) old.isNone
         let short :=
           match x.stock with
           | .unlimited => 0
           | .limited k => added - min added k
         let u := substitute sub short room (commit item added w0).1
         let m : Line := { l with count := count - u.2, shortfall := l.shortfall + (short - u.2) }
         (u.2 = 0 → leads (takeAmend w0 g (putLine m g.lines) [m] [told m 0 0] u.1)) ∧
         (u.2 ≠ 0 →
           ∃ y, sub = some y ∧
             let had : Line :=
               (g.lines.find? fun z => z.item == y && z.subFrom == some item).getD ⟨y, some item, 0, 0, false⟩
             let o : Line := { had with count := had.count + u.2 }
             let held := if (findItem s.kit y).map Item.kind = some .plated then o.count - o.shortfall else 0
             leads (takeAmend w0 g (putLine o (putLine m g.lines)) [m, o]
               [told m y u.2, ⟨o.item, o.subFrom, o.count, held, 0, 0, o.shortfall⟩] u.1)))) ∧
  (∀ (before w : Work) (g : Group) (lines changed : List Line) (info : List AmendLine),
     let frees := changed.flatMap (waitingTickets w.toKitchen g.number)
     let cs := (lines.filter fun l => changed.any fun m => m.item == l.item && m.subFrom == l.subFrom).flatMap
       (lineComputations w.toKitchen g)
     let sts := (w.stations.filter fun x =>
       (cs.flatMap Computation.tickets).any (fun d => d.station == x.number) ||
         w.tickets.any fun t => frees.contains t.number && t.station == x.number).map Station.number
     let w1 := settleGroup before.items g lines cs (rebuild frees cs w)
     (2048 - w.tickets.length + frees.length < (cs.flatMap Computation.tickets).length →
       takeAmend before g lines changed info w = (before, .full)) ∧
     ((cs.flatMap Computation.tickets).length ≤ 2048 - w.tickets.length + frees.length →
       ∃ (w' : Work) (flags : Flags) (p : Int),
         takeAmend before g lines changed info w = (w', .ok (.amended flags p info)) ∧
         (∀ h, findGroup w1.toKitchen g.number = some h → flags = h.flags ∧ p = h.proj) ∧
         w' = passSettle (handOver g.number (arbiters sts w1)) ∧ Settles w1 w' ∧
         w1.groups.map (fun x => (x.number, x.state)) = w.groups.map (fun x => (x.number, x.state)) ∧
         ∀ x ∈ w1.groups, x.number = g.number → x.lines = lines ∧ (x.flags.short = true ↔ ∃ l ∈ lines, 0 < l.shortfall)))

/-- RETIME (R50): it never fails for want of records; the group has the new T with the held flag clear and the stretched flag as
before or by the new computations, its undispatched tickets are rebuilt, and the reply carries flags and P. The reply is log entry 8's, the order of the
arbiters log entry 23's, the settling log entry 9's.
What a rebuild of a line computes and frees (R43, R45, R46, R50, R74): for each component of a PLATED line, in index order, the
component computation on count less shortfall less d, d being the portions in its dispatched tickets, and none on 0; freed are the
line's QUEUED and DUE tickets. The largest d of its components is what an AMEND cannot go below. -/
def Obligations.GroupRetimed : Prop :=
  (∀ (k : Kitchen) (g : Group) (l : Line),
    let mine := fun t : Ticket => t.group == g.number && t.item == l.item && t.subFrom == l.subFrom && t.kind != .standing
    let d := fun c =>
      ((k.tickets.filter fun t =>
        mine t && t.comp == c && [TicketState.sent, .posted, .cooking, .done].contains t.state).map Ticket.portions).sum
    waitingTickets k g.number l =
        (k.tickets.filter fun t => mine t && (t.state == .queued || t.state == .due)).map Ticket.number ∧
      ((∀ i, findItem k l.item = some i → i.kind ≠ .plated) → lineComputations k g l = []) ∧
      ∀ i, findItem k l.item = some i →
        (∀ c, c < i.lines.length → d c ≤ largestDispatched k g.number l) ∧
        (largestDispatched k g.number l = 0 ∨ ∃ c, c < i.lines.length ∧ d c = largestDispatched k g.number l) ∧
        (i.kind = .plated →
          lineComputations k g l =
            (i.lines.mapIdx fun idx c =>
              match findStation k c.station with
              | some x =>
                if l.count - l.shortfall - d idx = 0 then []
                else
                  [componentComputation k.clock g.target g.lead ⟨g.number, l.item, idx, l.subFrom⟩ c x.defn
                    (l.count - l.shortfall - d idx)]
              | none => []).flatten)) ∧
  ∀ (s : State) (seq : Byte) (rest : List Frame) (n target : Nat) (g : Group), Asks s (.retime n target) seq rest →
    1 ≤ n → n ≤ 512 → findGroup s.kit n = some g → g.state = .planned ∨ g.state = .firing →
    let timed := fun x : Group => { x with target := target, flags := { x.flags with held := false } }
    let frees := g.lines.flatMap (waitingTickets s.kit n)
    let cs := g.lines.flatMap (lineComputations s.kit (timed g))
    let w1 := settleGroup s.kit.items (timed g) g.lines cs (setGroup n timed (rebuild frees cs (begun s.kit)))
    let sts := (s.kit.stations.filter fun x =>
      (cs.flatMap Computation.tickets).any (fun d => d.station == x.number) ||
        s.kit.tickets.any fun t => frees.contains t.number && t.station == x.number).map Station.number
    ∃ (h : Group) (w : Work), findGroup w1.toKitchen n = some h ∧
      exec .retime s = .next (answered s .retime seq rest (.ok (.timed h.flags h.proj)) w) ∧
      w = passSettle (handOver n (arbiters sts w1)) ∧ Settles w1 w ∧
      w.groups.map Group.plan =
        (updateEntry Group.number n (fun x =>
          { timed x with
            flags := { x.flags with held := false, stretched := x.flags.stretched || cs.any fun c => c.hold < c.held } })
          s.kit.groups).map Group.plan

/-- HOLD (R51, R87): a group already held is as it was; else its held flag is set, it leaves the draw order, the arbiters of its
stations act, and no ticket of it is granted or changed (ticket numbers in use differ, R82: StockAndBusSoundKept). The reply carries
the flags with held set and P as it stands. The order of the arbiters is log entry 23, the settling log entry 9. -/
def Obligations.GroupHeld : Prop :=
  ∀ (s : State) (seq : Byte) (rest : List Frame) (n : Nat) (g : Group), Asks s (.hold n) seq rest →
    1 ≤ n → n ≤ 512 → findGroup s.kit n = some g → g.state = .planned ∨ g.state = .firing →
    let answer := Answer.ok (.timed { g.flags with held := true } g.proj)
    (g.flags.held = true → exec .hold s = .next (turnedAway s .hold seq rest answer)) ∧
    (g.flags.held = false →
      let w1 := setGroup n (fun x => { x with flags := { x.flags with held := true } }) (begun s.kit)
      let sts := (s.kit.stations.filter fun x => s.kit.tickets.any fun t => t.group == n && t.station == x.number).map Station.number
      ∃ w : Work,
        exec .hold s = .next (answered s .hold seq rest answer w) ∧
        w = passSettle (arbiters sts { w1 with drawOrder := dropNumber n s.kit.drawOrder }) ∧
        Settles w1 w ∧
        ((s.kit.tickets.map Ticket.number).Nodup →
          w.tickets.filter (fun t => t.group == n) = s.kit.tickets.filter fun t => t.group == n))

/-- What CANCEL does (R52, R99). A PLANNED, FIRING or READY group becomes CANCELLED; of its tickets those on a rail whose station
has a current terminal become VOIDING with a VOID pending there in place of their POST, and the others are freed; stock returns
for what was not dispatched: of each PLATED line its count less its shortfall less the largest d of its components; the group is out
of the draw order, and the slots freed are acted on at its stations; the reply carries how many tickets are left, and with none left the group is freed at once.
What the Pass Unit then does, settling, is log entry 9.
A ticket that becomes VOIDING keeps all else, other POSTs and VOIDs stay in their places, the VOID carries its station, and nothing else
changes; a ticket freed is freed as TicketsFreedAndCreated says.
A return of portions (R33): a limited stock rises by them and stops at 65,534, and the exhausted mark clears; an unlimited one stays;
nothing is reported. -/
def Obligations.GroupCancelled : Prop :=
  (∀ (item n : Nat) (w : Work) (i : Item), findItem w.toKitchen item = some i → i.sound → 1 ≤ n →
    let w' := giveBack item n w
    (i.stock = .unlimited → findItem w'.toKitchen item = some i) ∧
    (∀ v, i.stock = .limited v →
      findItem w'.toKitchen item = some { i with stock := .limited (min (v + n) 65534), exhausted := false }) ∧
    (∀ m, m ≠ item → findItem w'.toKitchen m = findItem w.toKitchen m) ∧ w' = { w with items := w'.items }) ∧
  (∀ (s : State) (seq : Byte) (rest : List Frame) (n : Nat) (g : Group), Asks s (.cancel n) seq rest →
    1 ≤ n → n ≤ 512 → findGroup s.kit n = some g → g.state = .planned ∨ g.state = .firing ∨ g.state = .ready →
    let sts := (s.kit.stations.filter fun x => s.kit.tickets.any fun t => t.group == n && t.station == x.number).map Station.number
    let returned := fun l : Line =>
      (if (findItem s.kit l.item).map Item.kind = some .plated then l.count - l.shortfall else 0) - largestDispatched s.kit n l
    let w1 : Work :=
      { setGroup n (fun x => { x with state := .cancelled, flags := { x.flags with held := false } }) (begun s.kit) with
        drawOrder := s.kit.drawOrder.filter fun m => m != n }
    let w2 := (s.kit.tickets.filter fun t => t.group == n).foldl (fun w t => cancelTicket t w) w1
    let w3 := g.lines.foldl (fun w l => giveBack l.item (returned l) w) w2
    let w4 := refreshDisplay n (forEach slotFreed sts w3)
    let left := (w4.tickets.filter fun t => t.group == n).length
    (left = 0 →
      exec .cancel s = .next (answered s .cancel seq rest (.ok (.cancelled 0)) (passSettle (freeGroup n .cancelled w4)))) ∧
    (left ≠ 0 → exec .cancel s = .next (answered s .cancel seq rest (.ok (.cancelled left)) (passSettle w4)))) ∧
  ∀ (t : Ticket) (w : Work),
    (∀ a, t.state = .sent ∨ t.state = .posted ∨ t.state = .cooking → currentOf w.toKitchen t.station = some a →
      cancelTicket t w =
        { w with
          tickets := w.tickets.map fun u => if u.number = t.number then { u with state := .voiding } else u
          terminals := w.terminals.map fun x =>
            if x.address = a then
              { x with
                posts := x.posts.filter fun p => p.ticket != t.number
                voids :=
                  if x.voids.any fun p => p.ticket == t.number then x.voids else x.voids ++ [⟨t.station, t.number⟩] }
            else x }) ∧
    (t.state = .queued ∨ t.state = .due ∨ t.state = .done ∨ t.state = .voiding ∨ currentOf w.toKitchen t.station = none →
      cancelTicket t w = dropTicket t.number w ∧ (cancelTicket t w).tickets = w.tickets.filter fun u => u.number != t.number)

/-- P, its late flag and GRPLATE (R56): a PLANNED or FIRING group has P computed, the late flag is set just when P > T + Tol, and
GRPLATE is raised where that changes it; of any other group nothing changes.
The group's part in a taken SUBMIT, AMEND, RETIME or REFIRE (R44, R48, R56 to R58, R160): it has its lines, the short flag by their
shortfalls, the stretched flag as before or by a computation with Held > H, and P; the reports are ITEM86 for the items newly
exhausted, ascending, GRPSHORT for each line whose shortfall rose, in record order, GRPSTRETCH for each stretched computation, in creation order, and GRPLATE
if the late flag changed; nothing else changes. The order of the GRPSHORTs and of the GRPSTRETCHs at a REFIRE is the model's (log
entry 25).
The hand-over to the Pass Unit (R59, R143, R147): the life end is computed anew, and the group is tested: it becomes READY, or joins the
draw order with an undrawn line, or is out of the draw order. -/
def Obligations.GroupSettled : Prop :=
  (∀ (w : Work) (n : Nat),
    let aged : Work :=
      { w with groups := w.groups.map fun x => if x.number = n then { x with lifeEnd := lifeEndOf w.toKitchen n } else x }
    (findGroup w.toKitchen n = none → handOver n w = { w with drawOrder := w.drawOrder.filter fun m => m != n }) ∧
    ∀ g, findGroup w.toKitchen n = some g →
      let waits := ∃ l ∈ g.lines, l.drawn = false ∧ ∃ i, findItem w.toKitchen l.item = some i ∧ i.kind = .standing
      (testPasses w.toKitchen g = true → ¬waits → handOver n w = becomeReady n aged) ∧
      (testPasses w.toKitchen g = true → waits → handOver n w = joinDraw n aged) ∧
      (testPasses w.toKitchen g = false → handOver n w = { aged with drawOrder := w.drawOrder.filter fun m => m != n })) ∧
  (∀ (w : Work) (n : Nat) (g : Group), findGroup w.toKitchen n = some g →
    (g.state ≠ .planned → g.state ≠ .firing → recompute n w = w) ∧
    (g.state = .planned ∨ g.state = .firing →
      let p := projection w.toKitchen g
      let tol := ((findCourse w.toKitchen g.course).map Course.tol).getD 0
      let late := decide ((g.target : Int) + tol < p)
      recompute n w =
        { w with
          groups := w.groups.map fun x =>
            if x.number = n then { x with proj := p, flags := { x.flags with late := late } } else x
          out := w.out ++ if late = g.flags.late then [] else [⟨w.clock, .grplate n g.tag p g.target late⟩] })) ∧
  ∀ (items : List Item) (g h : Group) (lines : List Line) (cs : List Computation) (w : Work),
    findGroup w.toKitchen g.number = some h → h.state = .planned ∨ h.state = .firing →
    let w' := settleGroup items g lines cs w
    let rose := fun l : Line =>
      match g.lines.find? (fun m => m.item == l.item && m.subFrom == l.subFrom) with
      | some m => decide (m.shortfall < l.shortfall)
      | none => decide (0 < l.shortfall)
    let tol := ((findCourse w.toKitchen h.course).map Course.tol).getD 0
    ∃ h' : Group, findGroup w'.toKitchen g.number = some h' ∧
      h' = { h with
             lines := lines, proj := h'.proj, flags := { h.flags with
               short := h'.flags.short, stretched := h'.flags.stretched, late := h'.flags.late } } ∧
      (h'.flags.short = true ↔ ∃ l ∈ lines, 0 < l.shortfall) ∧
      (h'.flags.stretched = true ↔ h.flags.stretched = true ∨ ∃ c ∈ cs, c.hold < c.held) ∧
      h'.proj = projection w'.toKitchen h' ∧ (h'.flags.late = true ↔ (h.target : Int) + tol < h'.proj) ∧
      (∀ m, m ≠ g.number → findGroup w'.toKitchen m = findGroup w.toKitchen m) ∧
      w'.out = w.out ++
        ((w.items.filter fun i => i.exhausted && !(items.any fun j => j.number == i.number && j.exhausted)).map fun i =>
          ⟨w.clock, .item86 i.number .commit⟩) ++
        ((lines.filter rose).map fun l =>
          ⟨w.clock, .grpshort g.number g.tag l.item l.subFrom l.count l.shortfall⟩) ++
        ((cs.filter fun c => c.hold < c.held).map fun c =>
          ⟨w.clock, .grpstretch g.number g.tag c.item c.comp c.held c.hold⟩) ++
        (if h'.flags.late = h.flags.late then []
         else [⟨w.clock, .grplate g.number h.tag h'.proj h.target h'.flags.late⟩]) ∧
      w' = { w with groups := w'.groups, out := w'.out }
/-- PICKUP (R55, R54): a READY group is SERVED: its record and its ticket records are freed, GRPGONE (SERVED) is raised, NOTE GONE
is handed over to every PASS terminal, and the reply carries its number and tag. The settling is log entry 9.
A NOTE handed over (R139): no other terminal's list changes; GONE for a group neither shown nor on the pair removes the NOTE of the
group; any other takes the place of the NOTE of its group, or the end of the list; what is shown stays, and a turn with a NOTE of the
group keeps in mind that one was entered.
The display state (R146): DYING while the dying flag is set in FIRING or READY, READY while READY without it, else absent; where it
changes a NOTE with the new state is handed over, GONE for absent. -/
def Obligations.GroupPickedUp : Prop :=
  (∀ (s : State) (seq : Byte) (rest : List Frame) (n : Nat) (g : Group), Asks s (.pickup n) seq rest →
    1 ≤ n → n ≤ 512 → findGroup s.kit n = some g → g.state = .ready →
    let w := freeGroup n .served (begun s.kit)
    let gone : Note := ⟨n, g.sect, .gone⟩
    exec .pickup s = .next (answered s .pickup seq rest (.ok (.served n g.tag)) (passSettle w)) ∧
      w.groups = s.kit.groups.filter (fun x => x.number != n) ∧
      w.tickets = s.kit.tickets.filter (fun t => !(s.kit.tickets.any fun u => u.group == n && u.number == t.number)) ∧
      w.drawOrder = s.kit.drawOrder.filter (fun m => m != n) ∧ w.out = [⟨s.kit.clock, .grpgone n g.tag .served⟩] ∧
      w.items = s.kit.items ∧ w.stations.map Station.post = s.kit.stations.map Station.post ∧
      w.nextTicket = s.kit.nextTicket ∧
      w.terminals.map (fun t => (t.health, t.notes, t.shown)) =
        (s.kit.terminals.map (enterNote s.kit.turn gone)).map (fun t => (t.health, t.notes, t.shown)) ∧
      Settles w (passSettle w)) ∧
  (∀ (n : Note) (w : Work),
    let w' := handNote n w
    w' = { w with terminals := w'.terminals, turn := w'.turn } ∧ w'.terminals = w.terminals.map (enterNote w.turn n) ∧
      (∀ u m, w.turn = some u → u.frame = .note m → m.group = n.group → w'.turn = some { u with renewed := true }) ∧
      ((∀ u m, w.turn = some u → u.frame = .note m → m.group ≠ n.group) → w'.turn = w.turn) ∧
      ∀ t ∈ w.terminals,
        let entered := fun l => enterNote w.turn n t = { t with notes := l }
        let onPair := ∃ u m, w.turn = some u ∧ u.frame = .note m ∧ u.address = t.address ∧ m.group = n.group
        let unsent := n.state = .gone ∧ (∀ m ∈ t.shown, m.group ≠ n.group) ∧ ¬onPair
        (t.kind = .station → enterNote w.turn n t = t) ∧
        (t.kind = .pass → unsent → entered (t.notes.filter fun m => m.group != n.group)) ∧
        (t.kind = .pass → ¬unsent → (∀ m ∈ t.notes, m.group ≠ n.group) → entered (t.notes ++ [n])) ∧
        ∀ before old later, t.kind = .pass → ¬unsent → t.notes = before ++ old :: later → old.group = n.group →
          (∀ m ∈ before, m.group ≠ n.group) → (∀ m ∈ later, m.group ≠ n.group) → entered (before ++ n :: later)) ∧
  ∀ (n : Nat) (w : Work) (g : Group), findGroup w.toKitchen n = some g →
    let shows := fun x : Group =>
      if x.flags.dying = true ∧ (x.state = .firing ∨ x.state = .ready) then some Display.dying
      else if x.state = .ready then some Display.ready else none
    let told := fun state => handNote ⟨n, g.sect, state⟩ (setGroup n (fun x => { x with display := shows x }) w)
    (shows g = g.display → refreshDisplay n w = w) ∧
    (shows g = some .dying → g.display ≠ some .dying → refreshDisplay n w = told .dying) ∧
    (shows g = some .ready → g.display ≠ some .ready → refreshDisplay n w = told .ready) ∧
    (shows g = none → g.display ≠ none → refreshDisplay n w = told .gone)

/-- REFIRE past the state of the group (R158 to R160): an undefined item is BADFIELD ITEM (index byte 0: log entry 22); one with no line
on the group NOSUCH; one with no DONE portion BADSTATE; one that would lose more than its undispatched portions INFIRE; one for which
the pool lacks records FULL. Else the portions are committed again, the DONE tickets are freed and RUSH tickets replace them, a READY
group is FIRING again, its life end is computed anew, the dying flag stays only where that lies at or before the clock, the display
follows, the lines' shortfalls rise by what is lost, P and the flags are computed, and the reports are ITEM86, GRPSHORT, GRPSTRETCH and
GRPLATE. The reply carries the flags, P, the portions and tickets of each component, and the portions lost (log entry 8). The order
of the tickets, and that in which lines substituted from different items take the stock, is log entry 11, that of the arbiters 23, that
of the reports 25, the settling 9.
The arithmetic of R159: for a line of the item, the ordered one first, r is the largest n_c, and a line with r = 0 is passed over; e is r
less what the stock, as the lines before it would leave it, allows; component c redoes n_c − e, or where n_c is below e is rebuilt on
u_c − (e − n_c). Freed are the line's DONE tickets and the undispatched ones of the components that lose from these. -/
def Obligations.ItemRefired : Prop :=
  (∀ (k : Kitchen) (g : Group) (l : Line) (later : List Line) (stock : Stock),
    let comps := ((findItem k l.item).map Item.lines).getD []
    let portions := fun (c : Nat) (states : List TicketState) =>
      ((k.tickets.filter fun t =>
        t.group == g.number && t.item == l.item && t.subFrom == l.subFrom && t.comp == c && t.kind != .standing &&
          states.contains t.state).map Ticket.portions).sum
    let n := fun c => portions c [.done]
    let u := fun c => portions c [.queued, .due]
    refirePlans k g [] stock = [] ∧
    ((∀ c, c < comps.length → n c = 0) → refirePlans k g (l :: later) stock = refirePlans k g later stock) ∧
    ∀ r, 0 < r → (∀ c, c < comps.length → n c ≤ r) → (∃ c, c < comps.length ∧ n c = r) →
      let e :=
        match stock with
        | .unlimited => 0
        | .limited v => r - v
      let left : Stock :=
        match stock with
        | .unlimited => .unlimited
        | .limited v => .limited (v - r)
      ∃ p : RefirePlan, refirePlans k g (l :: later) stock = p :: refirePlans k g later left ∧ p.line = l ∧ p.asked = r ∧
        p.lost = e ∧ p.comps.length = comps.length ∧
        ∀ idx c x, comps[idx]? = some c → findStation k c.station = some x →
          let key : CompKey := ⟨g.number, l.item, idx, l.subFrom⟩
          p.comps[idx]? =
            some
              { index := idx, done := n idx, waiting := u idx, redone := n idx - e
                rush := if e < n idx then [refireComputation k.clock key c x.defn (n idx - e)] else []
                rebuilt :=
                  if n idx < e ∧ e - n idx < u idx then
                    [componentComputation k.clock g.target g.lead key c x.defn (u idx - (e - n idx))]
                  else [] }) ∧
  (∀ (k : Kitchen) (g : Group) (item n : Nat) (p : RefirePlan) (plans : List RefirePlan) (ls : List Line),
    refireLines g item =
        g.lines.filter (fun l => l.item == item && l.subFrom == none) ++
          g.lines.filter (fun l => l.item == item && l.subFrom != none) ∧
      RefirePlan.frees k n p =
        (k.tickets.filter fun t =>
          t.group == n && t.item == p.line.item && t.subFrom == p.line.subFrom && t.kind != .standing &&
            (t.state == .done || ((t.state == .queued || t.state == .due) &&
              p.comps.any fun c => c.index == t.comp && decide (c.done < p.lost)))).map Ticket.number ∧
      p.computations = p.comps.flatMap (fun c => c.rush ++ c.rebuilt) ∧
      refiredLines plans ls =
        ls.map (fun l =>
          { l with
            shortfall := l.shortfall +
              ((plans.find? fun q => l.item == q.line.item && l.subFrom == q.line.subFrom).map RefirePlan.lost).getD 0 }) ∧
      refireCounts k item plans =
        (List.range (((findItem k item).map Item.lines).getD []).length).map fun idx =>
          let mine := plans.flatMap fun q => q.comps.filter fun c => c.index == idx
          ((mine.map RefireComp.redone).sum, (mine.map fun c => (c.rush.map fun x => x.tickets.length).sum).sum)) ∧
  ∀ (s : State) (seq : Byte) (rest : List Frame) (n item : Nat) (g : Group), Asks s (.refire n item) seq rest →
    1 ≤ n → n ≤ 512 → findGroup s.kit n = some g → g.state = .firing ∨ g.state = .ready →
    let turned := fun a => exec .refire s = .next (turnedAway s .refire seq rest a)
    (item = 0 ∨ findItem s.kit item = none → turned (.badField .item 0)) ∧
    (∀ x, item ≠ 0 → findItem s.kit item = some x → (∀ l ∈ g.lines, l.item ≠ item) → turned .noSuch) ∧
    ∀ x, item ≠ 0 → findItem s.kit item = some x → (∃ l ∈ g.lines, l.item = item) →
      let plans := refirePlans s.kit g (refireLines g item) x.stock
      let frees := plans.flatMap (RefirePlan.frees s.kit n)
      let cs := plans.flatMap RefirePlan.computations
      let asked := plans.map RefirePlan.asked
      let lines := refiredLines plans g.lines
      let fitting := (cs.flatMap Computation.tickets).length ≤ 2048 - s.kit.tickets.length + frees.length
      (plans = [] → turned .badState) ∧
      (plans ≠ [] → (∃ p ∈ plans, ∃ c ∈ p.comps, c.done < p.lost ∧ c.waiting < p.lost - c.done) → turned .inFire) ∧
      (plans ≠ [] → (∀ p ∈ plans, ∀ c ∈ p.comps, p.lost ≤ c.done + c.waiting) →
        (¬fitting → turned .full) ∧
        (fitting →
          let w1 := rebuild frees cs (asked.foldl (fun w r => (commit item r w).1) (begun s.kit))
          let w2 := setGroup n (fun y => { y with state := if y.state = .ready then .firing else y.state }) w1
          let w3 := refreshDisplay n (clearDying n (recomputeLife n w2))
          let w4 := settleGroup s.kit.items g lines cs w3
          let sts := (s.kit.stations.filter fun y =>
            (cs.flatMap Computation.tickets).any (fun d => d.station == y.number) ||
              s.kit.tickets.any fun t => frees.contains t.number && t.station == y.number).map Station.number
          ∃ (told : Group) (w : Work), findGroup w4.toKitchen n = some told ∧
            exec .refire s =
              .next (answered s .refire seq rest
                (.ok (.refired told.flags told.proj (refireCounts s.kit item plans) ((plans.map RefirePlan.lost).sum))) w) ∧
            w = passSettle (arbiters sts (checkDraw n w4)) ∧ Settles w4 w ∧
            (∃ news : List Ticket,
              w4.tickets = (s.kit.tickets.filter fun t => !frees.contains t.number) ++ news ∧
                news.map Ticket.desc = cs.flatMap Computation.tickets) ∧
            (∃ y, findItem w4.toKitchen item = some y ∧ y.pool = x.pool ∧ (y.exhausted = true ↔ y.stock = .limited 0) ∧
              (x.stock = .unlimited → y.stock = .unlimited) ∧
              ∀ k, x.stock = .limited k → y.stock = .limited (k - asked.sum)) ∧
            (∀ m, m ≠ item → findItem w4.toKitchen m = findItem s.kit m) ∧
            (∃ h, findGroup w4.toKitchen n = some h ∧ h.state = .firing ∧ h.lines = lines ∧
              h.lifeEnd = lifeEndOf w4.toKitchen n ∧
              (h.flags.dying = true ↔ g.flags.dying = true ∧ ∃ e, h.lifeEnd = some e ∧ e ≤ s.kit.clock) ∧
              h.display = (if h.flags.dying then some .dying else none) ∧
              (h.flags.short = true ↔ ∃ l ∈ lines, 0 < l.shortfall) ∧
              h.flags.stretched = (g.flags.stretched || cs.any fun c => c.hold < c.held) ∧ h.flags.held = g.flags.held ∧
              h.proj = projection w4.toKitchen h ∧
              w4.out =
                ((w4.items.filter fun i =>
                    i.exhausted && !(s.kit.items.any fun j => j.number == i.number && j.exhausted)).map fun i =>
                  ⟨s.kit.clock, .item86 i.number .commit⟩) ++
                ((lines.filter fun l => oldShortfall g.lines l < l.shortfall).map fun l =>
                  ⟨s.kit.clock, .grpshort n g.tag l.item l.subFrom l.count l.shortfall⟩) ++
                ((cs.filter fun c => c.hold < c.held).map fun c =>
                  ⟨s.kit.clock, .grpstretch n g.tag c.item c.comp c.held c.hold⟩) ++
                (if h.flags.late = g.flags.late then []
                 else [⟨s.kit.clock, .grplate n g.tag h.proj g.target h.flags.late⟩]))))

/-! ### The Pass Unit -/

/-- The draw order (R153): a group that joins takes its place by ascending T, and among equal T by ascending number.
The draw pass (R154, R155): a group of which an undrawn line waits draws nothing, and its items stand ahead for the groups behind
it; any other draws its undrawn lines, all of them in record order (log entry 25), and becomes READY. The lines of an item, judged together, wait behind an
earlier group that waits for the item, or on a pool too small for them unless the item is exhausted with no run ticket in use.
A line takes what the pool holds up to its count; the rest is its shortfall, with GRPSHORT. Becoming READY raises GRPREADY and leaves
the draw order (R144). -/
def Obligations.DrawPassDrawsGroups : Prop :=
  (∀ (n : Nat) (w : Work),
    let time := fun m => ((findGroup w.toKitchen m).map Group.target).getD 0
    let stands := fun a b => time a < time b ∨ (time a = time b ∧ a < b)
    let w' := joinDraw n w
    w' = { w with drawOrder := w'.drawOrder } ∧ (∀ m, m ∈ w'.drawOrder ↔ m = n ∨ m ∈ w.drawOrder) ∧
      (w.drawOrder.Pairwise stands → w'.drawOrder.Pairwise stands)) ∧
  (∀ (n : Nat) (rest ahead : List Nat) (w : Work) (g : Group), findGroup w.toKitchen n = some g →
    let lines := g.lines.filter fun l => !l.drawn && ((findItem w.toKitchen l.item).map Item.kind == some .standing)
    let waits := ∃ l ∈ lines, ∃ i, findItem w.toKitchen l.item = some i ∧
      (l.item ∈ ahead ∨
        (i.pool < ((lines.filter fun m => m.item == l.item).map Line.count).sum ∧
          (i.exhausted = false ∨ ∃ t ∈ w.tickets, t.kind = .standing ∧ t.item = l.item)))
    (waits → drawWalk (n :: rest) ahead w = drawWalk rest (ahead ++ lines.map Line.item) w) ∧
      (¬waits →
        drawWalk (n :: rest) ahead w = drawWalk rest ahead (becomeReady n (lines.foldl (fun w l => drawLine n l w) w)))) ∧
  (∀ (n : Nat) (l : Line) (w : Work) (g : Group) (i : Item), findGroup w.toKitchen n = some g →
    findItem w.toKitchen l.item = some i →
    let took := min l.count i.pool
    let same := fun m : Line => m.item == l.item && m.subFrom == l.subFrom
    let w' := drawLine n l w
    findItem w'.toKitchen l.item = some { i with pool := i.pool - took } ∧
      (∀ m, m ≠ l.item → findItem w'.toKitchen m = findItem w.toKitchen m) ∧
      findGroup w'.toKitchen n =
        some { g with
               lines := g.lines.map fun m => if same m then { m with drawn := true, shortfall := l.count - took } else m
               flags := { g.flags with short := g.flags.short || decide (took < l.count) } } ∧
      (∀ m, m ≠ n → findGroup w'.toKitchen m = findGroup w.toKitchen m) ∧
      w'.out = w.out ++
        (if took < l.count then [⟨w.clock, .grpshort n g.tag l.item l.subFrom l.count (l.count - took)⟩] else []) ∧
      w' = { w with items := w'.items, groups := w'.groups, out := w'.out }) ∧
  (∀ (n : Nat) (w : Work) (g : Group), findGroup w.toKitchen n = some g →
    let ready := setGroup n (fun x => { x with state := .ready }) w
    let told := refreshDisplay n (raise (.grpready n g.tag g.proj g.target g.flags) ready)
    becomeReady n w = { told with drawOrder := w.drawOrder.filter fun m => m != n }) ∧
  ∀ w : Work, drawPass w = drawWalk w.drawOrder [] w

/-- The settling of the Pass Unit (R151, R154; log entry 9), which the other statements name: outside SERVICE nothing; in SERVICE
rounds of a draw pass and then a run test of every item, ascending in the table, until a draw pass draws nothing and no item's test
creates a run. -/
def Obligations.PassUnitSettles : Prop :=
  ∀ w : Work,
    (w.event ≠ .service → passSettle w = w) ∧
    (w.event = .service →
      (∃ rounds, 1 ≤ rounds ∧
        passSettle w =
          Nat.iterate (fun v => forEach runTest ((drawPass v).items.map Item.number) (drawPass v)) rounds w) ∧
      drawPass (passSettle w) = passSettle w ∧ ∀ item, runTest item (passSettle w) = passSettle w)

/-- A standing run (R150 to R152, R76). A test of an item creates one run ticket exactly when the event is SERVICE, the item is
STANDING, its stock is not 0, it has no run ticket QUEUED or DUE, its pool and the portions in its run tickets fall short of demand + V,
and a ticket record is free; demand is the count of the undrawn lines of the item on the PLANNED and FIRING groups that are not held
and whose T − D is at or before clock + K. The ticket has U portions, or the stock where that is limited and smaller; these are
committed, with ITEM86 if the item becomes exhausted; it is DUE at the station of the item's line, due at clock + A + Ceff; and the
station's arbiter acts. -/
def Obligations.RunTicketsCreated : Prop :=
  ∀ (item : Nat) (w : Work) (i : Item), findItem w.toKitchen item = some i →
    let asking := w.groups.filter fun g =>
      (g.state == .planned || g.state == .firing) && !g.flags.held &&
        decide ((g.target : Int) - g.lead ≤ (w.clock + i.lookahead : Nat))
    let demand :=
      (asking.map fun g => ((g.lines.filter fun l => l.item == item && !l.drawn).map Line.count).sum).sum
    let runs := w.tickets.filter fun t => t.kind == .standing && t.item == item
    let wanted :=
      w.event = .service ∧ i.kind = .standing ∧ i.stock ≠ .limited 0 ∧ (∀ t ∈ runs, t.state ≠ .queued ∧ t.state ≠ .due) ∧
        i.pool + ((runs.filter fun t => t.state != .done).map Ticket.portions).sum < demand + i.reorder ∧
        w.tickets.length < 2048
    (¬wanted → runTest item w = w) ∧
    ∀ c later x, wanted → i.lines = c :: later → findStation w.toKitchen c.station = some x →
      let p :=
        match i.stock with
        | .unlimited => i.runSize
        | .limited k => min i.runSize k
      let ceff := effectiveCook c.cook x.defn.load (loadBand p i.runSize)
      ∃ v : Work, runTest item w = arbiter c.station v ∧
        (∃ t, v.tickets = w.tickets ++ [t] ∧
          t.desc = ⟨c.station, 0, item, 0, none, p, .standing, w.clock, ((w.clock + x.defn.advance + ceff : Nat) : Int), ceff,
            x.defn.advance⟩ ∧
          t.state = .due ∧ t.overdue = false ∧ t.reprint = false ∧ t.postedAt = none ∧ t.startAt = none ∧ t.doneAt = none) ∧
        (∃ j, findItem v.toKitchen item = some j ∧ j = { i with stock := j.stock, exhausted := j.exhausted } ∧
          (j.exhausted = true ↔ j.stock = .limited 0) ∧ (i.stock = .unlimited → j.stock = .unlimited) ∧
          ∀ k, i.stock = .limited k → j.stock = .limited (k - p)) ∧
        (∀ m, m ≠ item → findItem v.toKitchen m = findItem w.toKitchen m) ∧
        v.out = w.out ++
          ((v.items.filter fun j => j.exhausted && !(w.items.any fun y => y.number == j.number && y.exhausted)).map fun j =>
            ⟨w.clock, .item86 j.number .commit⟩) ∧
        v = { w with tickets := v.tickets, items := v.items, nextTicket := v.nextTicket, out := v.out }
/-! ### Stations -/

/-- The mode requests taken (R105, R107, R109, R111, R113, R114): STNON and CLEAR end in WARMING with the countdown at W, or in READY
where W is 0; STNOFF in DRAINING while a slot is held, else in OFF; PAUSE in PAUSED; RESUME in READY; HALT in HALTED. The station
alone changes mode, STNMODE with the request's cause is raised, a MODE frame is made pending for its current terminal, its arbiter
acts, and the reply carries the mode.
PAUSEALL and RESUMEALL (R110): every READY station becomes PAUSED, every PAUSED one READY, no other changes mode, and the reply
carries how many did, 0 among them.
That each station's arbiter acts before the next station's STNMODE is log entry 23; what the Pass Unit then does, settling, is log
entry 9. -/
def Obligations.ModeRequestsTaken : Prop :=
  (∀ (s : State) (seq : Byte) (rest : List Frame) (n : Nat) (x : Station), 1 ≤ n → n ≤ 24 → findStation s.kit n = some x →
     let taken := fun (r : Request) (m : Mode) (countdown : Nat) (cause : ModeCause) => Asks s r seq rest →
       let w1 := atCurrent n (markMode n)
         (raise (.stnmode n m cause 0) (setStation n (fun y => { y with mode := m, countdown := countdown }) (begun s.kit)))
       ∃ w : Work, exec r.kind.command s = .next (answered s r.kind seq rest (.ok (.modeSet n m)) w) ∧
         w = passSettle (arbiter n w1) ∧ Settles w1 w
     let held := (s.kit.tickets.filter fun t => t.station == n && holdsSlot t).length
     (x.mode = .off → 0 < x.defn.warmup → taken (.stnon n) .warming x.defn.warmup .stnon) ∧
     (x.mode = .off → x.defn.warmup = 0 → taken (.stnon n) .ready 0 .stnon) ∧
     (x.mode = .warming ∨ x.mode = .ready ∨ x.mode = .paused → 0 < held → taken (.stnoff n) .draining 0 .stnoff) ∧
     (x.mode = .warming ∨ x.mode = .ready ∨ x.mode = .paused → held = 0 → taken (.stnoff n) .off 0 .stnoff) ∧
     (x.mode = .ready → taken (.pause n) .paused 0 .pause) ∧
     (x.mode = .paused → taken (.resume n) .ready 0 .resume) ∧
     (x.mode ≠ .off → x.mode ≠ .halted → taken (.halt n) .halted 0 .halt) ∧
     (x.mode = .halted → 0 < x.defn.warmup → taken (.clear n) .warming x.defn.warmup .clear) ∧
     (x.mode = .halted → x.defn.warmup = 0 → taken (.clear n) .ready 0 .clear)) ∧
  (∀ (s : State) (seq : Byte) (rest : List Frame),
     let becomes := fun (c : Instr) (k : ReqKind) (old new : Mode) (cause : ModeCause) =>
       let sts := (s.kit.stations.filter fun x => x.mode == old).map Station.number
       ∃ w : Work, exec c s = .next (answered s k seq rest (.ok (.modesSet sts.length)) w) ∧
         w = passSettle (forEach (fun n => changeMode n new 0 cause 0) sts (begun s.kit)) ∧
         w.stations.map Station.post =
           (s.kit.stations.map fun x => if sts.contains x.number then { x with mode := new, countdown := 0 } else x).map Station.post ∧
         (∀ n ∈ sts, ⟨s.kit.clock, .stnmode n new cause 0⟩ ∈ w.out) ∧ w.groups.map Group.plan = s.kit.groups.map Group.plan
     (Asks s .pauseall seq rest → becomes .pauseall .pauseall .ready .paused .pauseall) ∧
     (Asks s .resumeall seq rest → becomes .resumeall .resumeall .paused .ready .resumeall))

/-- The queries of a group, a station, an item and a terminal (R61, R117, R102, R36, R141): each answers with the record as it
stands, or BADFIELD NUMBER (index byte 0: log entry 22), or NOSUCH, and changes nothing. QGROUP gives the lines from the first asked
for, as many whole ones as fit in the 231 bytes left for them at 8 bytes a line and 8 a component (R180), and for each component of
a PLATED line its portions undispatched, dispatched and not DONE, DONE, and VOIDING. QSTN gives the counts of the tickets in each state,
the slots held, the state of the current terminal and the first 8 tickets of the queue. QTERM gives the stations it is primary,
fallback and current for.
QSTAT (R170): the event state, the clock, the groups in use, the free ticket records, the reports queued and the gap mark, with
revision 1, and nothing changes; a body of any other length is BADFIELD LENGTH.
The bytes of these replies are those of R179 and R180; a count above 255 in one byte is log entry 21. -/
def Obligations.QueriesAnswered : Prop :=
  (∀ (s : State) (seq : Byte) (rest : List Frame) (n : Nat),
     let turned := fun (k : ReqKind) (a : Answer) => exec k.command s = .next (turnedAway s k seq rest a)
     (∀ g first, Asks s (.qgroup n first) seq rest → 1 ≤ n → n ≤ 512 → findGroup s.kit n = some g →
       let portions := fun (l : Line) (c : Nat) (states : List TicketState) =>
         ((s.kit.tickets.filter fun t =>
           t.group == n && t.item == l.item && t.subFrom == l.subFrom && t.comp == c && t.kind != .standing &&
             states.contains t.state).map Ticket.portions).sum
       let comps := fun l : Line =>
         match findItem s.kit l.item with
         | some i =>
           if i.kind = .plated then
             (List.range i.lines.length).map fun c =>
               (⟨portions l c [.queued, .due], portions l c [.sent, .posted, .cooking], portions l c [.done],
                 portions l c [.voiding]⟩ : CompPortions)
           else []
         | none => []
       let size := fun m => ((((g.lines.drop first).take m).map fun l => 8 + 8 * (comps l).length).sum : Nat)
       ∃ m, turned .qgroup (.ok (.group
           ⟨g, (s.kit.tickets.filter fun t => t.group == n).length, first,
             ((g.lines.drop first).take m).map fun l => ⟨l, comps l⟩⟩)) ∧
         size m ≤ 231 ∧ (m < (g.lines.drop first).length → 231 < size (m + 1))) ∧
     (∀ x, Asks s (.qstn n) seq rest → 1 ≤ n → n ≤ 24 → findStation s.kit n = some x →
       let count := fun state => (s.kit.tickets.filter fun t => t.station == n && t.state == state).length
       turned .qstn (.ok (.station
         { station := x
           currentState :=
             match x.current with
             | some a => (findTerminal s.kit a).map Terminal.state
             | none => none
           held :=
             (s.kit.tickets.filter fun t => t.station == n &&
               (t.state == .sent || t.state == .posted || t.state == .cooking || t.state == .voiding)).length
           counts := ⟨count .queued, count .due, count .sent, count .posted, count .cooking, count .voiding⟩
           head := (queueOf s.kit n).take 8 }))) ∧
     (Asks s (.qitem n) seq rest →
       (n = 0 → turned .qitem (.badField .number 0)) ∧ (n ≠ 0 → findItem s.kit n = none → turned .qitem .noSuch) ∧
       ∀ i, n ≠ 0 → findItem s.kit n = some i →
         turned .qitem (.ok (.item i
           ((s.kit.tickets.filter fun t => t.kind == .standing && t.item == n && t.state != .done).map Ticket.portions).sum))) ∧
     (Asks s (.qterm n) seq rest →
       (n < 1 ∨ 30 < n → turned .qterm (.badField .number 0)) ∧
       (1 ≤ n ∧ n ≤ 30 → findTerminal s.kit n = none → turned .qterm .noSuch) ∧
       ∀ t, 1 ≤ n ∧ n ≤ 30 → findTerminal s.kit n = some t →
         turned .qterm (.ok (.terminal
           { terminal := t
             primaryOf := ((s.kit.stations.find? fun x => x.defn.primary == n).map Station.number).getD 0
             fallbackOf := (s.kit.stations.filter fun x => x.defn.fallback == some n).map Station.number
             currentFor := (s.kit.stations.filter fun x => x.current == some n).map Station.number })))) ∧
  ((∀ (s : State) (seq : Byte) (rest : List Frame), Asks s .qstat seq rest →
     exec .qstat s =
       .next (turnedAway s .qstat seq rest
         (.ok (.part ⟨s.kit.event, s.kit.clock, s.kit.groups.length, 2048 - s.kit.tickets.length, s.host.reports.length,
           s.host.gap⟩)))) ∧
   (∀ v : PartView,
     let byte := BitVec.ofNat 8
     (OkBody.part v).bytes =
       [match v.event with | .setup => 1 | .service => 2 | .closed => 3, byte (v.clock / 256), byte v.clock, byte (v.groups / 256),
         byte v.groups, byte (v.freeTickets / 256), byte v.freeTickets, byte v.reports, if v.gap then 1 else 0, 1]) ∧
   (let byte := BitVec.ofNat 8
    let two := fun v : Nat => [byte (v / 256), byte v]
    let four := fun v : Nat => [byte (v / 16777216), byte (v / 65536), byte (v / 256), byte v]
    let signed := fun v : Int => four (BitVec.ofInt 32 v).toNat
    let none0 := fun o : Option Nat => byte (o.getD 0)
    let mark := fun b : Bool => (if b then 1 else 0 : Byte)
    let stock := fun st : Stock => match st with | .unlimited => two 65535 | .limited v => two v
    let count := fun n : Nat => if n < 256 then byte n else Config.longCount n
    let heard := fun t : TermState => (match t with | .unknown => 1 | .live => 2 | .lost => 3 : Byte)
    let set := fun l : List Nat =>
      let v := ((List.range 24).map fun i => if l.contains (i + 1) then 2 ^ i else 0).sum
      [byte (v / 65536), byte (v / 256), byte v]
    (∀ v : GroupView,
      let g := v.group
      (OkBody.group v).bytes =
        four g.tag ++ [byte g.sect, byte g.course] ++ two g.covers ++ two g.target ++ two g.lead ++
          [match g.state with | .planned => 1 | .firing => 2 | .ready => 3 | .served => 4 | .cancelled => 5 | .abandoned => 6,
           byte ((if g.flags.held then 1 else 0) + (if g.flags.late then 2 else 0) + (if g.flags.stretched then 4 else 0) +
             (if g.flags.short then 8 else 0) + if g.flags.dying then 16 else 0)] ++
          signed g.proj ++ two v.tickets ++ [byte g.lines.length, byte v.first, byte v.lines.length] ++
          v.lines.flatMap fun l =>
            [byte l.line.item, none0 l.line.subFrom] ++ two l.line.count ++ two l.line.shortfall ++
              [mark l.line.drawn, byte l.comps.length] ++
              l.comps.flatMap fun c => two c.waiting ++ two c.dispatched ++ two c.done ++ two c.voiding) ∧
    (∀ v : StationView,
      let x := v.station
      let d := x.defn
      let n := v.counts
      (OkBody.station v).bytes =
        byte d.slots :: two d.advance ++ two d.step ++ two d.warmup ++ two d.grace ++ d.load.map byte ++
          [byte d.primary, none0 d.fallback,
           match x.mode with | .off => 1 | .warming => 2 | .ready => 3 | .paused => 4 | .draining => 5 | .halted => 6] ++
          two x.countdown ++ [none0 x.current, (v.currentState.map heard).getD 0, byte v.held] ++ two (x.staged.getD 0) ++
          two n.queued ++ two n.due ++ two n.sent ++ two n.posted ++ two n.cooking ++ two n.voiding ++ [byte v.head.length] ++
          v.head.flatMap fun t =>
            two t.number ++ two t.group ++ [byte t.item, byte t.comp, byte t.portions,
              match t.kind with | .normal => 1 | .rush => 2 | .standing => 3,
              match t.state with
              | .queued => 1 | .due => 2 | .sent => 3 | .posted => 4 | .cooking => 5 | .done => 6 | .voiding => 7] ++
              two t.release ++ signed t.due ++ two (t.startAt.getD 0) ++
              [byte ((if t.overdue then 1 else 0) + (if t.reprint then 2 else 0) + if x.staged = some t.number then 4 else 0)]) ∧
    (∀ (i : Item) (runs : Nat),
      (OkBody.item i runs).bytes =
        byte i.number :: i.name ++
          [byte i.course, match i.kind with | .plated => 1 | .standing => 2, byte i.lines.length, none0 i.subst, byte i.runSize] ++
          two i.reorder ++ two i.lookahead ++ stock i.stock ++ [mark i.exhausted] ++ two i.pool ++ two runs ++
          i.lines.flatMap fun c => byte c.station :: two c.cook ++ [byte c.batch] ++ two c.rest ++ two c.hold) ∧
    ∀ v : TerminalView,
      let t := v.terminal
      (OkBody.terminal v).bytes =
        [match t.kind with | .station => 1 | .pass => 2, heard t.state, byte t.misses, mark t.receipt, byte v.primaryOf] ++
          set v.fallbackOf ++ set v.currentFor ++ [byte t.railclrs.length] ++ two t.voids.length ++ two t.posts.length ++
          [byte t.nextMarks.length, byte t.modeMarks.length, count t.notes.length, count t.shown.length]) ∧
   (∀ e : EventState, gatePasses .qstat e = true) ∧
   ∀ (s : State) (f : Frame) (rest : List Frame), Faces s f rest → f.kind = ReqKind.qstat.code → f.body ≠ [] →
     exec .qstat s = .next (turnedAway s .qstat f.seq rest (.badField .length 0)))

/-! ### The station bus -/

/-- Every valid reply of a terminal reads back from its characters, whatever follows it, and from another terminal, with the
address mark set or with a wrong check byte it is bad (R119, R124, R182). The characters (R118, R182, R183): unmarked, the terminal's own
address, the kind 41h to 47h, the station, which is 0 but for START and BUMP, the ticket or group number high byte first, and the
check byte, with which all but the address sum to 0 modulo 256. -/
def Obligations.BusRepliesReadBack : Prop :=
  (let byte := BitVec.ofNat 8
   ∀ (a : Nat) (r : BusReply) (kind : Byte) (st : Nat) (fields : List Byte),
     (kind, st, fields) =
       (match r with
        | .ack => (0x41, 0, []) | .start st n => (0x42, st, [byte (n / 256), byte n]) | .bump st n => (0x43, st, [byte (n / 256), byte n])
        | .taken g => (0x44, 0, [byte (g / 256), byte g]) | .wait => (0x45, 0, []) | .fault => (0x46, 0, []) | .hello => (0x47, 0, [])) →
     ∃ check : Byte, r.chars a = (byte a :: kind :: byte st :: fields ++ [check]).map (fun b => ⟨b, false⟩) ∧
       (kind :: byte st :: fields ++ [check]).sum = 0) ∧
  ∀ (a : Nat) (r : BusReply) (more : List BusChar), a < 256 →
    (∀ st n, r = .start st n ∨ r = .bump st n → st < 256 ∧ n < 65536) → (∀ g, r = .taken g → g < 65536) →
    judgeReply a (r.chars a ++ more) = .valid r ∧ (∀ b, b < 256 → b ≠ a → judgeReply b (r.chars a ++ more) = .bad) ∧
      judgeReply a ((r.chars a).map (fun c => { c with mark := true }) ++ more) = .bad ∧
      ∀ x : Byte, x ≠ 0 →
        judgeReply a ((r.chars a).dropLast ++ [⟨checkByte (r.parts.1 :: r.parts.2.1 :: r.parts.2.2) + x, false⟩] ++ more) = .bad

/-- The frame chosen for a turn (R121): POLL to a terminal that is not LIVE or has nothing pending; to a PASS terminal its oldest
NOTE; to a STATION terminal RAILCLR before VOID before POST before NEXT before MODE, lowest station or oldest first.
The RAILCLR broadcast (R122): between turns, with its mark set, it is sent and the mark clears; in every other case nothing
happens.
TURN (R120, R121, R122, R126, R127). With a turn under way it does not occur. Else a pending broadcast is sent, and the
terminal with the lowest address above the last one served, or the lowest of all, gets its turn: its frame is chosen, the receipt
mark is sent with it, a NEXT or MODE mark is cleared, and the characters go out. With no terminal only the broadcast is sent.
The characters of a frame (R182, R183): the address with its mark set, then unmarked the kind, the station, the receipt mark, the fields
of the kind and the check byte, with which all but the address sum to 0 modulo 256; of the broadcast, address 31, kind 06h and station 0
with no receipt mark. -/
def Obligations.TurnAndBroadcast : Prop :=
  (let byte := BitVec.ofNat 8
   let two := fun v : Nat => [byte (v / 256), byte v]
   let four := fun v : Int =>
     let u := (BitVec.ofInt 32 v).toNat
     [byte (u / 16777216), byte (u / 65536), byte (u / 256), byte u]
   let mark := fun b : Bool => (if b then 1 else 0 : Byte)
   (∀ (a : Nat) (receipt : Bool) (f : BusFrame) (kind : Byte) (st : Nat) (fields : List Byte),
     (kind, st, fields) =
       (match f with
        | .poll => (0x01, 0, [])
        | .post st n name p k re due =>
          (0x02, st, two n ++ name ++ [byte p, match k with | .normal => 1 | .rush => 2 | .standing => 3, mark re] ++ four due)
        | .void st n => (0x03, st, two n)
        | .next st n => (0x04, st, two n)
        | .mode st m =>
          (0x05, st, [match m with | .off => 1 | .warming => 2 | .ready => 3 | .paused => 4 | .draining => 5 | .halted => 6])
        | .railclr st => (0x06, st, [])
        | .note n => (0x07, 0, two n.group ++ [byte n.sect, match n.state with | .ready => 1 | .dying => 2 | .gone => 3])) →
     ∃ check : Byte,
       frameChars a receipt f =
         ⟨byte a, true⟩ :: (kind :: byte st :: mark receipt :: fields ++ [check]).map (fun b => ⟨b, false⟩) ∧
       (kind :: byte st :: mark receipt :: fields ++ [check]).sum = 0) ∧
   broadcastChars = ⟨31, true⟩ :: ([0x06, 0x00, 0xFA] : List Byte).map fun b => ⟨b, false⟩) ∧
  (∀ (f : BusFrame) (t : Terminal),
     (∀ st n, f = .next st n → clearMark f t = { t with nextMarks := t.nextMarks.filter fun m => m != st }) ∧
     (∀ st m, f = .mode st m → clearMark f t = { t with modeMarks := t.modeMarks.filter fun m => m != st }) ∧
     ((∀ st n, f ≠ .next st n) → (∀ st m, f ≠ .mode st m) → clearMark f t = t)) ∧
  (∀ (k : Kitchen) (t : Terminal),
     (t.state ≠ .live → chooseFrame k t = .poll) ∧
     (t.state = .live → t.kind = .pass →
       (t.notes = [] → chooseFrame k t = .poll) ∧ ∀ n rest, t.notes = n :: rest → chooseFrame k t = .note n) ∧
     (t.state = .live → t.kind = .station →
       (∀ st rest, t.railclrs = st :: rest → chooseFrame k t = .railclr st) ∧
       (∀ p rest, t.railclrs = [] → t.voids = p :: rest → chooseFrame k t = .void p.station p.ticket) ∧
       (∀ p rest x, t.railclrs = [] → t.voids = [] → t.posts = p :: rest → findTicket k p.ticket = some x →
         chooseFrame k t = .post p.station p.ticket (itemName k x.item) x.portions x.kind x.reprint x.due) ∧
       (∀ st rest x, t.railclrs = [] → t.voids = [] → t.posts = [] → t.nextMarks = st :: rest → findStation k st = some x →
         chooseFrame k t = .next st (x.staged.getD 0)) ∧
       (∀ st rest x, t.railclrs = [] → t.voids = [] → t.posts = [] → t.nextMarks = [] → t.modeMarks = st :: rest →
         findStation k st = some x → chooseFrame k t = .mode st x.mode) ∧
       (t.railclrs = [] → t.voids = [] → t.posts = [] → t.nextMarks = [] → t.modeMarks = [] → chooseFrame k t = .poll))) ∧
  (∀ s : State, s.resetLow = false →
     (s.kit.turn = none → s.kit.broadcast = true →
       exec .railclrBroadcast s = .next { s with kit := { s.kit with broadcast := false, busLine := broadcastChars } }) ∧
     (s.kit.turn ≠ none ∨ s.kit.broadcast = false → exec .railclrBroadcast s = .next s)) ∧
  (∀ s : State, s.resetLow = false →
     (s.kit.turn ≠ none → exec .turn s = .next s) ∧
     (s.kit.turn = none → s.kit.terminals = [] →
       exec .turn s = .next { s with
         kit := { s.kit with broadcast := false, busLine := if s.kit.broadcast then broadcastChars else s.kit.busLine } }) ∧
     ∀ t, s.kit.turn = none → t ∈ s.kit.terminals → s.kit.terminals.Pairwise (fun x y => x.address < y.address) →
       ((s.kit.lastTurn < t.address ∧ ∀ x ∈ s.kit.terminals, s.kit.lastTurn < x.address → t.address ≤ x.address) ∨
         ((∀ x ∈ s.kit.terminals, x.address ≤ s.kit.lastTurn) ∧ ∀ x ∈ s.kit.terminals, t.address ≤ x.address)) →
       let f := chooseFrame s.kit t
       exec .turn s =
         .next { s with
           kit :=
             { s.kit with
               terminals := s.kit.terminals.map fun x => if x.address = t.address then clearMark f x else x
               turn := some ⟨t.address, t.receipt, f, false, false, false⟩
               broadcast := false
               lastTurn := t.address
               busLine := frameChars t.address t.receipt f } })

/-- A miss (R119, R130): an expired window or a bad reply ends the turn; the miss count rises and stops at 8, the receipt mark
clears, and the frame stays pending. A LIVE terminal whose count so reaches 8 becomes LOST with TERMSTATE, and its stations choose
again; TERMINAL_LOST is that same miss (log entry 7). The settling is log entry 9. The model's choices: characters that make a valid
reply, or none at all, make BAD_REPLY no event, and incomplete ones a miss (log entry 18), and a step that does not occur leaves the
state (log entry 3). -/
def Obligations.MissesAndLoss : Prop :=
  ∀ (s : State) (u : Turn) (t : Terminal) (cs : List BusChar), Addressed s u t →
    let w1 := keepFrame u
      (setTerminal u.address (fun x => { x with misses := min (x.misses + 1) 8, receipt := false }) (turnEnded s))
    let bad := cs ≠ [] ∧ ∀ r, judgeReply u.address cs ≠ .valid r
    (t.state ≠ .live ∨ t.misses + 1 < 8 →
      exec .replyWindowExpiry s = .next (moved s w1) ∧ (bad → exec (.badReply cs) s = .next (moved s w1)) ∧
        exec (.terminalLost u.address) s = .next s) ∧
    (t.state = .live → 8 ≤ t.misses + 1 →
      let w2 := raise (.termstate u.address t.kind .live .lost) (setTerminal u.address (fun x => { x with state := .lost }) w1)
      let w3 := passSettle (rechooseBound u.address w2)
      exec .replyWindowExpiry s = .next (moved s w3) ∧ (bad → exec (.badReply cs) s = .next (moved s w3)) ∧
        (t.misses = 7 → exec (.terminalLost u.address) s = .next (moved s w3))) ∧
    (¬bad → exec (.badReply cs) s = .next s) ∧ (∀ a, a ≠ u.address → exec (.terminalLost a) s = .next s)

/-- A valid reply in the steps of R125: the turn ends; the miss count is 0 and the receipt mark set; an UNKNOWN or LOST terminal is
LIVE with TERMSTATE and its stations choose again; the frame is accepted, or stays pending for WAIT, FAULT and HELLO; the report is
handed on; and the Pass Unit settles. With no turn under way, or a terminal that CLRCFG removed, nothing but the turn goes.
What the Pass Unit then does, settling, is log entry 9. -/
def Obligations.RepliesTakenInSteps : Prop :=
  ∀ (c : Instr) (r : BusReply) (st : Byte) (n g : BitVec 16) (s : State), (c, r) ∈ replyCommands st n g → s.resetLow = false →
    (s.kit.turn = none → exec c s = .next s) ∧
    (∀ u, s.kit.turn = some u → u.orphan = true ∨ findTerminal s.kit u.address = none →
      exec c s = .next (moved s (turnEnded s))) ∧
    ∀ u t, Addressed s u t →
      (exec c s =
        .next (moved s (passSettle
          (handOn u.address r (if accepts r then acceptFrame u (heard s u) else keepFrame u (heard s u)))))) ∧
      (accepts r = false ↔ r = .wait ∨ r = .fault ∨ r = .hello) ∧
      (t.state = .live →
        heard s u = setTerminal u.address (fun x => { x with misses := 0, receipt := true, state := .live }) (turnEnded s)) ∧
      (t.state ≠ .live →
        heard s u =
          rechooseBound u.address (raise (.termstate u.address t.kind t.state .live)
            (setTerminal u.address (fun x => { x with misses := 0, receipt := true, state := .live }) (turnEnded s))))

/-- A POST acknowledged by the current terminal (R92, R123): a SENT ticket of the station becomes POSTED at the present clock with
its reprint mark clear, one POSTED or COOKING only has its reprint mark cleared, and for any other, VOIDING, DONE or of another station
among them, nothing follows; the POST leaves the terminal, also where the station left the terminal and came back during the turn, of
which the spec says nothing (log entry 14).
An acknowledged VOID frees its VOIDING ticket with the slot (R100), and for any other ticket only leaves the terminal. A POST or VOID
whose ticket was freed during the turn, or whose terminal is no longer current for the station, has no effect (R92, R125).
An acknowledged RAILCLR goes. An acknowledged NOTE goes, unless a NOTE of its group was entered during the turn, and enters the shown
record, or for GONE leaves it, unless the broadcast mark was set during the turn (R123, R139). POLL, NEXT and MODE have no further effect.
A freed VOIDING ticket told to its group (R53, R59): a CANCELLED group with no ticket record left is freed with GRPGONE (CANCELLED), and
one with a record left stays; any other has P recomputed. That the station is told before the group is log entry 23; the settling is
log entry 9. -/
def Obligations.AckAcceptsFrame : Prop :=
  (∀ (s : State) (u : Turn) (t : Terminal) (st n p : Nat) (name : List Byte) (kind : TicketKind) (re : Bool) (due : Int),
     Addressed s u t → u.frame = .post st n name p kind re due →
     let w0 := setTerminal u.address (fun y => { y with posts := y.posts.filter fun q => q.ticket != n }) (heard s u)
     (u.stale = true ∨ currentOf (heard s u).toKitchen st ≠ some u.address →
       exec .ack s = .next (moved s (passSettle (heard s u)))) ∧
     (u.stale = false → currentOf (heard s u).toKitchen st = some u.address →
       (∀ x, findTicket (heard s u).toKitchen n = some x → x.station = st → s.kit.event = .service →
         (x.state = .sent →
           let w1 := setTicket n (fun y => { y with state := .posted, postedAt := some s.kit.clock, reprint := false }) w0
           ∃ w : Work, exec .ack s = .next (moved s w) ∧ w = passSettle (recompute x.group w1) ∧ Settles w1 w) ∧
         (x.state = .posted ∨ x.state = .cooking →
           let w1 := setTicket n (fun y => { y with reprint := false }) w0
           exec .ack s = .next (moved s (passSettle w1)) ∧ Settles w1 (passSettle w1))) ∧
       ((∀ x, findTicket (heard s u).toKitchen n = some x → x.station ≠ st ∨ s.kit.event ≠ .service ∨
           x.state = .voiding ∨ x.state = .done ∨ x.state = .queued ∨ x.state = .due) →
         exec .ack s = .next (moved s (passSettle w0))))) ∧
  (∀ (s : State) (u : Turn) (t : Terminal) (st n : Nat), Addressed s u t → u.frame = .void st n →
     let w0 := setTerminal u.address (fun y => { y with voids := y.voids.filter fun q => q.ticket != n }) (heard s u)
     (u.stale = true ∨ currentOf (heard s u).toKitchen st ≠ some u.address →
       exec .ack s = .next (moved s (passSettle (heard s u)))) ∧
     (u.stale = false → currentOf (heard s u).toKitchen st = some u.address →
       (∀ x, findTicket (heard s u).toKitchen n = some x → x.station = st → x.state = .voiding →
         ∃ w : Work, exec .ack s = .next (moved s (passSettle w)) ∧ (∀ y ∈ w.tickets, y.number ≠ n) ∧
           w = groupTicketFreed x.group (slotFreed st (dropTicket n w0))) ∧
       ((∀ x, findTicket (heard s u).toKitchen n = some x → x.station ≠ st ∨ x.state ≠ .voiding) →
         exec .ack s = .next (moved s (passSettle w0))))) ∧
  (∀ (s : State) (u : Turn) (t : Terminal), Addressed s u t →
     let leads := fun f => exec .ack s = .next (moved s (passSettle (setTerminal u.address f (heard s u))))
     (∀ st, u.frame = .railclr st → leads fun y => { y with railclrs := y.railclrs.filter fun m => m != st }) ∧
     (∀ n, u.frame = .note n →
       leads fun y =>
         { y with
           notes := if u.renewed then y.notes else y.notes.filter fun m => m.group != n.group
           shown :=
             if u.stale = true ∨ y.kind ≠ .pass then y.shown
             else if n.state = .gone then y.shown.filter fun m => m.group != n.group
             else placeNote n y.shown }) ∧
     (u.frame = .poll ∨ (∃ st n, u.frame = .next st n) ∨ (∃ st m, u.frame = .mode st m) →
       exec .ack s = .next (moved s (passSettle (heard s u))))) ∧
  (∀ (n : Note) (l : List Note) (m : Note), m ∈ placeNote n l ↔ m = n ∨ (m ∈ l ∧ m.group ≠ n.group)) ∧
  ∀ (n : Nat) (w : Work),
    (findGroup w.toKitchen n = none → groupTicketFreed n w = w) ∧
    ∀ g, findGroup w.toKitchen n = some g →
      (g.state ≠ .cancelled → groupTicketFreed n w = recompute n w) ∧
      (g.state = .cancelled → (∃ t ∈ w.tickets, t.group = n) → groupTicketFreed n w = w) ∧
      (g.state = .cancelled → (∀ t ∈ w.tickets, t.group ≠ n) →
        let told := handNote ⟨n, g.sect, .gone⟩ w
        groupTicketFreed n w =
          { told with
            groups := w.groups.filter fun x => x.number != n
            drawOrder := w.drawOrder.filter fun m => m != n
            out := w.out ++ [⟨w.clock, .grpgone n g.tag .cancelled⟩] })

/-- A START from the current terminal in SERVICE (R93, R96): a SENT or POSTED ticket of the station becomes COOKING with its start
at the present clock, a SENT one being posted at the same time and its POST dropped; any other is acknowledged and ignored.
What the Pass Unit then does, settling, is log entry 9. -/
def Obligations.StartSetsCooking : Prop :=
  ∀ (s : State) (u : Turn) (t : Terminal) (st : Byte) (n : BitVec 16), Addressed s u t →
    let w0 := acceptFrame u (heard s u)
    let leads := fun w => exec (.terminalStart st n) s = .next (moved s (passSettle w))
    (∀ x, findTicket w0.toKitchen n.toNat = some x → x.station = st.toNat → currentOf w0.toKitchen st.toNat = some u.address →
      w0.event = .service →
      (x.state = .sent →
        leads (recompute x.group (setTerminal u.address (unpendPost n.toNat)
          (setTicket n.toNat (fun y =>
            { y with state := .cooking, startAt := some w0.clock, postedAt := some w0.clock, reprint := false }) w0)))) ∧
      (x.state = .posted →
        leads (recompute x.group
          (setTicket n.toNat (fun y => { y with state := .cooking, startAt := some w0.clock }) w0))) ∧
      (x.state ≠ .sent → x.state ≠ .posted → leads w0)) ∧
    (findTicket w0.toKitchen n.toNat = none → leads w0) ∧
    (∀ x, findTicket w0.toKitchen n.toNat = some x →
      x.station ≠ st.toNat ∨ currentOf w0.toKitchen st.toNat ≠ some u.address ∨ w0.event ≠ .service → leads w0)

/-- A BUMP from the current terminal in SERVICE (R94, R95, R96, R149): a SENT, POSTED or COOKING ticket is DONE at the present clock,
the times it lacks being filled; a run's portions go into the pool up to 9,999 and its ticket is freed; a group's ticket frees its
slot and the group is told and tested. Any other ticket is acknowledged and ignored.
What the Pass Unit then does, settling, is log entry 9. -/
def Obligations.BumpSetsDone : Prop :=
  ∀ (s : State) (u : Turn) (t : Terminal) (st : Byte) (n : BitVec 16), Addressed s u t →
    let w0 := acceptFrame u (heard s u)
    let leads := fun w => exec (.bump st n) s = .next (moved s (passSettle w))
    (∀ x, findTicket w0.toKitchen n.toNat = some x → x.station = st.toNat → currentOf w0.toKitchen st.toNat = some u.address →
      w0.event = .service →
      let done := setTicket n.toNat (bumped w0.clock) w0
      let cleared := if x.state = .sent then setTerminal u.address (unpendPost n.toNat) done else done
      (x.state = .sent ∨ x.state = .posted ∨ x.state = .cooking →
        (x.kind = .standing →
          leads (slotFreed x.station (dropTicket x.number
            (setItem x.item (fun i => { i with pool := min (i.pool + x.portions) 9999 }) cleared)))) ∧
        (x.kind ≠ .standing → leads (handOver x.group (recompute x.group (slotFreed x.station cleared))))) ∧
      (x.state ≠ .sent → x.state ≠ .posted → x.state ≠ .cooking → leads w0)) ∧
    (findTicket w0.toKitchen n.toNat = none → leads w0) ∧
    (∀ x, findTicket w0.toKitchen n.toNat = some x →
      x.station ≠ st.toNat ∨ currentOf w0.toKitchen st.toNat ≠ some u.address ∨ w0.event ≠ .service → leads w0) ∧
    ∀ (clock : Nat) (x : Ticket),
      (x.state = .sent → bumped clock x =
        { x with
          state := .done, doneAt := some clock, startAt := some clock, postedAt := some clock, reprint := false }) ∧
      (x.state = .posted → bumped clock x = { x with state := .done, doneAt := some clock, startAt := x.postedAt }) ∧
      (x.state = .cooking → bumped clock x = { x with state := .done, doneAt := some clock })

/-- A TAKEN from a PASS terminal (R157): a READY group in SERVICE is SERVED and freed; every other TAKEN is acknowledged and
ignored.
What the Pass Unit then does, settling, is log entry 9. -/
def Obligations.TakenServesGroup : Prop :=
  ∀ (s : State) (u : Turn) (t : Terminal) (g : BitVec 16), Addressed s u t → t.state = .live →
    let w0 := acceptFrame u (heard s u)
    (∀ x, t.kind = .pass → findGroup w0.toKitchen g.toNat = some x → x.state = .ready → w0.event = .service →
      exec (.taken g) s = .next (moved s (passSettle (freeGroup g.toNat .served w0))) ∧
        ⟨w0.clock, .grpgone g.toNat x.tag .served⟩ ∈ (freeGroup g.toNat .served w0).out ∧
        findGroup (freeGroup g.toNat .served w0).toKitchen g.toNat = none) ∧
    (t.kind ≠ .pass ∨ w0.event ≠ .service ∨ (∀ x, findGroup w0.toKitchen g.toNat = some x → x.state ≠ .ready) →
      exec (.taken g) s = .next (moved s (passSettle w0)))

/-- WAIT (R129, R127): no miss, and the frame stays pending; a NEXT or MODE mark cleared for the turn is set again while the terminal
is current for the station.
FAULT (R112): every station for which the terminal is current and that is neither OFF nor HALTED becomes HALTED, ascending, each
with STNMODE (HALTED, FAULT) naming the terminal; no other station changes mode.
What the Pass Unit then does, settling, is log entry 9. -/
def Obligations.WaitAndFaultTaken : Prop :=
  (∀ (s : State) (u : Turn) (t : Terminal), Addressed s u t → t.state = .live →
     let told := setTerminal u.address (fun x => { x with misses := 0, receipt := true, state := .live }) (turnEnded s)
     let leads := fun w => exec .wait s = .next (moved s (passSettle w))
     (∀ st n, u.frame = .next st n →
       leads (if currentOf s.kit st = some u.address then setTerminal u.address (markNext st) told else told)) ∧
     (∀ st m, u.frame = .mode st m →
       leads (if currentOf s.kit st = some u.address then setTerminal u.address (markMode st) told else told)) ∧
     ((∀ st n, u.frame ≠ .next st n) → (∀ st m, u.frame ≠ .mode st m) → leads told)) ∧
  (∀ (s : State) (u : Turn) (t : Terminal), Addressed s u t →
     let w0 := keepFrame u (heard s u)
     let sts := (w0.stations.filter fun x => x.current == some u.address && x.mode != .off && x.mode != .halted).map Station.number
     ∃ w : Work, exec .fault s = .next (moved s w) ∧
       w = passSettle (forEach (fun n => changeMode n .halted 0 .fault u.address) sts w0) ∧
       w.stations.map Station.post =
         (w0.stations.map fun x => if sts.contains x.number then { x with mode := .halted, countdown := 0 } else x).map
           Station.post ∧
       ∀ n ∈ sts, ⟨s.kit.clock, .stnmode n .halted .fault u.address⟩ ∈ w.out)

/-- HELLO (R137): for every station the terminal is current for, ascending, each ticket on its rail is posted again as a reprint and
its NEXT and MODE marks are set; a PASS terminal gets a NOTE for every group it shows. The new POSTs stand behind those pending, in
queue order, at most one for each ticket, a pending one in its place (R127, R128, R133); nothing else changes. The order of the stations is log entry 12,
the NOTEs log entries 14 and 24, the settling log entry 9. -/
def Obligations.HelloRepostsRails : Prop :=
  (∀ (s : State) (u : Turn) (t : Terminal), Addressed s u t →
    let w0 := keepFrame u (heard s u)
    let sts := (w0.stations.filter fun x => x.current == some u.address).map Station.number
    let noted := fun x : Terminal =>
      if x.kind = .pass then { x with notes := x.shown.foldl (fun l n => placeNote n l) x.notes } else x
    exec .hello s =
      .next (moved s (passSettle (setTerminal u.address noted (forEach (fun st => rebuildRail st u.address) sts w0))))) ∧
  ∀ (st a : Nat) (w : Work),
    let rail := (queueOf w.toKitchen st).filter fun x => x.state == .sent || x.state == .posted || x.state == .cooking
    let w' := rebuildRail st a w
    w'.tickets = w.tickets.map (fun x => if rail.any (fun y => y.number == x.number) then { x with reprint := true } else x) ∧
      (∃ share : Terminal → Terminal,
        w'.terminals = w.terminals.map (fun x => if x.address = a then share x else x) ∧ ∀ x,
          share x = { x with posts := (share x).posts, nextMarks := (share x).nextMarks, modeMarks := (share x).modeMarks } ∧
          (∀ m, m ∈ (share x).nextMarks ↔ m = st ∨ m ∈ x.nextMarks) ∧ (∀ m, m ∈ (share x).modeMarks ↔ m = st ∨ m ∈ x.modeMarks) ∧
          (∀ y ∈ rail, ∃ p ∈ (share x).posts, p.ticket = y.number) ∧
          ((w.tickets.map Ticket.number).Nodup →
            (share x).posts =
              x.posts ++ (rail.filter fun y => !(x.posts.any fun p => p.ticket == y.number)).map fun y => ⟨st, y.number⟩)) ∧
      w' = { w with tickets := w'.tickets, terminals := w'.terminals }

/-! ### Times and queues -/

/-- The batches of n portions within the limit B (R67): b = ceil(n / B) of them, the fewest that keep within B; the first r carry
q + 1 and the others q; n in all; at least one each; none above B; no two more than one apart; m is the largest. -/
def Obligations.BatchesCoverPortions : Prop :=
  ∀ n limit : Nat, 1 ≤ n → n ≤ 400 → 1 ≤ limit →
    let b := (n + limit - 1) / limit
    let q := n / b
    let r := n - q * b
    let sizes := batchSizes n limit
    sizes.length = b ∧ 1 ≤ b ∧ b ≤ 400 ∧ (∀ fewer, fewer < b → fewer * limit < n) ∧ r < b ∧
      (∀ j, j < r → sizes[j]? = some (q + 1)) ∧ (∀ j, r ≤ j → j < b → sizes[j]? = some q) ∧ sizes.sum = n ∧
      (∀ x ∈ sizes, 1 ≤ x ∧ x ≤ limit) ∧ (∀ x ∈ sizes, ∀ y ∈ sizes, x ≤ y + 1) ∧
      largestBatch n limit ∈ sizes ∧ (∀ x ∈ sizes, x ≤ largestBatch n limit) ∧
      largestBatch n limit = (if 0 < r then q + 1 else q)

/-- The load band and the effective cook time (R68, R69), and the run ticket's band against its run size (R76). -/
def Obligations.LoadBandAndEffectiveCook : Prop :=
  (∀ m limit : Nat,
    (loadBand m limit = 0 ↔ m * 100 ≤ 25 * limit) ∧
    (loadBand m limit = 1 ↔ 25 * limit < m * 100 ∧ m * 100 ≤ 50 * limit) ∧
    (loadBand m limit = 2 ↔ 50 * limit < m * 100 ∧ m * 100 ≤ 75 * limit) ∧
    (loadBand m limit = 3 ↔ 75 * limit < m * 100)) ∧
  (∀ (cook band p : Nat) (load : List Nat), load[band]? = some p →
    effectiveCook cook load band * 100 < cook * 100 + cook * p + 100 ∧
      cook * 100 + cook * p ≤ effectiveCook cook load band * 100 ∧
      (cook ≤ 7200 → p ≤ 100 → effectiveCook cook load band ≤ 14400) ∧
      (p = 0 → effectiveCook cook load band = cook) ∧ (p = 100 → effectiveCook cook load band = 2 * cook) ∧
      (cook = 0 → effectiveCook cook load band = 0)) ∧
  (∀ (clock target lead n : Nat) (key : CompKey) (c : Component) (d : StationDef),
    ∀ t ∈ (componentComputation clock target lead key c d n).tickets,
      t.ceff = effectiveCook c.cook d.load (loadBand (largestBatch n c.batch) c.batch)) ∧
  ∀ (clock p : Nat) (i : Item) (c : Component) (d : StationDef),
    (runComputation clock i c d p).ceff = effectiveCook c.cook d.load (loadBand p i.runSize)

/-- The tickets of a component computation (R66, R70, R71, R72, R73): one per batch in index order, each wave of S batches starting
Ceff + L before the next and the last finishing at T − D − R; its release is its latest start less A, or the clock if that is
later; and the held time is R plus the wait for the later waves, stretched above H.
A refire computation (R75): the same batches, Ceff and waves, as RUSH tickets released at the clock, due A + Ceff and the waves
before it after the clock, with the same held time. -/
def Obligations.ComponentTicketsDescribed : Prop :=
  (∀ (clock target lead n : Nat) (key : CompKey) (c : Component) (d : StationDef), 1 ≤ n → 1 ≤ c.batch → 1 ≤ d.slots →
     let made := componentComputation clock target lead key c d n
     let ceff := effectiveCook c.cook d.load (loadBand (largestBatch n c.batch) c.batch)
     let b := (n + c.batch - 1) / c.batch
     let waves := (b + d.slots - 1) / d.slots
     let due : Int := target - lead - c.rest
     made.tickets.length = b ∧
     (∀ j p, j < b → (batchSizes n c.batch)[j]? = some p →
       let wave := j / d.slots
       let start : Int := due - ceff - ((waves : Int) - 1 - wave) * (ceff + d.step)
       ∃ t, made.tickets[j]? = some t ∧ t.station = c.station ∧ t.group = key.group ∧ t.item = key.item ∧ t.comp = key.comp ∧
         t.subFrom = key.subFrom ∧ t.portions = p ∧ t.kind = .normal ∧ t.due = start + ceff ∧ t.ceff = ceff ∧
         t.advance = d.advance ∧ (t.release : Int) = max (start - d.advance) clock) ∧
     (∀ t, made.tickets[b - 1]? = some t → t.due = due) ∧ made.held = c.rest + (waves - 1) * (ceff + d.step) ∧
     (made.stretched = true ↔ c.hold < made.held)) ∧
  ∀ (clock n : Nat) (key : CompKey) (c : Component) (d : StationDef), 1 ≤ n → 1 ≤ c.batch → 1 ≤ d.slots →
    let made := refireComputation clock key c d n
    let ceff := effectiveCook c.cook d.load (loadBand (largestBatch n c.batch) c.batch)
    let b := (n + c.batch - 1) / c.batch
    let waves := (b + d.slots - 1) / d.slots
    made.tickets.length = b ∧
    (∀ j p, j < b → (batchSizes n c.batch)[j]? = some p →
      made.tickets[j]? = some
        { station := c.station, group := key.group, item := key.item, comp := key.comp, subFrom := key.subFrom, portions := p,
          kind := .rush, release := clock, due := (clock : Int) + d.advance + ceff + (j / d.slots) * (ceff + d.step), ceff := ceff,
          advance := d.advance }) ∧
    made.held = c.rest + (waves - 1) * (ceff + d.step) ∧ made.item = key.item ∧ made.comp = key.comp ∧ made.hold = c.hold

/-- The projected pass time (R77, R78): T with no live plated ticket, else the largest of expected done + R over the live plated
tickets, plus D. The expected done of a ticket: its done time; its start + Ceff while COOKING; clock + Ceff while SENT or POSTED; the
later of release and clock, plus A + Ceff, while QUEUED or DUE.
The life end (R147): the least done time + H over the DONE live plated tickets, absent with none. -/
def Obligations.ProjectionAndLifeEnd : Prop :=
  (∀ (clock : Nat) (t : Ticket),
    (∀ d, t.state = .done → t.doneAt = some d → expectedDone clock t = d) ∧
    (∀ b, t.state = .cooking → t.startAt = some b → expectedDone clock t = b + t.ceff) ∧
    (t.state = .sent ∨ t.state = .posted → expectedDone clock t = clock + t.ceff) ∧
    (t.state = .queued ∨ t.state = .due → expectedDone clock t = max (t.release : Int) clock + t.advance + t.ceff)) ∧
  (∀ (k : Kitchen) (g : Group),
    let live := k.tickets.filter fun t => t.group == g.number && t.kind != .standing && t.state != .voiding
    let rest := fun t : Ticket =>
      (((((findItem k t.item).map Item.lines).getD [])[t.comp]?).map Component.rest).getD 0
    (live = [] → projection k g = g.target) ∧
    (live ≠ [] →
      (∃ t ∈ live, projection k g = expectedDone k.clock t + rest t + g.lead) ∧
        ∀ t ∈ live, expectedDone k.clock t + rest t + g.lead ≤ projection k g)) ∧
  ∀ (k : Kitchen) (n : Nat),
    let ends := fun (t : Ticket) (e : Int) =>
      t ∈ k.tickets ∧ t.group = n ∧ t.kind ≠ .standing ∧ t.state = .done ∧
        ∃ d i c, t.doneAt = some d ∧ findItem k t.item = some i ∧ i.lines[t.comp]? = some c ∧ e = d + c.hold
    (lifeEndOf k n = none ↔ ∀ t e, ¬ends t e) ∧
      ∀ e, lifeEndOf k n = some e ↔ (∃ t, ends t e) ∧ ∀ t e', ends t e' → e ≤ e'
/-- A station's queue (R85): its tickets that are not DONE, each once; the RUSH tickets first in the order of their creation, and
behind them the others by release, STANDING before NORMAL, due time, group number and ticket number.
Eligibility (R87): DUE, the group not held, SERVICE, the station READY, its current terminal LIVE.
The slot arbiter (R88, R90): at most as many grants as the station has slots, and then the staging. One grant takes, while a slot is
free, the first eligible ticket in queue order. Staged is the first eligible one when every slot is held, and none otherwise; where
that changes, a NEXT mark is set at the current terminal. After the action no slot is free while an eligible ticket remains; only
DUE tickets have become SENT. The arbiters of several stations act one after another.
A grant (R91, R128, R59): the ticket is SENT, a POST of it is pending at the station's current terminal, once, a PLANNED group of it is
FIRING, and P is recomputed.
A slot freed (R89, R108): the arbiter acts; a DRAINING station with no slot held is then OFF, with STNMODE (OFF, DRAIN) and a MODE frame
pending at its current terminal, and in every other case nothing more happens. -/
def Obligations.StationQueueAndArbiter : Prop :=
  (∀ (w : Work) (st : Nat),
     (findStation w.toKitchen st = none → slotFreed st w = w) ∧
     ∀ x, findStation w.toKitchen st = some x →
       let acted := arbiter st w
       let off := atCurrent st (markMode st)
         (raise (.stnmode st .off .drain 0) (setStation st (fun y => { y with mode := .off, countdown := 0 }) acted))
       (x.mode = .draining → slotsHeld acted.toKitchen st = 0 →
         slotFreed st w = arbiter st off ∧ ⟨w.clock, .stnmode st .off .drain 0⟩ ∈ (slotFreed st w).out ∧
           ∃ y, findStation (slotFreed st w).toKitchen st = some y ∧ y.mode = .off) ∧
       (x.mode ≠ .draining ∨ slotsHeld acted.toKitchen st ≠ 0 → slotFreed st w = acted)) ∧
  (∀ (k : Kitchen) (st : Nat), ∃ rush others : List Ticket,
     queueOf k st = rush ++ others ∧
     rush = k.tickets.filter (fun t => t.station == st && t.state != .done && t.kind == .rush) ∧
     List.Perm others (k.tickets.filter fun t => t.station == st && t.state != .done && t.kind != .rush) ∧
     others.Pairwise fun a b =>
       a.release < b.release ∨
         (a.release = b.release ∧
           ((a.kind = .standing ∧ b.kind ≠ .standing) ∨
             ((a.kind = .standing ↔ b.kind = .standing) ∧
               (a.due < b.due ∨ (a.due = b.due ∧ (a.group < b.group ∨ (a.group = b.group ∧ a.number ≤ b.number)))))))) ∧
  (∀ (k : Kitchen) (x : Station) (t : Ticket),
     (eligible k x t = true ↔
       t.state = .due ∧ (∀ g, findGroup k t.group = some g → g.flags.held = false) ∧ k.event = .service ∧ x.mode = .ready ∧
         ∃ a z, x.current = some a ∧ findTerminal k a = some z ∧ z.state = .live) ∧
     slotsHeld k x.number =
       (k.tickets.filter fun t =>
         t.station == x.number && [TicketState.sent, .posted, .cooking, .voiding].contains t.state).length) ∧
  (∀ (w : Work) (st : Nat) (x : Station), findStation w.toKitchen st = some x →
     let w' := arbiter st w
     w' = reviseStaged st ((grantOne st)^[x.defn.slots] w) ∧
     ∃ y, findStation w'.toKitchen st = some y ∧ y.defn = x.defn ∧ y.mode = x.mode ∧ y.current = x.current ∧
       (slotsHeld w'.toKitchen st < x.defn.slots →
         y.staged = none ∧ ∀ t ∈ queueOf w'.toKitchen st, eligible w'.toKitchen y t = false) ∧
       (x.defn.slots ≤ slotsHeld w'.toKitchen st →
         y.staged = ((queueOf w'.toKitchen st).find? (eligible w'.toKitchen y)).map Ticket.number) ∧
       w'.tickets.map Ticket.order = w.tickets.map Ticket.order) ∧
  (∀ (w : Work) (st : Nat),
     (findStation w.toKitchen st = none → arbiter st w = w) ∧
     (∀ sts, arbiters (st :: sts) w = arbiters sts (arbiter st w) ∧ arbiters [] w = w) ∧
     ∀ x, findStation w.toKitchen st = some x →
       let first :=
         if slotsHeld w.toKitchen st < x.defn.slots then none
         else ((queueOf w.toKitchen st).find? (eligible w.toKitchen x)).map Ticket.number
       (x.defn.slots ≤ slotsHeld w.toKitchen st → grantOne st w = w) ∧
       ((∀ t ∈ queueOf w.toKitchen st, eligible w.toKitchen x t = false) → grantOne st w = w) ∧
       (∀ before t later, slotsHeld w.toKitchen st < x.defn.slots → queueOf w.toKitchen st = before ++ t :: later →
         (∀ u ∈ before, eligible w.toKitchen x u = false) → eligible w.toKitchen x t = true → grantOne st w = grant t w) ∧
       (first = x.staged → reviseStaged st w = w) ∧
       (first ≠ x.staged →
         reviseStaged st w =
           { w with
             stations := w.stations.map fun y => if y.number = st then { y with staged := first } else y
             terminals := w.terminals.map fun z => if x.current = some z.address then markNext st z else z })) ∧
  (∀ (st : Nat) (z : Terminal),
     (∃ l, markNext st z = { z with nextMarks := l } ∧ ∀ m, m ∈ l ↔ m = st ∨ m ∈ z.nextMarks) ∧
       ∃ l, markMode st z = { z with modeMarks := l } ∧ ∀ m, m ∈ l ↔ m = st ∨ m ∈ z.modeMarks) ∧
  ∀ (t : Ticket) (w : Work),
    let current := (findStation w.toKitchen t.station).bind Station.current
    let posted := fun z : Terminal =>
      if z.posts.any fun p => p.ticket == t.number then z else { z with posts := z.posts ++ [⟨t.station, t.number⟩] }
    grant t w =
      recompute t.group
        { w with
          tickets := w.tickets.map fun u => if u.number = t.number ∧ u.state = .due then { u with state := .sent } else u
          terminals := w.terminals.map fun z => if current = some z.address then posted z else z
          groups := w.groups.map fun g =>
            if g.number = t.group ∧ g.state = .planned then { g with state := .firing } else g }

/-! ### What every step keeps -/

/-- The definition freeze (R3): in SERVICE and CLOSED no command changes the item, course, station and terminal definitions, except
item stock (with the mark and the pool) and station binding. -/
def Obligations.DefinitionsFrozen : Prop :=
  ∀ s t : State, s.kit.event ≠ .setup → t.kit.event ≠ .setup → s.resetLow = false → t.resetLow = false →
    step s = .next t → t.kit.definitions = s.kit.definitions

/-- The event state and the two counts (R1, R4, R5). Apart from reset and the clearing of RESTART, the event state stays, passes from
SETUP to SERVICE by START, or from SERVICE to CLOSED; the device second count moves only by a device second, by 1; and the service
clock moves only by a device second, in SERVICE, by 1, and never above 65,535. -/
def Obligations.EventAndClockMove : Prop :=
  ∀ (c : Instr) (s t : State), s.resetLow = false → t.resetLow = false → s.host.restartOwed = false → exec c s = .next t →
    (t.kit.event = s.kit.event ∨ (s.kit.event = .setup ∧ t.kit.event = .service ∧ c = .start) ∨
      (s.kit.event = .service ∧ t.kit.event = .closed)) ∧
    (t.kit.seconds = s.kit.seconds ∨ (t.kit.seconds = s.kit.seconds + 1 ∧ c = .deviceSecond)) ∧
    (t.kit.clock = s.kit.clock ∨
      (t.kit.clock = s.kit.clock + 1 ∧ c = .deviceSecond ∧ s.kit.event = .service ∧ t.kit.clock ≤ 65535))

/-- Every step keeps stocks sound (the exhausted mark set just when the stock is a limited 0, a limited stock at most 65,534, a pool
at most 9,999: R30, R33, R149) and the terminal table sound (addresses ascending, miss counts at most 8, and no LIVE terminal with
8 misses: R27, R130).
Every step keeps the records sound: ticket records in use have different numbers (R82) and are at most 2,048 (R81); the tickets SENT,
POSTED, COOKING or VOIDING of a station never number more than its slots (R88); the RAILCLRs, NEXT marks and MODE marks of a terminal
stand ascending (R121); and with them what makes these hold: the tables ascending, the lines of a group named apart (R38), a ticket no
larger than a batch (R67), and the portions committed to a line of a group not CANCELLED in its tickets, component by component (R50). -/
def Obligations.StockAndBusSoundKept : Prop :=
  (∀ s t : State, s.kit.stockSound → s.kit.busSound → step s = .next t → t.kit.stockSound ∧ t.kit.busSound) ∧
    ∀ s t : State, s.kit.recordsSound → step s = .next t → t.kit.recordsSound
end

