-- ==== Sys2Proof/Laws/State.lean ====
section
/-! SUPPORT. One lemma per field for each update of the kitchen, and for the states after a command. -/

namespace Sys2Proof.Machine

@[simp] theorem setItem_event (n : Nat) (f : Item → Item) (w : Work) : (setItem n f w).event = w.event := rfl
@[simp] theorem setItem_clock (n : Nat) (f : Item → Item) (w : Work) : (setItem n f w).clock = w.clock := rfl
@[simp] theorem setItem_seconds (n : Nat) (f : Item → Item) (w : Work) : (setItem n f w).seconds = w.seconds := rfl
@[simp] theorem setItem_owed (n : Nat) (f : Item → Item) (w : Work) : (setItem n f w).owed = w.owed := rfl
@[simp] theorem setItem_items (n : Nat) (f : Item → Item) (w : Work) : (setItem n f w).items = updateEntry Item.number n f w.items := rfl
@[simp] theorem setItem_courses (n : Nat) (f : Item → Item) (w : Work) : (setItem n f w).courses = w.courses := rfl
@[simp] theorem setItem_stations (n : Nat) (f : Item → Item) (w : Work) : (setItem n f w).stations = w.stations := rfl
@[simp] theorem setItem_terminals (n : Nat) (f : Item → Item) (w : Work) : (setItem n f w).terminals = w.terminals := rfl
@[simp] theorem setItem_groups (n : Nat) (f : Item → Item) (w : Work) : (setItem n f w).groups = w.groups := rfl
@[simp] theorem setItem_tickets (n : Nat) (f : Item → Item) (w : Work) : (setItem n f w).tickets = w.tickets := rfl
@[simp] theorem setItem_nextTicket (n : Nat) (f : Item → Item) (w : Work) : (setItem n f w).nextTicket = w.nextTicket := rfl
@[simp] theorem setItem_drawOrder (n : Nat) (f : Item → Item) (w : Work) : (setItem n f w).drawOrder = w.drawOrder := rfl
@[simp] theorem setItem_turn (n : Nat) (f : Item → Item) (w : Work) : (setItem n f w).turn = w.turn := rfl
@[simp] theorem setItem_broadcast (n : Nat) (f : Item → Item) (w : Work) : (setItem n f w).broadcast = w.broadcast := rfl
@[simp] theorem setItem_lastTurn (n : Nat) (f : Item → Item) (w : Work) : (setItem n f w).lastTurn = w.lastTurn := rfl
@[simp] theorem setItem_busLine (n : Nat) (f : Item → Item) (w : Work) : (setItem n f w).busLine = w.busLine := rfl
@[simp] theorem setItem_out (n : Nat) (f : Item → Item) (w : Work) : (setItem n f w).out = w.out := rfl

@[simp] theorem setStation_event (n : Nat) (f : Station → Station) (w : Work) : (setStation n f w).event = w.event := rfl
@[simp] theorem setStation_clock (n : Nat) (f : Station → Station) (w : Work) : (setStation n f w).clock = w.clock := rfl
@[simp] theorem setStation_seconds (n : Nat) (f : Station → Station) (w : Work) : (setStation n f w).seconds = w.seconds := rfl
@[simp] theorem setStation_owed (n : Nat) (f : Station → Station) (w : Work) : (setStation n f w).owed = w.owed := rfl
@[simp] theorem setStation_items (n : Nat) (f : Station → Station) (w : Work) : (setStation n f w).items = w.items := rfl
@[simp] theorem setStation_courses (n : Nat) (f : Station → Station) (w : Work) : (setStation n f w).courses = w.courses := rfl
@[simp] theorem setStation_stations (n : Nat) (f : Station → Station) (w : Work) : (setStation n f w).stations = updateEntry Station.number n f w.stations := rfl
@[simp] theorem setStation_terminals (n : Nat) (f : Station → Station) (w : Work) : (setStation n f w).terminals = w.terminals := rfl
@[simp] theorem setStation_groups (n : Nat) (f : Station → Station) (w : Work) : (setStation n f w).groups = w.groups := rfl
@[simp] theorem setStation_tickets (n : Nat) (f : Station → Station) (w : Work) : (setStation n f w).tickets = w.tickets := rfl
@[simp] theorem setStation_nextTicket (n : Nat) (f : Station → Station) (w : Work) : (setStation n f w).nextTicket = w.nextTicket := rfl
@[simp] theorem setStation_drawOrder (n : Nat) (f : Station → Station) (w : Work) : (setStation n f w).drawOrder = w.drawOrder := rfl
@[simp] theorem setStation_turn (n : Nat) (f : Station → Station) (w : Work) : (setStation n f w).turn = w.turn := rfl
@[simp] theorem setStation_broadcast (n : Nat) (f : Station → Station) (w : Work) : (setStation n f w).broadcast = w.broadcast := rfl
@[simp] theorem setStation_lastTurn (n : Nat) (f : Station → Station) (w : Work) : (setStation n f w).lastTurn = w.lastTurn := rfl
@[simp] theorem setStation_busLine (n : Nat) (f : Station → Station) (w : Work) : (setStation n f w).busLine = w.busLine := rfl
@[simp] theorem setStation_out (n : Nat) (f : Station → Station) (w : Work) : (setStation n f w).out = w.out := rfl

@[simp] theorem setTerminal_event (n : Nat) (f : Terminal → Terminal) (w : Work) : (setTerminal n f w).event = w.event := rfl
@[simp] theorem setTerminal_clock (n : Nat) (f : Terminal → Terminal) (w : Work) : (setTerminal n f w).clock = w.clock := rfl
@[simp] theorem setTerminal_seconds (n : Nat) (f : Terminal → Terminal) (w : Work) : (setTerminal n f w).seconds = w.seconds := rfl
@[simp] theorem setTerminal_owed (n : Nat) (f : Terminal → Terminal) (w : Work) : (setTerminal n f w).owed = w.owed := rfl
@[simp] theorem setTerminal_items (n : Nat) (f : Terminal → Terminal) (w : Work) : (setTerminal n f w).items = w.items := rfl
@[simp] theorem setTerminal_courses (n : Nat) (f : Terminal → Terminal) (w : Work) : (setTerminal n f w).courses = w.courses := rfl
@[simp] theorem setTerminal_stations (n : Nat) (f : Terminal → Terminal) (w : Work) : (setTerminal n f w).stations = w.stations := rfl
@[simp] theorem setTerminal_terminals (n : Nat) (f : Terminal → Terminal) (w : Work) : (setTerminal n f w).terminals = updateEntry Terminal.address n f w.terminals := rfl
@[simp] theorem setTerminal_groups (n : Nat) (f : Terminal → Terminal) (w : Work) : (setTerminal n f w).groups = w.groups := rfl
@[simp] theorem setTerminal_tickets (n : Nat) (f : Terminal → Terminal) (w : Work) : (setTerminal n f w).tickets = w.tickets := rfl
@[simp] theorem setTerminal_nextTicket (n : Nat) (f : Terminal → Terminal) (w : Work) : (setTerminal n f w).nextTicket = w.nextTicket := rfl
@[simp] theorem setTerminal_drawOrder (n : Nat) (f : Terminal → Terminal) (w : Work) : (setTerminal n f w).drawOrder = w.drawOrder := rfl
@[simp] theorem setTerminal_turn (n : Nat) (f : Terminal → Terminal) (w : Work) : (setTerminal n f w).turn = w.turn := rfl
@[simp] theorem setTerminal_broadcast (n : Nat) (f : Terminal → Terminal) (w : Work) : (setTerminal n f w).broadcast = w.broadcast := rfl
@[simp] theorem setTerminal_lastTurn (n : Nat) (f : Terminal → Terminal) (w : Work) : (setTerminal n f w).lastTurn = w.lastTurn := rfl
@[simp] theorem setTerminal_busLine (n : Nat) (f : Terminal → Terminal) (w : Work) : (setTerminal n f w).busLine = w.busLine := rfl
@[simp] theorem setTerminal_out (n : Nat) (f : Terminal → Terminal) (w : Work) : (setTerminal n f w).out = w.out := rfl

@[simp] theorem setGroup_event (n : Nat) (f : Group → Group) (w : Work) : (setGroup n f w).event = w.event := rfl
@[simp] theorem setGroup_clock (n : Nat) (f : Group → Group) (w : Work) : (setGroup n f w).clock = w.clock := rfl
@[simp] theorem setGroup_seconds (n : Nat) (f : Group → Group) (w : Work) : (setGroup n f w).seconds = w.seconds := rfl
@[simp] theorem setGroup_owed (n : Nat) (f : Group → Group) (w : Work) : (setGroup n f w).owed = w.owed := rfl
@[simp] theorem setGroup_items (n : Nat) (f : Group → Group) (w : Work) : (setGroup n f w).items = w.items := rfl
@[simp] theorem setGroup_courses (n : Nat) (f : Group → Group) (w : Work) : (setGroup n f w).courses = w.courses := rfl
@[simp] theorem setGroup_stations (n : Nat) (f : Group → Group) (w : Work) : (setGroup n f w).stations = w.stations := rfl
@[simp] theorem setGroup_terminals (n : Nat) (f : Group → Group) (w : Work) : (setGroup n f w).terminals = w.terminals := rfl
@[simp] theorem setGroup_groups (n : Nat) (f : Group → Group) (w : Work) : (setGroup n f w).groups = updateEntry Group.number n f w.groups := rfl
@[simp] theorem setGroup_tickets (n : Nat) (f : Group → Group) (w : Work) : (setGroup n f w).tickets = w.tickets := rfl
@[simp] theorem setGroup_nextTicket (n : Nat) (f : Group → Group) (w : Work) : (setGroup n f w).nextTicket = w.nextTicket := rfl
@[simp] theorem setGroup_drawOrder (n : Nat) (f : Group → Group) (w : Work) : (setGroup n f w).drawOrder = w.drawOrder := rfl
@[simp] theorem setGroup_turn (n : Nat) (f : Group → Group) (w : Work) : (setGroup n f w).turn = w.turn := rfl
@[simp] theorem setGroup_broadcast (n : Nat) (f : Group → Group) (w : Work) : (setGroup n f w).broadcast = w.broadcast := rfl
@[simp] theorem setGroup_lastTurn (n : Nat) (f : Group → Group) (w : Work) : (setGroup n f w).lastTurn = w.lastTurn := rfl
@[simp] theorem setGroup_busLine (n : Nat) (f : Group → Group) (w : Work) : (setGroup n f w).busLine = w.busLine := rfl
@[simp] theorem setGroup_out (n : Nat) (f : Group → Group) (w : Work) : (setGroup n f w).out = w.out := rfl

@[simp] theorem setTicket_event (n : Nat) (f : Ticket → Ticket) (w : Work) : (setTicket n f w).event = w.event := rfl
@[simp] theorem setTicket_clock (n : Nat) (f : Ticket → Ticket) (w : Work) : (setTicket n f w).clock = w.clock := rfl
@[simp] theorem setTicket_seconds (n : Nat) (f : Ticket → Ticket) (w : Work) : (setTicket n f w).seconds = w.seconds := rfl
@[simp] theorem setTicket_owed (n : Nat) (f : Ticket → Ticket) (w : Work) : (setTicket n f w).owed = w.owed := rfl
@[simp] theorem setTicket_items (n : Nat) (f : Ticket → Ticket) (w : Work) : (setTicket n f w).items = w.items := rfl
@[simp] theorem setTicket_courses (n : Nat) (f : Ticket → Ticket) (w : Work) : (setTicket n f w).courses = w.courses := rfl
@[simp] theorem setTicket_stations (n : Nat) (f : Ticket → Ticket) (w : Work) : (setTicket n f w).stations = w.stations := rfl
@[simp] theorem setTicket_terminals (n : Nat) (f : Ticket → Ticket) (w : Work) : (setTicket n f w).terminals = w.terminals := rfl
@[simp] theorem setTicket_groups (n : Nat) (f : Ticket → Ticket) (w : Work) : (setTicket n f w).groups = w.groups := rfl
@[simp] theorem setTicket_tickets (n : Nat) (f : Ticket → Ticket) (w : Work) : (setTicket n f w).tickets = updateEntry Ticket.number n f w.tickets := rfl
@[simp] theorem setTicket_nextTicket (n : Nat) (f : Ticket → Ticket) (w : Work) : (setTicket n f w).nextTicket = w.nextTicket := rfl
@[simp] theorem setTicket_drawOrder (n : Nat) (f : Ticket → Ticket) (w : Work) : (setTicket n f w).drawOrder = w.drawOrder := rfl
@[simp] theorem setTicket_turn (n : Nat) (f : Ticket → Ticket) (w : Work) : (setTicket n f w).turn = w.turn := rfl
@[simp] theorem setTicket_broadcast (n : Nat) (f : Ticket → Ticket) (w : Work) : (setTicket n f w).broadcast = w.broadcast := rfl
@[simp] theorem setTicket_lastTurn (n : Nat) (f : Ticket → Ticket) (w : Work) : (setTicket n f w).lastTurn = w.lastTurn := rfl
@[simp] theorem setTicket_busLine (n : Nat) (f : Ticket → Ticket) (w : Work) : (setTicket n f w).busLine = w.busLine := rfl
@[simp] theorem setTicket_out (n : Nat) (f : Ticket → Ticket) (w : Work) : (setTicket n f w).out = w.out := rfl

@[simp] theorem raise_event (b : ReportBody) (w : Work) : (raise b w).event = w.event := rfl
@[simp] theorem raise_clock (b : ReportBody) (w : Work) : (raise b w).clock = w.clock := rfl
@[simp] theorem raise_seconds (b : ReportBody) (w : Work) : (raise b w).seconds = w.seconds := rfl
@[simp] theorem raise_owed (b : ReportBody) (w : Work) : (raise b w).owed = w.owed := rfl
@[simp] theorem raise_items (b : ReportBody) (w : Work) : (raise b w).items = w.items := rfl
@[simp] theorem raise_courses (b : ReportBody) (w : Work) : (raise b w).courses = w.courses := rfl
@[simp] theorem raise_stations (b : ReportBody) (w : Work) : (raise b w).stations = w.stations := rfl
@[simp] theorem raise_terminals (b : ReportBody) (w : Work) : (raise b w).terminals = w.terminals := rfl
@[simp] theorem raise_groups (b : ReportBody) (w : Work) : (raise b w).groups = w.groups := rfl
@[simp] theorem raise_tickets (b : ReportBody) (w : Work) : (raise b w).tickets = w.tickets := rfl
@[simp] theorem raise_nextTicket (b : ReportBody) (w : Work) : (raise b w).nextTicket = w.nextTicket := rfl
@[simp] theorem raise_drawOrder (b : ReportBody) (w : Work) : (raise b w).drawOrder = w.drawOrder := rfl
@[simp] theorem raise_turn (b : ReportBody) (w : Work) : (raise b w).turn = w.turn := rfl
@[simp] theorem raise_broadcast (b : ReportBody) (w : Work) : (raise b w).broadcast = w.broadcast := rfl
@[simp] theorem raise_lastTurn (b : ReportBody) (w : Work) : (raise b w).lastTurn = w.lastTurn := rfl
@[simp] theorem raise_busLine (b : ReportBody) (w : Work) : (raise b w).busLine = w.busLine := rfl
@[simp] theorem raise_out (b : ReportBody) (w : Work) : (raise b w).out = w.out ++ [⟨w.clock, b⟩] := rfl

@[simp] theorem begun_event (k : Kitchen) : (begun k).event = k.event := rfl
@[simp] theorem begun_clock (k : Kitchen) : (begun k).clock = k.clock := rfl
@[simp] theorem begun_seconds (k : Kitchen) : (begun k).seconds = k.seconds := rfl
@[simp] theorem begun_owed (k : Kitchen) : (begun k).owed = k.owed := rfl
@[simp] theorem begun_items (k : Kitchen) : (begun k).items = k.items := rfl
@[simp] theorem begun_courses (k : Kitchen) : (begun k).courses = k.courses := rfl
@[simp] theorem begun_stations (k : Kitchen) : (begun k).stations = k.stations := rfl
@[simp] theorem begun_terminals (k : Kitchen) : (begun k).terminals = k.terminals := rfl
@[simp] theorem begun_groups (k : Kitchen) : (begun k).groups = k.groups := rfl
@[simp] theorem begun_tickets (k : Kitchen) : (begun k).tickets = k.tickets := rfl
@[simp] theorem begun_nextTicket (k : Kitchen) : (begun k).nextTicket = k.nextTicket := rfl
@[simp] theorem begun_drawOrder (k : Kitchen) : (begun k).drawOrder = k.drawOrder := rfl
@[simp] theorem begun_turn (k : Kitchen) : (begun k).turn = k.turn := rfl
@[simp] theorem begun_broadcast (k : Kitchen) : (begun k).broadcast = k.broadcast := rfl
@[simp] theorem begun_lastTurn (k : Kitchen) : (begun k).lastTurn = k.lastTurn := rfl
@[simp] theorem begun_busLine (k : Kitchen) : (begun k).busLine = k.busLine := rfl
@[simp] theorem begun_out (k : Kitchen) : (begun k).out = [] := rfl
@[simp] theorem begun_toKitchen (k : Kitchen) : (begun k).toKitchen = k := rfl

@[simp] theorem moved_kit (s : State) (w : Work) : (moved s w).kit = w.toKitchen := rfl
@[simp] theorem moved_resetLow (s : State) (w : Work) : (moved s w).resetLow = s.resetLow := rfl
@[simp] theorem moved_pending (s : State) (w : Work) : (moved s w).pending = s.pending := rfl
@[simp] theorem moved_host (s : State) (w : Work) : (moved s w).host = pushReports s.host w.out := rfl
@[simp] theorem answered_kit (s : State) (k : ReqKind) (seq : Byte) (rest : List Frame) (a : Answer) (w : Work) :
    (answered s k seq rest a w).kit = w.toKitchen := rfl
@[simp] theorem answered_resetLow (s : State) (k : ReqKind) (seq : Byte) (rest : List Frame) (a : Answer) (w : Work) :
    (answered s k seq rest a w).resetLow = s.resetLow := rfl
@[simp] theorem answered_pending (s : State) (k : ReqKind) (seq : Byte) (rest : List Frame) (a : Answer) (w : Work) :
    (answered s k seq rest a w).pending = s.pending := rfl

/-! ### Joining the report queue touches only the queue, its mark and its count -/

@[simp] theorem pushReport_rx (h : HostPort) (r : Report) : (pushReport h r).rx = h.rx := by
  unfold pushReport; split <;> rfl

@[simp] theorem pushReports_rx (h : HostPort) (rs : List Report) : (pushReports h rs).rx = h.rx := by
  unfold pushReports
  induction rs generalizing h with
  | nil => rfl
  | cons r rs ih => rw [List.foldl_cons, ih, pushReport_rx]

@[simp] theorem pushReport_intake (h : HostPort) (r : Report) : (pushReport h r).intake = h.intake := by
  unfold pushReport; split <;> rfl

@[simp] theorem pushReports_intake (h : HostPort) (rs : List Report) : (pushReports h rs).intake = h.intake := by
  unfold pushReports
  induction rs generalizing h with
  | nil => rfl
  | cons r rs ih => rw [List.foldl_cons, ih, pushReport_intake]

@[simp] theorem pushReport_replyPath (h : HostPort) (r : Report) : (pushReport h r).replyPath = h.replyPath := by
  unfold pushReport; split <;> rfl

@[simp] theorem pushReports_replyPath (h : HostPort) (rs : List Report) : (pushReports h rs).replyPath = h.replyPath := by
  unfold pushReports
  induction rs generalizing h with
  | nil => rfl
  | cons r rs ih => rw [List.foldl_cons, ih, pushReport_replyPath]

@[simp] theorem pushReport_tx (h : HostPort) (r : Report) : (pushReport h r).tx = h.tx := by
  unfold pushReport; split <;> rfl

@[simp] theorem pushReports_tx (h : HostPort) (rs : List Report) : (pushReports h rs).tx = h.tx := by
  unfold pushReports
  induction rs generalizing h with
  | nil => rfl
  | cons r rs ih => rw [List.foldl_cons, ih, pushReport_tx]

@[simp] theorem pushReport_restartOwed (h : HostPort) (r : Report) : (pushReport h r).restartOwed = h.restartOwed := by
  unfold pushReport; split <;> rfl

@[simp] theorem pushReports_restartOwed (h : HostPort) (rs : List Report) : (pushReports h rs).restartOwed = h.restartOwed := by
  unfold pushReports
  induction rs generalizing h with
  | nil => rfl
  | cons r rs ih => rw [List.foldl_cons, ih, pushReport_restartOwed]

@[simp] theorem pushReports_nil (h : HostPort) : pushReports h [] = h := rfl

end Sys2Proof.Machine
end

