-- ==== Sys2Proof/Laws/Tables.lean ====
section
/-! SUPPORT. The ascending tables: an update or an entry is read back at its own number, and changes no other. -/

namespace Sys2Proof.Machine

variable {α β : Type} {key : α → Nat}

theorem updateEntry_map (g : α → β) (n : Nat) (f : α → α) (l : List α) (h : ∀ x ∈ l, key x = n → g (f x) = g x) :
    (updateEntry key n f l).map g = l.map g := by
  unfold updateEntry
  rw [List.map_map]
  apply List.map_congr_left
  intro x hx
  by_cases hk : key x = n <;> simp [hk, h x hx]

theorem entryOf_updateEntry_same (n : Nat) (f : α → α) (l : List α) (h : ∀ x, key x = n → key (f x) = n) :
    entryOf key n (updateEntry key n f l) = (entryOf key n l).map f := by
  unfold entryOf updateEntry
  induction l with
  | nil => rfl
  | cons x l ih => by_cases hk : key x = n <;> simp_all

theorem entryOf_updateEntry_other {m n : Nat} (hmn : m ≠ n) (f : α → α) (l : List α) (h : ∀ x, key x = n → key (f x) = n) :
    entryOf key m (updateEntry key n f l) = entryOf key m l := by
  unfold entryOf updateEntry
  induction l with
  | nil => rfl
  | cons x l ih =>
    by_cases hk : key x = n
    · have h1 := h x hk
      simp [hk, h1, Ne.symm hmn, ih]
    · by_cases hm : key x = m <;> simp_all

theorem entryOf_insertEntry_same (x : α) (l : List α) : entryOf key (key x) (insertEntry key x l) = some x := by
  unfold entryOf
  induction l with
  | nil => simp [insertEntry]
  | cons y l ih =>
    unfold insertEntry
    split
    · simp
    · split
      · simp
      · rename_i h1 h2
        have h3 : (key y == key x) = false := by simpa using Ne.symm h2
        simp [h3, ih]

theorem entryOf_insertEntry_other {m : Nat} (x : α) (hm : m ≠ key x) (l : List α) :
    entryOf key m (insertEntry key x l) = entryOf key m l := by
  unfold entryOf
  have hx : (key x == m) = false := by simpa using Ne.symm hm
  induction l with
  | nil => simp [insertEntry, hx]
  | cons y l ih =>
    unfold insertEntry
    split
    · simp [List.find?_cons, hx]
    · split
      · rename_i h1 h2
        have hy : (key y == m) = false := by rw [← h2]; exact hx
        simp [hx, hy]
      · by_cases hy : key y = m <;> simp_all

theorem mem_insertEntry (x y : α) (l : List α) (h : y ∈ insertEntry key x l) : y = x ∨ y ∈ l := by
  induction l with
  | nil => simpa [insertEntry] using h
  | cons z l ih =>
    unfold insertEntry at h
    split at h
    · simpa using h
    · split at h
      · simp at h ⊢; tauto
      · simp at h ⊢
        rcases h with h | h
        · exact .inr (.inl h)
        · rcases ih h with h | h
          · exact .inl h
          · exact .inr (.inr h)

theorem insertEntry_ascending (x : α) (l : List α) (h : l.Pairwise fun a b => key a < key b) :
    (insertEntry key x l).Pairwise fun a b => key a < key b := by
  induction l with
  | nil => simp [insertEntry]
  | cons y l ih =>
    rw [List.pairwise_cons] at h
    unfold insertEntry
    split
    · rename_i hlt
      refine List.pairwise_cons.2 ⟨fun z hz => ?_, List.pairwise_cons.2 h⟩
      rcases List.mem_cons.1 hz with rfl | hz
      · exact hlt
      · exact lt_trans hlt (h.1 z hz)
    · split
      · rename_i heq
        exact List.pairwise_cons.2 ⟨fun z hz => heq ▸ h.1 z hz, h.2⟩
      · rename_i h1 h2
        refine List.pairwise_cons.2 ⟨fun z hz => ?_, ih h.2⟩
        rcases mem_insertEntry x z l hz with rfl | hz
        · omega
        · exact h.1 z hz

theorem mem_updateEntry {n : Nat} {f : α → α} {l : List α} {y : α} (h : y ∈ updateEntry key n f l) :
    (y ∈ l ∧ key y ≠ n) ∨ ∃ x ∈ l, key x = n ∧ y = f x := by
  unfold updateEntry at h
  obtain ⟨x, hx, rfl⟩ := List.mem_map.1 h
  by_cases hk : key x = n
  · exact .inr ⟨x, hx, hk, by simp [hk]⟩
  · exact .inl ⟨by simpa [hk] using hx, by simp [hk]⟩

end Sys2Proof.Machine
end

