-- ==== Sys2Proof/Laws/Steady.lean ====
section
/-! SUPPORT. Steady: what every shared operation of the kitchen leaves as it is. One lemma per operation says that it is steady; the
chain of them replaces unfolding. -/

namespace Sys2Proof.Machine

theorem Steady.refl (w : Work) : Steady w w :=
  ⟨rfl, rfl, rfl, rfl, rfl, rfl, rfl, rfl, rfl, rfl, rfl, ⟨[], by simp, by simp⟩, id⟩

theorem Steady.trans {a b c : Work} (h : Steady a b) (g : Steady b c) : Steady a c := by
  obtain ⟨rs, h1, h2⟩ := h.out
  obtain ⟨qs, g1, g2⟩ := g.out
  refine ⟨g.event.trans h.event, g.clock.trans h.clock, g.seconds.trans h.seconds, g.owed.trans h.owed,
    g.courses.trans h.courses, g.broadcast.trans h.broadcast, g.lastTurn.trans h.lastTurn, g.busLine.trans h.busLine,
    g.items.trans h.items, g.stations.trans h.stations, g.terminals.trans h.terminals, ⟨rs ++ qs, ?_, ?_⟩, g.stock ∘ h.stock⟩
  · rw [g1, h1, List.append_assoc]
  · intro r hr
    rcases List.mem_append.1 hr with hr | hr
    · exact h2 r hr
    · rw [g2 r hr, h.clock]

/-! ### Updates: each lemma carries the relation over one more operation -/

section

variable {a w : Work}

theorem Steady.free (h : Steady a w) (gs : List Group) (ts : List Ticket) (nt : Nat) (dor : List Nat) (u : Option Turn) :
    Steady a { w with groups := gs, tickets := ts, nextTicket := nt, drawOrder := dor, turn := u } :=
  h.trans ⟨rfl, rfl, rfl, rfl, rfl, rfl, rfl, rfl, rfl, rfl, rfl, ⟨[], by simp, by simp⟩, id⟩

theorem Steady.raise (h : Steady a w) (b : ReportBody) : Steady a (raise b w) :=
  h.trans ⟨rfl, rfl, rfl, rfl, rfl, rfl, rfl, rfl, rfl, rfl, rfl, ⟨[⟨w.clock, b⟩], rfl, by simp⟩, id⟩

theorem Steady.setGroup (h : Steady a w) (n : Nat) (f : Group → Group) : Steady a (setGroup n f w) :=
  h.free (updateEntry Group.number n f w.groups) w.tickets w.nextTicket w.drawOrder w.turn

theorem Steady.setTicket (h : Steady a w) (n : Nat) (f : Ticket → Ticket) : Steady a (setTicket n f w) :=
  h.free w.groups (updateEntry Ticket.number n f w.tickets) w.nextTicket w.drawOrder w.turn

theorem Steady.setStation (h : Steady a w) (n : Nat) (f : Station → Station) (hf : ∀ s, (f s).fixed = s.fixed) :
    Steady a (setStation n f w) :=
  h.trans ⟨rfl, rfl, rfl, rfl, rfl, rfl, rfl, rfl, rfl, updateEntry_map _ n f w.stations fun s _ _ => hf s, rfl,
    ⟨[], by simp, by simp⟩, id⟩

theorem Steady.setTerminal (h : Steady a w) (n : Nat) (f : Terminal → Terminal) (hf : ∀ t, (f t).health = t.health) :
    Steady a (setTerminal n f w) :=
  h.trans ⟨rfl, rfl, rfl, rfl, rfl, rfl, rfl, rfl, rfl, rfl, updateEntry_map _ n f w.terminals fun t _ _ => hf t,
    ⟨[], by simp, by simp⟩, id⟩

theorem Steady.setItem (h : Steady a w) (n : Nat) (f : Item → Item) (hf : ∀ i, (f i).definition = i.definition)
    (hs : ∀ i, i.sound → (f i).sound) : Steady a (setItem n f w) := by
  refine h.trans ⟨rfl, rfl, rfl, rfl, rfl, rfl, rfl, rfl, updateEntry_map _ n f w.items fun i _ _ => hf i, rfl, rfl,
    ⟨[], by simp, by simp⟩, ?_⟩
  intro hw i hi
  rcases mem_updateEntry hi with ⟨hm, -⟩ | ⟨x, hx, -, rfl⟩
  · exact hw i hm
  · exact hs x (hw x hx)

theorem Steady.mapTerminals (h : Steady a w) (f : Terminal → Terminal) (hf : ∀ t, (f t).health = t.health)
    (gs : List Group) (ts : List Ticket) (nt : Nat) (dor : List Nat) (u : Option Turn) :
    Steady a { w with
      terminals := w.terminals.map f, groups := gs, tickets := ts, nextTicket := nt, drawOrder := dor, turn := u } := by
  refine h.trans ⟨rfl, rfl, rfl, rfl, rfl, rfl, rfl, rfl, rfl, rfl, ?_, ⟨[], by simp, by simp⟩, id⟩
  simp [List.map_map, Function.comp_def, hf]

/-! ### Sequences -/

theorem Steady.foldl {α : Type} (h : Steady a w) (f : Work → α → Work) (hf : ∀ w x, Steady w (f w x)) (l : List α) :
    Steady a (l.foldl f w) := by
  induction l generalizing w with
  | nil => exact h
  | cons x l ih => exact ih (h.trans (hf w x))

theorem Steady.forEach (h : Steady a w) (f : Nat → Work → Work) (hf : ∀ n w, Steady w (f n w)) (ns : List Nat) :
    Steady a (forEach f ns w) := h.foldl (fun w n => f n w) (fun w n => hf n w) ns

/-! ### The operations of Ops -/

@[simp] theorem pendPost_health (st n : Nat) (t : Terminal) : (pendPost st n t).health = t.health := by
  unfold pendPost; split <;> rfl

@[simp] theorem pendVoid_health (st n : Nat) (t : Terminal) : (pendVoid st n t).health = t.health := by
  unfold pendVoid; split <;> rfl

@[simp] theorem unpendPost_health (n : Nat) (t : Terminal) : (unpendPost n t).health = t.health := rfl
@[simp] theorem unpendVoid_health (n : Nat) (t : Terminal) : (unpendVoid n t).health = t.health := rfl
@[simp] theorem markNext_health (n : Nat) (t : Terminal) : (markNext n t).health = t.health := rfl
@[simp] theorem markMode_health (n : Nat) (t : Terminal) : (markMode n t).health = t.health := rfl
@[simp] theorem loseStation_health (n : Nat) (t : Terminal) : (loseStation n t).health = t.health := rfl

@[simp] theorem enterNote_health (u : Option Turn) (n : Note) (t : Terminal) : (enterNote u n t).health = t.health := by
  unfold enterNote; split
  · split <;> rfl
  · rfl

theorem Steady.atCurrent (h : Steady a w) (st : Nat) (f : Terminal → Terminal) (hf : ∀ t, (f t).health = t.health) :
    Steady a (atCurrent st f w) := by
  unfold Machine.atCurrent
  split
  · split
    · exact h.setTerminal _ f hf
    · exact h
  · exact h

/-- Marking NEXT at a terminal for some stations changes nothing but its NEXT marks. -/
theorem renewNext_eq (ss : List Station) (n : Nat) (t : Terminal) :
    renewNext ss n t = { t with nextMarks := (renewNext ss n t).nextMarks } := by
  unfold renewNext
  generalize ss.filter _ = l
  induction l using List.reverseRecOn with
  | nil => rfl
  | append_singleton l s ih =>
    rw [List.foldl_append, List.foldl_cons, List.foldl_nil, ih]
    rfl

@[simp] theorem renewNext_health (ss : List Station) (n : Nat) (t : Terminal) : (renewNext ss n t).health = t.health := by
  rw [renewNext_eq]; rfl

@[simp] theorem unstage_fixed (n : Nat) (s : Station) : (unstage n s).fixed = s.fixed := by unfold unstage; split <;> rfl
@[simp] theorem unstage_post (n : Nat) (s : Station) : (unstage n s).post = s.post := by unfold unstage; split <;> rfl

theorem Steady.dropTicket (h : Steady a w) (n : Nat) : Steady a (dropTicket n w) := by
  refine h.trans ⟨rfl, rfl, rfl, rfl, rfl, rfl, rfl, rfl, rfl, ?_, ?_, ⟨[], by simp [Machine.dropTicket], by simp⟩, id⟩
  · simp [Machine.dropTicket, List.map_map, Function.comp_def]
  · simp [Machine.dropTicket, List.map_map, Function.comp_def]

theorem Steady.handNote (h : Steady a w) (n : Note) : Steady a (handNote n w) :=
  h.mapTerminals (enterNote w.turn n) (fun _ => by simp) w.groups w.tickets w.nextTicket w.drawOrder _

/-! ### Groups: projection and display -/

theorem Steady.recompute (h : Steady a w) (n : Nat) : Steady a (recompute n w) := by
  unfold Machine.recompute
  split
  · split
    · dsimp only
      split
      · exact h.setGroup _ _
      · exact (h.setGroup _ _).raise _
    · exact h
  · exact h

theorem Steady.groupSent (h : Steady a w) (n : Nat) : Steady a (groupSent n w) := (h.setGroup n _).recompute n

theorem Steady.refreshDisplay (h : Steady a w) (n : Nat) : Steady a (refreshDisplay n w) := by
  unfold Machine.refreshDisplay
  split
  · split
    · exact h
    · exact (h.setGroup n _).handNote _
  · exact h

/-! ### The Dispatch Unit -/

theorem Steady.createTicket (h : Steady a w) (d : TicketDesc) : Steady a (createTicket d w) :=
  h.free w.groups _ _ w.drawOrder w.turn

theorem Steady.createTickets (h : Steady a w) (ds : List TicketDesc) : Steady a (createTickets ds w) :=
  h.foldl _ (fun w d => (Steady.refl w).createTicket d) ds

theorem Steady.grant (h : Steady a w) (t : Ticket) : Steady a (grant t w) :=
  ((h.setTicket t.number _).atCurrent t.station _ fun x => pendPost_health _ _ x).groupSent t.group

theorem Steady.grantOne (h : Steady a w) (st : Nat) : Steady a (grantOne st w) := by
  unfold Machine.grantOne
  split
  · split
    · split
      · exact h.grant _
      · exact h
    · exact h
  · exact h

theorem Steady.grantSlots (h : Steady a w) (st n : Nat) : Steady a (grantSlots st n w) := by
  induction n generalizing w with
  | zero => exact h
  | succ n ih => exact ih (h.grantOne st)

theorem Steady.reviseStaged (h : Steady a w) (st : Nat) : Steady a (reviseStaged st w) := by
  unfold Machine.reviseStaged
  split
  · split
    · exact h
    · exact (h.setStation st _ (by intro s; rfl)).atCurrent st _ (by intro t; rfl)
  · exact h

theorem Steady.arbiter (h : Steady a w) (st : Nat) : Steady a (arbiter st w) := by
  unfold Machine.arbiter
  split
  · exact (h.grantSlots st _).reviseStaged st
  · exact h

theorem Steady.arbiters (h : Steady a w) (sts : List Nat) : Steady a (arbiters sts w) :=
  h.forEach _ (fun n w => (Steady.refl w).arbiter n) sts

theorem Steady.changeMode (h : Steady a w) (st : Nat) (m : Mode) (c : Nat) (cause : ModeCause) (t : Nat) :
    Steady a (changeMode st m c cause t w) := by
  unfold Machine.changeMode
  exact (((h.setStation st _ (by intro s; rfl)).raise _).atCurrent st _ (by intro t; rfl)).arbiter st

theorem Steady.drainEnd (h : Steady a w) (st : Nat) : Steady a (drainEnd st w) := by
  unfold Machine.drainEnd
  split
  · split
    · exact h.changeMode _ _ _ _ _
    · exact h
  · exact h

theorem Steady.slotFreed (h : Steady a w) (st : Nat) : Steady a (slotFreed st w) := (h.arbiter st).drainEnd st

theorem Steady.freeGroup (h : Steady a w) (n : Nat) (final : GroupState) : Steady a (freeGroup n final w) := by
  unfold Machine.freeGroup
  split
  · dsimp only
    exact (((h.raise _).handNote _).forEach _ (fun n w => (Steady.refl w).dropTicket n) _).free _ _ _ _ _
  · exact h

theorem Steady.groupTicketFreed (h : Steady a w) (n : Nat) : Steady a (groupTicketFreed n w) := by
  unfold Machine.groupTicketFreed
  split
  · split
    · split
      · exact h.freeGroup _ _
      · exact h
    · exact h.recompute n
  · exact h

/-! ### The Menu Store -/

theorem withStock_sound (st : Stock) (i : Item) (hp : i.pool ≤ Config.maxPool)
    (hs : ∀ n, st = .limited n → n ≤ Config.maxStock) : (withStock st i).sound :=
  ⟨by simp [withStock], hs, hp⟩

theorem stockAfter_range (st : Stock) (n m : Nat) (h : ∀ k, st = .limited k → k ≤ Config.maxStock)
    (e : stockAfter st n = .limited m) : m ≤ Config.maxStock := by
  cases st with
  | unlimited => cases e
  | limited k => cases e; exact le_trans (Nat.sub_le k n) (h k rfl)

theorem stockReturned_range (st : Stock) (n m : Nat) (e : stockReturned st n = .limited m) : m ≤ Config.maxStock := by
  cases st with
  | unlimited => cases e
  | limited k => cases e; exact Nat.min_le_right _ _

theorem stockField_range (n m : Nat) (hn : n < 65536) (e : stockField n = .limited m) : m ≤ Config.maxStock := by
  unfold stockField at e
  split at e
  · cases e
  · injection e with e; show m ≤ 65534; omega

theorem Steady.commit (h : Steady a w) (item n : Nat) : Steady a (commit item n w).1 := by
  unfold Machine.commit
  split
  · exact h.setItem _ _ (by intro i; rfl) fun i hi => withStock_sound _ _ hi.2.2 fun m => stockAfter_range _ _ _ hi.2.1
  · exact h

theorem Steady.giveBack (h : Steady a w) (item n : Nat) : Steady a (giveBack item n w) := by
  unfold Machine.giveBack
  split
  · exact h
  · exact h.setItem _ _ (by intro i; rfl) fun i hi => withStock_sound _ _ hi.2.2 fun m => stockReturned_range _ _ _

theorem Steady.settleStock (h : Steady a w) (before : List Item) : Steady a (settleStock before w) :=
  h.forEach _ (fun _ w => (Steady.refl w).raise _) _

theorem Steady.offer (h : Steady a w) (sub n : Nat) : Steady a (offer sub n w).1 := by
  unfold Machine.offer
  split
  · split
    · exact h
    · split
      · exact h.commit sub n
      · exact h
  · exact h

/-! ### The Pass Unit -/

theorem Steady.recomputeLife (h : Steady a w) (n : Nat) : Steady a (recomputeLife n w) := h.setGroup n _

theorem Steady.joinDraw (h : Steady a w) (n : Nat) : Steady a (joinDraw n w) :=
  h.free w.groups w.tickets w.nextTicket _ w.turn

theorem Steady.leaveDraw (h : Steady a w) (n : Nat) : Steady a (leaveDraw n w) :=
  h.free w.groups w.tickets w.nextTicket _ w.turn

theorem Steady.becomeReady (h : Steady a w) (n : Nat) : Steady a (becomeReady n w) := by
  unfold Machine.becomeReady
  split
  · dsimp only
    exact (((h.setGroup n _).raise _).refreshDisplay n).leaveDraw n
  · exact h

theorem Steady.testGroup (h : Steady a w) (n : Nat) : Steady a (testGroup n w) := by
  unfold Machine.testGroup
  split
  · split
    · split
      · exact h.joinDraw n
      · exact h.becomeReady n
    · exact h.leaveDraw n
  · exact h.leaveDraw n

theorem Steady.checkDraw (h : Steady a w) (n : Nat) : Steady a (checkDraw n w) := by
  unfold Machine.checkDraw
  split
  · split
    · exact h
    · exact h.leaveDraw n
  · exact h.leaveDraw n

theorem Steady.handOver (h : Steady a w) (n : Nat) : Steady a (handOver n w) := (h.recomputeLife n).testGroup n

theorem pool_sound (i : Item) (p : Nat) (hp : p ≤ Config.maxPool) (h : i.sound) : ({ i with pool := p } : Item).sound :=
  ⟨h.1, h.2.1, hp⟩

theorem Steady.drawLine (h : Steady a w) (n : Nat) (l : Line) : Steady a (drawLine n l w) := by
  unfold Machine.drawLine
  split
  · dsimp only
    split
    all_goals first
      | exact ((h.setItem _ _ (by intro i; rfl) fun i hi => pool_sound i _ (le_trans (Nat.sub_le _ _) hi.2.2) hi).setGroup
          n _).raise _
      | exact (h.setItem _ _ (by intro i; rfl) fun i hi => pool_sound i _ (le_trans (Nat.sub_le _ _) hi.2.2) hi).setGroup n _
  · exact h

theorem Steady.drawGroup (h : Steady a w) (n : Nat) (ls : List Line) : Steady a (drawGroup n ls w) :=
  (h.foldl _ (fun w l => (Steady.refl w).drawLine n l) ls).becomeReady n

theorem Steady.drawWalk (h : Steady a w) (ns ahead : List Nat) : Steady a (drawWalk ns ahead w) := by
  induction ns generalizing ahead w with
  | nil => exact h
  | cons n rest ih =>
    unfold Machine.drawWalk
    split
    · dsimp only
      split
      · exact ih h _
      · exact ih (h.drawGroup n _) _
    · exact ih h _

theorem Steady.drawPass (h : Steady a w) : Steady a (drawPass w) := h.drawWalk _ _

theorem Steady.createRun (h : Steady a w) (i : Item) : Steady a (createRun i w) := by
  unfold Machine.createRun
  split
  · exact h
  · split
    · dsimp only
      exact (((h.commit _ _).settleStock _).createTicket _).arbiter _
    · exact h

theorem Steady.runTest (h : Steady a w) (item : Nat) : Steady a (runTest item w) := by
  unfold Machine.runTest
  split
  · split
    · exact h.createRun _
    · exact h
  · exact h

theorem Steady.runTests (h : Steady a w) : Steady a (runTests w) :=
  h.forEach _ (fun n w => (Steady.refl w).runTest n) _

theorem Steady.passRounds (h : Steady a w) (n : Nat) : Steady a (passRounds n w) := by
  induction n generalizing w with
  | zero => exact h
  | succ n ih =>
    unfold Machine.passRounds
    dsimp only
    split
    · exact h.drawPass.runTests
    · exact ih h.drawPass.runTests

theorem Steady.passSettle (h : Steady a w) : Steady a (passSettle w) := by
  unfold Machine.passSettle
  split
  · exact h.passRounds _
  · exact h

end

end Sys2Proof.Machine
end

