-- ==== Sys2Proof/Laws/Frozen.lean ====
section
/-! SUPPORT. Frozen: what every step of the station bus leaves as it is: the definitions (R3), the event and its clock. -/

namespace Sys2Proof.Machine

section

variable {a w : Work}

/-! ### The steady part of the bus -/

theorem Steady.freeVoiding (h : Steady a w) (st : Nat) : Steady a (freeVoiding st w) :=
  h.foldl _ (fun w (t : Ticket) => ((Steady.refl w).dropTicket t.number).groupTicketFreed t.group) _

theorem Steady.repost (h : Steady a w) (st t n : Nat) : Steady a (repost st t n w) :=
  (h.setTicket n _).setTerminal t _ fun x => pendPost_health _ _ x

theorem Steady.rebuildRail (h : Steady a w) (st t : Nat) : Steady a (rebuildRail st t w) := by
  unfold Machine.rebuildRail
  exact (h.forEach _ (fun n w => (Steady.refl w).repost st t n) _).setTerminal t _ (by intro x; rfl)

theorem Steady.rechoose (h : Steady a w) (st : Nat) : Steady a (rechoose st w) := by
  unfold Machine.rechoose
  split
  · rename_i s hs
    dsimp only
    split
    · exact h
    · have h1 := h.setStation st (fun x => { x with current := chooseCurrent w.toKitchen s }) (by intro x; rfl)
      refine Steady.slotFreed ?_ st
      split
      · refine Steady.rebuildRail ?_ st _
        split
        · exact (h1.setTerminal _ _ (by intro x; rfl)).freeVoiding st
        · exact h1
      · split
        · exact (h1.setTerminal _ _ (by intro x; rfl)).freeVoiding st
        · exact h1
  · exact h

theorem Steady.rechooseBound (h : Steady a w) (t : Nat) : Steady a (rechooseBound t w) :=
  h.forEach _ (fun n w => (Steady.refl w).rechoose n) _

theorem Steady.postAcked (h : Steady a w) (st n : Nat) : Steady a (postAcked st n w) := by
  unfold Machine.postAcked
  split
  · split
    · split
      · exact (h.setTicket n _).recompute _
      · exact h.setTicket n _
      · exact h.setTicket n _
      all_goals exact h
    · exact h
  · exact h

theorem Steady.voidAcked (h : Steady a w) (st n : Nat) : Steady a (voidAcked st n w) := by
  unfold Machine.voidAcked
  split
  · split
    · exact ((h.dropTicket n).slotFreed st).groupTicketFreed _
    · exact h
  · exact h

theorem Steady.takeStart (h : Steady a w) (t st n : Nat) : Steady a (takeStart t st n w) := by
  unfold Machine.takeStart
  split
  · split
    · split
      · exact ((h.setTicket n _).setTerminal t _ (by intro x; rfl)).recompute _
      · exact (h.setTicket n _).recompute _
      all_goals exact h
    · exact h
  · exact h

theorem Steady.fillPool (h : Steady a w) (item p : Nat) : Steady a (fillPool item p w) :=
  h.setItem _ _ (by intro i; rfl) fun i hi => pool_sound i _ (Nat.min_le_right _ _) hi

theorem Steady.afterBump (h : Steady a w) (t : Ticket) : Steady a (afterBump t w) := by
  unfold Machine.afterBump
  split
  · exact ((h.fillPool _ _).dropTicket _).slotFreed _
  · exact ((h.slotFreed _).recompute _).handOver _

theorem Steady.takeBump (h : Steady a w) (t st n : Nat) : Steady a (takeBump t st n w) := by
  unfold Machine.takeBump
  split
  · split
    · dsimp only
      refine Steady.afterBump ?_ _
      split
      · exact (h.setTicket n _).setTerminal t _ (by intro x; rfl)
      · exact h.setTicket n _
    · exact h
  · exact h

theorem Steady.takeTaken (h : Steady a w) (t g : Nat) : Steady a (takeTaken t g w) := by
  unfold Machine.takeTaken
  split
  · split
    · exact h.freeGroup _ _
    · exact h
  · exact h

theorem Steady.takeFault (h : Steady a w) (t : Nat) : Steady a (takeFault t w) :=
  h.forEach _ (fun n w => (Steady.refl w).changeMode n _ _ _ _) _

theorem Steady.takeHello (h : Steady a w) (t : Nat) : Steady a (takeHello t w) := by
  unfold Machine.takeHello
  dsimp only
  refine (h.forEach _ (fun n w => (Steady.refl w).rebuildRail n t) _).setTerminal t _ ?_
  intro x
  split <;> rfl

@[simp] theorem showNote_health (n : Note) (t : Terminal) : (showNote n t).health = t.health := by
  unfold showNote; split <;> rfl

theorem Steady.acceptFrame (h : Steady a w) (u : Turn) : Steady a (acceptFrame u w) := by
  unfold Machine.acceptFrame
  split
  · exact h
  · exact h
  · exact h
  · split
    · exact (h.setTerminal _ _ (by intro x; rfl)).postAcked _ _
    · exact h
  · split
    · exact (h.setTerminal _ _ (by intro x; rfl)).voidAcked _ _
    · exact h
  · exact h.setTerminal _ _ (by intro x; rfl)
  · refine h.setTerminal _ _ ?_
    intro x
    dsimp only
    split <;> split <;> first | rfl | exact showNote_health _ _

theorem Steady.keepFrame (h : Steady a w) (u : Turn) : Steady a (keepFrame u w) := by
  unfold Machine.keepFrame
  split
  · split
    · exact h.setTerminal _ _ (by intro x; rfl)
    · exact h
  · split
    · exact h.setTerminal _ _ (by intro x; rfl)
    · exact h
  all_goals exact h

theorem Steady.handOn (h : Steady a w) (t : Nat) (r : BusReply) : Steady a (handOn t r w) := by
  unfold Machine.handOn
  split
  · exact h
  · exact h
  · exact h.takeStart _ _ _
  · exact h.takeBump _ _ _
  · exact h.takeTaken _ _
  · exact h.takeFault _
  · exact h.takeHello _

end

/-! ### The relation -/

/-- The event state stays or passes from SERVICE to CLOSED; the counts of seconds and every definition stay; reports are only
added, at the present clock; sound stocks and a sound terminal table stay sound. -/
structure Frozen (w w' : Work) : Prop where
  event : w'.event = w.event ∨ (w.event = .service ∧ w'.event = .closed)
  clock : w'.clock = w.clock
  seconds : w'.seconds = w.seconds
  definitions : w'.toKitchen.definitions = w.toKitchen.definitions
  out : ∃ rs : List Report, w'.out = w.out ++ rs ∧ ∀ r ∈ rs, r.clock = w.clock
  stock : w.stockSound → w'.stockSound
  bus : w.busSound → w'.busSound

theorem busSound_of_health {l l' : List Terminal} (h : l'.map Terminal.health = l.map Terminal.health)
    (hs : l.Pairwise (fun a b => a.address < b.address) ∧
      ∀ t ∈ l, t.misses ≤ Config.missLimit ∧ (t.state = .live → t.misses < Config.missLimit)) :
    l'.Pairwise (fun a b => a.address < b.address) ∧
      ∀ t ∈ l', t.misses ≤ Config.missLimit ∧ (t.state = .live → t.misses < Config.missLimit) := by
  constructor
  · have h1 : (l'.map Terminal.health).Pairwise fun a b => a.1 < b.1 := by
      rw [h]; exact List.pairwise_map.2 hs.1
    rw [List.pairwise_map] at h1
    exact h1
  · intro t ht
    have h1 : t.health ∈ l.map Terminal.health := h ▸ List.mem_map_of_mem ht
    obtain ⟨x, hx, he⟩ := List.mem_map.1 h1
    simp only [Terminal.health, Prod.mk.injEq] at he
    obtain ⟨-, -, h3, h4, -⟩ := he
    rw [← h3, ← h4]
    exact hs.2 x hx

theorem Steady.definitions {a w : Work} (h : Steady a w) : w.toKitchen.definitions = a.toKitchen.definitions := by
  have h1 : ∀ l : List Terminal, l.map Terminal.ident = (l.map Terminal.health).map fun x => (x.1, x.2.1) := by
    intro l; simp [List.map_map, Function.comp_def, Terminal.health, Terminal.ident]
  simp only [Kitchen.definitions, h.items, h.courses, h.stations, h1, h.terminals]

theorem Steady.frozen {a w : Work} (h : Steady a w) : Frozen a w :=
  ⟨.inl h.event, h.clock, h.seconds, h.definitions, h.out, h.stock, busSound_of_health h.terminals⟩

theorem Frozen.refl (w : Work) : Frozen w w := (Steady.refl w).frozen

theorem Frozen.trans {a b c : Work} (h : Frozen a b) (g : Frozen b c) : Frozen a c := by
  obtain ⟨rs, h1, h2⟩ := h.out
  obtain ⟨qs, g1, g2⟩ := g.out
  refine ⟨?_, g.clock.trans h.clock, g.seconds.trans h.seconds, g.definitions.trans h.definitions, ⟨rs ++ qs, ?_, ?_⟩, g.stock ∘ h.stock, g.bus ∘ h.bus⟩
  · rcases h.event with h3 | ⟨h3, h4⟩ <;> rcases g.event with g3 | ⟨g3, g4⟩
    · exact .inl (g3.trans h3)
    · exact .inr ⟨h3 ▸ g3, g4⟩
    · exact .inr ⟨h3, g3.trans h4⟩
    · exact .inr ⟨h3, g4⟩
  · rw [g1, h1, List.append_assoc]
  · intro r hr
    rcases List.mem_append.1 hr with hr | hr
    · exact h2 r hr
    · rw [g2 r hr, h.clock]

theorem Frozen.steady {a b c : Work} (h : Frozen a b) (g : Steady b c) : Frozen a c := h.trans g.frozen

/-- The turn, the broadcast mark, the round and the pair are not definitions. -/
theorem frozen_pair (w : Work) (u : Option Turn) (b : Bool) (l : Nat) (cs : List BusChar) :
    Frozen w { w with turn := u, broadcast := b, lastTurn := l, busLine := cs } :=
  ⟨.inl rfl, rfl, rfl, rfl, ⟨[], by simp, by simp⟩, id, id⟩

theorem mem_setTerminal {n : Nat} {f : Terminal → Terminal} {w : Work} {t : Terminal}
    (h : t ∈ (setTerminal n f w).terminals) : (t ∈ w.terminals ∧ t.address ≠ n) ∨ ∃ x ∈ w.terminals, x.address = n ∧ t = f x :=
  mem_updateEntry h

theorem setTerminal_ascending (n : Nat) (f : Terminal → Terminal) (w : Work) (hf : ∀ t, (f t).ident = t.ident)
    (h : w.terminals.Pairwise fun a b => a.address < b.address) :
    (setTerminal n f w).terminals.Pairwise fun a b => a.address < b.address := by
  have h1 : (setTerminal n f w).terminals.map Terminal.ident = w.terminals.map Terminal.ident :=
    updateEntry_map _ n f w.terminals fun t _ _ => hf t
  have h2 : ((setTerminal n f w).terminals.map Terminal.ident).Pairwise fun a b => a.1 < b.1 := by
    rw [h1]; exact List.pairwise_map.2 h
  rw [List.pairwise_map] at h2
  exact h2

/-- A change of a terminal's state, miss count and marks: sound if what it gives is. -/
theorem frozen_setTerminal (n : Nat) (f : Terminal → Terminal) (w : Work) (hf : ∀ t, (f t).ident = t.ident)
    (hs : ∀ t, (f t).misses ≤ Config.missLimit ∧ ((f t).state = .live → (f t).misses < Config.missLimit)) :
    Frozen w (setTerminal n f w) := by
  refine ⟨.inl rfl, rfl, rfl, ?_, ⟨[], by simp, by simp⟩, id, ?_⟩
  · have h1 : (setTerminal n f w).terminals.map Terminal.ident = w.terminals.map Terminal.ident :=
      updateEntry_map _ n f w.terminals fun t _ _ => hf t
    simp only [Kitchen.definitions, h1]
    rfl
  · rintro ⟨h1, h2⟩
    refine ⟨setTerminal_ascending n f w hf h1, ?_⟩
    intro t ht
    rcases mem_setTerminal ht with ⟨hm, -⟩ | ⟨x, -, -, rfl⟩
    · exact h2 t hm
    · exact hs x

theorem frozen_terminalHeard (a : Nat) (w : Work) : Frozen w (terminalHeard a w) := by
  unfold terminalHeard
  split
  · have h : Frozen w (setTerminal a (fun t => { t with misses := 0, receipt := true, state := .live }) w) :=
      frozen_setTerminal a _ w (fun _ => rfl) fun _ => ⟨Nat.zero_le _, fun _ => Nat.succ_pos _⟩
    dsimp only
    split
    · exact h
    · exact h.steady (((Steady.refl _).raise _).rechooseBound a)
  · exact Frozen.refl w

theorem frozen_handleReply (r : BusReply) (w : Work) : Frozen w (handleReply r w) := by
  unfold handleReply
  split
  · rename_i u hu
    dsimp only
    have h0 : Frozen w { w with turn := none } := frozen_pair w none w.broadcast w.lastTurn w.busLine
    split
    · exact h0
    · have h1 := h0.trans (frozen_terminalHeard u.address { w with turn := none })
      refine h1.steady ?_
      refine Steady.passSettle ?_
      refine Steady.handOn ?_ _ _
      split
      · exact (Steady.refl _).acceptFrame u
      · exact (Steady.refl _).keepFrame u
  · exact Frozen.refl w

/-! ### Misses and turns -/

theorem entryOf_of_mem {α : Type} {key : α → Nat} {l : List α} (h : l.Pairwise fun a b => key a < key b) {x : α}
    (hx : x ∈ l) : entryOf key (key x) l = some x := by
  unfold entryOf
  induction l with
  | nil => cases hx
  | cons y l ih =>
    rw [List.pairwise_cons] at h
    rcases List.mem_cons.1 hx with rfl | hm
    · simp
    · have h1 : (key y == key x) = false := by simpa using (h.1 x hm).ne
      simp [h1, ih h.2 hm]

theorem mem_of_entryOf {α : Type} {key : α → Nat} {l : List α} {n : Nat} {x : α} (h : entryOf key n l = some x) :
    x ∈ l ∧ key x = n := ⟨List.mem_of_find?_eq_some h, by simpa using List.find?_some h⟩

theorem setTerminal_health_congr (n : Nat) (f : Terminal → Terminal)
    (g : Nat × TermKind × TermState × Nat × Bool → Nat × TermKind × TermState × Nat × Bool)
    (hg : ∀ t : Terminal, (f t).health = g t.health) {a b : Work}
    (h : a.terminals.map Terminal.health = b.terminals.map Terminal.health) :
    (setTerminal n f a).terminals.map Terminal.health = (setTerminal n f b).terminals.map Terminal.health := by
  have h1 : ∀ w : Work, (setTerminal n f w).terminals.map Terminal.health =
      (w.terminals.map Terminal.health).map fun x => if x.1 = n then g x else x := by
    intro w
    simp only [setTerminal_terminals, updateEntry, List.map_map]
    apply List.map_congr_left
    intro t _
    simp only [Function.comp_apply]
    by_cases ht : t.address = n
    · rw [if_pos ht, if_pos (show t.health.1 = n from ht), hg]
    · simp [ht, Terminal.health]
  rw [h1, h1, h]

/-- A miss keeps the terminal table sound: at the eighth a LIVE terminal is LOST in the same step (R130). -/
theorem frozen_missTurn (w : Work) : Frozen w (missTurn w) := by
  unfold missTurn
  split
  · rename_i u hu
    dsimp only
    have h0 : Frozen w { w with turn := none } := frozen_pair w none w.broadcast w.lastTurn w.busLine
    split
    · exact h0
    · refine h0.trans ?_
      generalize hw0 : ({ w with turn := none } : Work) = w0
      have hk := (Steady.refl (setTerminal u.address missed w0)).keepFrame u
      have hdef : (setTerminal u.address missed w0).toKitchen.definitions = w0.toKitchen.definitions := by
        have h1 : (setTerminal u.address missed w0).terminals.map Terminal.ident = w0.terminals.map Terminal.ident :=
          updateEntry_map _ _ missed w0.terminals fun t _ _ => rfl
        simp only [Kitchen.definitions, h1]
        rfl
      unfold loseAtLimit
      split
      · rename_i t ht
        split
        · rename_i hlim
          unfold terminalDown
          rw [ht]
          dsimp only
          have hlost := frozen_setTerminal u.address (fun t => { missed t with state := .lost }) w0 (fun _ => rfl)
            fun t => ⟨Nat.min_le_right _ _, by simp⟩
          have hh : (setTerminal u.address (fun t => { t with state := .lost })
              (keepFrame u (setTerminal u.address missed w0))).terminals.map Terminal.health =
              (setTerminal u.address (fun t => { missed t with state := .lost }) w0).terminals.map Terminal.health := by
            rw [setTerminal_health_congr u.address _ (fun x => (x.1, x.2.1, .lost, x.2.2.2)) (fun _ => rfl) hk.terminals]
            simp only [setTerminal_terminals, updateEntry, List.map_map]
            apply List.map_congr_left
            intro t _
            by_cases hta : t.address = u.address <;> simp [hta, missed, Terminal.health]
          have hb : Frozen w0 (setTerminal u.address (fun t => { t with state := .lost })
              (keepFrame u (setTerminal u.address missed w0))) := by
            refine ⟨.inl hk.event, hk.clock, hk.seconds, ?_, hk.out, hk.stock, ?_⟩
            · have h1 : ∀ l : List Terminal, l.map Terminal.ident = (l.map Terminal.health).map fun x => (x.1, x.2.1) := by
                intro l; simp [List.map_map, Function.comp_def, Terminal.health, Terminal.ident]
              have h2 := hk.definitions.trans hdef
              have h3 := hlost.definitions
              simp only [Kitchen.definitions, Definitions.mk.injEq] at h2 h3 ⊢
              refine ⟨h2.1, h2.2.1, h2.2.2.1, ?_⟩
              rw [h1, hh, ← h1]
              exact h3.2.2.2
            · intro hs
              exact busSound_of_health hh (hlost.bus hs)
          exact hb.steady (((Steady.refl _).raise _).rechooseBound _).passSettle
        · rename_i hlim
          refine ⟨.inl hk.event, hk.clock, hk.seconds, hk.definitions.trans hdef, hk.out, hk.stock, ?_⟩
          rintro ⟨hs1, hs2⟩
          have hasc : (keepFrame u (setTerminal u.address missed w0)).terminals.Pairwise
              fun a b => a.address < b.address := by
            have h1 := setTerminal_ascending u.address missed w0 (fun _ => rfl) hs1
            have h2 : ((keepFrame u (setTerminal u.address missed w0)).terminals.map Terminal.health).Pairwise
                fun a b => a.1 < b.1 := by
              rw [hk.terminals]; exact List.pairwise_map.2 h1
            rw [List.pairwise_map] at h2
            exact h2
          refine ⟨hasc, ?_⟩
          intro x hx
          have hxh : x.health ∈ (setTerminal u.address missed w0).terminals.map Terminal.health :=
            hk.terminals ▸ List.mem_map_of_mem hx
          obtain ⟨y, hy, he⟩ := List.mem_map.1 hxh
          simp only [Terminal.health, Prod.mk.injEq] at he
          obtain ⟨e1, -, e3, e4, -⟩ := he
          by_cases hxa : x.address = u.address
          · have hf : findTerminal (keepFrame u (setTerminal u.address missed w0)).toKitchen x.address = some x :=
              entryOf_of_mem hasc hx
            rw [hxa, ht] at hf
            obtain rfl : t = x := by simpa using hf
            have hmiss : t.misses ≤ Config.missLimit := by
              rcases mem_setTerminal hy with ⟨-, hne⟩ | ⟨z, -, -, rfl⟩
              · exact absurd (e1.trans hxa) hne
              · rw [← e4]; exact Nat.min_le_right _ _
            refine ⟨hmiss, fun hl => ?_⟩
            simp only [atLimit, hl, Bool.and_eq_true, decide_eq_true_eq, not_and, not_le, beq_self_eq_true] at hlim
            exact hlim trivial
          · rcases mem_setTerminal hy with ⟨hm, -⟩ | ⟨z, -, hz, rfl⟩
            · rw [← e3, ← e4]; exact hs2 y hm
            · exact absurd (e1.symm.trans hz) hxa
      · rename_i hnone
        refine ⟨.inl hk.event, hk.clock, hk.seconds, hk.definitions.trans hdef, hk.out, hk.stock, ?_⟩
        rintro ⟨hs1, hs2⟩
        have hasc := setTerminal_ascending u.address missed w0 (fun _ => rfl) hs1
        refine busSound_of_health hk.terminals ⟨hasc, ?_⟩
        intro y hy
        rcases mem_setTerminal hy with ⟨hm, -⟩ | ⟨z, hz, hza, rfl⟩
        · exact hs2 y hm
        · exfalso
          have hyh : (missed z).health ∈ (keepFrame u (setTerminal u.address missed w0)).terminals.map Terminal.health :=
            hk.terminals.symm ▸ List.mem_map_of_mem hy
          obtain ⟨x, hx, he⟩ := List.mem_map.1 hyh
          simp only [Terminal.health, Prod.mk.injEq] at he
          have := List.find?_eq_none.1 hnone x hx
          simp only [beq_iff_eq] at this
          exact this (he.1.trans hza)
  · exact Frozen.refl w

theorem frozen_badReply (cs : List BusChar) (w : Work) : Frozen w (badReply cs w) := by
  unfold badReply
  split
  · split
    · exact Frozen.refl w
    · split
      · exact Frozen.refl w
      all_goals exact frozen_missTurn w
  · exact Frozen.refl w

theorem frozen_loseTerminal (a : Nat) (w : Work) : Frozen w (loseTerminal a w) := by
  unfold loseTerminal
  split
  · exact frozen_missTurn w
  · exact Frozen.refl w

theorem frozen_sendBroadcast (w : Work) : Frozen w (sendBroadcast w) := by
  unfold sendBroadcast
  split
  · exact frozen_pair w w.turn false w.lastTurn broadcastChars
  · exact Frozen.refl w

theorem clearMark_health (f : BusFrame) (t : Terminal) : (clearMark f t).health = t.health := by
  unfold clearMark; split <;> rfl

theorem frozen_beginTurn (a : Nat) (w : Work) : Frozen w (beginTurn a w) := by
  unfold beginTurn
  split
  · dsimp only
    exact (((Steady.refl w).setTerminal a _ (clearMark_health _)).frozen).trans (frozen_pair _ _ _ _ _)
  · exact Frozen.refl w

theorem frozen_takeTurn (w : Work) : Frozen w (takeTurn w) := by
  unfold takeTurn
  split
  · exact Frozen.refl w
  · dsimp only
    split
    · exact (frozen_sendBroadcast w).trans (frozen_beginTurn _ _)
    · exact frozen_sendBroadcast w

end Sys2Proof.Machine
end

