-- ==== Sys2Proof/Laws/Requests.lean ====
section
/-! SUPPORT. Every request passed in SERVICE but CLOSE is steady: it changes no definition, no clock and no terminal's health; and no
request is ever answered BUSY by its owner. -/

namespace Sys2Proof.Machine

section

variable {a w : Work}

/-! ### Group requests -/

theorem steady_judgeGroup (n : Nat) (h : Steady a w) (act : Group → Work × Answer) (ha : ∀ g, Steady a (act g).1) :
    Steady a (judgeGroup n w act).1 := by
  unfold judgeGroup
  split
  · exact h
  · split
    · exact h
    · exact ha _

theorem steady_judgeActive (n : Nat) (h : Steady a w) (act : Group → Work × Answer) (ha : ∀ g, Steady a (act g).1) :
    Steady a (judgeActive n w act).1 := by
  refine steady_judgeGroup n h _ fun g => ?_
  split
  · exact ha g
  · exact h

theorem Steady.rebuild (h : Steady a w) (fs : List Nat) (cs : List Computation) : Steady a (rebuild fs cs w) :=
  (h.forEach _ (fun n w => (Steady.refl w).dropTicket n) fs).createTickets _

theorem Steady.raiseShort (h : Steady a w) (g : Group) (b c : List Line) : Steady a (raiseShort g b c w) :=
  h.foldl _ (fun w (_ : Line) => (Steady.refl w).raise _) _

theorem Steady.raiseStretch (h : Steady a w) (g : Group) (cs : List Computation) : Steady a (raiseStretch g cs w) :=
  h.foldl _ (fun w (_ : Computation) => (Steady.refl w).raise _) _

theorem Steady.settleGroup (h : Steady a w) (is : List Item) (g : Group) (ls : List Line) (cs : List Computation) :
    Steady a (settleGroup is g ls cs w) := by
  unfold Machine.settleGroup
  exact ((((h.setGroup _ _).settleStock is).raiseShort g _ _).raiseStretch g cs).recompute _

theorem Steady.substitute (h : Steady a w) (sub : Option Nat) (n : Nat) (room : Bool) : Steady a (substitute sub n room w).1 := by
  unfold Machine.substitute
  split
  · split
    · exact h
    · exact h.offer _ _
  · exact h

theorem Steady.walkLine {s : Walk} (h : Steady a s.work) (n : Nat) (l : OrderLine) : Steady a (walkLine n s l).work := by
  unfold Machine.walkLine
  split
  · split
    · exact h
    · exact (h.commit _ _).substitute _ _ _
  · exact h

theorem Steady.walk (h : Steady a w) (r : SubmitReq) : Steady a (walk r w).work := by
  unfold Machine.walk
  generalize hs : (⟨w, [], [], []⟩ : Walk) = s
  have hw : Steady a s.work := hs ▸ h
  clear hs
  generalize r.lines.length = n
  induction r.lines generalizing s with
  | nil => exact hw
  | cons l ls ih => exact ih _ (hw.walkLine n l)

theorem Steady.submit (h : Steady a w) (r : SubmitReq) : Steady a (submit r w).1 := by
  unfold Machine.submit
  split
  · exact h
  · split
    · exact h
    · rename_i n _
      extract_lets s g cs src w1 w2 fp
      have hs : Steady a s.work := h.walk r
      clear_value s g cs
      split
      · have h1 : Steady a w1 := Steady.createTickets
          (hs.free (insertEntry Group.number g s.work.groups) s.work.tickets s.work.nextTicket s.work.drawOrder s.work.turn) _
        have h2 : Steady a w2 := h1.settleGroup _ _ _ _
        exact ((h2.arbiters _).handOver _).passSettle
      · exact h

theorem Steady.takeAmend {b : Work} (hb : Steady a b) (h : Steady a w) (g : Group) (ls cs : List Line) (info : List AmendLine) :
    Steady a (takeAmend b g ls cs info w).1 := by
  unfold Machine.takeAmend
  dsimp only
  split
  · exact ((((h.rebuild _ _).settleGroup _ _ _ _).arbiters _).handOver _).passSettle
  · exact hb

theorem Steady.amendStanding (h : Steady a w) (g : Group) (l : Line) (count : Nat) :
    Steady a (amendStanding g l count w).1 := by
  unfold Machine.amendStanding
  split
  · exact h
  · exact Steady.takeAmend h h _ _ _ _

theorem Steady.amendDown (h : Steady a w) (g : Group) (l : Line) (count : Nat) : Steady a (amendDown g l count w).1 := by
  unfold Machine.amendDown
  extract_lets
  split
  · exact h
  · exact Steady.takeAmend h (h.giveBack _ _) _ _ _ _

theorem Steady.amendUp (h : Steady a w) (g : Group) (x : Item) (l : Line) (adding : Bool) (count : Nat) :
    Steady a (amendUp g x l adding count w).1 := by
  unfold Machine.amendUp
  extract_lets added c short sub y u l' lines
  have hu : Steady a u.1 := (h.commit _ _).substitute _ _ _
  split
  · exact Steady.takeAmend h hu _ _ _ _
  · exact Steady.takeAmend h hu _ _ _ _

theorem Steady.amend (h : Steady a w) (n item sf count : Nat) : Steady a (amend n item sf count w).1 := by
  unfold Machine.amend
  refine steady_judgeActive n h _ fun g => ?_
  split
  · exact h
  · exact h
  · extract_lets
    split
    · exact h
    · split
      · exact h.amendStanding _ _ _
      · split
        · exact h.amendDown _ _ _
        · exact h.amendUp _ _ _ _ _

theorem Steady.retime (h : Steady a w) (n t : Nat) : Steady a (retime n t w).1 := by
  unfold Machine.retime
  refine steady_judgeActive n h _ fun g => ?_
  exact (((((h.rebuild _ _).setGroup _ _).settleGroup _ _ _ _).arbiters _).handOver _).passSettle

theorem Steady.hold (h : Steady a w) (n : Nat) : Steady a (hold n w).1 := by
  unfold Machine.hold
  refine steady_judgeActive n h _ fun g => ?_
  dsimp only
  split
  · exact h
  · exact (((h.setGroup _ _).checkDraw _).arbiters _).passSettle

theorem Steady.cancelTicket (h : Steady a w) (t : Ticket) : Steady a (cancelTicket t w) := by
  unfold Machine.cancelTicket
  split
  · split
    · exact (h.setTicket _ _).setTerminal _ _ (by intro x; simp)
    · exact h.dropTicket _
  · exact h.dropTicket _

theorem Steady.cancel (h : Steady a w) (n : Nat) : Steady a (cancel n w).1 := by
  unfold Machine.cancel
  refine steady_judgeGroup n h _ fun g => ?_
  split
  · dsimp only
    have h2 := ((h.setGroup n (fun x => { x with state := .cancelled, flags := { x.flags with held := false } })).leaveDraw n).foldl
      (fun w t => Machine.cancelTicket t w) (fun w t => (Steady.refl w).cancelTicket t)
      (w.tickets.filter fun t => t.group == n)
    have h3 := h2.foldl (fun w' (l : Line) => Machine.giveBack l.item (cancelReturn w.toKitchen n l) w')
      (fun w l => (Steady.refl w).giveBack _ _) g.lines
    have h4 := (h3.forEach _ (fun n w => (Steady.refl w).slotFreed n) (groupStations w.toKitchen n)).refreshDisplay n
    refine Steady.passSettle ?_
    split
    · exact h4.freeGroup _ _
    · exact h4
  · exact h

theorem Steady.pickup (h : Steady a w) (n : Nat) : Steady a (pickup n w).1 := by
  unfold Machine.pickup
  refine steady_judgeGroup n h _ fun g => ?_
  split
  · exact (h.freeGroup _ _).passSettle
  · exact h

theorem Steady.clearDying (h : Steady a w) (n : Nat) : Steady a (clearDying n w) := by
  unfold Machine.clearDying
  split
  · split
    · exact h.setGroup _ _
    · exact h
  · exact h.setGroup _ _

theorem Steady.refire (h : Steady a w) (n item : Nat) : Steady a (refire n item w).1 := by
  unfold Machine.refire
  refine steady_judgeGroup n h _ fun g => ?_
  split
  · exact h
  · split
    · exact h
    · split
      · exact h
      · split
        · exact h
        · dsimp only
          split
          · exact h
          · split
            · exact h
            · unfold takeRefire
              dsimp only
              split
              · have h1 := h.foldl (fun w r => (Machine.commit item r w).1) (fun w r => (Steady.refl w).commit item r)
                  ((refirePlans w.toKitchen g (refireLines g item) (by assumption : Item).stock).map RefirePlan.asked)
                exact (((((((h1.rebuild _ _).setGroup _ _).recomputeLife _).clearDying _).refreshDisplay _).settleGroup
                  _ _ _ _).checkDraw _ |>.arbiters _).passSettle
              · exact h

theorem steady_queryGroup (h : Steady a w) (n f : Nat) : Steady a (queryGroup n f w).1 :=
  steady_judgeGroup n h _ fun _ => h

/-! ### Stock and binding -/

theorem Steady.setStock (h : Steady a w) (item stock : Nat) (hs : stock < 65536) : Steady a (setStock item stock w).1 := by
  unfold Machine.setStock
  split
  · exact h
  · split
    · exact h
    · dsimp only
      refine Steady.passSettle ?_
      have h1 := h.setItem item (withStock (stockField stock)) (by intro i; rfl)
        fun i hi => withStock_sound _ _ hi.2.2 fun m => stockField_range _ _ hs
      split
      · exact h1.raise _
      · exact h1

theorem Steady.rebind (h : Steady a w) (st p f : Nat) : Steady a (rebind st p f w).1 := by
  unfold Machine.rebind
  split
  · exact h
  · split
    · exact h
    · split
      · exact h
      · dsimp only
        exact ((h.setStation st _ (by intro s; rfl)).rechoose st).passSettle

theorem steady_queryItem (h : Steady a w) (n : Nat) : Steady a (queryItem n w).1 := by
  unfold queryItem
  split
  · exact h
  · split <;> exact h

/-! ### Mode requests and queries -/

theorem steady_judgeStation (n : Nat) (h : Steady a w) (act : Station → Work × Answer) (ha : ∀ s, Steady a (act s).1) :
    Steady a (judgeStation n w act).1 := by
  unfold judgeStation
  split
  · exact h
  · split
    · exact h
    · exact ha _

theorem Steady.takeMode (h : Steady a w) (n : Nat) (m : Mode) (c : Nat) (cause : ModeCause) : Steady a (takeMode n m c cause w).1 :=
  (h.changeMode _ _ _ _ _).passSettle

theorem Steady.warmUp (h : Steady a w) (n : Nat) (s : Station) (cause : ModeCause) : Steady a (warmUp n s cause w).1 := by
  unfold Machine.warmUp
  split <;> exact h.takeMode _ _ _ _

theorem Steady.stationOn (h : Steady a w) (n : Nat) : Steady a (stationOn n w).1 := by
  refine steady_judgeStation n h _ fun s => ?_
  split
  · exact h.warmUp _ _ _
  · exact h

theorem Steady.stationOff (h : Steady a w) (n : Nat) : Steady a (stationOff n w).1 := by
  refine steady_judgeStation n h _ fun s => ?_
  split
  · exact h.takeMode _ _ _ _
  · exact h

theorem Steady.pauseStation (h : Steady a w) (n : Nat) : Steady a (pauseStation n w).1 := by
  refine steady_judgeStation n h _ fun s => ?_
  split
  · exact h.takeMode _ _ _ _
  · exact h

theorem Steady.resumeStation (h : Steady a w) (n : Nat) : Steady a (resumeStation n w).1 := by
  refine steady_judgeStation n h _ fun s => ?_
  split
  · exact h.takeMode _ _ _ _
  · exact h

theorem Steady.haltStation (h : Steady a w) (n : Nat) : Steady a (haltStation n w).1 := by
  refine steady_judgeStation n h _ fun s => ?_
  split
  · exact h
  · exact h.takeMode _ _ _ _

theorem Steady.clearStation (h : Steady a w) (n : Nat) : Steady a (clearStation n w).1 := by
  refine steady_judgeStation n h _ fun s => ?_
  split
  · exact h.warmUp _ _ _
  · exact h

theorem Steady.changeAll (h : Steady a w) (o m : Mode) (cause : ModeCause) : Steady a (changeAll o m cause w).1 :=
  (h.forEach _ (fun n w => (Steady.refl w).changeMode n _ _ _ _) _).passSettle

theorem steady_queryStation (h : Steady a w) (n : Nat) : Steady a (queryStation n w).1 := steady_judgeStation n h _ fun _ => h

theorem steady_queryTerminal (h : Steady a w) (n : Nat) : Steady a (queryTerminal n w).1 := by
  unfold queryTerminal
  split
  · exact h
  · split <;> exact h

end

end Sys2Proof.Machine
end

