-- ==== Sys2Proof/Laws/Events.lean ====
section
/-! SUPPORT. The events of time are frozen but for the advance itself; CLOSE is frozen but for the event state; and the definition
requests keep sound stocks and a sound terminal table. -/

namespace Sys2Proof.Machine

/-- What the owners still have to act on is no definition. -/
theorem frozen_owed (w : Work) (o : Owed) : Frozen w { w with owed := o } :=
  ⟨.inl rfl, rfl, rfl, rfl, ⟨[], by simp, by simp⟩, id, id⟩

theorem frozen_forEach (f : Nat → Work → Work) (hf : ∀ n w, Frozen w (f n w)) (ns : List Nat) (w : Work) :
    Frozen w (forEach f ns w) := by
  unfold forEach
  induction ns generalizing w with
  | nil => exact Frozen.refl w
  | cons n ns ih => exact (hf n w).trans (ih _)

theorem Steady.makeDue {a w : Work} (h : Steady a w) (p : Ticket → Bool) : Steady a (makeDue p w) := by
  unfold Machine.makeDue
  exact (h.free w.groups _ w.nextTicket w.drawOrder w.turn).forEach _ (fun n w => (Steady.refl w).recompute n) _

theorem frozen_endWarmup (st : Nat) (w : Work) : Frozen w (endWarmup st w) := by
  unfold endWarmup
  split
  · extract_lets w1
    have h1 : Frozen w w1 := frozen_owed w _
    split
    · split
      · exact h1.steady (((Steady.refl w1).changeMode _ _ _ _ _).passSettle)
      · exact h1
    · exact h1
  · exact Frozen.refl w

theorem frozen_releaseTickets (st : Nat) (w : Work) : Frozen w (releaseTickets st w) := by
  unfold releaseTickets
  split
  · extract_lets w1
    have h1 : Frozen w w1 := frozen_owed w _
    split
    · exact h1.steady ((((Steady.refl w1).makeDue _).arbiter _).passSettle)
    · exact h1
  · exact Frozen.refl w

theorem Steady.markOverdue {a w : Work} (h : Steady a w) (t : Ticket) : Steady a (markOverdue t w) :=
  (h.setTicket _ _).raise _

theorem frozen_overdueTickets (st : Nat) (w : Work) : Frozen w (overdueTickets st w) := by
  unfold overdueTickets
  split
  · extract_lets w1
    have h1 : Frozen w w1 := frozen_owed w _
    split
    · split
      · exact h1.steady ((Steady.refl w1).foldl _ (fun w t => (Steady.refl w).markOverdue t) _)
      · exact h1
    · exact h1
  · exact Frozen.refl w

theorem frozen_startPlating (n : Nat) (w : Work) : Frozen w (startPlating n w) := by
  unfold startPlating
  split
  · extract_lets w1 w2
    have h1 : Frozen w w1 := frozen_owed w _
    have h2 : Steady w1 w2 := (Steady.refl w1).testGroup n
    refine h1.steady (Steady.passSettle ?_)
    split
    · exact h2.forEach _ (fun n w => (Steady.refl w).joinDraw n) _
    · exact h2
  · exact Frozen.refl w

theorem frozen_reachLife (n : Nat) (w : Work) : Frozen w (reachLife n w) := by
  unfold reachLife
  split
  · extract_lets w1
    have h1 : Frozen w w1 := frozen_owed w _
    split
    · split
      · extract_lets
        exact h1.steady ((((Steady.refl w1).setGroup n _).raise _).refreshDisplay n)
      · exact h1
    · exact h1
  · exact Frozen.refl w

/-! ### CLOSE -/

theorem frozen_setBroadcast (w : Work) : Frozen w (setBroadcast w) := by
  have h := (Steady.refl w).mapTerminals (fun t => { t with shown := [] }) (fun _ => rfl) w.groups w.tickets w.nextTicket
    w.drawOrder w.turn
  exact h.frozen.trans (frozen_pair _ _ true w.lastTurn w.busLine)

theorem Steady.closeStation {a w : Work} (h : Steady a w) (st : Nat) : Steady a (closeStation st w) := by
  unfold Machine.closeStation
  exact ((h.setStation st _ (by intro s; rfl)).raise _).atCurrent st _ (by intro t; rfl)

theorem frozen_stopEvent (w : Work) (hs : w.event = .service) : Frozen w (stopEvent w) :=
  ⟨.inr ⟨hs, rfl⟩, rfl, rfl, rfl, ⟨[], by simp [stopEvent], by simp⟩, id, id⟩

theorem Steady.goneReports {a w : Work} (h : Steady a w) : Steady a (goneReports w) :=
  h.foldl _ (fun w (_ : Group) => (Steady.refl w).raise _) _

theorem steady_sweepRecords (w : Work) : Steady w (sweepRecords w) := by
  refine ⟨rfl, rfl, rfl, rfl, rfl, rfl, rfl, rfl, rfl, ?_, rfl, ⟨[], by simp [sweepRecords], by simp⟩, id⟩
  simp [sweepRecords, List.map_map, Function.comp_def, Station.fixed]

theorem Steady.closeStations {a w : Work} (h : Steady a w) : Steady a (closeStations w) :=
  h.forEach _ (fun n w => (Steady.refl w).closeStation n) _

theorem Steady.sweepFrames {a w : Work} (h : Steady a w) : Steady a (sweepFrames w) :=
  h.mapTerminals sweptTerminal (fun _ => rfl) w.groups w.tickets w.nextTicket w.drawOrder _

theorem frozen_closeEvent (cause : EventCause) (w : Work) (hs : w.event = .service) : Frozen w (closeEvent cause w) := by
  have h1 := (frozen_stopEvent w hs).steady (Steady.refl _).goneReports
  have h2 := (h1.steady (steady_sweepRecords _)).steady (Steady.refl _).closeStations.sweepFrames
  exact (h2.trans (frozen_setBroadcast _)).steady ((Steady.refl _).raise _)

theorem frozen_reachLimit (w : Work) : Frozen w (reachLimit w) := by
  unfold reachLimit
  split
  · rename_i h
    simp only [Bool.and_eq_true, beq_iff_eq] at h
    exact frozen_closeEvent .limit w h.2
  · exact frozen_owed w _

theorem frozen_settleOwed (w : Work) : Frozen w (settleOwed w) := by
  unfold settleOwed
  refine Frozen.trans ?_ (frozen_reachLimit _)
  refine Frozen.trans ?_ (frozen_forEach _ (fun n w => frozen_startPlating n w) _ _)
  refine Frozen.trans ?_ (frozen_forEach _ (fun n w => frozen_reachLife n w) _ _)
  refine Frozen.trans ?_ (frozen_forEach _ (fun n w => frozen_overdueTickets n w) _ _)
  refine Frozen.trans ?_ (frozen_forEach _ (fun n w => frozen_releaseTickets n w) _ _)
  exact frozen_forEach _ (fun n w => frozen_endWarmup n w) _ _

theorem frozen_broadcastTurn (w : Work) : Frozen w (broadcastTurn w) := by
  unfold broadcastTurn
  split
  · exact Frozen.refl w
  · exact frozen_sendBroadcast w

/-! ### The advance -/

/-- What an advance keeps: the definitions, sound stocks and a sound terminal table. -/
structure Kept (w w' : Work) : Prop where
  definitions : w'.toKitchen.definitions = w.toKitchen.definitions
  stock : w.stockSound → w'.stockSound
  bus : w.busSound → w'.busSound

theorem Frozen.kept {w w' : Work} (h : Frozen w w') : Kept w w' := ⟨h.definitions, h.stock, h.bus⟩

theorem Kept.trans {a b c : Work} (h : Kept a b) (g : Kept b c) : Kept a c :=
  ⟨g.definitions.trans h.definitions, g.stock ∘ h.stock, g.bus ∘ h.bus⟩

theorem countDown_fixed (s : Station) : (countDown s).fixed = s.fixed := by
  unfold countDown; split <;> rfl

theorem kept_tickDevice (w : Work) : Kept w (tickDevice w) := by
  refine ⟨?_, id, id⟩
  have h : (w.stations.map countDown).map Station.fixed = w.stations.map Station.fixed := by
    simp [List.map_map, Function.comp_def, countDown_fixed]
  simp only [Kitchen.definitions, tickDevice, h]

theorem kept_tickClock (w : Work) : Kept w (tickClock w) := ⟨rfl, id, id⟩

theorem kept_advance (w : Work) : Kept w (advance w) := by
  unfold advance
  split
  · refine ((kept_tickDevice w).trans (kept_tickClock _)).trans ?_
    have h1 := (Steady.refl (tickClock (tickDevice w))).forEach recompute (fun n w => (Steady.refl w).recompute n)
      (activeGroups (tickClock (tickDevice w)).toKitchen)
    exact (h1.frozen.kept).trans ((frozen_owed _ _).steady (Steady.refl _).passSettle).kept
  · exact (kept_tickDevice w).trans (frozen_owed _ _).kept

theorem kept_deviceSecond (w : Work) : Kept w (deviceSecond w) := (frozen_settleOwed w).kept.trans (kept_advance _)

/-! ### START -/

theorem startEvent_sound (w : Work) (hs : w.stockSound) (hb : w.busSound) :
    (startEvent w).1.stockSound ∧ (startEvent w).1.busSound := by
  unfold startEvent
  split
  · exact ⟨hs, hb⟩
  · split
    · exact ⟨hs, hb⟩
    · generalize hw : ({ w with event := .service, items := w.items.map fun i => { i with pool := 0 } } : Work) = w1
      have h1 : w1.stockSound := by
        subst hw
        intro i hi
        obtain ⟨x, hx, rfl⟩ := List.mem_map.1 hi
        exact pool_sound x 0 (Nat.zero_le _) (hs x hx)
      have h2 : w1.busSound := by subst hw; exact hb
      have h3 := (((((Steady.refl w1).makeDue (fun t => t.release == 0)).arbiters (w.stations.map Station.number)).raise
        (.evstate .service .start)).forEach testGroup (fun n w => (Steady.refl w).testGroup n)
          (activeGroups (raise (.evstate .service .start)
            (arbiters (w.stations.map Station.number) (makeDue (fun t => t.release == 0) w1))).toKitchen)).passSettle
      exact ⟨h3.frozen.stock h1, h3.frozen.bus h2⟩

/-! ### Definition requests -/

theorem define_cases (cs : List FieldCheck) (take : Work → Work × Answer) (w : Work) :
    (define cs take w).1 = w ∨ (w.groups = [] ∧ firstBad cs = none ∧ define cs take w = take w) := by
  unfold define
  split
  · exact .inl rfl
  · rename_i h
    split
    · exact .inl rfl
    · rename_i h'
      exact .inr ⟨by simpa using h, h', rfl⟩

theorem stockSound_insert (l : List Item) (x : Item) (hx : x.sound) (h : ∀ i ∈ l, i.sound) :
    ∀ i ∈ insertEntry Item.number x l, i.sound := by
  intro i hi
  rcases mem_insertEntry x i l hi with rfl | hi
  · exact hx
  · exact h i hi

theorem defItem_sound (r : ItemReq) (w : Work) (hr : r.stock < 65536) (hs : w.stockSound) (hb : w.busSound) :
    (defItem r w).1.stockSound ∧ (defItem r w).1.busSound := by
  unfold defItem
  rcases define_cases (itemChecks w.toKitchen r) (takeItem r) w with h | ⟨-, -, h⟩
  · rw [h]; exact ⟨hs, hb⟩
  · rw [h]
    have hi : (itemOf r).sound := withStock_sound _ _ (Nat.zero_le _) fun m => stockField_range _ _ hr
    have h1 := stockSound_insert w.items (itemOf r) hi hs
    unfold takeItem
    dsimp only
    split
    · exact ⟨h1, hb⟩
    · exact ⟨h1, hb⟩

theorem defCourse_sound (n b p t : Nat) (w : Work) (hs : w.stockSound) (hb : w.busSound) :
    (defCourse n b p t w).1.stockSound ∧ (defCourse n b p t w).1.busSound := by
  unfold defCourse
  rcases define_cases (courseChecks n b t) (takeCourse ⟨n, b, p, t⟩) w with h | ⟨-, -, h⟩
  · rw [h]; exact ⟨hs, hb⟩
  · rw [h]; exact ⟨hs, hb⟩

theorem defStation_sound (r : StationReq) (w : Work) (hs : w.stockSound) (hb : w.busSound) :
    (defStation r w).1.stockSound ∧ (defStation r w).1.busSound := by
  unfold defStation
  rcases define_cases (stationChecks w.toKitchen r) (takeStation r) w with h | ⟨-, -, h⟩
  · rw [h]; exact ⟨hs, hb⟩
  · rw [h]
    unfold takeStation
    split
    · generalize hw : ({ w with stations := insertEntry Station.number _ w.stations } : Work) = w1
      have h1 : w1.stockSound ∧ w1.busSound := by subst hw; exact ⟨hs, hb⟩
      have h2 := ((Steady.refl w1).rechoose r.number).frozen
      subst hw
      exact ⟨h2.stock h1.1, h2.bus h1.2⟩
    · dsimp only
      generalize hw : setStation r.number (fun s => { s with defn := stationDefOf r }) w = w1
      have h1 : w1.stockSound ∧ w1.busSound := by subst hw; exact ⟨hs, hb⟩
      split
      · exact h1
      · have h2 := ((Steady.refl w1).rechoose r.number).frozen
        exact ⟨h2.stock h1.1, h2.bus h1.2⟩

theorem redefined_misses (k : Nat) (t : Terminal) :
    (redefined k t).address = t.address ∧ (redefined k t).misses = t.misses ∧ (redefined k t).state = t.state := by
  unfold redefined; split <;> exact ⟨rfl, rfl, rfl⟩

theorem defTerminal_sound (a k : Nat) (w : Work) (hs : w.stockSound) (hb : w.busSound) :
    (defTerminal a k w).1.stockSound ∧ (defTerminal a k w).1.busSound := by
  unfold defTerminal
  rcases define_cases (terminalChecks w.toKitchen a k) (takeTerminal a k) w with h | ⟨-, -, h⟩
  · rw [h]; exact ⟨hs, hb⟩
  · rw [h]
    unfold takeTerminal
    split
    · exact ⟨hs, hb⟩
    · split
      · refine ⟨hs, insertEntry_ascending _ _ hb.1, ?_⟩
        intro t ht
        rcases mem_insertEntry _ _ _ ht with rfl | ht
        · exact ⟨Nat.zero_le _, fun h => by cases h⟩
        · exact hb.2 t ht
      · refine ⟨hs, ?_, ?_⟩
        · have h1 : (updateEntry Terminal.address a (redefined k) w.terminals).map Terminal.address =
              w.terminals.map Terminal.address :=
            updateEntry_map _ _ _ _ fun t _ _ => (redefined_misses k t).1
          have h2 : ((updateEntry Terminal.address a (redefined k) w.terminals).map Terminal.address).Pairwise (· < ·) := by
            rw [h1]; exact List.pairwise_map.2 hb.1
          exact List.pairwise_map.1 h2
        · intro t ht
          rcases mem_updateEntry ht with ⟨hm, -⟩ | ⟨x, hx, -, rfl⟩
          · exact hb.2 t hm
          · obtain ⟨-, h3, h4⟩ := redefined_misses k x
            rw [h3, h4]
            exact hb.2 x hx

theorem clearConfig_sound (w : Work) (hs : w.stockSound) (hb : w.busSound) :
    (clearConfig w).1.stockSound ∧ (clearConfig w).1.busSound := by
  unfold clearConfig
  split
  · exact ⟨hs, hb⟩
  · exact ⟨fun i hi => by simp [setBroadcast] at hi, by simp [setBroadcast, Kitchen.busSound]⟩

theorem clearedKitchen_sound (k : Kitchen) (hs : k.stockSound) (hb : k.busSound) :
    (clearedKitchen k).stockSound ∧ (clearedKitchen k).busSound := by
  refine ⟨?_, List.pairwise_map.2 hb.1, ?_⟩
  · intro i hi
    obtain ⟨x, hx, rfl⟩ := List.mem_map.1 hi
    exact pool_sound x 0 (Nat.zero_le _) (hs x hx)
  · intro t ht
    obtain ⟨x, hx, rfl⟩ := List.mem_map.1 ht
    exact ⟨Nat.zero_le _, fun h => by cases h⟩

end Sys2Proof.Machine
end

