-- ==== Sys2Proof/Laws/Settles.lean ====
section
/-! SUPPORT. Settles: what the slot arbiters and the Pass Unit can do after an event, said once. They change no plan of a group, no
mode, binding or countdown of a station, nothing of a terminal but its POSTs, NEXT marks and NOTEs, and no ticket but by granting
it; the tickets they add are standing runs. -/

namespace Sys2Proof.Machine

theorem Settles.refl (w : Work) : Settles w w := ⟨Steady.refl w, rfl, rfl, rfl, rfl, ⟨[], by simp, by simp⟩⟩

theorem Settles.trans {a b c : Work} (h : Settles a b) (g : Settles b c) : Settles a c := by
  obtain ⟨rs, h1, h2⟩ := h.tickets
  obtain ⟨qs, g1, g2⟩ := g.tickets
  refine ⟨h.steady.trans g.steady, g.groups.trans h.groups, g.stations.trans h.stations, g.terminals.trans h.terminals,
    g.turn.trans h.turn, ⟨rs ++ qs, by rw [g1, h1, List.append_assoc], ?_⟩⟩
  intro t ht
  rcases List.mem_append.1 ht with ht | ht
  · exact h2 t ht
  · exact g2 t ht

section

variable {a w : Work}

theorem Settles.drawOrder (h : Settles a w) (dor : List Nat) : Settles a { w with drawOrder := dor } :=
  h.trans ⟨(Steady.refl w).free w.groups w.tickets w.nextTicket dor w.turn, rfl, rfl, rfl, rfl, ⟨[], by simp, by simp⟩⟩

theorem Settles.raise (h : Settles a w) (b : ReportBody) : Settles a (raise b w) :=
  h.trans ⟨(Steady.refl w).raise b, rfl, rfl, rfl, rfl, ⟨[], by simp, by simp⟩⟩

theorem Settles.setGroup (h : Settles a w) (n : Nat) (f : Group → Group) (hf : ∀ g, (f g).plan = g.plan) :
    Settles a (setGroup n f w) :=
  h.trans ⟨(Steady.refl w).setGroup n f, updateEntry_map _ n f w.groups fun g _ _ => hf g, rfl, rfl, rfl,
    ⟨[], by simp, by simp⟩⟩

theorem Settles.setStation (h : Settles a w) (n : Nat) (f : Station → Station) (hf : ∀ s, (f s).fixed = s.fixed)
    (hp : ∀ s, (f s).post = s.post) : Settles a (setStation n f w) :=
  h.trans ⟨(Steady.refl w).setStation n f hf, rfl, updateEntry_map _ n f w.stations fun s _ _ => hp s, rfl, rfl,
    ⟨[], by simp, by simp⟩⟩

theorem Settles.setTerminal (h : Settles a w) (n : Nat) (f : Terminal → Terminal) (hf : ∀ t, (f t).health = t.health)
    (hl : ∀ t, (f t).link = t.link) : Settles a (setTerminal n f w) :=
  h.trans ⟨(Steady.refl w).setTerminal n f hf, rfl, rfl, updateEntry_map _ n f w.terminals fun t _ _ => hl t, rfl,
    ⟨[], by simp, by simp⟩⟩

theorem Settles.setTicket (h : Settles a w) (n : Nat) (f : Ticket → Ticket) (hf : ∀ t, (f t).order = t.order) :
    Settles a (setTicket n f w) :=
  h.trans ⟨(Steady.refl w).setTicket n f, rfl, rfl, rfl, rfl,
    ⟨[], by simp [updateEntry_map _ n f w.tickets fun t _ _ => hf t], by simp⟩⟩

theorem Settles.setItem (h : Settles a w) (n : Nat) (f : Item → Item) (hf : ∀ i, (f i).definition = i.definition)
    (hs : ∀ i, i.sound → (f i).sound) : Settles a (setItem n f w) :=
  h.trans ⟨(Steady.refl w).setItem n f hf hs, rfl, rfl, rfl, rfl, ⟨[], by simp, by simp⟩⟩

theorem Settles.foldl {α : Type} (h : Settles a w) (f : Work → α → Work) (hf : ∀ w x, Settles w (f w x)) (l : List α) :
    Settles a (l.foldl f w) := by
  induction l generalizing w with
  | nil => exact h
  | cons x l ih => exact ih (h.trans (hf w x))

theorem Settles.forEach (h : Settles a w) (f : Nat → Work → Work) (hf : ∀ n w, Settles w (f n w)) (ns : List Nat) :
    Settles a (forEach f ns w) := h.foldl (fun w n => f n w) (fun w n => hf n w) ns

theorem Settles.atCurrent (h : Settles a w) (st : Nat) (f : Terminal → Terminal) (hf : ∀ t, (f t).health = t.health)
    (hl : ∀ t, (f t).link = t.link) : Settles a (atCurrent st f w) := by
  unfold Machine.atCurrent
  split
  · split
    · exact h.setTerminal _ f hf hl
    · exact h
  · exact h

theorem enterNote_link (u : Option Turn) (n : Note) (t : Terminal) : (enterNote u n t).link = t.link := by
  unfold enterNote; split
  · split <;> rfl
  · rfl

theorem Settles.handNote (h : Settles a w) (n : Note) : Settles a (handNote n w) := by
  refine h.trans ⟨(Steady.refl w).handNote n, rfl, rfl, ?_, ?_, ⟨[], by simp [Machine.handNote], by simp⟩⟩
  · simp [Machine.handNote, List.map_map, Function.comp_def, enterNote_link]
  · simp only [Machine.handNote, Option.map_map]
    congr 1
    funext u
    simp only [Function.comp_apply]
    split
    · split <;> rfl
    · rfl

theorem Settles.recompute (h : Settles a w) (n : Nat) : Settles a (recompute n w) := by
  unfold Machine.recompute
  split
  · split
    · dsimp only
      split
      · exact h.setGroup _ _ (by intro g; rfl)
      · exact (h.setGroup _ _ (by intro g; rfl)).raise _
    · exact h
  · exact h

theorem Settles.groupSent (h : Settles a w) (n : Nat) : Settles a (groupSent n w) := by
  unfold Machine.groupSent
  refine (h.setGroup n _ ?_).recompute n
  intro g
  split <;> rfl

theorem Settles.refreshDisplay (h : Settles a w) (n : Nat) : Settles a (refreshDisplay n w) := by
  unfold Machine.refreshDisplay
  split
  · split
    · exact h
    · exact (h.setGroup n _ (by intro g; rfl)).handNote _
  · exact h

theorem becomeSent_order (t : Ticket) : (becomeSent t).order = t.order := by
  unfold becomeSent
  split
  · rename_i h; simp [Ticket.order, h]
  · rfl

theorem pendPost_link (st n : Nat) (t : Terminal) : (pendPost st n t).link = t.link := by
  unfold pendPost; split <;> rfl

theorem Settles.grant (h : Settles a w) (t : Ticket) : Settles a (grant t w) :=
  ((h.setTicket t.number _ becomeSent_order).atCurrent t.station _ (fun x => pendPost_health _ _ x)
    fun x => pendPost_link _ _ x).groupSent t.group

theorem Settles.grantOne (h : Settles a w) (st : Nat) : Settles a (grantOne st w) := by
  unfold Machine.grantOne
  split
  · split
    · split
      · exact h.grant _
      · exact h
    · exact h
  · exact h

theorem Settles.grantSlots (h : Settles a w) (st n : Nat) : Settles a (grantSlots st n w) := by
  induction n generalizing w with
  | zero => exact h
  | succ n ih => exact ih (h.grantOne st)

theorem Settles.reviseStaged (h : Settles a w) (st : Nat) : Settles a (reviseStaged st w) := by
  unfold Machine.reviseStaged
  split
  · split
    · exact h
    · exact (h.setStation st _ (by intro s; rfl) (by intro s; rfl)).atCurrent st _ (by intro t; rfl) (by intro t; rfl)
  · exact h

/-- One action of a slot arbiter (R88, R90). -/
theorem Settles.arbiter (h : Settles a w) (st : Nat) : Settles a (arbiter st w) := by
  unfold Machine.arbiter
  split
  · exact (h.grantSlots st _).reviseStaged st
  · exact h

theorem Settles.arbiters (h : Settles a w) (sts : List Nat) : Settles a (arbiters sts w) :=
  h.forEach _ (fun n w => (Settles.refl w).arbiter n) sts

theorem Settles.joinDraw (h : Settles a w) (n : Nat) : Settles a (joinDraw n w) := h.drawOrder _

theorem Settles.leaveDraw (h : Settles a w) (n : Nat) : Settles a (leaveDraw n w) := h.drawOrder _

theorem Settles.becomeReady (h : Settles a w) (n : Nat) : Settles a (becomeReady n w) := by
  unfold Machine.becomeReady
  split
  · dsimp only
    exact (((h.setGroup n _ (by intro g; rfl)).raise _).refreshDisplay n).drawOrder _
  · exact h

/-- A test for readiness (R143, R153). -/
theorem Settles.testGroup (h : Settles a w) (n : Nat) : Settles a (testGroup n w) := by
  unfold Machine.testGroup
  split
  · split
    · split
      · exact h.joinDraw n
      · exact h.becomeReady n
    · exact h.leaveDraw n
  · exact h.leaveDraw n

theorem Settles.checkDraw (h : Settles a w) (n : Nat) : Settles a (checkDraw n w) := by
  unfold Machine.checkDraw
  split
  · split
    · exact h
    · exact h.leaveDraw n
  · exact h.leaveDraw n

theorem Settles.handOver (h : Settles a w) (n : Nat) : Settles a (handOver n w) :=
  (h.setGroup n _ (by intro g; rfl)).testGroup n

theorem Settles.drawLine (h : Settles a w) (n : Nat) (l : Line) : Settles a (drawLine n l w) := by
  unfold Machine.drawLine
  split
  · dsimp only
    split
    all_goals first
      | exact ((h.setItem _ _ (by intro i; rfl) fun i hi => pool_sound i _ (le_trans (Nat.sub_le _ _) hi.2.2) hi).setGroup
          n _ (by intro g; rfl)).raise _
      | exact (h.setItem _ _ (by intro i; rfl) fun i hi => pool_sound i _ (le_trans (Nat.sub_le _ _) hi.2.2) hi).setGroup
          n _ (by intro g; rfl)
  · exact h

theorem Settles.drawGroup (h : Settles a w) (n : Nat) (ls : List Line) : Settles a (drawGroup n ls w) :=
  (h.foldl _ (fun w l => (Settles.refl w).drawLine n l) ls).becomeReady n

theorem Settles.drawWalk (h : Settles a w) (ns ahead : List Nat) : Settles a (drawWalk ns ahead w) := by
  induction ns generalizing ahead w with
  | nil => exact h
  | cons n rest ih =>
    unfold Machine.drawWalk
    split
    · dsimp only
      split
      · exact ih h _
      · exact ih (h.drawGroup n _) _
    · exact ih h _

theorem Settles.commit (h : Settles a w) (item n : Nat) : Settles a (commit item n w).1 := by
  unfold Machine.commit
  split
  · exact h.setItem _ _ (by intro i; rfl) fun i hi => withStock_sound _ _ hi.2.2 fun m => stockAfter_range _ _ _ hi.2.1
  · exact h

theorem Settles.settleStock (h : Settles a w) (before : List Item) : Settles a (settleStock before w) :=
  h.forEach _ (fun _ w => (Settles.refl w).raise _) _

theorem Settles.createRunTicket (h : Settles a w) (clock : Nat) (i : Item) (c : Component) (s : StationDef) (p : Nat) :
    Settles a (createTicket (runComputation clock i c s p) w) := by
  refine h.trans ⟨(Steady.refl w).createTicket _, rfl, rfl, rfl, rfl, ?_⟩
  simp only [createTicket, List.map_append, List.map_cons, List.map_nil]
  exact ⟨_, rfl, by simp [Ticket.order, runComputation]⟩

theorem Settles.createRun (h : Settles a w) (i : Item) : Settles a (createRun i w) := by
  unfold Machine.createRun
  split
  · exact h
  · split
    · dsimp only
      exact (((h.commit _ _).settleStock _).createRunTicket _ _ _ _ _).arbiter _
    · exact h

theorem Settles.runTest (h : Settles a w) (item : Nat) : Settles a (runTest item w) := by
  unfold Machine.runTest
  split
  · split
    · exact h.createRun _
    · exact h
  · exact h

theorem Settles.passRounds (h : Settles a w) (n : Nat) : Settles a (passRounds n w) := by
  induction n generalizing w with
  | zero => exact h
  | succ n ih =>
    have h1 : Settles a (runTests (drawPass w)) :=
      (h.drawWalk _ _).forEach _ (fun n w => (Settles.refl w).runTest n) _
    unfold Machine.passRounds
    dsimp only
    split
    · exact h1
    · exact ih h1

/-- What the Pass Unit does after an event (R151, R154). -/
theorem Settles.passSettle (h : Settles a w) : Settles a (passSettle w) := by
  unfold Machine.passSettle
  split
  · exact h.passRounds _
  · exact h

/-- Outside SERVICE the Pass Unit does nothing (R151, R154). -/
theorem passSettle_idle (h : w.event ≠ .service) : passSettle w = w := if_neg h

end

end Sys2Proof.Machine
end

