-- ==== Sys2Proof/Laws/HostPort.lean ====
section
/-! SUPPORT. The Host Port: what acting on a request can do, said once; and the parts of its bounds. -/

namespace Sys2Proof.Machine

theorem kindOf_code (k : ReqKind) : kindOf k.code = some k := by cases k <;> rfl

/-- A request that is asked and is not RESTART is performed by its owner, and answered (R166, R167). -/
theorem actOnKind_asks {s : State} {r : Request} {seq : Byte} {rest : List Frame} (h : Asks s r seq rest)
    (hk : r.kind ≠ .restart) :
    actOnKind r.kind s =
      answered s r.kind seq rest (perform s.host.reports.length s.host.gap r (begun s.kit)).2
        (perform s.host.reports.length s.host.gap r (begun s.kit)).1 := by
  obtain ⟨body, hf, hp⟩ := h.front
  have hg : gatePasses r.kind (begun s.kit).event = true := h.gate
  have hr : isRestart ⟨r.kind.code, seq, body⟩ (perform s.host.reports.length s.host.gap r (begun s.kit)).2 = false := by
    have : (r.kind.code == ReqKind.restart.code) = false := by
      generalize r.kind = k at hk
      revert hk
      cases k <;> decide
    simp only [isRestart, this, Bool.false_and]
  have h1 : replyEnded { s with host := { s.host with intake := rest } } = { s with host := { s.host with intake := rest } } := by
    have : (sendingReply s.host || s.host.restartOwed) = false := by rw [h.noneSending, h.noClearing]; rfl
    exact if_neg (by simpa [sendingReply] using this)
  have h2 : limitFirst { s with host := { s.host with intake := rest } } = { s with host := { s.host with intake := rest } } :=
    if_neg (by simp [h.noLimit])
  have h3 : answerFrame s.host.reports.length s.host.gap ⟨r.kind.code, seq, body⟩ (begun s.kit) =
      perform s.host.reports.length s.host.gap r (begun s.kit) := by
    simp only [answerFrame, hp, hg, if_true]
  rw [actOnKind, unlessReset, if_neg (by simp [h.high]), actOnOldest, hf]
  simp only [beq_self_eq_true, h.noneWaiting, Bool.not_false, Bool.and_self, if_true, h1, h2]
  simp only [actOn, h3, hr, Bool.or_false, answered]

/-- A command acts on the oldest frame of its kind: the answer and the kitchen are those its owner gives (R166, R167). -/
theorem exec_asks {s : State} {r : Request} {seq : Byte} {rest : List Frame} (h : Asks s r seq rest) (hk : r.kind ≠ .restart)
    {w : Work} {a : Answer} (hp : perform s.host.reports.length s.host.gap r (begun s.kit) = (w, a)) :
    exec r.kind.command s = .next (answered s r.kind seq rest a w) := by
  have := actOnKind_asks h hk
  rw [hp] at this
  rw [← this]
  cases r <;> rfl

/-- A request whose owner leaves the kitchen as it is changes nothing but the intake and the reply path (R169). -/
theorem exec_turnedAway {s : State} {r : Request} {seq : Byte} {rest : List Frame} (h : Asks s r seq rest)
    (hk : r.kind ≠ .restart) {a : Answer} (hp : perform s.host.reports.length s.host.gap r (begun s.kit) = (begun s.kit, a)) :
    exec r.kind.command s = .next (turnedAway s r.kind seq rest a) := exec_asks h hk hp

/-- A step of the kitchen while the part runs. -/
theorem inPart_running (f : Work → Work) {s : State} (h : s.resetLow = false) : inPart f s = moved s (f (begun s.kit)) := by
  simp [inPart, unlessReset, h, inKitchen, moved]

/-- A step of the kitchen that changes nothing and raises nothing. -/
theorem moved_begun (s : State) : moved s (begun s.kit) = s := rfl

/-- The seven reply commands are one operation on seven replies (R124, R125). -/
theorem exec_reply {c : Instr} {r : BusReply} {st : Byte} {n g : BitVec 16} (h : (c, r) ∈ replyCommands st n g) (s : State) :
    exec c s = .next (inPart (handleReply r) s) := by
  simp only [replyCommands, List.mem_cons, Prod.mk.injEq, List.not_mem_nil, or_false] at h
  rcases h with ⟨rfl, rfl⟩ | ⟨rfl, rfl⟩ | ⟨rfl, rfl⟩ | ⟨rfl, rfl⟩ | ⟨rfl, rfl⟩ | ⟨rfl, rfl⟩ | ⟨rfl, rfl⟩ <;> rfl

theorem outside_eq_false {lo hi n : Nat} (h1 : lo ≤ n) (h2 : n ≤ hi) : outside lo hi n = false := by
  simp [outside]; omega

theorem outside_eq_true {lo hi n : Nat} (h : n < lo ∨ hi < n) : outside lo hi n = true := by
  simpa [outside] using h

/-! ### The report queue -/

theorem pushReport_bounds (h : HostPort) (r : Report) (h1 : h.reports.length ≤ Config.reportPlaces)
    (h2 : h.gap = true → h.reports.length = Config.reportPlaces) (h3 : h.gap = true ↔ 0 < h.discards)
    (h4 : h.discards ≤ Config.maxDiscards) :
    (pushReport h r).reports.length ≤ Config.reportPlaces ∧
      ((pushReport h r).gap = true → (pushReport h r).reports.length = Config.reportPlaces) ∧
      ((pushReport h r).gap = true ↔ 0 < (pushReport h r).discards) ∧ (pushReport h r).discards ≤ Config.maxDiscards := by
  unfold pushReport
  split
  · rename_i hl
    refine ⟨by simp; omega, fun hg => ?_, h3, h4⟩
    have := h2 hg
    omega
  · rename_i hl
    exact ⟨h1, fun _ => Nat.le_antisymm h1 (Nat.not_lt.mp hl), by simp [Config.maxDiscards], Nat.min_le_right _ _⟩

theorem pushReport_sound {h : HostPort} (hs : h.sound) (r : Report) : (pushReport h r).sound := by
  obtain ⟨b1, b2, b3, b4⟩ := pushReport_bounds h r hs.reports hs.gapFull hs.gapCounts hs.discards
  refine ⟨by simpa using hs.rx, by simpa using hs.intake, by simpa using hs.busy, by simpa using hs.answers, b1, b2, b3, b4, ?_⟩
  simpa [replyWaiting, sendingReply] using hs.restart

theorem pushReports_sound {h : HostPort} (hs : h.sound) (rs : List Report) : (pushReports h rs).sound := by
  unfold pushReports
  induction rs generalizing h with
  | nil => exact hs
  | cons r rs ih => exact ih (pushReport_sound hs r)

end Sys2Proof.Machine
end

