-- ==== Sys2Proof/Laws/Records.lean ====
section
/-! SUPPORT. Sound records (R81, R82, R88, R121 and what they rest on): every shared operation of the kitchen keeps them. A change
that adds no ticket and takes nothing from a group's lines is tame; the granting, the creating and the freeing of tickets are taken
one by one. -/

namespace Sys2Proof.Machine

/-! ### Tame changes -/

/-- What of a line the soundness of records looks at: its key, and its portions committed. -/
def Line.share (k : Kitchen) (l : Line) : (Nat × Option Nat) × Nat := (l.key, committedOf k l)

theorem sum_le_of_kept {α : Type} (l : List α) (P P' keep : α → Bool) (f : α → α) (v : α → Nat)
    (h : ∀ t ∈ l, P t = true → keep t = true ∧ P' (f t) = true ∧ v (f t) = v t) :
    ((l.filter P).map v).sum ≤ ((((l.filter keep).map f).filter P').map v).sum := by
  induction l with
  | nil => simp
  | cons x l ih =>
    have ih := ih fun t ht => h t (List.mem_cons_of_mem x ht)
    by_cases hp : P x = true
    · obtain ⟨h1, h2, h3⟩ := h x List.mem_cons_self hp
      simp [hp, h1, h2, h3, ih]
    · rw [List.filter_cons_of_neg hp]
      refine le_trans ih ?_
      by_cases hk : keep x = true
      · rw [List.filter_cons_of_pos hk, List.map_cons, List.filter_cons]
        split
        · simp
        · exact le_refl _
      · rw [List.filter_cons_of_neg hk]

theorem length_le_of_kept {α : Type} (l : List α) (Q keep : α → Bool) (f : α → α) (h : ∀ t ∈ l, Q (f t) = true → Q t = true) :
    (((l.filter keep).map f).filter Q).length ≤ (l.filter Q).length := by
  induction l with
  | nil => simp
  | cons x l ih =>
    have ih := ih fun t ht => h t (List.mem_cons_of_mem x ht)
    by_cases hk : keep x = true
    · rw [List.filter_cons_of_pos hk, List.map_cons, List.filter_cons, List.filter_cons]
      split
      · rw [if_pos (h x List.mem_cons_self ‹_›)]; simpa using ih
      · split
        · exact le_trans ih (Nat.le_succ _)
        · exact ih
    · rw [List.filter_cons_of_neg hk, List.filter_cons]
      split
      · exact le_trans ih (Nat.le_succ _)
      · exact ih

theorem entryOf_map {α β : Type} (key : α → Nat) (key' : β → Nat) (g : α → β) (hg : ∀ x, key' (g x) = key x) (n : Nat) (l : List α) :
    (entryOf key n l).map g = entryOf key' n (l.map g) := by
  unfold entryOf
  induction l with
  | nil => rfl
  | cons x l ih => simp only [List.find?_cons, List.map_cons, hg]; split <;> simp_all

theorem entryOf_key {α : Type} {key : α → Nat} {n : Nat} {l : List α} {x : α} (h : entryOf key n l = some x) : key x = n := by
  simpa using List.find?_some h

/-- Items with the same definitions have the same components and kinds. -/
theorem findItem_definition {k k' : Kitchen} (h : k'.items.map Item.definition = k.items.map Item.definition) (n : Nat) :
    (findItem k' n).map Item.definition = (findItem k n).map Item.definition := by
  unfold findItem
  rw [entryOf_map Item.number Item.number Item.definition (fun _ => rfl), entryOf_map Item.number Item.number Item.definition
    (fun _ => rfl), h]

theorem componentOf_congr {k k' : Kitchen} (h : k'.items.map Item.definition = k.items.map Item.definition) (n c : Nat) :
    componentOf k' n c = componentOf k n c := by
  have := findItem_definition h n
  unfold componentOf
  cases h1 : findItem k' n <;> cases h2 : findItem k n <;> simp_all [Item.definition]

theorem itemKind_congr {k k' : Kitchen} (h : k'.items.map Item.definition = k.items.map Item.definition) (n : Nat) :
    itemKind k' n = itemKind k n := by
  have := findItem_definition h n
  unfold itemKind
  cases h1 : findItem k' n <;> cases h2 : findItem k n <;> simp_all [Item.definition]

theorem committedOf_congr {k k' : Kitchen} (h : k'.items.map Item.definition = k.items.map Item.definition) (l : Line) :
    committedOf k' l = committedOf k l := by
  unfold committedOf; rw [itemKind_congr h]

theorem findStation_isSome_congr {k k' : Kitchen} (h : k'.stations.map Station.fixed = k.stations.map Station.fixed) (n : Nat) :
    findStation k' n = none ↔ findStation k n = none := by
  have e : (findStation k' n).map Station.fixed = (findStation k n).map Station.fixed := by
    unfold findStation
    rw [entryOf_map Station.number Prod.fst Station.fixed (fun _ => rfl), entryOf_map Station.number Prod.fst Station.fixed
      (fun _ => rfl), h]
  cases h1 : findStation k' n <;> cases h2 : findStation k n <;> simp_all

theorem ascending_congr {α β : Type} {key : α → Nat} {key' : β → Nat} {l l' : List α} (g : α → β) (hg : ∀ x, key' (g x) = key x)
    (h : l'.map g = l.map g) (hl : l.Pairwise fun a b => key a < key b) : l'.Pairwise fun a b => key a < key b := by
  have e : l'.map key = l.map key := by
    have := congrArg (List.map key') h
    simpa [List.map_map, Function.comp_def, hg] using this
  rw [← List.pairwise_map (f := key) (R := (· < ·)), e]
  exact List.pairwise_map.2 hl

/-- A change that adds no ticket keeps records sound where the slots bear it: no ticket comes to be VOIDING; a ticket that goes is a
run's, VOIDING, or of a CANCELLED group or one that goes; groups keep the keys and committed portions of their lines. -/
theorem Kitchen.recordsSound.reshape {k k' : Kitchen} (h : k.recordsSound)
    (event : k.event = .service → k'.event = .service)
    (items : k'.items.map Item.definition = k.items.map Item.definition)
    (stations : k'.stations.map Station.fixed = k.stations.map Station.fixed)
    (counter : k'.nextTicket = k.nextTicket)
    (marks : ∀ t ∈ k'.terminals, t.marksAscend)
    (groups : (k'.groups.map Group.number).Sublist (k.groups.map Group.number))
    (kept : ∀ g' ∈ k'.groups, ∃ g ∈ k.groups, g'.number = g.number ∧ (g'.state ≠ .cancelled → g.state ≠ .cancelled) ∧
      g'.lines.map (Line.share k) = g.lines.map (Line.share k))
    (keep : Ticket → Bool) (f : Ticket → Ticket)
    (tickets : k'.tickets = (k.tickets.filter keep).map f)
    (same : ∀ t ∈ k.tickets, (f t).number = t.number ∧ (f t).desc = t.desc ∧ ((f t).state = .voiding → t.state = .voiding))
    (dropped : ∀ t ∈ k.tickets, keep t = false →
      t.kind = .standing ∨ t.state = .voiding ∨ ∀ g ∈ k'.groups, g.number = t.group → g.state = .cancelled)
    (draws : ∀ n ∈ k'.drawOrder, ∀ g ∈ k'.groups, g.number = n → g.state ≠ .cancelled)
    (slots : ∀ x ∈ k'.stations, slotsHeld k' x.number ≤ x.defn.slots)
    (homes : ∀ t ∈ k.tickets, keep t = true → (∃ g ∈ k.groups, g.number = t.group) → ∃ g ∈ k'.groups, g.number = t.group) :
    k'.recordsSound := by
  have hsub : (k.tickets.filter keep).Sublist k.tickets := List.filter_sublist
  have hmem : ∀ t' ∈ k'.tickets, ∃ t ∈ k.tickets, keep t = true ∧ t' = f t := by
    intro t' ht'
    rw [tickets] at ht'
    obtain ⟨t, ht, rfl⟩ := List.mem_map.1 ht'
    obtain ⟨h1, h2⟩ := List.mem_filter.1 ht
    exact ⟨t, h1, h2, rfl⟩
  have hdesc : ∀ t ∈ k.tickets, (f t).group = t.group ∧ (f t).kind = t.kind ∧ (f t).item = t.item ∧ (f t).comp = t.comp ∧
      (f t).portions = t.portions ∧ (f t).station = t.station ∧ (f t).subFrom = t.subFrom := by
    intro t ht
    have := (same t ht).2.1
    simp only [Ticket.desc, TicketDesc.mk.injEq] at this
    tauto
  refine ⟨?_, ?_, ?_, ?_, ?_, ?_, ?_, slots, marks, ?_, ?_, ?_, draws⟩
  · exact ascending_congr Item.definition (key' := Item.number) (fun _ => rfl) items h.items
  · exact ascending_congr Station.fixed (key' := Prod.fst) (fun _ => rfl) stations h.stations
  · exact List.pairwise_map.1 ((List.pairwise_map.2 h.groups).sublist groups)
  · rw [tickets, List.map_map]
    have : (k.tickets.filter keep).map (Ticket.number ∘ f) = (k.tickets.filter keep).map Ticket.number :=
      List.map_congr_left fun t ht => (same t (List.mem_of_mem_filter ht)).1
    rw [this]
    exact h.numbers.sublist (hsub.map _)
  · rw [tickets, List.length_map]
    exact le_trans hsub.length_le h.pool
  · rw [counter]; exact h.counter
  · intro t' ht'
    obtain ⟨t, ht, hk, rfl⟩ := hmem t' ht'
    obtain ⟨h1, h2, -⟩ := hdesc t ht
    rw [h1, h2]
    rcases h.homes t ht with ⟨hs, he⟩ | hg
    · exact .inl ⟨hs, event he⟩
    · exact .inr (homes t ht hk hg)
  · intro g' hg
    obtain ⟨g, hg, -, -, he⟩ := kept g' hg
    have : g'.lines.map Line.key = g.lines.map Line.key := by
      have := congrArg (List.map Prod.fst) he
      simpa [List.map_map, Function.comp_def, Line.share] using this
    rw [this]; exact h.lines g hg
  · intro t' ht' hk c hc
    obtain ⟨t, ht, -, rfl⟩ := hmem t' ht'
    obtain ⟨-, h2, h3, h4, h5, -⟩ := hdesc t ht
    rw [h3, h4, componentOf_congr items] at hc
    rw [h5]
    exact h.batches t ht (h2 ▸ hk) c hc
  · intro g' hg hst l' hl i c hc hs
    obtain ⟨g, hg0, hn, hc0, he⟩ := kept g' hg
    have hm : l'.share k ∈ g.lines.map (Line.share k) := he ▸ List.mem_map_of_mem hl
    obtain ⟨l, hl0, hel⟩ := List.mem_map.1 hm
    simp only [Line.share, Line.key, Prod.mk.injEq] at hel
    rw [componentOf_congr items] at hc
    have h1 := h.covered g hg0 (hc0 hst) l hl0 i c (by rw [hel.1.1]; exact hc)
      (fun hz => hs ((findStation_isSome_congr stations _).2 hz))
    rw [committedOf_congr items, ← hel.2]
    refine le_trans h1 ?_
    unfold livePortions portionsOf
    rw [tickets]
    refine sum_le_of_kept _ _ _ _ _ _ fun t ht hp => ?_
    simp only [ofComponent, Bool.and_eq_true, beq_iff_eq, bne_iff_ne, ne_eq] at hp ⊢
    obtain ⟨d1, d2, d3, d4, d5, d6, d7⟩ := hdesc t ht
    obtain ⟨⟨⟨⟨⟨p1, p2⟩, p3⟩, p4⟩, p5⟩, p6⟩ := hp
    refine ⟨?_, ⟨⟨⟨⟨⟨?_, ?_⟩, ?_⟩, ?_⟩, ?_⟩, ?_⟩, d5⟩
    · by_contra hk
      rcases dropped t ht (by simpa using hk) with q | q | q
      · exact p5 q
      · exact p6 q
      · exact hst (q g' hg (hn.trans p1.symm))
    · rw [d1, p1, hn]
    · rw [d3, p2, hel.1.1]
    · rw [d7, p3, hel.1.2]
    · rw [d4, p4]
    · rw [d2]; exact p5
    · exact fun q => p6 ((same t ht).2.2 q)

/-- A tame change keeps records sound: no ticket is added, none comes to hold a slot or to be VOIDING; a ticket that goes is a
run's, VOIDING, or of a CANCELLED group or one that goes; groups keep the keys and committed portions of their lines. -/
theorem Kitchen.recordsSound.tame {k k' : Kitchen} (h : k.recordsSound)
    (event : k.event = .service → k'.event = .service)
    (items : k'.items.map Item.definition = k.items.map Item.definition)
    (stations : k'.stations.map Station.fixed = k.stations.map Station.fixed)
    (counter : k'.nextTicket = k.nextTicket) (order : ∀ n ∈ k'.drawOrder, n ∈ k.drawOrder)
    (marks : ∀ t ∈ k'.terminals, t.marksAscend)
    (groups : (k'.groups.map Group.number).Sublist (k.groups.map Group.number))
    (kept : ∀ g' ∈ k'.groups, ∃ g ∈ k.groups, g'.number = g.number ∧ (g'.state = .cancelled ↔ g.state = .cancelled) ∧
      g'.lines.map (Line.share k) = g.lines.map (Line.share k))
    (keep : Ticket → Bool) (f : Ticket → Ticket)
    (tickets : k'.tickets = (k.tickets.filter keep).map f)
    (same : ∀ t ∈ k.tickets, (f t).number = t.number ∧ (f t).desc = t.desc ∧ (holdsSlot (f t) = true → holdsSlot t = true) ∧
      ((f t).state = .voiding → t.state = .voiding))
    (dropped : ∀ t ∈ k.tickets, keep t = false →
      t.kind = .standing ∨ t.state = .voiding ∨ ∀ g ∈ k'.groups, g.number = t.group → g.state = .cancelled)
    (homes : ∀ t ∈ k.tickets, keep t = true → (∃ g ∈ k.groups, g.number = t.group) → ∃ g ∈ k'.groups, g.number = t.group) :
    k'.recordsSound := by
  refine h.reshape event items stations counter marks groups
    (fun g' hg => by
      obtain ⟨g, h1, h2, h3, h4⟩ := kept g' hg
      exact ⟨g, h1, h2, fun q z => q (h3.2 z), h4⟩) keep f tickets
    (fun t ht => ⟨(same t ht).1, (same t ht).2.1, (same t ht).2.2.2⟩) dropped
    (fun n hn g' hg e z => by
      obtain ⟨g, h1, h2, h3, -⟩ := kept g' hg
      exact h.draws n (order n hn) g h1 (h2.symm.trans e) (h3.1 z)) ?_ homes
  intro x' hx
  have hm : x'.fixed ∈ k.stations.map Station.fixed := stations ▸ List.mem_map_of_mem hx
  obtain ⟨x, hx, he⟩ := List.mem_map.1 hm
  simp only [Station.fixed, Prod.mk.injEq] at he
  have h1 := h.slots x hx
  have hs : x'.defn.slots = x.defn.slots := (congrArg StationDef.slots he.2).symm
  rw [hs, ← he.1]
  refine le_trans ?_ h1
  unfold slotsHeld
  rw [tickets]
  refine length_le_of_kept _ _ _ _ fun t ht => ?_
  have e : (f t).station = t.station := congrArg TicketDesc.station (same t ht).2.1
  simp only [Bool.and_eq_true, e]
  exact fun ⟨a, b⟩ => ⟨a, (same t ht).2.2.1 b⟩

/-- What a tame change may do to a ticket that stays. -/
def Ticket.tamely (t u : Ticket) : Prop :=
  u.number = t.number ∧ u.desc = t.desc ∧ (holdsSlot u = true → holdsSlot t = true) ∧ (u.state = .voiding → t.state = .voiding)

theorem Ticket.tamely.refl (t : Ticket) : t.tamely t := ⟨rfl, rfl, id, id⟩

section

variable {w : Work}

/-- Records are sound where nothing they rest on has changed. -/
theorem Kitchen.recordsSound.same {k k' : Kitchen} (h : k.recordsSound) (e1 : k'.items = k.items) (e2 : k'.stations = k.stations)
    (e3 : k'.groups = k.groups) (e4 : k'.tickets = k.tickets) (e5 : k'.nextTicket = k.nextTicket) (e6 : k'.terminals = k.terminals)
    (e7 : k.event = .service → k'.event = .service)
    (e8 : ∀ n ∈ k'.drawOrder, n ∈ k.drawOrder) : k'.recordsSound := by
  refine h.tame e7 (by rw [e1]) (by rw [e2]) e5 e8 (by rw [e6]; exact h.marks) (by rw [e3]) ?_ (fun _ => true) id (by rw [e4]; simp)
    (fun t _ => Ticket.tamely.refl t) (fun t _ hk => by cases hk) (fun t _ _ hg => by rw [e3]; exact hg)
  rw [e3]
  exact fun g hg => ⟨g, hg, rfl, Iff.rfl, rfl⟩

/-- A change of terminals alone. -/
theorem Kitchen.recordsSound.withTerminals {k k' : Kitchen} (h : k.recordsSound) (e1 : k'.items = k.items)
    (e2 : k'.stations = k.stations) (e3 : k'.groups = k.groups) (e4 : k'.tickets = k.tickets) (e5 : k'.nextTicket = k.nextTicket)
    (e7 : k'.event = k.event) (e8 : k'.drawOrder = k.drawOrder) (marks : ∀ t ∈ k'.terminals, t.marksAscend) : k'.recordsSound := by
  refine h.tame (by rw [e7]; exact id) (by rw [e1]) (by rw [e2]) e5 (by rw [e8]; exact fun _ h => h) marks (by rw [e3]) ?_ (fun _ => true) id (by rw [e4]; simp)
    (fun t _ => Ticket.tamely.refl t) (fun t _ hk => by cases hk) (fun t _ _ hg => by rw [e3]; exact hg)
  rw [e3]
  exact fun g hg => ⟨g, hg, rfl, Iff.rfl, rfl⟩

theorem Kitchen.recordsSound.mapTickets {k k' : Kitchen} (h : k.recordsSound) (f : Ticket → Ticket) (hf : ∀ t ∈ k.tickets, t.tamely (f t))
    (e1 : k'.items = k.items) (e2 : k'.stations = k.stations) (e3 : k'.groups = k.groups) (e4 : k'.tickets = k.tickets.map f)
    (e5 : k'.nextTicket = k.nextTicket) (e6 : k'.terminals = k.terminals) (e7 : k'.event = k.event)
    (e8 : k'.drawOrder = k.drawOrder) : k'.recordsSound := by
  refine h.tame (by rw [e7]; exact id) (by rw [e1]) (by rw [e2]) e5 (by rw [e8]; exact fun _ h => h) (by rw [e6]; exact h.marks) (by rw [e3]) ?_ (fun _ => true) f
    (by rw [e4]; simp) hf (fun t _ hk => by cases hk) (fun t _ _ hg => by rw [e3]; exact hg)
  rw [e3]
  exact fun g hg => ⟨g, hg, rfl, Iff.rfl, rfl⟩

theorem Kitchen.recordsSound.raise (h : w.recordsSound) (b : ReportBody) : (raise b w).recordsSound := h

theorem Kitchen.recordsSound.setTicket (h : w.recordsSound) (n : Nat) (f : Ticket → Ticket)
    (hf : ∀ t ∈ w.tickets, t.number = n → t.tamely (f t)) : (setTicket n f w).recordsSound := by
  refine h.mapTickets (fun t => if t.number = n then f t else t) (fun t ht => ?_) rfl rfl rfl rfl rfl rfl rfl rfl
  split
  · exact hf t ht ‹_›
  · exact Ticket.tamely.refl t

theorem Kitchen.recordsSound.setStation (h : w.recordsSound) (n : Nat) (f : Station → Station) (hf : ∀ s, (f s).fixed = s.fixed) :
    (setStation n f w).recordsSound :=
  h.tame id rfl (updateEntry_map _ n f w.stations fun s _ _ => hf s) rfl (fun _ h => h) h.marks (List.Sublist.refl _)
    (fun g hg => ⟨g, hg, rfl, Iff.rfl, rfl⟩) (fun _ => true) id (by simp [Machine.setStation]) (fun t _ => Ticket.tamely.refl t)
    (fun t _ hk => by cases hk) (fun t _ _ hg => hg)

theorem Kitchen.recordsSound.mapStations {k k' : Kitchen} (h : k.recordsSound)
    (e2 : k'.stations.map Station.fixed = k.stations.map Station.fixed) (e1 : k'.items = k.items) (e3 : k'.groups = k.groups)
    (e4 : k'.tickets = k.tickets) (e5 : k'.nextTicket = k.nextTicket) (e6 : k'.terminals = k.terminals)
    (e7 : k.event = .service → k'.event = .service)
    (e8 : ∀ n ∈ k'.drawOrder, n ∈ k.drawOrder) : k'.recordsSound := by
  refine h.tame e7 (by rw [e1]) e2 e5 e8 (by rw [e6]; exact h.marks) (by rw [e3]) ?_ (fun _ => true) id (by rw [e4]; simp)
    (fun t _ => Ticket.tamely.refl t) (fun t _ hk => by cases hk) (fun t _ _ hg => by rw [e3]; exact hg)
  rw [e3]
  exact fun g hg => ⟨g, hg, rfl, Iff.rfl, rfl⟩

theorem Kitchen.recordsSound.setItem (h : w.recordsSound) (n : Nat) (f : Item → Item) (hf : ∀ i, (f i).definition = i.definition) :
    (setItem n f w).recordsSound :=
  h.tame id (updateEntry_map _ n f w.items fun i _ _ => hf i) rfl rfl (fun _ h => h) h.marks (List.Sublist.refl _)
    (fun g hg => ⟨g, hg, rfl, Iff.rfl, rfl⟩) (fun _ => true) id (by simp [Machine.setItem]) (fun t _ => Ticket.tamely.refl t)
    (fun t _ hk => by cases hk) (fun t _ _ hg => hg)

theorem Kitchen.recordsSound.setTerminal (h : w.recordsSound) (n : Nat) (f : Terminal → Terminal)
    (hf : ∀ t, t.marksAscend → (f t).marksAscend) : (setTerminal n f w).recordsSound := by
  refine h.withTerminals rfl rfl rfl rfl rfl rfl rfl fun t ht => ?_
  rcases mem_updateEntry ht with ⟨hm, -⟩ | ⟨x, hx, -, rfl⟩
  · exact h.marks t hm
  · exact hf x (h.marks x hx)

/-- A change of a group that keeps its lines' shares, and does not take it out of CANCELLED. -/
theorem Kitchen.recordsSound.setGroup (h : w.recordsSound) (n : Nat) (f : Group → Group)
    (hf : ∀ g ∈ w.groups, g.number = n → (f g).number = g.number ∧ ((f g).state = .cancelled ↔ g.state = .cancelled) ∧
      (f g).lines.map (Line.share w.toKitchen) = g.lines.map (Line.share w.toKitchen)) : (setGroup n f w).recordsSound := by
  have hn : (updateEntry Group.number n f w.groups).map Group.number = w.groups.map Group.number :=
    updateEntry_map _ n f w.groups fun g hg e => (hf g hg e).1
  refine h.tame id rfl rfl rfl (fun _ h => h) h.marks (hn ▸ List.Sublist.refl _) ?_ (fun _ => true) id (by simp [Machine.setGroup])
    (fun t _ => Ticket.tamely.refl t) (fun t _ hk => by cases hk) ?_
  · intro g' hg
    rcases mem_updateEntry hg with ⟨hm, -⟩ | ⟨g, hg0, e, rfl⟩
    · exact ⟨g', hm, rfl, Iff.rfl, rfl⟩
    · obtain ⟨h1, h2, h3⟩ := hf g hg0 e
      exact ⟨g, hg0, h1, h2, h3⟩
  · intro t _ _ ⟨g, hg, e⟩
    have : g.number ∈ (updateEntry Group.number n f w.groups).map Group.number := hn ▸ List.mem_map_of_mem hg
    obtain ⟨g', hg', e'⟩ := List.mem_map.1 this
    exact ⟨g', hg', e'.trans e⟩

theorem Kitchen.recordsSound.foldl {α : Type} (h : w.recordsSound) (f : Work → α → Work)
    (hf : ∀ w x, w.recordsSound → (f w x).recordsSound) (l : List α) : (l.foldl f w).recordsSound := by
  induction l generalizing w with
  | nil => exact h
  | cons x l ih => exact ih (hf w x h)

theorem Kitchen.recordsSound.forEach (h : w.recordsSound) (f : Nat → Work → Work)
    (hf : ∀ n w, w.recordsSound → (f n w).recordsSound) (ns : List Nat) : (forEach f ns w).recordsSound :=
  h.foldl (fun w n => f n w) (fun w n => hf n w) ns

/-! ### The marks of terminals -/

theorem addNumber_ascending (n : Nat) {l : List Nat} (h : l.Pairwise (· < ·)) : (addNumber n l).Pairwise (· < ·) :=
  insertEntry_ascending (key := id) n l h

theorem dropNumber_ascending (n : Nat) {l : List Nat} (h : l.Pairwise (· < ·)) : (dropNumber n l).Pairwise (· < ·) := h.filter _

theorem markNext_ascend (n : Nat) (t : Terminal) (h : t.marksAscend) : (markNext n t).marksAscend :=
  ⟨h.1, addNumber_ascending n h.2.1, h.2.2⟩

theorem markMode_ascend (n : Nat) (t : Terminal) (h : t.marksAscend) : (markMode n t).marksAscend :=
  ⟨h.1, h.2.1, addNumber_ascending n h.2.2⟩

theorem pendPost_ascend (st n : Nat) (t : Terminal) (h : t.marksAscend) : (pendPost st n t).marksAscend := by
  unfold pendPost; split <;> exact h

theorem pendVoid_ascend (st n : Nat) (t : Terminal) (h : t.marksAscend) : (pendVoid st n t).marksAscend := by
  unfold pendVoid; split <;> exact h

theorem loseStation_ascend (st : Nat) (t : Terminal) (h : t.marksAscend) : (loseStation st t).marksAscend :=
  ⟨addNumber_ascending st h.1, dropNumber_ascending st h.2.1, dropNumber_ascending st h.2.2⟩

theorem renewNext_ascend (ss : List Station) (n : Nat) (t : Terminal) (h : t.marksAscend) : (renewNext ss n t).marksAscend := by
  unfold renewNext
  generalize ss.filter _ = l
  induction l generalizing t with
  | nil => exact h
  | cons s l ih => exact ih _ (markNext_ascend _ _ h)

theorem enterNote_ascend (u : Option Turn) (n : Note) (t : Terminal) (h : t.marksAscend) : (enterNote u n t).marksAscend := by
  unfold enterNote
  split
  · split <;> exact h
  · exact h

theorem clearMark_ascend (f : BusFrame) (t : Terminal) (h : t.marksAscend) : (clearMark f t).marksAscend := by
  unfold clearMark
  split
  · exact ⟨h.1, dropNumber_ascending _ h.2.1, h.2.2⟩
  · exact ⟨h.1, h.2.1, dropNumber_ascending _ h.2.2⟩
  all_goals exact h

theorem showNote_ascend (n : Note) (t : Terminal) (h : t.marksAscend) : (showNote n t).marksAscend := by
  unfold showNote; split <;> exact h

theorem Kitchen.recordsSound.atCurrent (h : w.recordsSound) (st : Nat) (f : Terminal → Terminal)
    (hf : ∀ t, t.marksAscend → (f t).marksAscend) : (atCurrent st f w).recordsSound := by
  unfold Machine.atCurrent
  split
  · split
    · exact h.setTerminal _ f hf
    · exact h
  · exact h

theorem Kitchen.recordsSound.handNote (h : w.recordsSound) (n : Note) : (handNote n w).recordsSound := by
  refine h.withTerminals rfl rfl rfl rfl rfl rfl rfl fun t ht => ?_
  obtain ⟨x, hx, rfl⟩ := List.mem_map.1 ht
  exact enterNote_ascend _ _ _ (h.marks x hx)

theorem Kitchen.recordsSound.setBroadcast (h : w.recordsSound) : (setBroadcast w).recordsSound := by
  refine h.withTerminals rfl rfl rfl rfl rfl rfl rfl fun t ht => ?_
  obtain ⟨x, hx, rfl⟩ := List.mem_map.1 ht
  exact h.marks x hx

/-! ### Freeing tickets -/

/-- A ticket may go where it is a run's, VOIDING, or of no group that is not CANCELLED. -/
def mayGo (k : Kitchen) (t : Ticket) : Prop :=
  t.kind = .standing ∨ t.state = .voiding ∨ ∀ g ∈ k.groups, g.number = t.group → g.state = .cancelled

theorem Kitchen.recordsSound.dropTicket (h : w.recordsSound) (n : Nat)
    (hn : ∀ t ∈ w.tickets, t.number = n → mayGo w.toKitchen t) : (dropTicket n w).recordsSound := by
  refine h.tame (k' := (Machine.dropTicket n w).toKitchen) id rfl ?_ rfl (fun _ h => h) ?_ (List.Sublist.refl _) (fun g hg => ⟨g, hg, rfl, Iff.rfl, rfl⟩)
    (fun t => t.number != n) id (by simp [Machine.dropTicket]) (fun t _ => Ticket.tamely.refl t) ?_ (fun t _ _ hg => hg)
  · simp [Machine.dropTicket, List.map_map, Function.comp_def]
  · intro t ht
    obtain ⟨x, hx, rfl⟩ := List.mem_map.1 ht
    exact renewNext_ascend _ _ _ (h.marks x hx)
  · intro t ht hk
    exact hn t ht (by simpa using hk)

theorem Kitchen.recordsSound.ticket_inj {k : Kitchen} (h : k.recordsSound) {t u : Ticket} (ht : t ∈ k.tickets) (hu : u ∈ k.tickets)
    (e : t.number = u.number) : t = u := List.inj_on_of_nodup_map h.numbers ht hu e

/-- The freeing of tickets one after another, said at once. -/
theorem forEach_dropTicket (ns : List Nat) (w : Work) :
    (forEach dropTicket ns w).tickets = w.tickets.filter (fun t => !ns.contains t.number) ∧
      (forEach dropTicket ns w).groups = w.groups ∧ (forEach dropTicket ns w).nextTicket = w.nextTicket ∧
      (forEach dropTicket ns w).drawOrder = w.drawOrder ∧ ((∀ t ∈ w.terminals, t.marksAscend) → ∀ t ∈ (forEach dropTicket ns w).terminals, t.marksAscend) := by
  unfold forEach
  induction ns generalizing w with
  | nil => exact ⟨by simp, rfl, rfl, rfl, id⟩
  | cons n ns ih =>
    obtain ⟨h1, h2, h3, h0, h4⟩ := ih (dropTicket n w)
    refine ⟨?_, h2, h3, h0, fun h => h4 fun t ht => ?_⟩
    · rw [List.foldl_cons, h1]
      simp only [dropTicket, List.filter_filter]
      apply List.filter_congr
      intro t _
      by_cases e : t.number = n <;> simp [e]
    · obtain ⟨x, hx, rfl⟩ := List.mem_map.1 ht
      exact renewNext_ascend _ _ _ (h x hx)

theorem Kitchen.recordsSound.freeGroup (h : w.recordsSound) (n : Nat) (final : GroupState) : (freeGroup n final w).recordsSound := by
  have st := (Steady.refl w).freeGroup n final
  have e : (Machine.freeGroup n final w) = w ∨ ∃ v : Work, v.recordsSound ∧ v.tickets = w.tickets ∧ v.groups = w.groups ∧
      Machine.freeGroup n final w =
        { Machine.forEach Machine.dropTicket (ticketsOf v.toKitchen n) v with
          groups := (Machine.forEach Machine.dropTicket (ticketsOf v.toKitchen n) v).groups.filter (fun g => g.number != n)
          drawOrder := dropNumber n (Machine.forEach Machine.dropTicket (ticketsOf v.toKitchen n) v).drawOrder } := by
    unfold Machine.freeGroup
    split
    · rename_i g _
      refine .inr ⟨Machine.handNote ⟨n, g.sect, .gone⟩ (Machine.raise (.grpgone n g.tag final) w), ?_, rfl, rfl, rfl⟩
      exact (h.raise _).handNote _
    · exact .inl rfl
  rcases e with e | ⟨v, hv, ht, hg, e⟩
  · rw [e]; exact h
  · rw [e]
    obtain ⟨d1, d2, d3, d0, d4⟩ := forEach_dropTicket (ticketsOf v.toKitchen n) v
    have sv := (Steady.refl v).forEach Machine.dropTicket (fun n w => (Steady.refl w).dropTicket n) (ticketsOf v.toKitchen n)
    refine hv.tame (k' := { (Machine.forEach Machine.dropTicket (ticketsOf v.toKitchen n) v).toKitchen with
        groups := (Machine.forEach Machine.dropTicket (ticketsOf v.toKitchen n) v).groups.filter (fun g => g.number != n)
        drawOrder := dropNumber n (Machine.forEach Machine.dropTicket (ticketsOf v.toKitchen n) v).drawOrder })
      (fun h => sv.event.trans h) sv.items sv.stations d3
      (fun m hm => by rw [← d0]; exact List.mem_of_mem_filter hm) (d4 hv.marks) ?_ ?_
      (fun t => !(ticketsOf v.toKitchen n).contains t.number) id (by simpa using d1) (fun t _ => Ticket.tamely.refl t) ?_ ?_
    · rw [d2]; exact List.filter_sublist.map _
    · rw [d2]; exact fun g hg => ⟨g, List.mem_of_mem_filter hg, rfl, Iff.rfl, rfl⟩
    · intro t ht hk
      refine .inr (.inr fun g hg e => ?_)
      simp only [Bool.not_eq_false', List.contains_iff_mem, ticketsOf, List.mem_map, List.mem_filter, beq_iff_eq] at hk
      obtain ⟨u, ⟨hu, hun⟩, he⟩ := hk
      have := hv.ticket_inj hu ht he
      subst this
      simp [e, hun] at hg
    · rintro t ht hk ⟨g, hg, e⟩
      refine ⟨g, ?_, e⟩
      rw [d2]
      refine List.mem_filter.2 ⟨hg, ?_⟩
      simp only [Bool.not_eq_true', ticketsOf] at hk
      simp only [bne_iff_ne, ne_eq]
      intro hgn
      have : (List.map Ticket.number (v.tickets.filter fun t => t.group == n)).contains t.number = true := by
        simp only [List.contains_iff_mem, List.mem_map, List.mem_filter, beq_iff_eq]
        exact ⟨t, ⟨ht, e.symm.trans hgn⟩, rfl⟩
      rw [hk] at this; cases this

theorem Kitchen.recordsSound.recompute (h : w.recordsSound) (n : Nat) : (recompute n w).recordsSound := by
  unfold Machine.recompute
  split
  · split
    · dsimp only
      split
      all_goals exact h.setGroup n _ fun g _ _ => ⟨rfl, Iff.rfl, rfl⟩
    · exact h
  · exact h

theorem Kitchen.recordsSound.groupTicketFreed (h : w.recordsSound) (n : Nat) : (groupTicketFreed n w).recordsSound := by
  unfold Machine.groupTicketFreed
  split
  · split
    · split
      · exact h.freeGroup _ _
      · exact h
    · exact h.recompute n
  · exact h

theorem recompute_tickets (n : Nat) (w : Work) : (recompute n w).tickets = w.tickets := by
  unfold recompute
  split
  · split
    · dsimp only
      split <;> rfl
    · rfl
  · rfl

theorem mem_groupTicketFreed (n : Nat) (w : Work) (t : Ticket) (ht : t ∈ (groupTicketFreed n w).tickets) : t ∈ w.tickets := by
  unfold groupTicketFreed at ht
  split at ht
  · split at ht
    · split at ht
      · unfold freeGroup at ht
        split at ht
        · dsimp only at ht
          rw [(forEach_dropTicket _ _).1] at ht
          exact List.mem_of_mem_filter ht
        · exact ht
      · exact ht
    · rwa [recompute_tickets] at ht
  · exact ht

theorem Kitchen.recordsSound.freeVoiding (h : w.recordsSound) (st : Nat) : (freeVoiding st w).recordsSound := by
  unfold Machine.freeVoiding
  have key : ∀ (l : List Ticket) (v : Work), (∀ u ∈ l, u ∈ w.tickets ∧ u.state = .voiding) → v.recordsSound →
      (∀ t ∈ v.tickets, t ∈ w.tickets) →
      (l.foldl (fun w t => Machine.groupTicketFreed t.group (Machine.dropTicket t.number w)) v).recordsSound := by
    intro l
    induction l with
    | nil => exact fun v _ hv _ => hv
    | cons u l ih =>
      intro v hl hv hsub
      refine ih _ (fun x hx => hl x (List.mem_cons_of_mem u hx)) ?_ ?_
      · refine (hv.dropTicket u.number fun t ht e => .inr (.inl ?_)).groupTicketFreed _
        obtain ⟨hu, hs⟩ := hl u List.mem_cons_self
        rw [h.ticket_inj (hsub t ht) hu e]; exact hs
      · intro t ht
        have := mem_groupTicketFreed _ _ _ ht
        exact hsub t (List.mem_of_mem_filter this)
  exact key _ w (fun u hu => by simp at hu; exact ⟨hu.1, hu.2.2⟩) h fun t ht => ht

/-! ### The slot arbiter -/

theorem count_le_succ {l : List Ticket} (hl : (l.map Ticket.number).Nodup) (n : Nat) (f : Ticket → Ticket) (Q : Ticket → Bool)
    (hf : ∀ t ∈ l, t.number ≠ n → f t = t) : ((l.map f).filter Q).length ≤ (l.filter Q).length + 1 := by
  induction l with
  | nil => simp
  | cons x l ih =>
    rw [List.map_cons, List.nodup_cons] at hl
    by_cases hx : x.number = n
    · have : l.map f = l := by
        conv => rhs; rw [← List.map_id l]
        refine List.map_congr_left fun t ht => hf t (List.mem_cons_of_mem x ht) fun e => hl.1 ?_
        rw [hx, ← e]; exact List.mem_map_of_mem ht
      rw [List.map_cons, this, List.filter_cons, List.filter_cons]
      split <;> split <;> (simp; try omega)
    · have ih := ih hl.2 fun t ht => hf t (List.mem_cons_of_mem x ht)
      rw [List.map_cons, hf x List.mem_cons_self hx, List.filter_cons, List.filter_cons]
      split
      · simpa using ih
      · exact ih

theorem mem_insertTicket (t u : Ticket) (l : List Ticket) : u ∈ insertTicket t l ↔ u = t ∨ u ∈ l := by
  induction l with
  | nil => simp [insertTicket]
  | cons x l ih =>
    unfold insertTicket
    split
    · simp
    · simp only [List.mem_cons, ih]; tauto

theorem mem_sortTickets (u : Ticket) (l : List Ticket) : u ∈ sortTickets l ↔ u ∈ l := by
  unfold sortTickets
  induction l with
  | nil => simp
  | cons x l ih => rw [List.foldr_cons, mem_insertTicket, ih, List.mem_cons]

theorem mem_queueOf {k : Kitchen} {st : Nat} {t : Ticket} (h : t ∈ queueOf k st) : t ∈ k.tickets ∧ t.station = st := by
  simp only [queueOf, List.mem_append, mem_sortTickets, List.mem_filter, Bool.and_eq_true, beq_iff_eq] at h
  rcases h with h | h <;> exact ⟨h.1.1, h.1.2.1⟩

theorem Kitchen.recordsSound.grantOne (h : w.recordsSound) (st : Nat) : (grantOne st w).recordsSound := by
  unfold Machine.grantOne
  split
  · rename_i x hx
    split
    · rename_i hlt
      split
      · rename_i t hte
        have hq : t ∈ queueOf w.toKitchen x.number := List.mem_of_find?_eq_some hte
        obtain ⟨htm, hts⟩ := mem_queueOf hq
        have hxn : x.number = st := entryOf_key hx
        have hxm : x ∈ w.stations := List.mem_of_find?_eq_some hx
        have hslot : holdsSlot t = false := by
          have : eligible w.toKitchen x t = true := by simpa using List.find?_some hte
          simp only [eligible, Bool.and_eq_true, beq_iff_eq] at this
          simp [holdsSlot, this.1.1]
        have hset : (Machine.setTicket t.number becomeSent w).recordsSound := by
          have hf : ∀ u : Ticket, (if u.number = t.number then becomeSent u else u).number = u.number ∧
              (if u.number = t.number then becomeSent u else u).desc = u.desc ∧
              ((if u.number = t.number then becomeSent u else u).state = .voiding → u.state = .voiding) := by
            intro u
            unfold becomeSent
            split
            · split
              · exact ⟨rfl, rfl, fun h => by cases h⟩
              · exact ⟨rfl, rfl, id⟩
            · exact ⟨rfl, rfl, id⟩
          refine h.reshape (k' := (Machine.setTicket t.number becomeSent w).toKitchen) id rfl rfl rfl h.marks (List.Sublist.refl _)
            (fun g hg => ⟨g, hg, rfl, id, rfl⟩) (fun _ => true) (fun u => if u.number = t.number then becomeSent u else u)
            (by simp [Machine.setTicket, updateEntry]) (fun u _ => hf u) (fun _ _ hk => by cases hk) h.draws ?_ (fun _ _ _ hg => hg)
          intro y hy
          by_cases hyn : y.number = st
          · have hyx : y = x := by
              have := entryOf_of_mem (key := Station.number) h.stations hy
              rw [hyn] at this
              exact Option.some.inj (this.symm.trans hx)
            subst hyx
            rw [hyn]
            refine le_trans (count_le_succ h.numbers t.number _ _ fun u _ hu => if_neg hu) ?_
            exact hlt
          · have e : slotsHeld (Machine.setTicket t.number becomeSent w).toKitchen y.number = slotsHeld w.toKitchen y.number := by
              unfold slotsHeld
              simp only [Machine.setTicket, updateEntry, List.filter_map, List.length_map]
              congr 1
              apply List.filter_congr
              intro u hu
              simp only [Function.comp_apply]
              split
              · rename_i e
                have : u = t := h.ticket_inj hu htm e
                subst this
                have h1 : (becomeSent u).station = u.station := by unfold becomeSent; split <;> rfl
                have h2 : (u.station == y.number) = false := by
                  rw [hts, hxn]; simpa using fun q => hyn q.symm
                rw [h1, h2]; rfl
              · rfl
            rw [e]; exact h.slots y hy
        unfold Machine.grant Machine.groupSent
        refine Kitchen.recordsSound.recompute ?_ _
        refine (hset.atCurrent _ _ fun y => pendPost_ascend _ _ y).setGroup _ _ fun g _ _ => ?_
        split
        · rename_i hg
          exact ⟨rfl, by simp [hg], rfl⟩
        · exact ⟨rfl, Iff.rfl, rfl⟩
      · exact h
    · exact h
  · exact h

theorem Kitchen.recordsSound.grantSlots (h : w.recordsSound) (st n : Nat) : (grantSlots st n w).recordsSound := by
  induction n generalizing w with
  | zero => exact h
  | succ n ih => exact ih (h.grantOne st)

theorem Kitchen.recordsSound.reviseStaged (h : w.recordsSound) (st : Nat) : (reviseStaged st w).recordsSound := by
  unfold Machine.reviseStaged
  split
  · split
    · exact h
    · exact (h.setStation st _ (by intro s; rfl)).atCurrent st _ (markNext_ascend st)
  · exact h

theorem Kitchen.recordsSound.arbiter (h : w.recordsSound) (st : Nat) : (arbiter st w).recordsSound := by
  unfold Machine.arbiter
  split
  · exact (h.grantSlots st _).reviseStaged st
  · exact h

theorem Kitchen.recordsSound.arbiters (h : w.recordsSound) (sts : List Nat) : (arbiters sts w).recordsSound :=
  h.forEach _ (fun n _ h => h.arbiter n) sts

theorem Kitchen.recordsSound.changeMode (h : w.recordsSound) (st : Nat) (m : Mode) (c : Nat) (cause : ModeCause) (t : Nat) :
    (changeMode st m c cause t w).recordsSound := by
  unfold Machine.changeMode
  exact (((h.setStation st _ (by intro s; rfl)).raise _).atCurrent st _ (markMode_ascend st)).arbiter st

theorem Kitchen.recordsSound.drainEnd (h : w.recordsSound) (st : Nat) : (drainEnd st w).recordsSound := by
  unfold Machine.drainEnd
  split
  · split
    · exact h.changeMode _ _ _ _ _
    · exact h
  · exact h

theorem Kitchen.recordsSound.slotFreed (h : w.recordsSound) (st : Nat) : (slotFreed st w).recordsSound := (h.arbiter st).drainEnd st

/-! ### Stock -/

theorem Kitchen.recordsSound.commit (h : w.recordsSound) (item n : Nat) : (commit item n w).1.recordsSound := by
  unfold Machine.commit
  split
  · exact h.setItem _ _ (by intro i; rfl)
  · exact h

theorem Kitchen.recordsSound.giveBack (h : w.recordsSound) (item n : Nat) : (giveBack item n w).recordsSound := by
  unfold Machine.giveBack
  split
  · exact h
  · exact h.setItem _ _ (by intro i; rfl)

theorem Kitchen.recordsSound.settleStock (h : w.recordsSound) (before : List Item) : (settleStock before w).recordsSound :=
  h.forEach _ (fun _ _ h => h.raise _) _

theorem Kitchen.recordsSound.offer (h : w.recordsSound) (sub n : Nat) : (offer sub n w).1.recordsSound := by
  unfold Machine.offer
  split
  · split
    · exact h
    · split
      · exact h.commit sub n
      · exact h
  · exact h

/-! ### The Pass Unit -/

theorem Kitchen.recordsSound.refreshDisplay (h : w.recordsSound) (n : Nat) : (refreshDisplay n w).recordsSound := by
  unfold Machine.refreshDisplay
  split
  · split
    · exact h
    · exact (h.setGroup n (fun g => { g with display := displayOf g }) fun _ _ _ => ⟨rfl, Iff.rfl, rfl⟩).handNote _
  · exact h

theorem Kitchen.recordsSound.recomputeLife (h : w.recordsSound) (n : Nat) : (recomputeLife n w).recordsSound :=
  h.setGroup n (fun g => { g with lifeEnd := lifeEndOf w.toKitchen n }) fun _ _ _ => ⟨rfl, Iff.rfl, rfl⟩

theorem mem_insertDraw (k : Kitchen) (n m : Nat) (l : List Nat) (h : m ∈ insertDraw k n l) : m = n ∨ m ∈ l := by
  induction l with
  | nil => simpa [insertDraw] using h
  | cons x l ih =>
    unfold insertDraw at h
    split at h
    · simpa using h
    · rcases List.mem_cons.1 h with h | h
      · exact .inr (h ▸ List.mem_cons_self)
      · exact (ih h).imp id (List.mem_cons_of_mem x)

theorem Kitchen.recordsSound.joinDraw (h : w.recordsSound) (n : Nat) (hn : ∀ g ∈ w.groups, g.number = n → g.state ≠ .cancelled) :
    (joinDraw n w).recordsSound := by
  refine h.reshape (k' := (Machine.joinDraw n w).toKitchen) id rfl rfl rfl h.marks (List.Sublist.refl _)
    (fun g hg => ⟨g, hg, rfl, id, rfl⟩) (fun _ => true) id (by simp [Machine.joinDraw]) (fun _ _ => ⟨rfl, rfl, id⟩)
    (fun _ _ hk => by cases hk) ?_ h.slots (fun _ _ _ hg => hg)
  intro m hm g hg e
  rcases mem_insertDraw _ _ _ _ hm with q | q
  · exact hn g hg (e.trans q)
  · exact h.draws m (List.mem_of_mem_filter q) g hg e

theorem Kitchen.recordsSound.leaveDraw (h : w.recordsSound) (n : Nat) : (leaveDraw n w).recordsSound :=
  h.same rfl rfl rfl rfl rfl rfl id fun _ hm => List.mem_of_mem_filter hm

/-- A group found is not found CANCELLED where its test passes. -/
theorem found_state (h : w.recordsSound) {n : Nat} {g : Group} (hg : findGroup w.toKitchen n = some g) {x : Group}
    (hx : x ∈ w.groups) (e : x.number = n) : x = g := by
  have := entryOf_of_mem (key := Group.number) h.groups hx
  rw [e] at this
  exact Option.some.inj (this.symm.trans hg)

theorem Kitchen.recordsSound.becomeReady (h : w.recordsSound) (n : Nat) (hn : ∀ g ∈ w.groups, g.number = n → g.state ≠ .cancelled) :
    (becomeReady n w).recordsSound := by
  unfold Machine.becomeReady
  split
  · have h1 := h.setGroup n (fun g => { g with state := .ready }) fun x hx e =>
      ⟨rfl, ⟨(fun q => by cases q), fun q => absurd q (hn x hx e)⟩, rfl⟩
    exact ((h1.raise _).refreshDisplay n).leaveDraw n
  · exact h

theorem testPasses_state {k : Kitchen} {g : Group} (h : testPasses k g = true) : g.state ≠ .cancelled := by
  simp only [testPasses, keepsProjection, Bool.and_eq_true, Bool.or_eq_true, beq_iff_eq] at h
  rcases h.1.1.1.2 with e | e <;> rw [e] <;> decide

theorem Kitchen.recordsSound.testGroup (h : w.recordsSound) (n : Nat) : (testGroup n w).recordsSound := by
  unfold Machine.testGroup
  split
  · rename_i g hg
    split
    · rename_i ht
      split
      · exact h.joinDraw n fun x hx e => found_state h hg hx e ▸ testPasses_state ht
      · exact h.becomeReady n fun x hx e => found_state h hg hx e ▸ testPasses_state ht
    · exact h.leaveDraw n
  · exact h.leaveDraw n

theorem Kitchen.recordsSound.checkDraw (h : w.recordsSound) (n : Nat) : (checkDraw n w).recordsSound := by
  unfold Machine.checkDraw
  split
  · split
    · exact h
    · exact h.leaveDraw n
  · exact h.leaveDraw n

theorem Kitchen.recordsSound.handOver (h : w.recordsSound) (n : Nat) : (handOver n w).recordsSound := (h.recomputeLife n).testGroup n

theorem Kitchen.recordsSound.drawLine (h : w.recordsSound) (n : Nat) (l : Line) (hl : itemKind w.toKitchen l.item ≠ some .plated) :
    (drawLine n l w).recordsSound := by
  unfold Machine.drawLine
  split
  · rename_i g i _ _
    dsimp only
    have h1 := h.setItem l.item (fun i' => { i' with pool := i'.pool - min l.count i.pool }) (by intro i; rfl)
    have hd := (updateEntry_map (key := Item.number) Item.definition l.item (fun i' : Item => { i' with pool := i'.pool - min l.count i.pool }) w.items
      fun _ _ _ => rfl)
    have h2 := h1.setGroup n (fun g =>
      { g with
        lines := g.lines.map fun m =>
          if (m.item == l.item && m.subFrom == l.subFrom) = true then
            { m with drawn := true, shortfall := l.count - min l.count i.pool } else m
        flags := { g.flags with short := g.flags.short || decide (0 < l.count - min l.count i.pool) } }) fun g _ _ => by
      refine ⟨rfl, Iff.rfl, ?_⟩
      rw [List.map_map]
      refine List.map_congr_left fun m _ => ?_
      simp only [Function.comp_apply]
      split
      · rename_i e
        simp only [Bool.and_eq_true, beq_iff_eq] at e
        have hk : itemKind (Machine.setItem l.item (fun i' => { i' with pool := i'.pool - min l.count i.pool }) w).toKitchen m.item ≠
            some .plated := by
          rw [itemKind_congr (k := w.toKitchen) hd, e.1]; exact hl
        simp only [Line.share, Line.key, committedOf]
        rw [if_neg hk, if_neg hk]
      · rfl
    split
    · exact h2.raise _
    · exact h2
  · exact h

theorem undrawn_kind {k : Kitchen} {l : Line} (h : undrawn k l = true) : itemKind k l.item ≠ some .plated := by
  simp only [undrawn, Bool.and_eq_true, beq_iff_eq] at h
  intro e
  simp_all

/-- A draw changes no group's number and makes none CANCELLED. -/
theorem drawLine_live (n : Nat) (l : Line) (w : Work) (m : Nat) (hm : ∀ g ∈ w.groups, g.number = m → g.state ≠ .cancelled) :
    ∀ g ∈ (drawLine n l w).groups, g.number = m → g.state ≠ .cancelled := by
  unfold drawLine
  split
  · dsimp only
    split
    all_goals
      intro g hg e
      rcases mem_updateEntry (l := w.groups) hg with ⟨q, -⟩ | ⟨x, hx, -, rfl⟩
      · exact hm g q e
      · exact hm x hx e
  · exact hm

theorem becomeReady_live (n : Nat) (w : Work) (m : Nat) (hm : ∀ g ∈ w.groups, g.number = m → g.state ≠ .cancelled) :
    ∀ g ∈ (becomeReady n w).groups, g.number = m → g.state ≠ .cancelled := by
  have key : ∀ (f : Group → Group) (v : Work), (∀ g ∈ v.groups, g.number = m → g.state ≠ .cancelled) →
      (∀ g, (f g).number = g.number ∧ (g.state ≠ .cancelled → (f g).state ≠ .cancelled)) →
      ∀ g ∈ (setGroup n f v).groups, g.number = m → g.state ≠ .cancelled := by
    intro f v hv hf g hg e
    rcases mem_updateEntry hg with ⟨q, -⟩ | ⟨x, hx, -, rfl⟩
    · exact hv g q e
    · exact (hf x).2 (hv x hx ((hf x).1.symm.trans e))
  unfold becomeReady
  split
  · dsimp only
    unfold refreshDisplay
    have h1 := key (fun g => { g with state := .ready }) w hm fun g => ⟨rfl, fun _ q => by cases q⟩
    split
    · split
      · exact h1
      · exact key (fun g => { g with display := displayOf g }) _ h1 fun g => ⟨rfl, id⟩
    · exact h1
  · exact hm

theorem Kitchen.recordsSound.drawGroup (h : w.recordsSound) (n : Nat) (ls : List Line)
    (hl : ∀ l ∈ ls, itemKind w.toKitchen l.item ≠ some .plated) (hn : ∀ g ∈ w.groups, g.number = n → g.state ≠ .cancelled) :
    (drawGroup n ls w).recordsSound ∧ ∀ m, (∀ g ∈ w.groups, g.number = m → g.state ≠ .cancelled) →
      ∀ g ∈ (drawGroup n ls w).groups, g.number = m → g.state ≠ .cancelled := by
  unfold Machine.drawGroup
  have key : ∀ (ls : List Line) (w : Work), w.recordsSound → (∀ l ∈ ls, itemKind w.toKitchen l.item ≠ some .plated) →
      (ls.foldl (fun w l => Machine.drawLine n l w) w).recordsSound ∧ ∀ m, (∀ g ∈ w.groups, g.number = m → g.state ≠ .cancelled) →
        ∀ g ∈ (ls.foldl (fun w l => Machine.drawLine n l w) w).groups, g.number = m → g.state ≠ .cancelled := by
    intro ls
    induction ls with
    | nil => exact fun w h _ => ⟨h, fun _ h => h⟩
    | cons l ls ih =>
      intro w h hl
      obtain ⟨i1, i2⟩ := ih (Machine.drawLine n l w) (h.drawLine n l (hl l List.mem_cons_self)) fun x hx => by
        rw [itemKind_congr ((Steady.refl w).drawLine n l).items]
        exact hl x (List.mem_cons_of_mem l hx)
      exact ⟨i1, fun m hm => i2 m (drawLine_live n l w m hm)⟩
  obtain ⟨h1, h2⟩ := key ls w h hl
  exact ⟨h1.becomeReady n (h2 n hn), fun m hm => becomeReady_live n _ m (h2 m hm)⟩

theorem Kitchen.recordsSound.drawWalk (h : w.recordsSound) (ns ahead : List Nat)
    (hn : ∀ n ∈ ns, ∀ g ∈ w.groups, g.number = n → g.state ≠ .cancelled) : (drawWalk ns ahead w).recordsSound := by
  induction ns generalizing ahead w with
  | nil => exact h
  | cons n rest ih =>
    unfold Machine.drawWalk
    split
    · rename_i g _
      dsimp only
      split
      · exact ih h _ fun m hm => hn m (List.mem_cons_of_mem n hm)
      · obtain ⟨h1, h2⟩ := h.drawGroup n (g.lines.filter (undrawn w.toKitchen))
          (fun l hl => undrawn_kind (List.of_mem_filter hl)) (hn n List.mem_cons_self)
        exact ih h1 _ fun m hm => h2 m (hn m (List.mem_cons_of_mem n hm))
    · exact ih h _ fun m hm => hn m (List.mem_cons_of_mem n hm)

theorem Kitchen.recordsSound.drawPass (h : w.recordsSound) : (drawPass w).recordsSound := h.drawWalk _ _ h.draws

end

end Sys2Proof.Machine
end

