-- ==== Sys2Proof/Laws/RecordsTaken.lean ====
section
/-! SUPPORT. Sound records through the creating of tickets: the numbers the counter gives (R82), and a run (R152). -/

namespace Sys2Proof.Machine

/-! ### The number counter (R82) -/

/-- The number i places after n in the round of 1 to 9,999. -/
def numberFrom (n i : Nat) : Nat := (n - 1 + i) % 9999 + 1

theorem numberFrom_zero {n : Nat} (h1 : 1 ≤ n) (h2 : n ≤ 9999) : numberFrom n 0 = n := by unfold numberFrom; omega

theorem numberAfter_range (n : Nat) : 1 ≤ numberAfter n ∧ (n ≤ 9999 → numberAfter n ≤ 9999) := by
  unfold numberAfter Config.maxTicketNumber
  split <;> omega

theorem numberFrom_after {n : Nat} (h1 : 1 ≤ n) (h2 : n ≤ 9999) (i : Nat) : numberFrom (numberAfter n) i = numberFrom n (i + 1) := by
  unfold numberFrom numberAfter Config.maxTicketNumber
  split <;> omega

theorem pickNumber_range (used : List Nat) (fuel n : Nat) (h1 : 1 ≤ n) (h2 : n ≤ 9999) :
    1 ≤ pickNumber used fuel n ∧ pickNumber used fuel n ≤ 9999 := by
  induction fuel generalizing n with
  | zero => exact ⟨h1, h2⟩
  | succ fuel ih =>
    unfold pickNumber
    split
    · exact ih _ (numberAfter_range n).1 ((numberAfter_range n).2 h2)
    · exact ⟨h1, h2⟩

theorem pickNumber_used (used : List Nat) (fuel n : Nat) (h1 : 1 ≤ n) (h2 : n ≤ 9999) (h : pickNumber used fuel n ∈ used) :
    ∀ i, i ≤ fuel → numberFrom n i ∈ used := by
  induction fuel generalizing n with
  | zero =>
    intro i hi
    rw [Nat.le_zero.1 hi, numberFrom_zero h1 h2]; exact h
  | succ fuel ih =>
    unfold pickNumber at h
    split at h
    · rename_i hu
      intro i hi
      cases i with
      | zero => rw [numberFrom_zero h1 h2]; simpa using hu
      | succ i =>
        rw [← numberFrom_after h1 h2]
        exact ih _ (numberAfter_range n).1 ((numberAfter_range n).2 h2) h i (Nat.le_of_succ_le_succ hi)
    · rename_i hu
      simp at hu
      exact absurd h hu

/-- With fewer than 9,999 numbers in use the counter finds a free one (R82). -/
theorem pickNumber_fresh (used : List Nat) (n : Nat) (h1 : 1 ≤ n) (h2 : n ≤ 9999) (hl : used.length < 9999) :
    pickNumber used used.length n ∉ used := by
  intro h
  have hs := pickNumber_used used used.length n h1 h2 h
  have hn : ((List.range (used.length + 1)).map (numberFrom n)).Nodup := by
    refine List.Nodup.map_on ?_ List.nodup_range
    intro a ha b hb e
    simp only [List.mem_range] at ha hb
    unfold numberFrom at e
    omega
  have hsub : ((List.range (used.length + 1)).map (numberFrom n)) ⊆ used := by
    intro x hx
    obtain ⟨i, hi, rfl⟩ := List.mem_map.1 hx
    exact hs i (Nat.le_of_lt_succ (List.mem_range.1 hi))
  have := (hn.subperm hsub).length_le
  simp at this

section

variable {w : Work}

/-- What a description must be for its ticket to join sound records. -/
structure TicketDesc.fits (k : Kitchen) (d : TicketDesc) : Prop where
  home : (d.kind = .standing ∧ k.event = .service) ∨ ∃ g ∈ k.groups, g.number = d.group
  batch : d.kind ≠ .standing → ∀ c, componentOf k d.item d.comp = some c → d.portions ≤ max c.batch 1

theorem Kitchen.recordsSound.createTicket (h : w.recordsSound) (d : TicketDesc) (hd : d.fits w.toKitchen)
    (room : w.tickets.length < Config.poolRecords) : (createTicket d w).recordsSound := by
  have hr := pickNumber_range (w.tickets.map Ticket.number) w.tickets.length w.nextTicket h.counter.1 h.counter.2
  have hf := pickNumber_fresh (w.tickets.map Ticket.number) w.nextTicket h.counter.1 h.counter.2 (by
    rw [List.length_map]; exact lt_trans room (by decide))
  rw [List.length_map] at hf
  refine ⟨h.items, h.stations, h.groups, ?_, ?_, ?_, ?_, ?_, h.marks, h.lines, ?_, ?_, h.draws⟩
  · simp only [Machine.createTicket, List.map_append, List.map_cons, List.map_nil]
    exact h.numbers.append (List.nodup_singleton _) (by simpa using hf)
  · simp only [Machine.createTicket, List.length_append, List.length_singleton]
    exact room
  · exact ⟨(numberAfter_range _).1, (numberAfter_range _).2 hr.2⟩
  · intro t ht
    rcases List.mem_append.1 ht with ht | ht
    · exact h.homes t ht
    · rw [List.mem_singleton.1 ht]; exact hd.home
  · intro x hx
    have : slotsHeld (Machine.createTicket d w).toKitchen x.number = slotsHeld w.toKitchen x.number := by
      unfold slotsHeld
      simp only [Machine.createTicket, List.filter_append, List.length_append]
      rw [List.filter_cons_of_neg (by
        simp only [Bool.and_eq_true, not_and, Bool.not_eq_true]
        intro _
        unfold holdsSlot
        dsimp only
        split <;> rfl)]
      simp
    rw [this]; exact h.slots x hx
  · intro t ht hk c hc
    rcases List.mem_append.1 ht with ht | ht
    · exact h.batches t ht hk c hc
    · rw [List.mem_singleton.1 ht] at hk hc ⊢
      exact hd.batch hk c hc
  · intro g hg hs l hl i c hc hst
    refine le_trans (h.covered g hg hs l hl i c hc hst) ?_
    unfold livePortions portionsOf
    simp only [Machine.createTicket, List.filter_append, List.map_append, List.sum_append]
    exact Nat.le_add_right _ _

theorem createTicket_length (d : TicketDesc) (w : Work) : (createTicket d w).tickets.length = w.tickets.length + 1 := by
  simp [createTicket]

theorem Kitchen.recordsSound.createTickets (h : w.recordsSound) (ds : List TicketDesc) (hd : ∀ d ∈ ds, d.fits w.toKitchen)
    (room : w.tickets.length + ds.length ≤ Config.poolRecords) : (createTickets ds w).recordsSound := by
  unfold Machine.createTickets
  induction ds generalizing w with
  | nil => exact h
  | cons d ds ih =>
    simp only [List.length_cons] at room
    refine ih (h.createTicket d (hd d List.mem_cons_self) (by omega)) (fun x hx => ?_) ?_
    · exact ⟨(hd x (List.mem_cons_of_mem d hx)).home, (hd x (List.mem_cons_of_mem d hx)).batch⟩
    · rw [createTicket_length]; omega

/-! ### Standing runs -/

theorem Kitchen.recordsSound.createRun (h : w.recordsSound) (i : Item) (hs : w.event = .service)
    (room : w.tickets.length < Config.poolRecords) : (createRun i w).recordsSound := by
  unfold Machine.createRun
  split
  · exact h
  · split
    · dsimp only
      have h1 := ((h.commit i.number (takeable i.stock i.runSize)).settleStock w.items)
      have e1 : ∀ w' : Work, (Machine.settleStock w.items w').tickets = w'.tickets ∧ (Machine.settleStock w.items w').event = w'.event := by
        intro w'
        unfold Machine.settleStock Machine.forEach
        generalize List.map _ _ = l
        induction l generalizing w' with
        | nil => exact ⟨rfl, rfl⟩
        | cons x l ih => exact ih _
      have e2 : (Machine.commit i.number (takeable i.stock i.runSize) w).1.tickets = w.tickets ∧
          (Machine.commit i.number (takeable i.stock i.runSize) w).1.event = w.event := by
        unfold Machine.commit; split <;> exact ⟨rfl, rfl⟩
      refine (h1.createTicket _ ⟨.inl ⟨rfl, ?_⟩, fun q => absurd rfl q⟩ ?_).arbiter _
      · rw [(e1 _).2, e2.2]; exact hs
      · rw [(e1 _).1, e2.1]; exact room
    · exact h

theorem Kitchen.recordsSound.runTest (h : w.recordsSound) (item : Nat) : (runTest item w).recordsSound := by
  unfold Machine.runTest
  split
  · split
    · rename_i hr
      simp only [runWanted, Bool.and_eq_true, beq_iff_eq, decide_eq_true_eq] at hr
      refine h.createRun _ hr.1.1.1.1.1 ?_
      have := hr.2
      unfold freeRecords at this
      omega
    · exact h
  · exact h

theorem Kitchen.recordsSound.runTests (h : w.recordsSound) : (runTests w).recordsSound := h.forEach _ (fun n _ h => h.runTest n) _

theorem Kitchen.recordsSound.passRounds (h : w.recordsSound) (n : Nat) : (passRounds n w).recordsSound := by
  induction n generalizing w with
  | zero => exact h
  | succ n ih =>
    unfold Machine.passRounds
    dsimp only
    split
    · exact h.drawPass.runTests
    · exact ih h.drawPass.runTests

theorem Kitchen.recordsSound.passSettle (h : w.recordsSound) : (passSettle w).recordsSound := by
  unfold Machine.passSettle
  split
  · exact h.passRounds _
  · exact h

end

end Sys2Proof.Machine
end

