-- ==== Sys2Proof/Laws/RecordsRebuilt.lean ====
section
/-! SUPPORT. Sound records through the rebuild of a group's tickets in a taken request (R43, R46, R50, R159): while its tickets are freed
and taken anew the group is shelved, and it comes back with lines that its tickets cover. -/

namespace Sys2Proof.Machine

section

variable {w : Work}

/-! ### A group shelved: it asks for no cover while its tickets are rebuilt -/

/-- The group as CANCELLED and out of the draw order. -/
def Work.shelve (n : Nat) (w : Work) : Work :=
  leaveDraw n (setGroup n (fun g => { g with state := .cancelled }) w)

/-- A group that becomes CANCELLED, or keeps its state, and leaves the draw order. -/
theorem Kitchen.recordsSound.cancelGroup (h : w.recordsSound) (n : Nat) (f : Group → Group)
    (hf : ∀ g, (f g).number = g.number ∧ (f g).state = .cancelled ∧ (f g).lines = g.lines) :
    (Machine.leaveDraw n (Machine.setGroup n f w)).recordsSound := by
  have hn : (updateEntry Group.number n f w.groups).map Group.number = w.groups.map Group.number :=
    updateEntry_map _ n f w.groups fun g _ _ => (hf g).1
  refine h.reshape (k' := (Machine.leaveDraw n (Machine.setGroup n f w)).toKitchen) id rfl rfl rfl h.marks
    (hn ▸ List.Sublist.refl _) ?_ (fun _ => true) id (by simp [Machine.leaveDraw, Machine.setGroup]) (fun _ _ => ⟨rfl, rfl, id⟩)
    (fun _ _ hk => by cases hk) ?_ h.slots ?_
  · intro g' hg
    rcases mem_updateEntry (l := w.groups) hg with ⟨hm, -⟩ | ⟨g, hg0, e, rfl⟩
    · exact ⟨g', hm, rfl, id, rfl⟩
    · obtain ⟨h1, h2, h3⟩ := hf g
      exact ⟨g, hg0, h1, fun q => absurd h2 q, by rw [h3]⟩
  · intro m hm g' hg e
    obtain ⟨hm1, hm2⟩ := List.mem_filter.1 hm
    rcases mem_updateEntry (l := w.groups) hg with ⟨q, -⟩ | ⟨g, -, e', rfl⟩
    · exact h.draws m hm1 g' q e
    · rw [(hf g).1] at e
      simp [← e, e'] at hm2
  · intro t _ _ ⟨g, hg, e⟩
    have : g.number ∈ (updateEntry Group.number n f w.groups).map Group.number := hn ▸ List.mem_map_of_mem hg
    obtain ⟨g', hg', e'⟩ := List.mem_map.1 this
    exact ⟨g', hg', e'.trans e⟩

/-- Records sound but for the cover of group n's lines. -/
def Work.soundBut (n : Nat) (w : Work) : Prop := (w.shelve n).recordsSound

theorem Kitchen.recordsSound.shelved (h : w.recordsSound) (n : Nat) : w.soundBut n :=
  h.cancelGroup n (fun g => { g with state := .cancelled }) fun _ => ⟨rfl, rfl, rfl⟩

theorem shelve_forEach_dropTicket (n : Nat) (ns : List Nat) (w : Work) :
    (forEach dropTicket ns w).shelve n = forEach dropTicket ns (w.shelve n) := by
  unfold forEach
  induction ns generalizing w with
  | nil => rfl
  | cons m ns ih => exact ih (dropTicket m w)

theorem shelve_createTickets (n : Nat) (ds : List TicketDesc) (w : Work) :
    (createTickets ds w).shelve n = createTickets ds (w.shelve n) := by
  unfold createTickets
  induction ds generalizing w with
  | nil => rfl
  | cons d ds ih => exact ih (createTicket d w)

theorem mem_shelve {n : Nat} {g : Group} (h : g ∈ (w.shelve n).groups) (e : g.number = n) : g.state = .cancelled := by
  rcases mem_updateEntry (l := w.groups) h with ⟨-, q⟩ | ⟨x, -, -, rfl⟩
  · exact absurd e q
  · rfl

theorem shelve_numbers (n : Nat) (w : Work) : (w.shelve n).groups.map Group.number = w.groups.map Group.number :=
  updateEntry_map _ n _ w.groups fun _ _ _ => rfl

theorem exists_group_congr {k k' : Kitchen} (e : k'.groups.map Group.number = k.groups.map Group.number) {n : Nat}
    (h : ∃ g ∈ k.groups, g.number = n) : ∃ g ∈ k'.groups, g.number = n := by
  obtain ⟨g, hg, rfl⟩ := h
  have : g.number ∈ k'.groups.map Group.number := e ▸ List.mem_map_of_mem hg
  obtain ⟨g', h1, h2⟩ := List.mem_map.1 this
  exact ⟨g', h1, h2⟩

theorem Kitchen.recordsSound.dropTickets (h : w.recordsSound) (ns : List Nat)
    (hn : ∀ t ∈ w.tickets, t.number ∈ ns → mayGo w.toKitchen t) : (Machine.forEach Machine.dropTicket ns w).recordsSound := by
  unfold Machine.forEach
  induction ns generalizing w with
  | nil => exact h
  | cons n ns ih =>
    refine ih (h.dropTicket n fun t ht e => hn t ht (e ▸ List.mem_cons_self)) fun t ht hm => ?_
    exact hn t (List.mem_of_mem_filter ht) (List.mem_cons_of_mem n hm)

/-- The freeing of tickets of the shelved group. -/
theorem Work.soundBut.dropTickets {n : Nat} (h : w.soundBut n) (ns : List Nat) (hn : ∀ t ∈ w.tickets, t.number ∈ ns → t.group = n) :
    (Machine.forEach Machine.dropTicket ns w).soundBut n := by
  unfold Work.soundBut at *
  rw [shelve_forEach_dropTicket]
  exact Kitchen.recordsSound.dropTickets h ns fun t ht hm => .inr (.inr fun g hg e => mem_shelve hg (e.trans (hn t ht hm)))

/-- The creating of tickets for the groups in use. -/
theorem Work.soundBut.createTickets {n : Nat} (h : w.soundBut n) (ds : List TicketDesc) (hd : ∀ d ∈ ds, d.fits w.toKitchen)
    (room : w.tickets.length + ds.length ≤ Config.poolRecords) : (Machine.createTickets ds w).soundBut n := by
  unfold Work.soundBut at *
  rw [shelve_createTickets]
  exact Kitchen.recordsSound.createTickets h ds
    (fun d hm => ⟨(hd d hm).home.imp id (exists_group_congr (shelve_numbers n w)), (hd d hm).batch⟩) room

/-- A change of the shelved group that keeps its lines. -/
theorem Work.soundBut.setGroup {n : Nat} (h : w.soundBut n) (f : Group → Group)
    (hf : ∀ g, (f g).number = g.number ∧ (f g).lines = g.lines) : (Machine.setGroup n f w).soundBut n := by
  unfold Work.soundBut at *
  have e : ((Machine.setGroup n f w).shelve n).toKitchen =
      (Machine.leaveDraw n (Machine.setGroup n (fun g => { g with state := .cancelled }) (Machine.setGroup n f w))).toKitchen := rfl
  have hn : ((Machine.setGroup n f w).shelve n).groups.map Group.number = (w.shelve n).groups.map Group.number := by
    rw [shelve_numbers, shelve_numbers]
    exact updateEntry_map _ n f w.groups fun g _ _ => (hf g).1
  refine h.tame (k' := ((Machine.setGroup n f w).shelve n).toKitchen) id rfl rfl rfl (fun _ h => h) h.marks (hn ▸ List.Sublist.refl _) ?_ (fun _ => true) id
    (by simp [Work.shelve, Machine.leaveDraw, Machine.setGroup]) (fun t _ => Ticket.tamely.refl t) (fun _ _ hk => by cases hk)
    (fun t _ _ hg => exists_group_congr hn hg)
  intro g' hg
  rcases mem_updateEntry (l := (Machine.setGroup n f w).groups) hg with ⟨hm, q⟩ | ⟨g, hg0, e0, rfl⟩
  · rcases mem_updateEntry (l := w.groups) hm with ⟨hm', q'⟩ | ⟨x, hx, ex, rfl⟩
    · refine ⟨g', ?_, rfl, Iff.rfl, rfl⟩
      exact List.mem_map.2 ⟨g', hm', if_neg q'⟩
    · exact absurd ((hf x).1.trans ex) q
  · rcases mem_updateEntry (l := w.groups) hg0 with ⟨hm', q'⟩ | ⟨x, hx, ex, rfl⟩
    · exact absurd e0 q'
    · refine ⟨{ x with state := .cancelled }, List.mem_map.2 ⟨x, hx, if_pos ex⟩, (hf x).1, Iff.rfl, ?_⟩
      show (f x).lines.map _ = x.lines.map _
      rw [(hf x).2]

theorem Work.soundBut.handNote {n : Nat} (h : w.soundBut n) (m : Note) : (Machine.handNote m w).soundBut n :=
  Kitchen.recordsSound.handNote (w := w.shelve n) h m

theorem Work.soundBut.recomputeLife {n : Nat} (h : w.soundBut n) : (Machine.recomputeLife n w).soundBut n :=
  h.setGroup _ fun _ => ⟨rfl, rfl⟩

theorem Work.soundBut.clearDying {n : Nat} (h : w.soundBut n) : (Machine.clearDying n w).soundBut n := by
  unfold Machine.clearDying
  split
  · split
    · exact h.setGroup _ fun _ => ⟨rfl, rfl⟩
    · exact h
  · exact h.setGroup _ fun _ => ⟨rfl, rfl⟩

theorem Work.soundBut.refreshDisplay {n : Nat} (h : w.soundBut n) : (Machine.refreshDisplay n w).soundBut n := by
  unfold Machine.refreshDisplay
  split
  · split
    · exact h
    · exact (h.setGroup _ fun _ => by exact ⟨rfl, rfl⟩).handNote _
  · exact h

/-- A shelved group comes back with lines that its tickets cover. -/
theorem Work.soundBut.unshelve {n : Nat} (h : w.soundBut n) (f : Group → Group)
    (hf : ∀ g ∈ w.groups, g.number = n → (f g).number = g.number ∧ (f g).state ≠ .cancelled ∧ ((f g).lines.map Line.key).Nodup ∧
      ∀ l ∈ (f g).lines, ∀ i c, componentOf w.toKitchen l.item i = some c → findStation w.toKitchen c.station ≠ none →
        committedOf w.toKitchen l ≤ livePortions w.toKitchen n l.item l.subFrom i) : (Machine.setGroup n f w).recordsSound := by
  have hn : (Machine.setGroup n f w).groups.map Group.number = w.groups.map Group.number :=
    updateEntry_map _ n f w.groups fun g hg e => (hf g hg e).1
  have hs : (w.shelve n).groups.map Group.number = w.groups.map Group.number := shelve_numbers n w
  have other : ∀ g ∈ (Machine.setGroup n f w).groups, g.number ≠ n → g ∈ (w.shelve n).groups := by
    intro g hg hgn
    rcases mem_updateEntry (l := w.groups) hg with ⟨hm, -⟩ | ⟨x, hx, ex, rfl⟩
    · exact List.mem_map.2 ⟨g, hm, if_neg hgn⟩
    · exact absurd ((hf x hx ex).1.trans ex) hgn
  have mine : ∀ g ∈ (Machine.setGroup n f w).groups, g.number = n → ∃ x ∈ w.groups, x.number = n ∧ g = f x := by
    intro g hg hgn
    rcases mem_updateEntry (l := w.groups) hg with ⟨hm, q⟩ | ⟨x, hx, ex, rfl⟩
    · exact absurd hgn q
    · exact ⟨x, hx, ex, rfl⟩
  refine ⟨h.items, h.stations, ?_, h.numbers, h.pool, h.counter, ?_, h.slots, h.marks, ?_, h.batches, ?_, ?_⟩
  · rw [← List.pairwise_map (f := Group.number) (R := (· < ·)), hn, ← hs]
    exact List.pairwise_map.2 h.groups
  · exact fun t ht => (h.homes t ht).imp id (exists_group_congr (hn.trans hs.symm))
  · intro g hg
    by_cases e : g.number = n
    · obtain ⟨x, hx, ex, rfl⟩ := mine g hg e
      exact (hf x hx ex).2.2.1
    · exact h.lines g (other g hg e)
  · intro g hg hc l hl i c hcomp hst
    by_cases e : g.number = n
    · obtain ⟨x, hx, ex, rfl⟩ := mine g hg e
      rw [e]
      exact (hf x hx ex).2.2.2 l hl i c hcomp hst
    · exact h.covered g (other g hg e) hc l hl i c hcomp hst
  · intro m hm g hg e
    by_cases e' : g.number = n
    · obtain ⟨x, hx, ex, rfl⟩ := mine g hg e'
      exact (hf x hx ex).2.1
    · refine h.draws m (List.mem_filter.2 ⟨hm, ?_⟩) g (other g hg e') e
      simpa using fun q => e' (e.trans q)

end


/-! ### The batches of a computation (R67) -/

theorem batchCount_le (n limit : Nat) (hl : 1 ≤ limit) : n ≤ batchCount n limit * limit ∧ ∀ k, n ≤ k * limit → batchCount n limit ≤ k := by
  unfold batchCount ceilDiv
  constructor
  · have := Nat.div_add_mod (n + (limit - 1)) limit
    have h2 := Nat.mod_lt (n + (limit - 1)) hl
    rw [Nat.mul_comm]
    omega
  · intro k hk
    have : n + (limit - 1) < (k + 1) * limit := by rw [Nat.add_mul]; omega
    exact Nat.lt_succ_iff.1 ((Nat.div_lt_iff_lt_mul hl).2 this)

/-- The batches of n portions hold n together, none is larger than the limit, and no fewer tickets could carry them (R67). -/
theorem batchSizes_spec (n limit : Nat) (hn : 0 < n) :
    (batchSizes n limit).sum = n ∧ (∀ p ∈ batchSizes n limit, p ≤ max limit 1) ∧
      ∀ k, n ≤ k * max limit 1 → (batchSizes n limit).length ≤ k := by
  by_cases hl : limit = 0
  · subst hl
    have hb : batchCount n 0 = 0 := by simp [batchCount, ceilDiv]
    unfold batchSizes
    simp [hb]
  · have hl1 : 1 ≤ limit := by omega
    obtain ⟨h1, h2⟩ := batchCount_le n limit hl1
    have hb : 0 < batchCount n limit := by
      rcases Nat.eq_zero_or_pos (batchCount n limit) with e | e
      · rw [e] at h1; omega
      · exact e
    unfold batchSizes
    generalize batchCount n limit = b at *
    have hdm := Nat.div_add_mod n b
    have hlt := Nat.mod_lt n hb
    have hr : n - n / b * b = n % b := by rw [Nat.mul_comm]; omega
    simp only [hr]
    have hq : n / b ≤ limit := by
      have : n / b ≤ (b * limit) / b := Nat.div_le_div_right h1
      rwa [Nat.mul_div_cancel_left _ hb] at this
    rw [max_eq_left hl1]
    refine ⟨?_, ?_, ?_⟩
    · simp only [List.sum_append, List.sum_replicate, smul_eq_mul]
      have : (b - n % b) * (n / b) + n % b * (n / b) = b * (n / b) := by rw [← Nat.add_mul]; congr 1; omega
      rw [Nat.mul_add]; omega
    · intro p hp
      rcases List.mem_append.1 hp with hp | hp
      · obtain ⟨hne, rfl⟩ := List.mem_replicate.1 hp
        by_contra hc
        have : n / b = limit := by omega
        rw [this] at hdm
        omega
      · rw [(List.mem_replicate.1 hp).2]; exact hq
    · intro k hk
      simp only [List.length_append, List.length_replicate]
      have := h2 k hk
      omega
/-! ### What a computation makes -/

/-- The portions that descriptions give a component of a line. -/
def descPortions (ds : List TicketDesc) (g item : Nat) (sf : Option Nat) (c : Nat) : Nat :=
  ((ds.filter fun d => d.group == g && d.item == item && d.subFrom == sf && d.comp == c && d.kind != .standing).map
    TicketDesc.portions).sum

theorem descPortions_append (a b : List TicketDesc) (g item : Nat) (sf : Option Nat) (c : Nat) :
    descPortions (a ++ b) g item sf c = descPortions a g item sf c + descPortions b g item sf c := by
  simp [descPortions]

theorem live_createTickets (ds : List TicketDesc) (w : Work) (g item : Nat) (sf : Option Nat) (c : Nat) :
    livePortions (createTickets ds w).toKitchen g item sf c = livePortions w.toKitchen g item sf c + descPortions ds g item sf c := by
  unfold createTickets
  induction ds generalizing w with
  | nil => simp [descPortions]
  | cons d ds ih =>
    rw [List.foldl_cons, ih]
    have : livePortions (createTicket d w).toKitchen g item sf c = livePortions w.toKitchen g item sf c + descPortions [d] g item sf c := by
      unfold livePortions portionsOf descPortions
      simp only [createTicket, List.filter_append, List.map_append, List.sum_append]
      congr 1
      have hs : ∀ p : Prop, [Decidable p] → ((if p then TicketState.due else TicketState.queued) != TicketState.voiding) = true := by
        intro p _; split <;> rfl
      simp only [List.filter_cons, List.filter_nil, ofComponent, hs, Bool.and_true]
      split <;> rfl
    rw [this]
    have : d :: ds = [d] ++ ds := rfl
    rw [this, descPortions_append]; omega

/-- Tickets of a component that are not freed go on covering it. -/
theorem portions_kept (ns : List Nat) (w : Work) (P : Ticket → Bool) (g item : Nat) (sf : Option Nat) (c : Nat)
    (h : ∀ t ∈ w.tickets, P t = true → t.number ∉ ns ∧ ofComponent g item sf c t = true ∧ t.state ≠ .voiding) :
    portionsOf w.toKitchen P ≤ livePortions (forEach dropTicket ns w).toKitchen g item sf c := by
  unfold livePortions portionsOf
  have e : (forEach dropTicket ns w).tickets = (w.tickets.filter fun t => !ns.contains t.number).map id := by
    rw [(forEach_dropTicket ns w).1, List.map_id]
  rw [e]
  refine sum_le_of_kept _ _ _ _ _ _ fun t ht hp => ?_
  obtain ⟨h1, h2, h3⟩ := h t ht hp
  refine ⟨by simpa using h1, ?_, rfl⟩
  simp [h2, h3]

/-- A computation made for n portions of a component of a group's line. -/
structure Computation.madeFor (k : Kitchen) (g item : Nat) (sf : Option Nat) (idx n : Nat) (x : Computation) : Prop where
  own : ∀ d ∈ x.tickets, d.group = g ∧ d.item = item ∧ d.subFrom = sf ∧ d.comp = idx ∧ d.kind ≠ .standing
  total : (x.tickets.map TicketDesc.portions).sum = n
  batch : ∀ c, componentOf k item idx = some c → ∀ d ∈ x.tickets, d.portions ≤ max c.batch 1
  fewest : ∀ c, componentOf k item idx = some c → ∀ m, n ≤ m * max c.batch 1 → x.tickets.length ≤ m

theorem componentOf_eq (k : Kitchen) (item i : Nat) : componentOf k item i = (componentsOf k item)[i]? := by
  unfold componentOf componentsOf
  cases findItem k item <;> simp

theorem map_mapIdx_portions (sizes : List Nat) (f : Nat → Nat → TicketDesc) (hf : ∀ j p, (f j p).portions = p) :
    (sizes.mapIdx f).map TicketDesc.portions = sizes := by
  apply List.ext_getElem
  · simp
  · intro i h1 h2
    simp [hf]

theorem mem_mapIdx_desc {sizes : List Nat} {f : Nat → Nat → TicketDesc} {d : TicketDesc} (h : d ∈ sizes.mapIdx f) :
    ∃ j p, p ∈ sizes ∧ d = f j p := by
  obtain ⟨j, hj, rfl⟩ := List.mem_mapIdx.1 h
  exact ⟨j, sizes[j], List.getElem_mem hj, rfl⟩

theorem componentComputation_for {k : Kitchen} {item idx : Nat} {c : Component} (hc : componentOf k item idx = some c)
    (clock target lead g : Nat) (sf : Option Nat) (s : StationDef) {n : Nat} (hn : 0 < n) :
    (componentComputation clock target lead ⟨g, item, idx, sf⟩ c s n).madeFor k g item sf idx n := by
  obtain ⟨h1, h2, h3⟩ := batchSizes_spec n c.batch hn
  refine ⟨fun d hd => ?_, ?_, fun c' hc' d hd => ?_, fun c' hc' m hm => ?_⟩
  · obtain ⟨j, p, -, rfl⟩ := mem_mapIdx_desc hd
    exact ⟨rfl, rfl, rfl, rfl, fun q => by cases q⟩
  · refine Eq.trans (congrArg List.sum ?_) h1
    exact map_mapIdx_portions _ _ fun _ _ => rfl
  · rw [hc] at hc'
    obtain rfl := Option.some.inj hc'
    obtain ⟨j, p, hp, rfl⟩ := mem_mapIdx_desc hd
    exact h2 p hp
  · rw [hc] at hc'
    obtain rfl := Option.some.inj hc'
    have := h3 m hm
    simpa [componentComputation] using this

theorem refireComputation_for {k : Kitchen} {item idx : Nat} {c : Component} (hc : componentOf k item idx = some c)
    (clock g : Nat) (sf : Option Nat) (s : StationDef) {n : Nat} (hn : 0 < n) :
    (refireComputation clock ⟨g, item, idx, sf⟩ c s n).madeFor k g item sf idx n := by
  obtain ⟨h1, h2, h3⟩ := batchSizes_spec n c.batch hn
  refine ⟨fun d hd => ?_, ?_, fun c' hc' d hd => ?_, fun c' hc' m hm => ?_⟩
  · obtain ⟨j, p, -, rfl⟩ := mem_mapIdx_desc hd
    exact ⟨rfl, rfl, rfl, rfl, fun q => by cases q⟩
  · refine Eq.trans (congrArg List.sum ?_) h1
    exact map_mapIdx_portions _ _ fun _ _ => rfl
  · rw [hc] at hc'
    obtain rfl := Option.some.inj hc'
    obtain ⟨j, p, hp, rfl⟩ := mem_mapIdx_desc hd
    exact h2 p hp
  · rw [hc] at hc'
    obtain rfl := Option.some.inj hc'
    have := h3 m hm
    simpa [refireComputation] using this

theorem mem_computeFor {k : Kitchen} {g : Group} {l : Line} {idx n : Nat} {c : Component} {x : Computation}
    (hc : componentOf k l.item idx = some c) (h : x ∈ computeFor k g l idx c n) : x.madeFor k g.number l.item l.subFrom idx n := by
  unfold computeFor at h
  split at h
  · cases h
  · split at h
    · rw [List.mem_singleton.1 h]
      exact componentComputation_for hc _ _ _ _ _ _ (Nat.pos_of_ne_zero ‹_›)
    · cases h

theorem computeFor_made {k : Kitchen} {g : Group} {l : Line} {idx n : Nat} {c : Component} (hn : n ≠ 0)
    (hs : findStation k c.station ≠ none) : ∃ x, computeFor k g l idx c n = [x] := by
  unfold computeFor
  rw [if_neg hn]
  cases h : findStation k c.station with
  | none => exact absurd h hs
  | some s => exact ⟨_, rfl⟩

theorem mem_flatten_mapIdx {α β : Type} {l : List α} {f : Nat → α → List β} {x : β} :
    x ∈ (l.mapIdx f).flatten ↔ ∃ i c, l[i]? = some c ∧ x ∈ f i c := by
  rw [List.mem_flatten]
  constructor
  · rintro ⟨y, hy, hx⟩
    obtain ⟨i, hi, rfl⟩ := List.mem_mapIdx.1 hy
    exact ⟨i, l[i], by simp [hi], hx⟩
  · rintro ⟨i, c, hc, hx⟩
    obtain ⟨hi, rfl⟩ := List.getElem?_eq_some_iff.1 hc
    exact ⟨_, List.mem_mapIdx.2 ⟨i, hi, rfl⟩, hx⟩

/-- The rest of a line's component that a rebuild computes. -/
def remainder (k : Kitchen) (g : Nat) (l : Line) (idx : Nat) : Nat := l.count - l.shortfall - dispatchedOf k g l idx

theorem mem_lineComputations {k : Kitchen} {g : Group} {l : Line} {x : Computation} (h : x ∈ lineComputations k g l) :
    ∃ idx n, x.madeFor k g.number l.item l.subFrom idx n := by
  unfold lineComputations at h
  split at h
  · obtain ⟨i, c, hc, hx⟩ := mem_flatten_mapIdx.1 h
    exact ⟨i, _, mem_computeFor (by rw [componentOf_eq]; exact hc) hx⟩
  · cases h

theorem lineComputations_made {k : Kitchen} {g : Group} {l : Line} {idx : Nat} {c : Component}
    (hk : itemKind k l.item = some .plated) (hc : componentOf k l.item idx = some c) (hs : findStation k c.station ≠ none)
    (hn : remainder k g.number l idx ≠ 0) :
    ∃ x ∈ lineComputations k g l, x.madeFor k g.number l.item l.subFrom idx (remainder k g.number l idx) := by
  unfold lineComputations
  rw [if_pos hk]
  obtain ⟨x, hx⟩ := computeFor_made (g := g) (l := l) (idx := idx) hn hs
  have hm : x ∈ computeFor k g l idx c (remainder k g.number l idx) := by rw [hx]; exact List.mem_singleton.2 rfl
  refine ⟨x, mem_flatten_mapIdx.2 ⟨idx, c, by rw [← componentOf_eq]; exact hc, hm⟩, mem_computeFor hc hm⟩

theorem descPortions_made {k : Kitchen} {cs : List Computation} {x : Computation} (hx : x ∈ cs) {g item : Nat} {sf : Option Nat}
    {idx n : Nat} (h : x.madeFor k g item sf idx n) : n ≤ descPortions (descsOf cs) g item sf idx := by
  unfold descsOf
  induction cs with
  | nil => cases hx
  | cons y cs ih =>
    rw [List.flatMap_cons, descPortions_append]
    rcases List.mem_cons.1 hx with e | e
    · subst e
      have : descPortions x.tickets g item sf idx = n := by
        unfold descPortions
        rw [List.filter_eq_self.2, h.total]
        intro d hd
        obtain ⟨h1, h2, h3, h4, h5⟩ := h.own d hd
        simp [h1, h2, h3, h4, h5]
      omega
    · have := ih e; omega

theorem descs_fit {k : Kitchen} {cs : List Computation} {n : Nat} (hn : ∃ g ∈ k.groups, g.number = n)
    (h : ∀ x ∈ cs, ∃ item sf idx m, x.madeFor k n item sf idx m) : ∀ d ∈ descsOf cs, d.fits k := by
  intro d hd
  obtain ⟨x, hx, hdx⟩ := List.mem_flatMap.1 hd
  obtain ⟨item, sf, idx, m, hm⟩ := h x hx
  obtain ⟨h1, h2, h3, h4, h5⟩ := hm.own d hdx
  refine ⟨.inr (h1 ▸ hn), fun _ c hc => ?_⟩
  rw [h2, h4] at hc
  exact hm.batch c hc d hdx

/-! ### A rebuild -/

/-- Freed tickets leave room for as many new ones. -/
theorem drop_length {ts : List Ticket} {ns : List Nat} (hn : ns.Nodup) (hs : ∀ m ∈ ns, ∃ t ∈ ts, t.number = m) :
    (ts.filter fun t => !ns.contains t.number).length + ns.length ≤ ts.length := by
  have h1 : ns ⊆ (ts.filter fun t => ns.contains t.number).map Ticket.number := by
    intro m hm
    obtain ⟨t, ht, rfl⟩ := hs m hm
    exact List.mem_map_of_mem (List.mem_filter.2 ⟨ht, by simpa using hm⟩)
  have h2 := (hn.subperm h1).length_le
  rw [List.length_map] at h2
  have h3 := List.length_eq_length_filter_add (l := ts) fun t => ns.contains t.number
  omega

section

variable {w : Work}

theorem Work.soundBut.rebuild {n : Nat} (h : w.soundBut n) (frees : List Nat) (cs : List Computation)
    (own : ∀ t ∈ w.tickets, t.number ∈ frees → t.group = n) (nodup : frees.Nodup) (used : ∀ m ∈ frees, ∃ t ∈ w.tickets, t.number = m)
    (fit : ∀ d ∈ descsOf cs, d.fits w.toKitchen) (pool : (descsOf cs).length ≤ freeRecords w.toKitchen + frees.length) :
    (Machine.rebuild frees cs w).soundBut n := by
  unfold Machine.rebuild
  have st := (Steady.refl w).forEach Machine.dropTicket (fun n w => (Steady.refl w).dropTicket n) frees
  obtain ⟨e1, e2, -⟩ := forEach_dropTicket frees w
  refine (h.dropTickets frees own).createTickets _ (fun d hd => ?_) ?_
  · obtain ⟨f1, f2⟩ := fit d hd
    refine ⟨?_, fun hk c hc => f2 hk c (by rw [← componentOf_congr st.items]; exact hc)⟩
    rw [e2, st.event]; exact f1
  · have := drop_length nodup used
    have h2 : w.tickets.length ≤ Config.poolRecords := h.pool
    rw [e1]
    unfold freeRecords at pool
    omega

theorem rebuild_live (frees : List Nat) (cs : List Computation) (w : Work) (g item : Nat) (sf : Option Nat) (c : Nat) :
    livePortions (rebuild frees cs w).toKitchen g item sf c =
      livePortions (forEach dropTicket frees w).toKitchen g item sf c + descPortions (descsOf cs) g item sf c :=
  live_createTickets _ _ _ _ _ _

/-- A line none of whose tickets is freed keeps its cover. -/
theorem live_untouched (frees : List Nat) (cs : List Computation) (w : Work) (g item : Nat) (sf : Option Nat) (c : Nat)
    (h : ∀ t ∈ w.tickets, t.number ∈ frees → ofComponent g item sf c t = false) :
    livePortions w.toKitchen g item sf c ≤ livePortions (rebuild frees cs w).toKitchen g item sf c := by
  rw [rebuild_live]
  refine le_trans (portions_kept frees w _ g item sf c fun t ht hp => ?_) (Nat.le_add_right _ _)
  simp only [Bool.and_eq_true, bne_iff_ne, ne_eq] at hp
  refine ⟨fun hm => ?_, hp.1, hp.2⟩
  rw [h t ht hm] at hp
  cases hp.1

/-- A line whose undispatched tickets alone are freed, and whose remainder is computed afresh, is covered. -/
theorem live_rebuilt (frees : List Nat) (cs : List Computation) (w : Work) (g : Group) (l : Line) {idx : Nat} {c : Component}
    (hk : itemKind w.toKitchen l.item = some .plated) (hc : componentOf w.toKitchen l.item idx = some c)
    (hs : findStation w.toKitchen c.station ≠ none) (made : ∀ x ∈ lineComputations w.toKitchen g l, x ∈ cs)
    (kept : ∀ t ∈ w.tickets, t.number ∈ frees → dispatched t = false) :
    l.count - l.shortfall ≤ livePortions (rebuild frees cs w).toKitchen g.number l.item l.subFrom idx := by
  rw [rebuild_live]
  have h1 : dispatchedOf w.toKitchen g.number l idx ≤
      livePortions (forEach dropTicket frees w).toKitchen g.number l.item l.subFrom idx := by
    refine portions_kept frees w _ _ _ _ _ fun t ht hp => ?_
    simp only [Bool.and_eq_true] at hp
    refine ⟨fun hm => ?_, hp.1, fun hv => ?_⟩
    · rw [kept t ht hm] at hp; cases hp.2
    · have := hp.2
      simp [dispatched, onRail, hv] at this
  by_cases hn : remainder w.toKitchen g.number l idx = 0
  · unfold remainder at hn; omega
  · obtain ⟨x, hx, hm⟩ := lineComputations_made hk hc hs hn
    have := descPortions_made (made x hx) hm
    unfold remainder at this
    omega

/-- The group's part in a taken request makes its records whole again. -/
theorem Work.soundBut.settleGroup {n : Nat} (h : w.soundBut n) (items : List Item) (g : Group) (lines : List Line)
    (cs : List Computation) (hg : g.number = n) (live : ∀ x ∈ w.groups, x.number = n → x.state ≠ .cancelled)
    (nodup : (lines.map Line.key).Nodup)
    (cover : ∀ l ∈ lines, ∀ i c, componentOf w.toKitchen l.item i = some c → findStation w.toKitchen c.station ≠ none →
      committedOf w.toKitchen l ≤ livePortions w.toKitchen n l.item l.subFrom i) :
    (Machine.settleGroup items g lines cs w).recordsSound := by
  subst hg
  unfold Machine.settleGroup
  refine Kitchen.recordsSound.recompute ?_ _
  refine Kitchen.recordsSound.foldl ?_ _ (fun _ _ h => h.raise _) _
  refine Kitchen.recordsSound.foldl ?_ _ (fun _ _ h => h.raise _) _
  refine Kitchen.recordsSound.settleStock ?_ _
  exact h.unshelve _ fun x hx e => ⟨rfl, live x hx e, nodup, cover⟩

end

end Sys2Proof.Machine
end

