-- ==== Sys2Proof/Laws/RecordsGroups.lean ====
section
/-! SUPPORT. Sound records through the requests of the Group Table and REFIRE. -/

namespace Sys2Proof.Machine

/-! ### Tickets freed line by line -/

theorem mem_flatMap_numbers {α : Type} {k : Kitchen} (h : k.recordsSound) (P : α → Ticket → Bool) (l : List α) {t : Ticket}
    (ht : t ∈ k.tickets) : t.number ∈ l.flatMap (fun a => (k.tickets.filter (P a)).map Ticket.number) ↔ ∃ a ∈ l, P a t = true := by
  rw [List.mem_flatMap]
  refine exists_congr fun a => and_congr_right fun _ => ?_
  rw [List.mem_map]
  constructor
  · rintro ⟨u, hu, e⟩
    obtain ⟨h1, h2⟩ := List.mem_filter.1 hu
    rwa [← h.ticket_inj h1 ht e]
  · exact fun hp => ⟨t, List.mem_filter.2 ⟨ht, hp⟩, rfl⟩

theorem nodup_flatMap_numbers {α κ : Type} {k : Kitchen} (h : k.recordsSound) (P : α → Ticket → Bool) (tk : Ticket → κ) (ak : α → κ)
    (hP : ∀ a t, P a t = true → tk t = ak a) (l : List α) (hl : (l.map ak).Nodup) :
    (l.flatMap fun a => (k.tickets.filter (P a)).map Ticket.number).Nodup := by
  rw [List.nodup_flatMap]
  refine ⟨fun a _ => h.numbers.sublist (List.filter_sublist.map _), ?_⟩
  have := List.pairwise_map.1 hl
  refine this.imp fun {a b} hab => ?_
  intro m hma hmb
  obtain ⟨t, ht, rfl⟩ := List.mem_map.1 hma
  obtain ⟨u, hu, e⟩ := List.mem_map.1 hmb
  obtain ⟨t1, t2⟩ := List.mem_filter.1 ht
  obtain ⟨u1, u2⟩ := List.mem_filter.1 hu
  have := h.ticket_inj u1 t1 e
  subst this
  exact hab ((hP a u t2).symm.trans (hP b u u2))

theorem used_flatMap_numbers {α : Type} {k : Kitchen} (P : α → Ticket → Bool) (l : List α) :
    ∀ m ∈ l.flatMap (fun a => (k.tickets.filter (P a)).map Ticket.number), ∃ t ∈ k.tickets, t.number = m := by
  intro m hm
  obtain ⟨a, -, hm⟩ := List.mem_flatMap.1 hm
  obtain ⟨t, ht, e⟩ := List.mem_map.1 hm
  exact ⟨t, List.mem_of_mem_filter ht, e⟩

/-- What names the line of a ticket. -/
def Ticket.lineKey (t : Ticket) : Nat × Option Nat := (t.item, t.subFrom)

/-- An undispatched ticket of a line of group n. -/
def waitsFor (n : Nat) (l : Line) (t : Ticket) : Bool :=
  t.group == n && t.item == l.item && t.subFrom == l.subFrom && t.kind != .standing && undispatched t

theorem waitsFor_key (n : Nat) (l : Line) (t : Ticket) (h : waitsFor n l t = true) : t.lineKey = l.key := by
  simp only [waitsFor, Bool.and_eq_true, beq_iff_eq] at h
  simp [Ticket.lineKey, Line.key, h.1.1.1.2, h.1.1.2]

theorem ofComponent_key {g item : Nat} {sf : Option Nat} {c : Nat} {t : Ticket} (h : ofComponent g item sf c t = true) :
    t.group = g ∧ t.lineKey = (item, sf) ∧ t.comp = c ∧ t.kind ≠ .standing := by
  simp only [ofComponent, Bool.and_eq_true, beq_iff_eq, bne_iff_ne, ne_eq] at h
  exact ⟨h.1.1.1.1, by simp [Ticket.lineKey, h.1.1.1.2, h.1.1.2], h.1.2, h.2⟩

theorem undispatched_not {t : Ticket} (h : undispatched t = true) : dispatched t = false := by
  simp only [undispatched, Bool.or_eq_true, beq_iff_eq] at h
  rcases h with h | h <;> simp [dispatched, onRail, h]

theorem isLine_key {l m : Line} : isLine l.item l.subFrom m = true ↔ m.key = l.key := by
  simp [isLine, Line.key]

section

variable {w : Work}

theorem rebuild_groups (frees : List Nat) (cs : List Computation) (w : Work) : (rebuild frees cs w).groups = w.groups := by
  unfold rebuild
  rw [← (forEach_dropTicket frees w).2.1]
  generalize forEach dropTicket frees w = v
  unfold createTickets
  generalize descsOf cs = ds
  induction ds generalizing v with
  | nil => rfl
  | cons d ds ih => exact ih _

theorem Kitchen.recordsSound.group_inj {k : Kitchen} (h : k.recordsSound) {g x : Group} (hg : g ∈ k.groups) (hx : x ∈ k.groups)
    (e : x.number = g.number) : x = g := by
  have h1 := entryOf_of_mem (key := Group.number) h.groups hx
  have h2 := entryOf_of_mem (key := Group.number) h.groups hg
  rw [e] at h1
  exact Option.some.inj (h1.symm.trans h2)

theorem Kitchen.recordsSound.takeAmend {before : Work} (hb : before.recordsSound) (h : w.recordsSound) (g : Group)
    (hg : g ∈ w.groups) (hs : g.state ≠ .cancelled) (lines changed : List Line) (info : List AmendLine)
    (hk : (lines.map Line.key).Nodup) (hc : (changed.map Line.key).Nodup)
    (hl : ∀ m ∈ lines, (∃ c ∈ changed, c.key = m.key) ∨ m ∈ g.lines ∨ itemKind w.toKitchen m.item ≠ some .plated) :
    (Machine.takeAmend before g lines changed info w).1.recordsSound := by
  unfold Machine.takeAmend
  extract_lets frees cs sts w2 fp
  split
  · rename_i hp
    refine Kitchen.recordsSound.passSettle (Kitchen.recordsSound.handOver (Kitchen.recordsSound.arbiters ?_ _) _)
    have ef : frees = changed.flatMap fun a => (w.tickets.filter (waitsFor g.number a)).map Ticket.number := rfl
    have st := (Steady.refl w).rebuild frees cs
    have freed : ∀ t ∈ w.tickets, t.number ∈ frees → ∃ c ∈ changed, waitsFor g.number c t = true := fun t ht hm => by
      rw [ef] at hm; exact (mem_flatMap_numbers h _ _ ht).1 hm
    have own : ∀ t ∈ w.tickets, t.number ∈ frees → t.group = g.number := fun t ht hm => by
      obtain ⟨c, -, hc⟩ := freed t ht hm
      simp only [waitsFor, Bool.and_eq_true, beq_iff_eq] at hc
      exact hc.1.1.1.1
    have h1 : (rebuild frees cs w).soundBut g.number := by
      refine (h.shelved g.number).rebuild frees cs own ?_ ?_ ?_ (by simpa [poolHas] using hp)
      · rw [ef]; exact nodup_flatMap_numbers h (waitsFor g.number) Ticket.lineKey Line.key (waitsFor_key _) _ hc
      · rw [ef]; exact used_flatMap_numbers _ _
      · refine descs_fit ⟨g, hg, rfl⟩ fun x hx => ?_
        obtain ⟨l, -, hxl⟩ := List.mem_flatMap.1 hx
        obtain ⟨idx, m, hm⟩ := mem_lineComputations hxl
        exact ⟨_, _, idx, m, hm⟩
    refine h1.settleGroup before.items g lines cs rfl (fun x hx e => ?_) hk fun l hm i c hcomp hst => ?_
    · rw [rebuild_groups] at hx
      rw [h.group_inj hg hx e]; exact hs
    · rw [componentOf_congr st.items] at hcomp
      have hst' : findStation w.toKitchen c.station ≠ none := fun q => hst ((findStation_isSome_congr st.stations _).2 q)
      rw [committedOf_congr st.items]
      rcases hl l hm with ⟨b, hb, e⟩ | hm' | hnk
      · unfold committedOf
        split
        · rename_i hpl
          refine live_rebuilt frees cs w g l hpl hcomp hst' (fun x hx => ?_) fun t ht hm => ?_
          · refine List.mem_flatMap.2 ⟨l, List.mem_filter.2 ⟨hm, ?_⟩, hx⟩
            exact List.any_eq_true.2 ⟨b, hb, isLine_key.2 e⟩
          · obtain ⟨c, -, hc⟩ := freed t ht hm
            simp only [waitsFor, Bool.and_eq_true] at hc
            exact undispatched_not hc.2
        · exact Nat.zero_le _
      · by_cases hch : ∃ b ∈ changed, b.key = l.key
        · obtain ⟨b, hb, e⟩ := hch
          unfold committedOf
          split
          · rename_i hpl
            refine live_rebuilt frees cs w g l hpl hcomp hst' (fun x hx => ?_) fun t ht hm => ?_
            · refine List.mem_flatMap.2 ⟨l, List.mem_filter.2 ⟨hm, ?_⟩, hx⟩
              exact List.any_eq_true.2 ⟨b, hb, isLine_key.2 e⟩
            · obtain ⟨c, -, hc⟩ := freed t ht hm
              simp only [waitsFor, Bool.and_eq_true] at hc
              exact undispatched_not hc.2
          · exact Nat.zero_le _
        · refine le_trans (h.covered g hg hs l hm' i c hcomp hst') ?_
          refine live_untouched frees cs w _ _ _ _ fun t ht hm => ?_
          obtain ⟨b, hb, hbt⟩ := freed t ht hm
          by_contra hne
          rw [Bool.not_eq_false] at hne
          exact hch ⟨b, hb, (waitsFor_key _ _ _ hbt).symm.trans (ofComponent_key hne).2.1⟩
      · unfold committedOf
        rw [if_neg hnk]; exact Nat.zero_le _
  · exact hb

end

/-! ### AMEND -/

theorem mem_putLine {l m : Line} {ls : List Line} (h : m ∈ putLine l ls) : m = l ∨ (m ∈ ls ∧ m.key ≠ l.key) := by
  unfold putLine at h
  have h := List.mem_of_mem_filter h
  split at h
  · obtain ⟨x, hx, rfl⟩ := List.mem_map.1 h
    split
    · exact .inl rfl
    · rename_i q
      exact .inr ⟨hx, fun e => q (isLine_key.2 e)⟩
  · rename_i q
    rcases List.mem_append.1 h with h | h
    · exact .inr ⟨h, fun e => q (List.any_eq_true.2 ⟨m, h, isLine_key.2 e⟩)⟩
    · exact .inl (List.mem_singleton.1 h)

theorem putLine_nodup {l : Line} {ls : List Line} (h : (ls.map Line.key).Nodup) : ((putLine l ls).map Line.key).Nodup := by
  unfold putLine
  refine List.Nodup.sublist (List.filter_sublist.map _) ?_
  split
  · rw [List.map_map]
    have : ls.map (Line.key ∘ fun m => if isLine l.item l.subFrom m = true then l else m) = ls.map Line.key := by
      refine List.map_congr_left fun m _ => ?_
      simp only [Function.comp_apply]
      split
      · rename_i e; exact (isLine_key.1 e).symm
      · rfl
    rw [this]; exact h
  · rename_i q
    rw [List.map_append, List.map_singleton, List.nodup_append]
    refine ⟨h, List.nodup_singleton _, fun a ha b hb => ?_⟩
    obtain ⟨m, hm, rfl⟩ := List.mem_map.1 ha
    rw [List.mem_singleton.1 hb]
    exact fun e => q (List.any_eq_true.2 ⟨m, hm, isLine_key.2 e⟩)

section

variable {w : Work}

theorem commit_groups (item n : Nat) (w : Work) : (commit item n w).1.groups = w.groups ∧ (commit item n w).1.tickets = w.tickets := by
  unfold commit; split <;> exact ⟨rfl, rfl⟩

theorem giveBack_groups (item n : Nat) (w : Work) : (giveBack item n w).groups = w.groups := by
  unfold giveBack; split <;> rfl

theorem offer_groups (sub n : Nat) (w : Work) : (offer sub n w).1.groups = w.groups ∧ (offer sub n w).1.tickets = w.tickets := by
  unfold offer
  split
  · split
    · exact ⟨rfl, rfl⟩
    · split
      · exact commit_groups _ _ _
      · exact ⟨rfl, rfl⟩
  · exact ⟨rfl, rfl⟩

theorem substitute_groups (sub : Option Nat) (n : Nat) (room : Bool) (w : Work) :
    (substitute sub n room w).1.groups = w.groups ∧ (substitute sub n room w).1.tickets = w.tickets := by
  unfold substitute
  split
  · split
    · exact ⟨rfl, rfl⟩
    · exact offer_groups _ _ _
  · exact ⟨rfl, rfl⟩

theorem Kitchen.recordsSound.substitute (h : w.recordsSound) (sub : Option Nat) (n : Nat) (room : Bool) :
    (Machine.substitute sub n room w).1.recordsSound := by
  unfold Machine.substitute
  split
  · split
    · exact h
    · exact h.offer _ _
  · exact h

/-- A line found by its name has that name. -/
theorem found_line {g : Group} {item : Nat} {sf : Option Nat} {l : Line} (h : g.lines.find? (isLine item sf) = some l) :
    l.item = item ∧ l.subFrom = sf := by
  have := List.find?_some h
  simpa [isLine] using this

theorem getD_line {g : Group} {item : Nat} {sf : Option Nat} (d : Line) (hd : d.item = item ∧ d.subFrom = sf) :
    ((g.lines.find? (isLine item sf)).getD d).item = item ∧ ((g.lines.find? (isLine item sf)).getD d).subFrom = sf := by
  cases h : g.lines.find? (isLine item sf) with
  | none => exact hd
  | some l => exact found_line h

theorem Kitchen.recordsSound.amendStanding (h : w.recordsSound) (g : Group) (hg : g ∈ w.groups) (hs : g.state ≠ .cancelled) (l : Line)
    (count : Nat) (hk : itemKind w.toKitchen l.item ≠ some .plated) : (Machine.amendStanding g l count w).1.recordsSound := by
  unfold Machine.amendStanding
  split
  · exact h
  · refine Kitchen.recordsSound.takeAmend h h g hg hs _ _ _ (putLine_nodup (h.lines g hg)) List.nodup_nil fun m hm => ?_
    rcases mem_putLine hm with rfl | ⟨hm, -⟩
    · exact .inr (.inr hk)
    · exact .inr (.inl hm)

theorem Kitchen.recordsSound.amendDown (h : w.recordsSound) (g : Group) (hg : g ∈ w.groups) (hs : g.state ≠ .cancelled) (l : Line)
    (count : Nat) : (Machine.amendDown g l count w).1.recordsSound := by
  unfold Machine.amendDown
  extract_lets short l'
  split
  · exact h
  · refine Kitchen.recordsSound.takeAmend h (h.giveBack _ _) g (by rw [giveBack_groups]; exact hg) hs _ _ _
      (putLine_nodup (h.lines g hg)) (List.nodup_singleton _) fun m hm => ?_
    rcases mem_putLine hm with rfl | ⟨hm, -⟩
    · exact .inl ⟨l', List.mem_singleton.2 rfl, rfl⟩
    · exact .inr (.inl hm)

theorem Kitchen.recordsSound.amendUp (h : w.recordsSound) (g : Group) (hg : g ∈ w.groups) (hs : g.state ≠ .cancelled) (x : Item)
    (l : Line) (adding : Bool) (count : Nat) : (Machine.amendUp g x l adding count w).1.recordsSound := by
  unfold Machine.amendUp
  extract_lets added c short sub y u l' lines old m
  have hu : u.1.recordsSound := (h.commit _ _).substitute _ _ _
  have gu : u.1.groups = w.groups := (substitute_groups _ _ _ _).1.trans (commit_groups _ _ _).1
  split
  · refine Kitchen.recordsSound.takeAmend h hu g (gu ▸ hg) hs _ _ _ (putLine_nodup (h.lines g hg)) (List.nodup_singleton _) fun m hm => ?_
    rcases mem_putLine hm with rfl | ⟨hm, -⟩
    · exact .inl ⟨l', List.mem_singleton.2 rfl, rfl⟩
    · exact .inr (.inl hm)
  · rename_i hu2
    have hsub : l.subFrom = none := by
      by_contra hne
      have : sub = none := if_neg hne
      have : u.2 = 0 := by show (Machine.substitute sub short _ _).2 = 0; rw [this]; rfl
      exact hu2 this
    have hold : old.subFrom = some x.number := (getD_line (g := g) (item := y) (sf := some x.number) _ ⟨rfl, rfl⟩).2
    refine Kitchen.recordsSound.takeAmend h hu g (gu ▸ hg) hs _ _ _ (putLine_nodup (putLine_nodup (h.lines g hg))) ?_ fun z hz => ?_
    · refine List.nodup_cons.2 ⟨fun q => ?_, List.nodup_singleton _⟩
      have e := congrArg Prod.snd (List.mem_singleton.1 q)
      have e1 : (l'.key).2 = none := hsub
      have e2 : (m.key).2 = some x.number := hold
      rw [e1] at e
      rw [show (Line.key m).2 = some x.number from e2] at e
      cases e
    · rcases mem_putLine hz with rfl | ⟨hz, -⟩
      · exact .inl ⟨m, by simp, rfl⟩
      · rcases mem_putLine hz with rfl | ⟨hz, -⟩
        · exact .inl ⟨l', by simp, rfl⟩
        · exact .inr (.inl hz)

theorem recordsSound_judgeGroup (h : w.recordsSound) (n : Nat) (act : Group → Work × Answer)
    (ha : ∀ g ∈ w.groups, g.number = n → (act g).1.recordsSound) : (judgeGroup n w act).1.recordsSound := by
  unfold judgeGroup
  split
  · exact h
  · split
    · exact h
    · rename_i g hg
      exact ha g (List.mem_of_find?_eq_some hg) (entryOf_key hg)

theorem keepsProjection_state {g : Group} (h : keepsProjection g = true) : g.state ≠ .cancelled := by
  simp only [keepsProjection, Bool.or_eq_true, beq_iff_eq] at h
  rcases h with h | h <;> rw [h] <;> decide

theorem recordsSound_judgeActive (h : w.recordsSound) (n : Nat) (act : Group → Work × Answer)
    (ha : ∀ g ∈ w.groups, g.number = n → g.state ≠ .cancelled → (act g).1.recordsSound) : (judgeActive n w act).1.recordsSound := by
  refine recordsSound_judgeGroup h n _ fun g hg e => ?_
  split
  · exact ha g hg e (keepsProjection_state ‹_›)
  · exact h

theorem Kitchen.recordsSound.amend (h : w.recordsSound) (n item sf count : Nat) : (Machine.amend n item sf count w).1.recordsSound := by
  unfold Machine.amend
  refine recordsSound_judgeActive h n _ fun g hg _ hs => ?_
  split
  · exact h
  · exact h
  · rename_i x _ hx
    extract_lets old l
    split
    · exact h
    · split
      · rename_i hk
        refine h.amendStanding g hg hs l count ?_
        have : l.item = item := (getD_line (g := g) (item := item) (sf := present sf) _ ⟨rfl, rfl⟩).1
        rw [this]
        simp [itemKind, hx, hk]
      · split
        · exact h.amendDown g hg hs l count
        · exact h.amendUp g hg hs x l _ count

/-! ### RETIME and HOLD -/

theorem length_comp_succ (ts : List Ticket) (P : Ticket → Bool) (n : Nat) :
    (ts.filter fun t => P t && decide (t.comp < n)).length + (ts.filter fun t => P t && t.comp == n).length ≤
      (ts.filter fun t => P t && decide (t.comp < n + 1)).length := by
  simp only [Nat.lt_succ_iff]
  induction ts with
  | nil => simp
  | cons t ts ih =>
    simp only [List.filter_cons]
    cases hp : P t
    · simpa [hp] using ih
    · rcases lt_trichotomy t.comp n with q | q | q
      · have h1 : (t.comp == n) = false := by simp; omega
        have h2 : t.comp ≤ n := by omega
        simp [q, h1, h2]; omega
      · have h1 : ¬(t.comp < n) := by omega
        have h2 : t.comp ≤ n := by omega
        have h3 : (t.comp == n) = true := by simp [q]
        simp [h1, h2, h3]; omega
      · have h1 : ¬(t.comp < n) := by omega
        have h2 : ¬(t.comp ≤ n) := by omega
        have h3 : (t.comp == n) = false := by simp; omega
        simp [h1, h2, h3]; omega

theorem length_sum_le (ts : List Ticket) (P : Ticket → Bool) (cs : List Component) (f : Nat → Component → List Computation)
    (h : ∀ i c, cs[i]? = some c → (descsOf (f i c)).length ≤ (ts.filter fun t => P t && t.comp == i).length) :
    (descsOf (cs.mapIdx f).flatten).length ≤ (ts.filter fun t => P t && decide (t.comp < cs.length)).length := by
  induction cs using List.reverseRecOn with
  | nil => simp [descsOf]
  | append_singleton cs c ih =>
    have ih := ih fun i c' hc => h i c' (by
      rw [List.getElem?_append_left (List.getElem?_eq_some_iff.1 hc).1]; exact hc)
    have hc := h cs.length c (by simp)
    rw [List.mapIdx_append, List.flatten_append]
    have e : ∀ a b : List Computation, (descsOf (a ++ b)).length = (descsOf a).length + (descsOf b).length := by
      intro a b; simp [descsOf]
    rw [e]
    have e2 : (List.mapIdx (fun i => f (i + cs.length)) [c]).flatten = f cs.length c := by simp
    rw [e2]
    rw [List.length_append]
    exact le_trans (Nat.add_le_add ih hc) (length_comp_succ ts P _)

/-- What two disjoint picks hold together. -/
theorem sum_split (ts : List Ticket) (P Q R : Ticket → Bool) (h : ∀ t, P t = (Q t || R t)) (hd : ∀ t, Q t = true → R t = false) :
    ((ts.filter P).map Ticket.portions).sum = ((ts.filter Q).map Ticket.portions).sum + ((ts.filter R).map Ticket.portions).sum := by
  induction ts with
  | nil => rfl
  | cons t ts ih =>
    simp only [List.filter_cons, h t] at ih ⊢
    cases hq : Q t
    · cases hr : R t <;> simp <;> omega
    · have := hd t hq
      simp [this]; omega

theorem portions_split (k : Kitchen) (g item : Nat) (sf : Option Nat) (c : Nat) :
    livePortions k g item sf c =
      portionsOf k (fun t => ofComponent g item sf c t && dispatched t) +
        portionsOf k (fun t => ofComponent g item sf c t && undispatched t) := by
  refine sum_split _ _ _ _ (fun t => ?_) fun t ht => ?_
  · cases ofComponent g item sf c t <;> cases hs : t.state <;> simp [dispatched, undispatched, onRail, hs]
  · simp only [Bool.and_eq_true] at ht
    cases hs : t.state <;> simp_all [dispatched, undispatched, onRail]

theorem sum_le_length_mul (ts : List Ticket) (m : Nat) (h : ∀ t ∈ ts, t.portions ≤ m) : (ts.map Ticket.portions).sum ≤ ts.length * m := by
  induction ts with
  | nil => simp
  | cons t ts ih =>
    have := ih fun t ht => h t (List.mem_cons_of_mem _ ht)
    have := h t List.mem_cons_self
    simp only [List.map_cons, List.sum_cons, List.length_cons, Nat.add_mul]
    omega

/-- A rebuild with nothing else changed takes no more tickets than it frees (R50). -/
theorem lineComputations_length (h : w.recordsSound) (g g' : Group) (hg : g ∈ w.groups) (hs : g.state ≠ .cancelled)
    (hn : g'.number = g.number) (l : Line) (hl : l ∈ g.lines) :
    (descsOf (lineComputations w.toKitchen g' l)).length ≤ (waitingTickets w.toKitchen g.number l).length := by
  have ew : (waitingTickets w.toKitchen g.number l).length = (w.tickets.filter (waitsFor g.number l)).length := by
    rw [show waitingTickets w.toKitchen g.number l = (w.tickets.filter (waitsFor g.number l)).map Ticket.number from rfl, List.length_map]
  rw [ew]
  unfold lineComputations
  split
  · rename_i hk
    refine le_trans (length_sum_le w.tickets (waitsFor g.number l) _ _ fun i c hc => ?_) ?_
    · have hcomp : componentOf w.toKitchen l.item i = some c := by rw [componentOf_eq]; exact hc
      by_cases hst : findStation w.toKitchen c.station = none
      · unfold computeFor
        rw [hst]
        split <;> simp [descsOf]
      · by_cases h0 : l.count - l.shortfall - dispatchedOf w.toKitchen g'.number l i = 0
        · unfold computeFor; rw [if_pos h0]; simp [descsOf]
        · obtain ⟨x, hx⟩ := computeFor_made (k := w.toKitchen) (g := g') (l := l) (idx := i) h0 hst
          have hm := mem_computeFor hcomp (hx ▸ List.mem_singleton.2 rfl : x ∈ computeFor w.toKitchen g' l i c _)
          rw [hx]
          have e1 : descsOf [x] = x.tickets := by simp [descsOf]
          rw [e1]
          refine hm.fewest c hcomp _ ?_
          have hcov := h.covered g hg hs l hl i c hcomp hst
          have hcom : committedOf w.toKitchen l = l.count - l.shortfall := by unfold committedOf; rw [if_pos hk]
          rw [portions_split, hcom] at hcov
          have hd : dispatchedOf w.toKitchen g'.number l i =
              portionsOf w.toKitchen (fun t => ofComponent g.number l.item l.subFrom i t && dispatched t) := by
            rw [hn]; rfl
          have hw : portionsOf w.toKitchen (fun t => ofComponent g.number l.item l.subFrom i t && undispatched t) ≤
              (w.tickets.filter fun t => waitsFor g.number l t && t.comp == i).length * max c.batch 1 := by
            have e : (w.tickets.filter fun t => ofComponent g.number l.item l.subFrom i t && undispatched t) =
                w.tickets.filter fun t => waitsFor g.number l t && t.comp == i := by
              refine List.filter_congr fun t _ => ?_
              unfold ofComponent waitsFor
              cases (t.group == g.number) <;> cases (t.item == l.item) <;> cases (t.subFrom == l.subFrom) <;>
                cases (t.comp == i) <;> cases (t.kind != .standing) <;> cases undispatched t <;> rfl
            unfold portionsOf
            rw [e]
            refine sum_le_length_mul _ _ fun t ht => ?_
            obtain ⟨h1, h2⟩ := List.mem_filter.1 ht
            simp only [waitsFor, Bool.and_eq_true, beq_iff_eq, bne_iff_ne, ne_eq] at h2
            refine h.batches t h1 h2.1.1.2 c ?_
            rw [h2.1.1.1.1.2, h2.2]; exact hcomp
          omega
    · exact (List.monotone_filter_right _ fun t ht => by
        simp only [Bool.and_eq_true] at ht; exact ht.1).length_le
  · simp [descsOf]

theorem flatMap_length_le {α β γ : Type} (l : List α) (f : α → List β) (g : α → List γ) (h : ∀ a ∈ l, (f a).length ≤ (g a).length) :
    (l.flatMap f).length ≤ (l.flatMap g).length := by
  induction l with
  | nil => simp
  | cons a l ih =>
    have := ih fun x hx => h x (List.mem_cons_of_mem a hx)
    have := h a List.mem_cons_self
    simp only [List.flatMap_cons, List.length_append]
    omega

theorem Kitchen.recordsSound.retime (h : w.recordsSound) (n target : Nat) : (Machine.retime n target w).1.recordsSound := by
  unfold Machine.retime
  refine recordsSound_judgeActive h n _ fun g hg e hs => ?_
  extract_lets src g' frees cs sts w1 w2 fp
  subst e
  refine Kitchen.recordsSound.passSettle (Kitchen.recordsSound.handOver (Kitchen.recordsSound.arbiters ?_ _) _)
  have ef : frees = g.lines.flatMap fun a => (w.tickets.filter (waitsFor g.number a)).map Ticket.number := rfl
  have st := (Steady.refl w).rebuild frees cs
  have freed : ∀ t ∈ w.tickets, t.number ∈ frees → ∃ c ∈ g.lines, waitsFor g.number c t = true := fun t ht hm => by
    rw [ef] at hm; exact (mem_flatMap_numbers h _ _ ht).1 hm
  have own : ∀ t ∈ w.tickets, t.number ∈ frees → t.group = g.number := fun t ht hm => by
    obtain ⟨c, -, hc⟩ := freed t ht hm
    simp only [waitsFor, Bool.and_eq_true, beq_iff_eq] at hc
    exact hc.1.1.1.1
  have h1 : (rebuild frees cs w).soundBut g.number := by
    refine (h.shelved g.number).rebuild frees cs own ?_ ?_ ?_ ?_
    · rw [ef]; exact nodup_flatMap_numbers h (waitsFor g.number) Ticket.lineKey Line.key (waitsFor_key _) _ (h.lines g hg)
    · rw [ef]; exact used_flatMap_numbers _ _
    · refine descs_fit ⟨g, hg, rfl⟩ fun x hx => ?_
      obtain ⟨l, -, hxl⟩ := List.mem_flatMap.1 hx
      obtain ⟨idx, m, hm⟩ := mem_lineComputations hxl
      exact ⟨_, _, idx, m, hm⟩
    · refine le_trans ?_ (Nat.le_add_left _ _)
      have e1 : descsOf cs = g.lines.flatMap fun l => descsOf (lineComputations w.toKitchen g' l) := by
        show (g.lines.flatMap (lineComputations w.toKitchen g')).flatMap Computation.tickets = _
        rw [List.flatMap_assoc]; rfl
      rw [e1]
      exact flatMap_length_le _ _ _ fun l hl => lineComputations_length h g g' hg hs rfl l hl
  have h2 : w1.soundBut g.number := h1.setGroup _ fun x => ⟨rfl, rfl⟩
  refine h2.settleGroup w.items g' g.lines cs rfl (fun x hx e => ?_) (h.lines g hg) fun l hm i c hcomp hst => ?_
  · rcases mem_updateEntry (l := (rebuild frees cs w).groups) hx with ⟨hx, -⟩ | ⟨y, hy, ey, rfl⟩
    · rw [rebuild_groups] at hx
      rw [h.group_inj hg hx e]; exact hs
    · rw [rebuild_groups] at hy
      have := h.group_inj hg hy ey
      subst this; exact hs
  · have e1 : componentOf w1.toKitchen l.item i = componentOf (rebuild frees cs w).toKitchen l.item i := rfl
    rw [e1, componentOf_congr st.items] at hcomp
    have hst' : findStation w.toKitchen c.station ≠ none := fun q => hst ((findStation_isSome_congr (k' := w1.toKitchen) st.stations _).2 q)
    rw [committedOf_congr (k' := w1.toKitchen) st.items]
    unfold committedOf
    split
    · rename_i hpl
      refine live_rebuilt frees cs w g' l hpl hcomp hst' (fun x hx => List.mem_flatMap.2 ⟨l, hm, hx⟩) fun t ht hm => ?_
      obtain ⟨c, -, hc⟩ := freed t ht hm
      simp only [waitsFor, Bool.and_eq_true] at hc
      exact undispatched_not hc.2
    · exact Nat.zero_le _

theorem Kitchen.recordsSound.hold (h : w.recordsSound) (n : Nat) : (Machine.hold n w).1.recordsSound := by
  unfold Machine.hold
  refine recordsSound_judgeActive h n _ fun g hg _ _ => ?_
  dsimp only
  split
  · exact h
  · exact (((h.setGroup n (fun x => { x with flags := { x.flags with held := true } }) fun _ _ _ => ⟨rfl, Iff.rfl, rfl⟩).checkDraw
      n).arbiters _).passSettle

theorem Kitchen.recordsSound.pickup (h : w.recordsSound) (n : Nat) : (Machine.pickup n w).1.recordsSound := by
  unfold Machine.pickup
  refine recordsSound_judgeGroup h n _ fun g hg _ => ?_
  split
  · exact (h.freeGroup _ _).passSettle
  · exact h

end

/-! ### CANCEL -/

section

variable {w : Work}

/-- A ticket of a CANCELLED group that holds a slot goes on holding it, VOIDING. -/
theorem Kitchen.recordsSound.voidTicket (h : w.recordsSound) (n : Nat)
    (hn : ∀ t ∈ w.tickets, t.number = n → holdsSlot t = true ∧ ∀ g ∈ w.groups, g.number = t.group → g.state = .cancelled) :
    (Machine.setTicket n (fun t => { t with state := .voiding }) w).recordsSound := by
  have hm : ∀ t' ∈ (Machine.setTicket n (fun t => { t with state := .voiding }) w).tickets,
      t' ∈ w.tickets ∨ ∃ t ∈ w.tickets, t.number = n ∧ t' = { t with state := .voiding } := by
    intro t' ht'
    rcases mem_updateEntry (l := w.tickets) ht' with ⟨q, -⟩ | ⟨t, ht, e, rfl⟩
    · exact .inl q
    · exact .inr ⟨t, ht, e, rfl⟩
  refine ⟨h.items, h.stations, h.groups, ?_, ?_, h.counter, ?_, ?_, h.marks, h.lines, ?_, ?_, h.draws⟩
  · have : (updateEntry Ticket.number n (fun t => { t with state := .voiding }) w.tickets).map Ticket.number =
        w.tickets.map Ticket.number := updateEntry_map _ n _ _ fun _ _ _ => rfl
    exact this ▸ h.numbers
  · simp only [Machine.setTicket, updateEntry, List.length_map]; exact h.pool
  · intro t' ht'
    rcases hm t' ht' with q | ⟨t, ht, -, rfl⟩
    · exact h.homes t' q
    · exact h.homes t ht
  · intro x hx
    refine le_trans ?_ (h.slots x hx)
    unfold slotsHeld
    simp only [Machine.setTicket, updateEntry, List.filter_map, List.length_map]
    refine (List.Sublist.length_le ?_)
    have e : (w.tickets.filter ((fun t => t.station == x.number && holdsSlot t) ∘
        fun t => if t.number = n then { t with state := .voiding } else t)) =
        w.tickets.filter (fun t => t.station == x.number && holdsSlot t) := by
      refine List.filter_congr fun t ht => ?_
      simp only [Function.comp_apply]
      split
      · rename_i e
        have := (hn t ht e).1
        show (t.station == x.number && true) = (t.station == x.number && holdsSlot t)
        rw [this]
      · rfl
    rw [e]
  · intro t' ht' hk c hc
    rcases hm t' ht' with q | ⟨t, ht, -, rfl⟩
    · exact h.batches t' q hk c hc
    · exact h.batches t ht hk c hc
  · intro g hg hs l hl i c hc hst
    refine le_trans (h.covered g hg hs l hl i c hc hst) ?_
    unfold livePortions portionsOf
    have e : (Machine.setTicket n (fun t => { t with state := .voiding }) w).tickets =
        ((w.tickets.filter fun _ => true).map fun t => if t.number = n then { t with state := .voiding } else t) := by
      simp [Machine.setTicket, updateEntry]
    rw [e]
    refine sum_le_of_kept _ _ _ _ _ _ fun t ht hp => ?_
    have : t.number ≠ n := by
      intro q
      simp only [Bool.and_eq_true] at hp
      exact hs ((hn t ht q).2 g hg (ofComponent_key hp.1).1.symm)
    rw [if_neg this]
    exact ⟨rfl, hp, rfl⟩

theorem onRail_holdsSlot {t : Ticket} (h : onRail t = true) : holdsSlot t = true := by
  simp only [onRail, holdsSlot, Bool.or_eq_true] at h ⊢
  exact .inl h

theorem Kitchen.recordsSound.cancelTicket (h : w.recordsSound) (t : Ticket)
    (ht : ∀ u ∈ w.tickets, u.number = t.number → u = t ∧ ∀ g ∈ w.groups, g.number = u.group → g.state = .cancelled) :
    (Machine.cancelTicket t w).recordsSound := by
  have hd : (Machine.dropTicket t.number w).recordsSound :=
    h.dropTicket _ fun u hu e => .inr (.inr (ht u hu e).2)
  unfold Machine.cancelTicket
  split
  · split
    · refine Kitchen.recordsSound.setTerminal ?_ _ _ fun x hx => pendVoid_ascend _ _ _ hx
      exact h.voidTicket _ fun u hu e => ⟨by rw [(ht u hu e).1]; exact onRail_holdsSlot ‹_›, (ht u hu e).2⟩
    · exact hd
  · exact hd

theorem cancelTicket_groups (t : Ticket) (w : Work) : (cancelTicket t w).groups = w.groups := by
  unfold cancelTicket
  split
  · split <;> rfl
  · rfl

/-- A CANCEL changes the tickets it is done with, and leaves the others. -/
theorem cancelTicket_others (t : Ticket) (w : Work) {u : Ticket} (hu : u ∈ (cancelTicket t w).tickets) (e : u.number ≠ t.number) :
    u ∈ w.tickets := by
  unfold cancelTicket at hu
  split at hu
  · split at hu
    · rcases mem_updateEntry (l := w.tickets) hu with ⟨q, -⟩ | ⟨x, hx, ex, rfl⟩
      · exact q
      · exact absurd ex e
    · exact List.mem_of_mem_filter hu
  · exact List.mem_of_mem_filter hu

theorem Kitchen.recordsSound.cancelTickets (h : w.recordsSound) (ts : List Ticket) (hn : (ts.map Ticket.number).Nodup)
    (ht : ∀ t ∈ ts, (∀ u ∈ w.tickets, u.number = t.number → u = t) ∧ ∀ g ∈ w.groups, g.number = t.group → g.state = .cancelled) :
    (ts.foldl (fun w t => Machine.cancelTicket t w) w).recordsSound := by
  induction ts generalizing w with
  | nil => exact h
  | cons t ts ih =>
    rw [List.map_cons, List.nodup_cons] at hn
    obtain ⟨h1, h2⟩ := ht t List.mem_cons_self
    refine ih (h.cancelTicket t fun u hu e => ?_) hn.2 fun x hx => ?_
    · have := h1 u hu e
      subst this
      exact ⟨rfl, h2⟩
    · obtain ⟨x1, x2⟩ := ht x (List.mem_cons_of_mem t hx)
      refine ⟨fun u hu e => x1 u (cancelTicket_others t w hu fun q => ?_) e, by rw [cancelTicket_groups]; exact x2⟩
      exact hn.1 (q ▸ e ▸ List.mem_map_of_mem hx)

theorem Kitchen.recordsSound.cancel (h : w.recordsSound) (n : Nat) : (Machine.cancel n w).1.recordsSound := by
  unfold Machine.cancel
  refine recordsSound_judgeGroup h n _ fun g hg _ => ?_
  split
  · extract_lets sts w1 w2 w3 w4 left
    have h1 : w1.recordsSound := h.cancelGroup n _ fun _ => by exact ⟨rfl, rfl, rfl⟩
    have h2 : w2.recordsSound := by
      refine h1.cancelTickets _ (h.numbers.sublist (List.filter_sublist.map _)) fun t ht => ?_
      obtain ⟨ht1, ht2⟩ := List.mem_filter.1 ht
      refine ⟨fun u hu e => h.ticket_inj hu ht1 e, fun x hx e => ?_⟩
      rcases mem_updateEntry (l := w.groups) hx with ⟨-, q⟩ | ⟨y, -, -, rfl⟩
      · exact absurd (e.trans (by simpa using ht2)) q
      · rfl
    have h4 : w4.recordsSound :=
      ((h2.foldl _ (fun _ _ h => h.giveBack _ _) _).forEach _ (fun n _ h => h.slotFreed n) _).refreshDisplay n
    refine Kitchen.recordsSound.passSettle ?_
    split
    · exact h4.freeGroup _ _
    · exact h4
  · exact h

/-! ### SUBMIT -/

theorem firstBad_none {cs : List FieldCheck} (h : firstBad cs = none) : ∀ c ∈ cs, c.1 = false := by
  unfold firstBad at h
  split at h
  · cases h
  · rename_i q
    exact fun c hc => by simpa using List.find?_eq_none.1 q c hc

/-- The lines of a SUBMIT that passes its checks name different items (R41). -/
theorem submit_items {k : Kitchen} {r : SubmitReq} (h : firstBad (submitChecks k r) = none) : (r.lines.map OrderLine.item).Nodup := by
  have hc := firstBad_none h
  rw [List.Nodup, List.pairwise_map, List.pairwise_iff_getElem]
  intro i j hi hj hij e
  have hm : (((match findItem k r.lines[j].item with
      | some i => r.lines[j].item == 0 || i.course != r.course
      | none => true) || (r.lines.take j).any fun m => m.item == r.lines[j].item, FieldCode.item, j) : FieldCheck) ∈ submitChecks k r := by
    unfold submitChecks
    refine List.mem_append_left _ (List.mem_append_right _ (mem_flatten_mapIdx.2 ⟨j, r.lines[j], by simp [hj], ?_⟩))
    unfold orderChecks
    exact List.mem_cons_self
  have := hc _ hm
  simp only [Bool.or_eq_false_iff] at this
  have hmem : r.lines[i] ∈ r.lines.take j := by
    rw [List.mem_take_iff_getElem]
    exact ⟨i, by omega, rfl⟩
  have h2 := List.any_eq_false.1 this.2 _ hmem
  simp [e] at h2

/-- What the walk has done after the lines p: its lines are named by them, and it has changed items only. -/
structure Walk.follows (w : Work) (p : List OrderLine) (s : Walk) : Prop where
  sound : s.work.recordsSound
  groups : s.work.groups = w.groups
  tickets : s.work.tickets = w.tickets
  ordered : (s.ordered.map Line.key).Sublist (p.map fun l => (l.item, none))
  subs : (s.subs.map Line.subFrom).Sublist (p.map fun l => some l.item)

theorem Walk.follows.walkLine {p : List OrderLine} {s : Walk} (h : s.follows w p) (places : Nat) (l : OrderLine) :
    (Machine.walkLine places s l).follows w (p ++ [l]) := by
  have ho : (s.ordered.map Line.key).Sublist ((p ++ [l]).map fun l => (l.item, none)) := by
    rw [List.map_append]; exact h.ordered.trans (List.sublist_append_left _ _)
  have hs : (s.subs.map Line.subFrom).Sublist ((p ++ [l]).map fun l => some l.item) := by
    rw [List.map_append]; exact h.subs.trans (List.sublist_append_left _ _)
  have ho' : ∀ c sh : Nat, ((s.ordered ++ [(⟨l.item, none, c, sh, false⟩ : Line)]).map Line.key).Sublist
      ((p ++ [l]).map fun l => (l.item, none)) := by
    intro c sh
    rw [List.map_append, List.map_append]; exact h.ordered.append (List.Sublist.refl _)
  unfold Machine.walkLine
  split
  · split
    · exact ⟨h.sound, h.groups, h.tickets, ho' _ _, hs⟩
    · dsimp only
      refine ⟨(h.sound.commit _ _).substitute _ _ _, ?_, ?_, ho' _ _, ?_⟩
      · rw [(substitute_groups _ _ _ _).1, (commit_groups _ _ _).1]; exact h.groups
      · rw [(substitute_groups _ _ _ _).2, (commit_groups _ _ _).2]; exact h.tickets
      · split
        · exact hs
        · rw [List.map_append, List.map_append]; exact h.subs.append (List.Sublist.refl _)
  · exact ⟨h.sound, h.groups, h.tickets, ho, hs⟩

theorem walk_follows (h : w.recordsSound) (r : SubmitReq) : (walk r w).follows w r.lines := by
  unfold walk
  have key : ∀ (ls : List OrderLine) (p : List OrderLine) (s : Walk), s.follows w p →
      (ls.foldl (walkLine r.lines.length) s).follows w (p ++ ls) := by
    intro ls
    induction ls with
    | nil => intro p s hs; simpa using hs
    | cons l ls ih =>
      intro p s hs
      have := ih _ _ (hs.walkLine r.lines.length l)
      simpa using this
  exact key r.lines [] _ ⟨h, rfl, rfl, List.Sublist.refl _, List.Sublist.refl _⟩

theorem Walk.follows.nodup {p : List OrderLine} {s : Walk} (h : s.follows w p) (hp : (p.map OrderLine.item).Nodup) :
    (s.lines.map Line.key).Nodup := by
  have h1 : ((s.ordered.filter fun l => l.count != 0).map Line.key).Sublist (p.map fun l => (l.item, none)) :=
    (List.filter_sublist.map _).trans h.ordered
  have h2 : ((s.ordered.filter fun l => l.count != 0).map Line.key).Nodup := by
    refine List.Nodup.sublist h1 ?_
    have : (p.map fun l => (l.item, (none : Option Nat))) = (p.map OrderLine.item).map fun i => (i, none) := by simp
    rw [this]
    exact hp.map fun a b e => (Prod.mk.inj e).1
  have h3 : (s.subs.map Line.subFrom).Nodup := by
    refine List.Nodup.sublist h.subs ?_
    have : (p.map fun l => some l.item) = (p.map OrderLine.item).map some := by simp
    rw [this]
    exact hp.map (Option.some_injective _)
  have h4 : (s.subs.map Line.key).Nodup := by
    refine List.Nodup.of_map Prod.snd ?_
    rw [List.map_map]; exact h3
  unfold Walk.lines
  rw [List.map_append, List.nodup_append]
  refine ⟨h2, h4, fun a ha b hb e => ?_⟩
  subst e
  obtain ⟨l, -, el⟩ := List.mem_map.1 (h1.subset ha)
  obtain ⟨m, hm, em⟩ := List.mem_map.1 hb
  have : m.subFrom ∈ p.map fun l => some l.item := h.subs.subset (List.mem_map_of_mem hm)
  obtain ⟨q, -, eq⟩ := List.mem_map.1 this
  have e1 : m.subFrom = a.2 := by rw [← em]; rfl
  rw [← el] at e1
  rw [e1] at eq
  cases eq

theorem mem_insertEntry_self {α : Type} {key : α → Nat} (x : α) (l : List α) : x ∈ insertEntry key x l := by
  induction l with
  | nil => simp [insertEntry]
  | cons y l ih =>
    unfold insertEntry
    split
    · simp
    · split
      · simp
      · simp [ih]

theorem mem_insertEntry_of_mem {α : Type} {key : α → Nat} (x : α) {y : α} {l : List α} (h : y ∈ l) (e : key y ≠ key x) :
    y ∈ insertEntry key x l := by
  induction l with
  | nil => cases h
  | cons z l ih =>
    unfold insertEntry
    split
    · exact List.mem_cons_of_mem x h
    · rcases List.mem_cons.1 h with rfl | h
      · split
        · rename_i _ q; exact absurd q.symm e
        · exact List.mem_cons_self
      · split
        · exact List.mem_cons_of_mem x h
        · exact List.mem_cons_of_mem z (ih h)

/-- A new group without lines joins. -/
theorem Kitchen.recordsSound.insertGroup (h : w.recordsSound) (g : Group) (hg : ∀ x ∈ w.groups, x.number ≠ g.number)
    (hl : g.lines = []) (hs : g.state ≠ .cancelled) :
    ({ w with groups := insertEntry Group.number g w.groups } : Work).recordsSound := by
  have hm : ∀ x ∈ insertEntry Group.number g w.groups, x = g ∨ x ∈ w.groups := fun x hx => mem_insertEntry g x _ hx
  refine ⟨h.items, h.stations, insertEntry_ascending g _ h.groups, h.numbers, h.pool, h.counter, ?_, h.slots, h.marks, ?_, h.batches,
    ?_, ?_⟩
  · intro t ht
    rcases h.homes t ht with q | ⟨x, hx, e⟩
    · exact .inl q
    · exact .inr ⟨x, mem_insertEntry_of_mem g hx (hg x hx), e⟩
  · intro x hx
    rcases hm x hx with rfl | q
    · rw [hl]; exact List.nodup_nil
    · exact h.lines x q
  · intro x hx hc l hml
    rcases hm x hx with rfl | q
    · rw [hl] at hml; cases hml
    · exact h.covered x q hc l hml
  · intro n hn x hx e
    rcases hm x hx with rfl | q
    · exact hs
    · exact h.draws n hn x q e

theorem Kitchen.recordsSound.submit (h : w.recordsSound) (r : SubmitReq) : (Machine.submit r w).1.recordsSound := by
  unfold Machine.submit
  split
  · exact h
  · rename_i hbad
    split
    · exact h
    · rename_i n hn
      extract_lets s g cs src w1 w2 fp
      have hs : s.follows w r.lines := walk_follows h r
      have hnd := hs.nodup (submit_items hbad)
      split
      · rename_i hp
        refine Kitchen.recordsSound.passSettle (Kitchen.recordsSound.handOver (Kitchen.recordsSound.arbiters ?_ _) _)
        have hfree : ∀ x ∈ w.groups, x.number ≠ n := by
          unfold lowestFree at hn
          have := List.find?_some hn
          simp only [Option.isNone_iff_eq_none] at this
          intro x hx e
          have := List.find?_eq_none.1 this x hx
          simp [e] at this
        let v : Work := { s.work with groups := insertEntry Group.number g s.work.groups }
        have hv : v.recordsSound := hs.sound.insertGroup g (by rw [hs.groups]; exact hfree) rfl (by
          show GroupState.planned ≠ .cancelled; decide)
        have hgv : g ∈ v.groups := mem_insertEntry_self g _
        have e1 : w1 = rebuild [] cs v := rfl
        have st := (Steady.refl v).rebuild [] cs
        have hb : (rebuild [] cs v).soundBut n := by
          refine (hv.shelved n).rebuild [] cs (fun t _ hm => by cases hm) List.nodup_nil (fun m hm => by cases hm) ?_ ?_
          · refine descs_fit ⟨g, hgv, rfl⟩ fun x hx => ?_
            obtain ⟨l, -, hxl⟩ := List.mem_flatMap.1 hx
            obtain ⟨idx, m, hm⟩ := mem_lineComputations hxl
            exact ⟨_, _, idx, m, ⟨hm.own, hm.total, hm.batch, hm.fewest⟩⟩
          · have : (descsOf cs).length ≤ freeRecords w.toKitchen + ([] : List Nat).length := by simpa [poolHas] using hp
            have e : freeRecords v.toKitchen = freeRecords w.toKitchen := by
              show Config.poolRecords - s.work.tickets.length = _
              rw [hs.tickets]; rfl
            rw [e]; exact this
        have h2 : (Machine.settleGroup w.items g s.lines cs (rebuild [] cs v)).recordsSound := by
          refine hb.settleGroup w.items g s.lines cs rfl (fun x hx e => ?_) hnd fun l hm i c hcomp hst => ?_
          · rw [rebuild_groups] at hx
            rw [hv.group_inj hgv hx e]
            show GroupState.planned ≠ .cancelled; decide
          · rw [componentOf_congr st.items] at hcomp
            have hst' : findStation v.toKitchen c.station ≠ none := fun q => hst ((findStation_isSome_congr st.stations _).2 q)
            rw [committedOf_congr st.items]
            unfold committedOf
            split
            · rename_i hpl
              exact live_rebuilt [] cs v g l hpl hcomp hst' (fun x hx => List.mem_flatMap.2 ⟨l, hm, hx⟩) fun t _ hm => by cases hm
            · exact Nat.zero_le _
        exact h2
      · exact h

end

/-! ### REFIRE -/

section

variable {w : Work}

/-- A plan is of one of the lines, and has a part for each component. -/
structure RefirePlan.of (k : Kitchen) (g : Group) (ls : List Line) (p : RefirePlan) : Prop where
  line : p.line ∈ ls
  comps : p.comps = (componentsOf k p.line.item).mapIdx (refireComp k g p.line p.lost)

theorem refirePlans_of (k : Kitchen) (g : Group) (ls : List Line) (stock : Stock) :
    ((refirePlans k g ls stock).map RefirePlan.line).Sublist ls ∧ ∀ p ∈ refirePlans k g ls stock, p.of k g ls := by
  induction ls generalizing stock with
  | nil => exact ⟨List.Sublist.refl _, fun p hp => by cases hp⟩
  | cons l ls ih =>
    unfold refirePlans
    dsimp only
    split
    · obtain ⟨h1, h2⟩ := ih stock
      exact ⟨h1.cons l, fun p hp => ⟨List.mem_cons_of_mem l (h2 p hp).line, (h2 p hp).comps⟩⟩
    · obtain ⟨h1, h2⟩ := ih (stockAfter stock (refirePortions k g.number l))
      refine ⟨h1.cons_cons l, fun p hp => ?_⟩
      rcases List.mem_cons.1 hp with rfl | hp
      · exact ⟨List.mem_cons_self, rfl⟩
      · exact ⟨List.mem_cons_of_mem l (h2 p hp).line, (h2 p hp).comps⟩

theorem refireLines_keys {g : Group} (item : Nat) (h : (g.lines.map Line.key).Nodup) :
    ((refireLines g item).map Line.key).Nodup ∧ ∀ l ∈ refireLines g item, l ∈ g.lines := by
  unfold refireLines
  constructor
  · rw [List.map_append, List.nodup_append]
    refine ⟨h.sublist (List.filter_sublist.map _), h.sublist (List.filter_sublist.map _), fun a ha b hb e => ?_⟩
    obtain ⟨l, hl, rfl⟩ := List.mem_map.1 ha
    obtain ⟨m, hm, rfl⟩ := List.mem_map.1 hb
    have h1 := (List.mem_filter.1 hl).2
    have h2 := (List.mem_filter.1 hm).2
    have e2 := congrArg Prod.snd e
    simp only [isLine, Bool.and_eq_true, beq_iff_eq, bne_iff_ne, ne_eq] at h1 h2
    exact h2.2 (e2.symm.trans h1.2)
  · intro l hl
    rcases List.mem_append.1 hl with q | q <;> exact List.mem_of_mem_filter q

theorem mem_refireComp {k : Kitchen} {g : Group} {l : Line} {e idx : Nat} {c : Component} (hc : componentOf k l.item idx = some c)
    {x : Computation} (hx : x ∈ (refireComp k g l e idx c).rush ++ (refireComp k g l e idx c).rebuilt) :
    ∃ n, x.madeFor k g.number l.item l.subFrom idx n := by
  rcases List.mem_append.1 hx with hx | hx
  · unfold refireComp at hx
    dsimp only at hx
    split at hx
    · cases hx
    · split at hx
      · rw [List.mem_singleton.1 hx]
        exact ⟨_, refireComputation_for hc _ _ _ _ (Nat.pos_of_ne_zero ‹_›)⟩
      · cases hx
  · unfold refireComp at hx
    dsimp only at hx
    split at hx
    · exact ⟨_, mem_computeFor hc hx⟩
    · cases hx

/-- The tickets a plan frees. -/
def RefirePlan.freed (g : Nat) (p : RefirePlan) (t : Ticket) : Bool :=
  t.group == g && t.item == p.line.item && t.subFrom == p.line.subFrom && t.kind != .standing &&
    (t.state == .done || (undispatched t && p.comps.any fun c => c.index == t.comp && c.done < p.lost))

theorem RefirePlan.freed_key (g : Nat) (p : RefirePlan) (t : Ticket) (h : p.freed g t = true) :
    t.lineKey = p.line.key ∧ t.group = g := by
  simp only [RefirePlan.freed, Bool.and_eq_true, beq_iff_eq] at h
  exact ⟨by simp [Ticket.lineKey, Line.key, h.1.1.1.2, h.1.1.2], h.1.1.1.1⟩

/-- The portions of a component, by what a refire does with them. -/
theorem live_by_state (k : Kitchen) (g : Nat) (l : Line) (c : Nat) :
    livePortions k g l.item l.subFrom c =
      portionsOf k (fun t => ofComponent g l.item l.subFrom c t && onRail t) + doneOf k g l c + waitingOf k g l c := by
  rw [portions_split]
  unfold waitingOf doneOf
  congr 1
  refine sum_split _ _ _ _ (fun t => ?_) fun t ht => ?_
  · unfold dispatched
    cases ofComponent g l.item l.subFrom c t <;> simp
  · simp only [Bool.and_eq_true] at ht
    cases hs : t.state <;> simp_all [onRail]

/-- A line that loses e portions in a refire is covered with its shortfall raised by e (R159). -/
theorem live_refired (frees : List Nat) (cs : List Computation) (g : Group) (p : RefirePlan) {idx : Nat} {c : Component}
    (hc : componentOf w.toKitchen p.line.item idx = some c) (hs : findStation w.toKitchen c.station ≠ none)
    (hp : p.comps = (componentsOf w.toKitchen p.line.item).mapIdx (refireComp w.toKitchen g p.line p.lost))
    (made : ∀ x ∈ p.computations, x ∈ cs)
    (kept : ∀ t ∈ w.tickets, t.number ∈ frees → t.lineKey = p.line.key → p.freed g.number t = true) :
    livePortions w.toKitchen g.number p.line.item p.line.subFrom idx - p.lost ≤
      livePortions (rebuild frees cs w).toKitchen g.number p.line.item p.line.subFrom idx := by
  rw [rebuild_live, live_by_state]
  have hget : (componentsOf w.toKitchen p.line.item)[idx]? = some c := by rw [← componentOf_eq]; exact hc
  have hmem : refireComp w.toKitchen g p.line p.lost idx c ∈ p.comps := by
    rw [hp]
    obtain ⟨hi, rfl⟩ := List.getElem?_eq_some_iff.1 hget
    exact List.mem_mapIdx.2 ⟨idx, hi, rfl⟩
  have hmade : ∀ x ∈ (refireComp w.toKitchen g p.line p.lost idx c).rush ++ (refireComp w.toKitchen g p.line p.lost idx c).rebuilt,
      x ∈ cs := fun x hx => made x (List.mem_flatMap.2 ⟨_, hmem, hx⟩)
  have nofree : ∀ t ∈ w.tickets, ofComponent g.number p.line.item p.line.subFrom idx t = true →
      t.state ≠ .done → (undispatched t = true → p.lost ≤ doneOf w.toKitchen g.number p.line idx) → t.number ∉ frees := by
    intro t ht ho hd hu hm
    obtain ⟨-, k2, k3, -⟩ := ofComponent_key ho
    have := kept t ht hm k2
    simp only [RefirePlan.freed, Bool.and_eq_true, Bool.or_eq_true, beq_iff_eq] at this
    rcases this.2 with q | ⟨q1, q2⟩
    · exact hd q
    · obtain ⟨rc, hrc, hq⟩ := List.any_eq_true.1 q2
      simp only [Bool.and_eq_true, beq_iff_eq, decide_eq_true_eq] at hq
      rw [hp] at hrc
      obtain ⟨j, hj, rfl⟩ := List.mem_mapIdx.1 hrc
      have hji : j = idx := hq.1.trans k3
      subst hji
      have h1 := hu q1
      have h2 : doneOf w.toKitchen g.number p.line j < p.lost := hq.2
      omega
  have hrail : portionsOf w.toKitchen (fun t => ofComponent g.number p.line.item p.line.subFrom idx t && onRail t) ≤
      livePortions (forEach dropTicket frees w).toKitchen g.number p.line.item p.line.subFrom idx := by
    refine portions_kept frees w _ _ _ _ _ fun t ht hp' => ?_
    simp only [Bool.and_eq_true] at hp'
    refine ⟨nofree t ht hp'.1 (fun q => ?_) fun q => ?_, hp'.1, fun q => ?_⟩
    · have := hp'.2; simp [onRail, q] at this
    · have := hp'.2
      have h2 := undispatched_not q
      simp [dispatched, this] at h2
    · have := hp'.2; simp [onRail, q] at this
  by_cases hlt : doneOf w.toKitchen g.number p.line idx < p.lost
  · have hdesc : waitingOf w.toKitchen g.number p.line idx - (p.lost - doneOf w.toKitchen g.number p.line idx) ≤
        descPortions (descsOf cs) g.number p.line.item p.line.subFrom idx := by
      by_cases h0 : waitingOf w.toKitchen g.number p.line idx - (p.lost - doneOf w.toKitchen g.number p.line idx) = 0
      · omega
      · obtain ⟨x, hx⟩ := computeFor_made (k := w.toKitchen) (g := g) (l := p.line) (idx := idx) h0 hs
        have hm : x ∈ computeFor w.toKitchen g p.line idx c
            (waitingOf w.toKitchen g.number p.line idx - (p.lost - doneOf w.toKitchen g.number p.line idx)) := by
          rw [hx]; exact List.mem_singleton.2 rfl
        have hr : (refireComp w.toKitchen g p.line p.lost idx c).rebuilt = computeFor w.toKitchen g p.line idx c
            (waitingOf w.toKitchen g.number p.line idx - (p.lost - doneOf w.toKitchen g.number p.line idx)) := if_pos hlt
        exact descPortions_made (hmade x (List.mem_append_right _ (hr ▸ hm))) (mem_computeFor hc hm)
    omega
  · have hkeep : portionsOf w.toKitchen (fun t => ofComponent g.number p.line.item p.line.subFrom idx t && (onRail t || undispatched t)) ≤
        livePortions (forEach dropTicket frees w).toKitchen g.number p.line.item p.line.subFrom idx := by
      refine portions_kept frees w _ _ _ _ _ fun t ht hp' => ?_
      simp only [Bool.and_eq_true] at hp'
      refine ⟨nofree t ht hp'.1 (fun q => ?_) fun q => by omega, hp'.1, fun q => ?_⟩
      · have := hp'.2; simp [onRail, undispatched, q] at this
      · have := hp'.2; simp [onRail, undispatched, q] at this
    have hsum : portionsOf w.toKitchen (fun t => ofComponent g.number p.line.item p.line.subFrom idx t && (onRail t || undispatched t)) =
        portionsOf w.toKitchen (fun t => ofComponent g.number p.line.item p.line.subFrom idx t && onRail t) +
          waitingOf w.toKitchen g.number p.line idx := by
      refine sum_split _ _ _ _ (fun t => ?_) fun t ht => ?_
      · cases ofComponent g.number p.line.item p.line.subFrom idx t <;> simp
      · simp only [Bool.and_eq_true] at ht
        cases hs : t.state <;> simp_all [onRail, undispatched]
    have hdesc : doneOf w.toKitchen g.number p.line idx - p.lost ≤
        descPortions (descsOf cs) g.number p.line.item p.line.subFrom idx := by
      by_cases h0 : doneOf w.toKitchen g.number p.line idx - p.lost = 0
      · omega
      · cases hst : findStation w.toKitchen c.station with
        | none => exact absurd hst hs
        | some s =>
          have hr : (refireComp w.toKitchen g p.line p.lost idx c).rush =
              [refireComputation w.clock ⟨g.number, p.line.item, idx, p.line.subFrom⟩ c s.defn
                (doneOf w.toKitchen g.number p.line idx - p.lost)] := by
            unfold refireComp
            dsimp only
            rw [if_neg h0, hst]
          refine descPortions_made (hmade _ (List.mem_append_left _ (hr ▸ List.mem_singleton.2 rfl)))
            (refireComputation_for hc _ _ _ _ (Nat.pos_of_ne_zero h0))
    omega

/-- A change of a group leaves it in use. -/
theorem setGroup_live {n : Nat} {f : Group → Group} (hf : ∀ g, (f g).number = g.number ∧ (g.state ≠ .cancelled → (f g).state ≠ .cancelled))
    {m : Nat} (h : ∀ x ∈ w.groups, x.number = m → x.state ≠ .cancelled) :
    ∀ x ∈ (setGroup n f w).groups, x.number = m → x.state ≠ .cancelled := by
  intro x hx e
  rcases mem_updateEntry (l := w.groups) hx with ⟨q, -⟩ | ⟨y, hy, -, rfl⟩
  · exact h x q e
  · exact (hf y).2 (h y hy ((hf y).1.symm.trans e))

theorem refreshDisplay_live (n : Nat) {m : Nat} (h : ∀ x ∈ w.groups, x.number = m → x.state ≠ .cancelled) :
    ∀ x ∈ (refreshDisplay n w).groups, x.number = m → x.state ≠ .cancelled := by
  unfold refreshDisplay
  split
  · split
    · exact h
    · exact setGroup_live (fun g => by exact ⟨rfl, id⟩) h
  · exact h

theorem clearDying_live (n : Nat) {m : Nat} (h : ∀ x ∈ w.groups, x.number = m → x.state ≠ .cancelled) :
    ∀ x ∈ (clearDying n w).groups, x.number = m → x.state ≠ .cancelled := by
  unfold clearDying
  split
  · split
    · exact setGroup_live (fun g => by exact ⟨rfl, id⟩) h
    · exact h
  · exact setGroup_live (fun g => by exact ⟨rfl, id⟩) h

theorem refreshDisplay_rest (n : Nat) (w : Work) : (refreshDisplay n w).items = w.items ∧ (refreshDisplay n w).stations = w.stations ∧
    (refreshDisplay n w).tickets = w.tickets := by
  unfold refreshDisplay
  split
  · split <;> exact ⟨rfl, rfl, rfl⟩
  · exact ⟨rfl, rfl, rfl⟩

theorem clearDying_rest (n : Nat) (w : Work) : (clearDying n w).items = w.items ∧ (clearDying n w).stations = w.stations ∧
    (clearDying n w).tickets = w.tickets := by
  unfold clearDying
  split
  · split <;> exact ⟨rfl, rfl, rfl⟩
  · exact ⟨rfl, rfl, rfl⟩

theorem commits_same (item : Nat) (rs : List Nat) (w : Work) :
    (rs.foldl (fun w r => (commit item r w).1) w).groups = w.groups ∧ (rs.foldl (fun w r => (commit item r w).1) w).tickets = w.tickets := by
  induction rs generalizing w with
  | nil => exact ⟨rfl, rfl⟩
  | cons r rs ih =>
    obtain ⟨h1, h2⟩ := ih (commit item r w).1
    obtain ⟨c1, c2⟩ := commit_groups item r w
    exact ⟨h1.trans c1, h2.trans c2⟩

theorem Kitchen.recordsSound.takeRefire (h : w.recordsSound) (g : Group) (hg : g ∈ w.groups) (hs : g.state ≠ .cancelled) (item : Nat)
    (stock : Stock) (plans : List RefirePlan) (hpl : plans = refirePlans w.toKitchen g (refireLines g item) stock) :
    (Machine.takeRefire g item plans w).1.recordsSound := by
  unfold Machine.takeRefire
  extract_lets n frees cs sts w1 w2 w3 w4 fp
  split
  · rename_i hp
    refine Kitchen.recordsSound.passSettle (Kitchen.recordsSound.arbiters (Kitchen.recordsSound.checkDraw ?_ _) _)
    obtain ⟨l1, l2⟩ := refireLines_keys item (h.lines g hg)
    obtain ⟨p1, p2⟩ := refirePlans_of w.toKitchen g (refireLines g item) stock
    rw [← hpl] at p1 p2
    have hkeys : (plans.map fun p => p.line.key).Nodup := by
      have := l1.sublist (p1.map Line.key)
      rwa [List.map_map] at this
    -- the work the stock is committed in
    let v : Work := (plans.map RefirePlan.asked).foldl (fun w r => (Machine.commit item r w).1) w
    have hv : v.recordsSound := h.foldl (fun w r => (Machine.commit item r w).1) (fun _ _ h => h.commit _ _) _
    obtain ⟨gv, tv⟩ := commits_same item (plans.map RefirePlan.asked) w
    have sv : Steady w v := (Steady.refl w).foldl (fun w r => (Machine.commit item r w).1) (fun w r => (Steady.refl w).commit _ _) _
    have ev : w1 = rebuild frees cs v := rfl
    have ef : frees = plans.flatMap fun p => (w.tickets.filter (p.freed n)).map Ticket.number := rfl
    have freed : ∀ t ∈ w.tickets, t.number ∈ frees → ∃ p ∈ plans, p.freed n t = true := fun t ht hm => by
      rw [ef] at hm; exact (mem_flatMap_numbers h _ _ ht).1 hm
    -- live portions are the same before and after the commitment
    have elive : ∀ it sf c, livePortions v.toKitchen n it sf c = livePortions w.toKitchen n it sf c := by
      intro it sf c
      unfold livePortions portionsOf
      rw [show v.tickets = w.tickets from tv]
    have erebuild : ∀ it sf c, livePortions (rebuild frees cs v).toKitchen n it sf c = livePortions (rebuild frees cs w).toKitchen n it sf c := by
      intro it sf c
      rw [rebuild_live, rebuild_live]
      congr 1
      unfold livePortions portionsOf
      rw [(forEach_dropTicket frees v).1, (forEach_dropTicket frees w).1, show v.tickets = w.tickets from tv]
    have made : ∀ x ∈ cs, ∃ it sf idx m, x.madeFor w.toKitchen n it sf idx m := by
      intro x hx
      obtain ⟨p, hp', hxp⟩ := List.mem_flatMap.1 hx
      obtain ⟨rc, hrc, hxr⟩ := List.mem_flatMap.1 hxp
      rw [(p2 p hp').comps] at hrc
      obtain ⟨j, hj, rfl⟩ := List.mem_mapIdx.1 hrc
      have hc : componentOf w.toKitchen p.line.item j = some (componentsOf w.toKitchen p.line.item)[j] := by
        rw [componentOf_eq]; simp [hj]
      obtain ⟨m, hm⟩ := mem_refireComp hc hxr
      exact ⟨_, _, j, m, hm⟩
    have hb : (rebuild frees cs v).soundBut n := by
      refine (hv.shelved n).rebuild frees cs ?_ ?_ ?_ ?_ ?_
      · intro t ht hm
        rw [show v.tickets = w.tickets from tv] at ht
        obtain ⟨p, -, hp'⟩ := freed t ht hm
        exact (p.freed_key n t hp').2
      · rw [ef]
        exact nodup_flatMap_numbers h (fun p => p.freed n) Ticket.lineKey (fun p : RefirePlan => p.line.key)
          (fun p t hp' => (p.freed_key n t hp').1) _ hkeys
      · rw [ef, show v.tickets = w.tickets from tv]; exact used_flatMap_numbers _ _
      · intro d hd
        obtain ⟨f1, f2⟩ := descs_fit (k := w.toKitchen) ⟨g, hg, rfl⟩ made d hd
        refine ⟨?_, fun hk c hc => f2 hk c (by rw [← componentOf_congr sv.items]; exact hc)⟩
        rw [show v.groups = w.groups from gv, sv.event]; exact f1
      · have : (descsOf cs).length ≤ freeRecords w.toKitchen + frees.length := by simpa [poolHas] using hp
        unfold freeRecords
        rw [show v.tickets = w.tickets from tv]; exact this
    have h3 : w3.soundBut n :=
      Work.soundBut.refreshDisplay (Work.soundBut.clearDying (Work.soundBut.recomputeLife (hb.setGroup _ fun x => by exact ⟨rfl, rfl⟩)))
    have live3 : ∀ x ∈ w3.groups, x.number = n → x.state ≠ .cancelled := by
      have l2 : ∀ x ∈ w2.groups, x.number = n → x.state ≠ .cancelled := by
        refine setGroup_live (f := fun x => { x with state := if x.state = .ready then .firing else x.state }) (fun x => ⟨rfl, fun q => ?_⟩) ?_
        rotate_left
        · intro x hx e
          rw [ev, rebuild_groups, show v.groups = w.groups from gv] at hx
          rw [h.group_inj hg hx e]; exact hs
        show (if x.state = .ready then GroupState.firing else x.state) ≠ .cancelled
        split
        · decide
        · exact q
      exact refreshDisplay_live n (clearDying_live n (setGroup_live
        (f := fun x => { x with lifeEnd := lifeEndOf w2.toKitchen n }) (fun x => by exact ⟨rfl, id⟩) l2))
    have sw : Steady v (rebuild frees cs v) := (Steady.refl v).rebuild frees cs
    have r3 : w3.items = (rebuild frees cs v).items ∧ w3.stations = (rebuild frees cs v).stations ∧
        w3.tickets = (rebuild frees cs v).tickets := by
      obtain ⟨a1, a2, a3⟩ := refreshDisplay_rest n (Machine.clearDying n (Machine.recomputeLife n w2))
      obtain ⟨b1, b2, b3⟩ := clearDying_rest n (Machine.recomputeLife n w2)
      exact ⟨a1.trans b1, a2.trans b2, a3.trans b3⟩
    have i3 : w3.items.map Item.definition = w.items.map Item.definition := by rw [r3.1, sw.items, sv.items]
    have s3 : w3.stations.map Station.fixed = w.stations.map Station.fixed := by rw [r3.2.1, sw.stations, sv.stations]
    have l3 : ∀ it sf c, livePortions w3.toKitchen n it sf c = livePortions (rebuild frees cs w).toKitchen n it sf c := by
      intro it sf c
      rw [← erebuild]
      unfold livePortions portionsOf
      rw [r3.2.2]
    have hkl : ((refiredLines plans g.lines).map Line.key) = g.lines.map Line.key := by
      unfold refiredLines
      rw [List.map_map]
      refine List.map_congr_left fun l _ => ?_
      simp only [Function.comp_apply]
      split <;> rfl
    refine h3.settleGroup w.items g _ cs rfl live3 (hkl ▸ h.lines g hg) fun l hl i c hcomp hst => ?_
    rw [componentOf_congr i3] at hcomp
    have hst' : findStation w.toKitchen c.station ≠ none := fun q => hst ((findStation_isSome_congr s3 _).2 q)
    rw [committedOf_congr i3, l3]
    obtain ⟨l0, hl0, rfl⟩ := List.mem_map.1 hl
    split
    · rename_i p hfind
      have hpm : p ∈ plans := List.mem_of_find?_eq_some hfind
      have hkey : l0.key = p.line.key := isLine_key.1 (by simpa using List.find?_some hfind)
      have hl0p : l0 = p.line := List.inj_on_of_nodup_map (h.lines g hg) hl0 (l2 _ (p2 p hpm).line) hkey
      subst hl0p
      rw [hfind] at hcomp
      dsimp only at hcomp
      have hcov := h.covered g hg hs p.line hl0 i c hcomp hst'
      have := live_refired frees cs g p hcomp hst' (p2 p hpm).comps (fun x hx => List.mem_flatMap.2 ⟨p, hpm, hx⟩)
        fun t ht hm hk => by
          obtain ⟨q, hq, hqf⟩ := freed t ht hm
          have e1 : q.line.key = p.line.key := (q.freed_key n t hqf).1.symm.trans hk
          have : q = p := List.inj_on_of_nodup_map hkeys hq hpm e1
          exact this ▸ hqf
      refine le_trans ?_ this
      have e2 : committedOf w.toKitchen { p.line with shortfall := p.line.shortfall + p.lost } = committedOf w.toKitchen p.line - p.lost := by
        unfold committedOf
        dsimp only
        split
        · omega
        · omega
      rw [e2]
      exact Nat.sub_le_sub_right hcov _
    · rename_i hfind
      rw [hfind] at hcomp
      dsimp only at hcomp
      refine le_trans (h.covered g hg hs l0 hl0 i c hcomp hst') (live_untouched frees cs w _ _ _ _ fun t ht hm => ?_)
      obtain ⟨q, hq, hqf⟩ := freed t ht hm
      by_contra hne
      rw [Bool.not_eq_false] at hne
      have e1 : l0.key = q.line.key := (ofComponent_key hne).2.1.symm.trans (q.freed_key n t hqf).1
      have := List.find?_eq_none.1 hfind q hq
      exact this (isLine_key.2 e1)
  · exact h

theorem Kitchen.recordsSound.refire (h : w.recordsSound) (n item : Nat) : (Machine.refire n item w).1.recordsSound := by
  unfold Machine.refire
  refine recordsSound_judgeGroup h n _ fun g hg _ => ?_
  split
  · exact h
  · rename_i hst
    split
    · exact h
    · split
      · exact h
      · split
        · exact h
        · extract_lets plans
          split
          · exact h
          · split
            · exact h
            · rename_i x _ _ _ _ _
              exact h.takeRefire g hg (fun q => by simp [q] at hst) item x.stock plans rfl

end

end Sys2Proof.Machine
end

