-- ==== Sys2Proof/Laws/RecordsSteps.lean ====
section
/-! SUPPORT. Sound records through the mode requests, the station bus, the events of time and the definition requests. -/

namespace Sys2Proof.Machine

section

variable {w : Work}

/-! ### Mode requests, stock -/

theorem recordsSound_judgeStation (h : w.recordsSound) (n : Nat) (act : Station → Work × Answer)
    (ha : ∀ s, (act s).1.recordsSound) : (judgeStation n w act).1.recordsSound := by
  unfold judgeStation
  split
  · exact h
  · split
    · exact h
    · exact ha _

theorem Kitchen.recordsSound.takeMode (h : w.recordsSound) (n : Nat) (m : Mode) (c : Nat) (cause : ModeCause) :
    (Machine.takeMode n m c cause w).1.recordsSound := (h.changeMode _ _ _ _ _).passSettle

theorem Kitchen.recordsSound.warmUp (h : w.recordsSound) (n : Nat) (s : Station) (cause : ModeCause) :
    (Machine.warmUp n s cause w).1.recordsSound := by
  unfold Machine.warmUp
  split <;> exact h.takeMode _ _ _ _

theorem Kitchen.recordsSound.stationOn (h : w.recordsSound) (n : Nat) : (Machine.stationOn n w).1.recordsSound := by
  refine recordsSound_judgeStation h n _ fun s => ?_
  split
  · exact h.warmUp _ _ _
  · exact h

theorem Kitchen.recordsSound.stationOff (h : w.recordsSound) (n : Nat) : (Machine.stationOff n w).1.recordsSound := by
  refine recordsSound_judgeStation h n _ fun s => ?_
  split
  · exact h.takeMode _ _ _ _
  · exact h

theorem Kitchen.recordsSound.pauseStation (h : w.recordsSound) (n : Nat) : (Machine.pauseStation n w).1.recordsSound := by
  refine recordsSound_judgeStation h n _ fun s => ?_
  split
  · exact h.takeMode _ _ _ _
  · exact h

theorem Kitchen.recordsSound.resumeStation (h : w.recordsSound) (n : Nat) : (Machine.resumeStation n w).1.recordsSound := by
  refine recordsSound_judgeStation h n _ fun s => ?_
  split
  · exact h.takeMode _ _ _ _
  · exact h

theorem Kitchen.recordsSound.haltStation (h : w.recordsSound) (n : Nat) : (Machine.haltStation n w).1.recordsSound := by
  refine recordsSound_judgeStation h n _ fun s => ?_
  split
  · exact h
  · exact h.takeMode _ _ _ _

theorem Kitchen.recordsSound.clearStation (h : w.recordsSound) (n : Nat) : (Machine.clearStation n w).1.recordsSound := by
  refine recordsSound_judgeStation h n _ fun s => ?_
  split
  · exact h.warmUp _ _ _
  · exact h

theorem Kitchen.recordsSound.changeAll (h : w.recordsSound) (o m : Mode) (cause : ModeCause) :
    (Machine.changeAll o m cause w).1.recordsSound := (h.forEach _ (fun _ _ h => h.changeMode _ _ _ _ _) _).passSettle

theorem Kitchen.recordsSound.setStock (h : w.recordsSound) (item stock : Nat) : (Machine.setStock item stock w).1.recordsSound := by
  unfold Machine.setStock
  split
  · exact h
  · split
    · exact h
    · dsimp only
      refine Kitchen.recordsSound.passSettle ?_
      have h1 := h.setItem item (withStock (stockField stock)) (by intro i; rfl)
      split
      · exact h1.raise _
      · exact h1

/-! ### The current terminal -/

theorem Kitchen.recordsSound.repost (h : w.recordsSound) (st a n : Nat) : (Machine.repost st a n w).recordsSound :=
  (h.setTicket n (fun t => { t with reprint := true }) fun _ _ _ => ⟨rfl, rfl, id, id⟩).setTerminal a _
    fun t ht => pendPost_ascend st n t ht

theorem Kitchen.recordsSound.rebuildRail (h : w.recordsSound) (st a : Nat) : (Machine.rebuildRail st a w).recordsSound :=
  (h.forEach _ (fun n _ h => h.repost st a n) _).setTerminal a _ fun t ht => markMode_ascend st _ (markNext_ascend st t ht)

theorem Kitchen.recordsSound.rechoose (h : w.recordsSound) (st : Nat) : (Machine.rechoose st w).recordsSound := by
  unfold Machine.rechoose
  split
  · rename_i s _
    extract_lets new w1 w2 w3
    split
    · exact h
    · have h1 : w1.recordsSound := h.setStation st _ (by intro s; rfl)
      have h2 : w2.recordsSound := by
        cases hc : s.current with
        | none => simp only [w2, hc]; exact h1
        | some a => simp only [w2, hc]; exact (h1.setTerminal a _ fun t ht => loseStation_ascend st t ht).freeVoiding st
      have h3 : w3.recordsSound := by
        cases hc : new with
        | none => simp only [w3, hc]; exact h2
        | some a => simp only [w3, hc]; exact h2.rebuildRail st a
      exact h3.slotFreed st
  · exact h

theorem Kitchen.recordsSound.rechooseBound (h : w.recordsSound) (a : Nat) : (Machine.rechooseBound a w).recordsSound :=
  h.forEach _ (fun n _ h => h.rechoose n) _

theorem Kitchen.recordsSound.rebind (h : w.recordsSound) (st p f : Nat) : (Machine.rebind st p f w).1.recordsSound := by
  unfold Machine.rebind
  split
  · exact h
  · split
    · exact h
    · split
      · exact h
      · dsimp only
        exact ((h.setStation st _ (by intro s; rfl)).rechoose st).passSettle

theorem Kitchen.recordsSound.terminalHeard (h : w.recordsSound) (a : Nat) : (Machine.terminalHeard a w).recordsSound := by
  unfold Machine.terminalHeard
  split
  · dsimp only
    have h1 := h.setTerminal a (fun t => { t with misses := 0, receipt := true, state := .live }) fun t ht => ht
    split
    · exact h1
    · exact (h1.raise _).rechooseBound a
  · exact h

theorem Kitchen.recordsSound.terminalDown (h : w.recordsSound) (a : Nat) : (Machine.terminalDown a w).recordsSound := by
  unfold Machine.terminalDown
  split
  · exact ((h.setTerminal a (fun t => { t with state := .lost }) fun t ht => ht).raise _).rechooseBound a
  · exact h

/-! ### Signals -/

theorem Kitchen.recordsSound.setFound (h : w.recordsSound) {n : Nat} {t : Ticket} (ht : findTicket w.toKitchen n = some t)
    (f : Ticket → Ticket) (hf : t.tamely (f t)) : (Machine.setTicket n f w).recordsSound := by
  refine h.setTicket n f fun u hu e => ?_
  have : u = t := h.ticket_inj hu (List.mem_of_find?_eq_some ht) (e.trans (entryOf_key ht).symm)
  exact this ▸ hf

theorem Kitchen.recordsSound.postAcked (h : w.recordsSound) (st n : Nat) : (Machine.postAcked st n w).recordsSound := by
  unfold Machine.postAcked
  split
  · rename_i t ht
    split
    · split
      · rename_i hs
        exact (h.setFound ht _ ⟨rfl, rfl, fun _ => by simp [holdsSlot, hs], fun q => by cases q⟩).recompute _
      · exact h.setTicket n _ fun _ _ _ => ⟨rfl, rfl, id, id⟩
      · exact h.setTicket n _ fun _ _ _ => ⟨rfl, rfl, id, id⟩
      all_goals exact h
    · exact h
  · exact h

theorem Kitchen.recordsSound.voidAcked (h : w.recordsSound) (st n : Nat) : (Machine.voidAcked st n w).recordsSound := by
  unfold Machine.voidAcked
  split
  · rename_i t ht
    split
    · rename_i hv
      refine ((h.dropTicket n fun u hu e => .inr (.inl ?_)).slotFreed st).groupTicketFreed _
      rw [h.ticket_inj hu (List.mem_of_find?_eq_some ht) (e.trans (entryOf_key ht).symm)]
      exact hv.2
    · exact h
  · exact h

theorem Kitchen.recordsSound.takeStart (h : w.recordsSound) (a st n : Nat) : (Machine.takeStart a st n w).recordsSound := by
  unfold Machine.takeStart
  split
  · rename_i t ht
    split
    · split
      · rename_i hs
        refine Kitchen.recordsSound.recompute (Kitchen.recordsSound.setTerminal ?_ a (unpendPost n) fun t ht => ht) _
        exact h.setFound ht (fun t => { t with state := .cooking, startAt := some w.clock, postedAt := some w.clock, reprint := false })
          ⟨rfl, rfl, fun _ => by simp [holdsSlot, hs], fun q => by cases q⟩
      · rename_i hs
        exact (h.setFound ht _ ⟨rfl, rfl, fun _ => by simp [holdsSlot, hs], fun q => by cases q⟩).recompute _
      all_goals exact h
    · exact h
  · exact h

theorem bumped_tamely (clock : Nat) (t : Ticket) : t.tamely (bumped clock t) ∧ (bumped clock t).kind = t.kind := by
  unfold bumped
  split
  · exact ⟨⟨rfl, rfl, fun q => by simp [holdsSlot] at q, fun q => by cases q⟩, rfl⟩
  · exact ⟨⟨rfl, rfl, fun q => by simp [holdsSlot] at q, fun q => by cases q⟩, rfl⟩
  · exact ⟨⟨rfl, rfl, fun q => by simp [holdsSlot] at q, fun q => by cases q⟩, rfl⟩
  all_goals exact ⟨Ticket.tamely.refl t, rfl⟩

theorem Kitchen.recordsSound.afterBump (h : w.recordsSound) (t : Ticket)
    (ht : ∀ u ∈ w.tickets, u.number = t.number → u.kind = t.kind) : (Machine.afterBump t w).recordsSound := by
  unfold Machine.afterBump
  split
  · rename_i hk
    refine Kitchen.recordsSound.slotFreed ?_ _
    refine Kitchen.recordsSound.dropTicket ?_ _ fun u hu e => .inl ((ht u hu e).trans hk)
    exact h.setItem _ _ (by intro i; rfl)
  · exact ((h.slotFreed _).recompute _).handOver _

theorem Kitchen.recordsSound.takeBump (h : w.recordsSound) (a st n : Nat) : (Machine.takeBump a st n w).recordsSound := by
  unfold Machine.takeBump
  split
  · rename_i t ht
    split
    · dsimp only
      have h1 := h.setTicket n (bumped w.clock) fun u _ _ => (bumped_tamely w.clock u).1
      have hk : ∀ u ∈ (Machine.setTicket n (bumped w.clock) w).tickets, u.number = t.number → u.kind = t.kind := by
        intro u hu e
        have hm := List.mem_of_find?_eq_some ht
        rcases mem_updateEntry (l := w.tickets) hu with ⟨q, -⟩ | ⟨x, hx, ex, rfl⟩
        · rw [h.ticket_inj q hm e]
        · obtain ⟨b1, b2⟩ := bumped_tamely w.clock x
          rw [b2, h.ticket_inj hx hm (b1.1.symm.trans e)]
      split
      · exact (h1.setTerminal a (unpendPost n) fun t ht => ht).afterBump t hk
      · exact h1.afterBump t hk
    · exact h
  · exact h

theorem Kitchen.recordsSound.takeTaken (h : w.recordsSound) (a g : Nat) : (Machine.takeTaken a g w).recordsSound := by
  unfold Machine.takeTaken
  split
  · split
    · exact h.freeGroup _ _
    · exact h
  · exact h

theorem Kitchen.recordsSound.takeFault (h : w.recordsSound) (a : Nat) : (Machine.takeFault a w).recordsSound :=
  h.forEach _ (fun _ _ h => h.changeMode _ _ _ _ _) _

theorem Kitchen.recordsSound.takeHello (h : w.recordsSound) (a : Nat) : (Machine.takeHello a w).recordsSound := by
  unfold Machine.takeHello
  refine (h.forEach _ (fun n _ h => h.rebuildRail n a) _).setTerminal a _ fun t ht => ?_
  split <;> exact ht

theorem Kitchen.recordsSound.acceptFrame (h : w.recordsSound) (u : Turn) : (Machine.acceptFrame u w).recordsSound := by
  unfold Machine.acceptFrame
  split
  · exact h
  · exact h
  · exact h
  · split
    · rename_i st n _ _ _ _ _ _ _
      exact (h.setTerminal u.address (unpendPost n) fun t ht => ht).postAcked st n
    · exact h
  · split
    · rename_i st n _ _
      exact (h.setTerminal u.address (unpendVoid n) fun t ht => ht).voidAcked st n
    · exact h
  · exact h.setTerminal _ _ fun t ht => ⟨dropNumber_ascending _ ht.1, ht.2⟩
  · refine h.setTerminal _ _ fun t ht => ?_
    extract_lets t'
    have h' : t'.marksAscend := by show (if _ then _ else _ : Terminal).marksAscend; split <;> exact ht
    split
    · exact h'
    · exact showNote_ascend _ _ h'

theorem Kitchen.recordsSound.keepFrame (h : w.recordsSound) (u : Turn) : (Machine.keepFrame u w).recordsSound := by
  unfold Machine.keepFrame
  split
  · split
    · exact h.setTerminal _ _ (markNext_ascend _)
    · exact h
  · split
    · exact h.setTerminal _ _ (markMode_ascend _)
    · exact h
  all_goals exact h

theorem Kitchen.recordsSound.handOn (h : w.recordsSound) (a : Nat) (r : BusReply) : (Machine.handOn a r w).recordsSound := by
  unfold Machine.handOn
  split
  · exact h
  · exact h
  · exact h.takeStart _ _ _
  · exact h.takeBump _ _ _
  · exact h.takeTaken _ _
  · exact h.takeFault _
  · exact h.takeHello _

theorem Kitchen.recordsSound.handleReply (h : w.recordsSound) (r : BusReply) : (Machine.handleReply r w).recordsSound := by
  unfold Machine.handleReply
  split
  · rename_i u _
    extract_lets w1 w2 w3
    have h1 : w1.recordsSound := h.same rfl rfl rfl rfl rfl rfl id fun _ h => h
    split
    · exact h1
    · have h2 : w2.recordsSound := h1.terminalHeard _
      have h3 : w3.recordsSound := by
        show (if _ then _ else _ : Work).recordsSound
        split
        · exact h2.acceptFrame u
        · exact h2.keepFrame u
      exact (h3.handOn _ _).passSettle
  · exact h

theorem Kitchen.recordsSound.missTurn (h : w.recordsSound) : (Machine.missTurn w).recordsSound := by
  unfold Machine.missTurn
  split
  · rename_i u _
    extract_lets w1
    have h1 : w1.recordsSound := h.same rfl rfl rfl rfl rfl rfl id fun _ h => h
    split
    · exact h1
    · have h2 := (h1.setTerminal u.address missed fun t ht => ht).keepFrame u
      unfold loseAtLimit
      split
      · split
        · exact (h2.terminalDown _).passSettle
        · exact h2
      · exact h2
  · exact h

theorem Kitchen.recordsSound.badReply (h : w.recordsSound) (cs : List BusChar) : (Machine.badReply cs w).recordsSound := by
  unfold Machine.badReply
  split
  · split
    · exact h
    · split
      · exact h
      all_goals exact h.missTurn
  · exact h

theorem Kitchen.recordsSound.loseTerminal (h : w.recordsSound) (a : Nat) : (Machine.loseTerminal a w).recordsSound := by
  unfold Machine.loseTerminal
  split
  · exact h.missTurn
  · exact h

theorem Kitchen.recordsSound.beginTurn (h : w.recordsSound) (a : Nat) : (Machine.beginTurn a w).recordsSound := by
  unfold Machine.beginTurn
  split
  · exact (h.setTerminal a _ (clearMark_ascend _)).same rfl rfl rfl rfl rfl rfl id fun _ h => h
  · exact h

theorem Kitchen.recordsSound.sendBroadcast (h : w.recordsSound) : (Machine.sendBroadcast w).recordsSound := by
  unfold Machine.sendBroadcast
  split
  · exact h.same rfl rfl rfl rfl rfl rfl id fun _ h => h
  · exact h

theorem Kitchen.recordsSound.takeTurn (h : w.recordsSound) : (Machine.takeTurn w).recordsSound := by
  unfold Machine.takeTurn
  split
  · exact h
  · dsimp only
    split
    · exact h.sendBroadcast.beginTurn _
    · exact h.sendBroadcast

theorem Kitchen.recordsSound.broadcastTurn (h : w.recordsSound) : (Machine.broadcastTurn w).recordsSound := by
  unfold Machine.broadcastTurn
  split
  · exact h
  · exact h.sendBroadcast

/-! ### The events of time -/

theorem Kitchen.recordsSound.makeDue (h : w.recordsSound) (p : Ticket → Bool) : (Machine.makeDue p w).recordsSound := by
  unfold Machine.makeDue
  refine Kitchen.recordsSound.forEach ?_ _ (fun n _ h => h.recompute n) _
  refine h.mapTickets (fun t => if (t.state == .queued && p t) = true then { t with state := .due } else t) (fun t _ => ?_) rfl rfl rfl rfl
    rfl rfl rfl rfl
  split
  · exact ⟨rfl, rfl, fun q => by simp [holdsSlot] at q, fun q => by cases q⟩
  · exact Ticket.tamely.refl t

theorem Kitchen.recordsSound.setOwed (h : w.recordsSound) (f : Owed → Owed) : (Machine.setOwed f w).recordsSound :=
  h.same rfl rfl rfl rfl rfl rfl id fun _ h => h

theorem Kitchen.recordsSound.endWarmup (h : w.recordsSound) (st : Nat) : (Machine.endWarmup st w).recordsSound := by
  unfold Machine.endWarmup
  split
  · extract_lets w1
    have h1 : w1.recordsSound := h.setOwed _
    split
    · split
      · exact (h1.changeMode _ _ _ _ _).passSettle
      · exact h1
    · exact h1
  · exact h

theorem Kitchen.recordsSound.releaseTickets (h : w.recordsSound) (st : Nat) : (Machine.releaseTickets st w).recordsSound := by
  unfold Machine.releaseTickets
  split
  · extract_lets w1
    have h1 : w1.recordsSound := h.setOwed _
    split
    · exact ((h1.makeDue _).arbiter _).passSettle
    · exact h1
  · exact h

theorem Kitchen.recordsSound.overdueTickets (h : w.recordsSound) (st : Nat) : (Machine.overdueTickets st w).recordsSound := by
  unfold Machine.overdueTickets
  split
  · extract_lets w1
    have h1 : w1.recordsSound := h.setOwed _
    split
    · split
      · exact h1.foldl _ (fun _ t h => (h.setTicket t.number _ fun _ _ _ => by exact ⟨rfl, rfl, id, id⟩).raise _) _
      · exact h1
    · exact h1
  · exact h

theorem joinDraw_groups (n : Nat) (w : Work) : (joinDraw n w).groups = w.groups := rfl

theorem Kitchen.recordsSound.startPlating (h : w.recordsSound) (n : Nat) : (Machine.startPlating n w).recordsSound := by
  unfold Machine.startPlating
  split
  · extract_lets w1 w2
    have h1 : w1.recordsSound := h.setOwed _
    have h2 : w2.recordsSound := h1.testGroup n
    refine Kitchen.recordsSound.passSettle ?_
    split
    · have hj : ∀ m ∈ w2.owed.plating.filter (joins w2.toKitchen), ∀ g ∈ w2.groups, g.number = m → g.state ≠ .cancelled := by
        intro m hm g hg e
        have := (List.mem_filter.1 hm).2
        unfold joins at this
        split at this
        · rename_i x hx
          simp only [Bool.and_eq_true] at this
          exact found_state h2 hx hg e ▸ testPasses_state this.1
        · cases this
      have key : ∀ (ns : List Nat) (v : Work), v.recordsSound → v.groups = w2.groups →
          (∀ m ∈ ns, ∀ g ∈ w2.groups, g.number = m → g.state ≠ .cancelled) → (Machine.forEach Machine.joinDraw ns v).recordsSound := by
        intro ns
        induction ns with
        | nil => exact fun v hv _ _ => hv
        | cons m ns ih =>
          intro v hv hg hm
          refine ih (Machine.joinDraw m v) (hv.joinDraw m ?_) hg fun x hx => hm x (List.mem_cons_of_mem m hx)
          rw [hg]
          exact hm m List.mem_cons_self
      exact key _ w2 h2 rfl hj
    · exact h2
  · exact h

theorem Kitchen.recordsSound.reachLife (h : w.recordsSound) (n : Nat) : (Machine.reachLife n w).recordsSound := by
  unfold Machine.reachLife
  split
  · extract_lets w1
    have h1 : w1.recordsSound := h.setOwed _
    split
    · split
      · extract_lets
        exact ((h1.setGroup n (fun g => { g with flags := { g.flags with dying := true } }) fun _ _ _ => ⟨rfl, Iff.rfl, rfl⟩).raise
          _).refreshDisplay n
      · exact h1
    · exact h1
  · exact h

/-- With no group and no ticket in use the records are sound where the tables, the counter and the marks are. -/
theorem recordsSound_empty {k : Kitchen} (items : k.items.Pairwise fun a b => a.number < b.number)
    (stations : k.stations.Pairwise fun a b => a.number < b.number) (groups : k.groups = []) (tickets : k.tickets = [])
    (counter : 1 ≤ k.nextTicket ∧ k.nextTicket ≤ Config.maxTicketNumber) (marks : ∀ t ∈ k.terminals, t.marksAscend) :
    k.recordsSound := by
  refine ⟨items, stations, ?_, ?_, ?_, counter, ?_, ?_, marks, ?_, ?_, ?_, ?_⟩
  · rw [groups]; exact List.Pairwise.nil
  · rw [tickets]; exact List.nodup_nil
  · rw [tickets]; exact Nat.zero_le _
  · rw [tickets]; exact fun t ht => by cases ht
  · intro x _
    unfold slotsHeld
    rw [tickets]; exact Nat.zero_le _
  · rw [groups]; exact fun t ht => by cases ht
  · rw [tickets]; exact fun t ht => by cases ht
  · rw [groups]; exact fun t ht => by cases ht
  · intro n _
    rw [groups]; exact fun t ht => by cases ht

/-- With no group in use and the part not in SERVICE no ticket is (R80, R95). -/
theorem Kitchen.recordsSound.no_tickets {k : Kitchen} (h : k.recordsSound) (hg : k.groups = []) (he : k.event ≠ .service) :
    k.tickets = [] := by
  cases ht : k.tickets with
  | nil => rfl
  | cons t ts =>
    rcases h.homes t (by rw [ht]; exact List.mem_cons_self) with ⟨-, q⟩ | ⟨g, q, -⟩
    · exact absurd q he
    · rw [hg] at q; cases q

theorem goneReports_rest (w : Work) : (goneReports w).toKitchen = w.toKitchen := by
  unfold goneReports
  generalize w.groups = gs
  induction gs generalizing w with
  | nil => rfl
  | cons g gs ih => exact ih _

theorem Kitchen.recordsSound.closeStation (h : w.recordsSound) (st : Nat) : (Machine.closeStation st w).recordsSound :=
  ((h.setStation st (fun s => { s with mode := .off, countdown := 0 }) (by intro s; rfl)).raise _).atCurrent st _ (markMode_ascend st)

theorem Kitchen.recordsSound.closeEvent (h : w.recordsSound) (cause : EventCause) : (Machine.closeEvent cause w).recordsSound := by
  unfold Machine.closeEvent
  have e := goneReports_rest (stopEvent w)
  have h1 : (sweepRecords (goneReports (stopEvent w))).recordsSound := by
    refine recordsSound_empty ?_ ?_ rfl rfl ?_ ?_
    · show ((goneReports (stopEvent w)).toKitchen).items.Pairwise _
      rw [e]; exact h.items
    · show (((goneReports (stopEvent w)).toKitchen).stations.map fun s => { s with staged := none }).Pairwise _
      rw [e]; exact List.pairwise_map.2 h.stations
    · show 1 ≤ ((goneReports (stopEvent w)).toKitchen).nextTicket ∧ ((goneReports (stopEvent w)).toKitchen).nextTicket ≤ _
      rw [e]; exact h.counter
    · show ∀ t ∈ ((goneReports (stopEvent w)).toKitchen).terminals, _
      rw [e]; exact h.marks
  have h2 : (closeStations (sweepRecords (goneReports (stopEvent w)))).recordsSound := h1.forEach _ (fun n _ h => h.closeStation n) _
  have h3 : (sweepFrames (closeStations (sweepRecords (goneReports (stopEvent w))))).recordsSound := by
    refine h2.withTerminals rfl rfl rfl rfl rfl rfl rfl fun t ht => ?_
    obtain ⟨x, hx, rfl⟩ := List.mem_map.1 ht
    exact ⟨(h2.marks x hx).1, List.Pairwise.nil, (h2.marks x hx).2.2⟩
  exact h3.setBroadcast.raise _

theorem Kitchen.recordsSound.reachLimit (h : w.recordsSound) : (Machine.reachLimit w).recordsSound := by
  unfold Machine.reachLimit
  split
  · exact h.closeEvent _
  · exact h.setOwed _

theorem Kitchen.recordsSound.settleOwed (h : w.recordsSound) : (Machine.settleOwed w).recordsSound := by
  unfold Machine.settleOwed
  exact (((((h.forEach _ (fun n _ h => h.endWarmup n) _).forEach _ (fun n _ h => h.releaseTickets n) _).forEach _
    (fun n _ h => h.overdueTickets n) _).forEach _ (fun n _ h => h.reachLife n) _).forEach _ (fun n _ h => h.startPlating n) _).reachLimit

theorem Kitchen.recordsSound.tickDevice (h : w.recordsSound) : (Machine.tickDevice w).recordsSound := by
  refine h.mapStations ?_ rfl rfl rfl rfl rfl id fun _ h => h
  simp [Machine.tickDevice, List.map_map, Function.comp_def, countDown_fixed]

theorem Kitchen.recordsSound.tickClock (h : w.recordsSound) : (Machine.tickClock w).recordsSound :=
  h.same rfl rfl rfl rfl rfl rfl id fun _ h => h

theorem Kitchen.recordsSound.deviceSecond (h : w.recordsSound) : (Machine.deviceSecond w).recordsSound := by
  unfold Machine.deviceSecond
  replace h := h.settleOwed
  unfold Machine.advance
  split
  · exact ((h.tickDevice.tickClock.forEach _ (fun n _ h => h.recompute n) _).setOwed _).passSettle
  · exact h.tickDevice.setOwed _

theorem Kitchen.recordsSound.startEvent (h : w.recordsSound) : (Machine.startEvent w).1.recordsSound := by
  unfold Machine.startEvent
  split
  · exact h
  · split
    · exact h
    · extract_lets w1 w2 w3
      have h1 : w1.recordsSound := by
        refine h.tame (k' := w1.toKitchen) (fun _ => rfl) ?_ rfl rfl (fun _ h => h) h.marks (List.Sublist.refl _)
          (fun g hg => ⟨g, hg, rfl, Iff.rfl, rfl⟩) (fun _ => true) id (by simp [w1]) (fun t _ => Ticket.tamely.refl t)
          (fun _ _ hk => by cases hk) (fun _ _ _ hg => hg)
        simp [w1, List.map_map, Function.comp_def, Item.definition]
      have h3 : w3.recordsSound := ((h1.makeDue _).arbiters _).raise _
      exact (h3.forEach _ (fun n _ h => h.testGroup n) _).passSettle

/-! ### Definition requests -/

theorem Kitchen.recordsSound.defItem (h : w.recordsSound) (he : w.event ≠ .service) (r : ItemReq) : (Machine.defItem r w).1.recordsSound := by
  unfold Machine.defItem
  rcases define_cases (itemChecks w.toKitchen r) (takeItem r) w with e | ⟨hg, -, e⟩
  · rw [e]; exact h
  · rw [e]
    have h1 : ({ w with items := insertEntry Item.number (itemOf r) w.items } : Work).recordsSound :=
      recordsSound_empty (insertEntry_ascending (key := Item.number) _ _ h.items) h.stations hg (h.no_tickets hg he) h.counter h.marks
    unfold takeItem
    dsimp only
    split
    · exact h1.raise _
    · exact h1

theorem Kitchen.recordsSound.defCourse (h : w.recordsSound) (n b p t : Nat) : (Machine.defCourse n b p t w).1.recordsSound := by
  unfold Machine.defCourse
  rcases define_cases (courseChecks n b t) (takeCourse ⟨n, b, p, t⟩) w with e | ⟨-, -, e⟩
  · rw [e]; exact h
  · rw [e]; exact h.same rfl rfl rfl rfl rfl rfl id fun _ h => h

theorem Kitchen.recordsSound.defStation (h : w.recordsSound) (he : w.event ≠ .service) (r : StationReq) :
    (Machine.defStation r w).1.recordsSound := by
  unfold Machine.defStation
  rcases define_cases (stationChecks w.toKitchen r) (takeStation r) w with e | ⟨hg, -, e⟩
  · rw [e]; exact h
  · rw [e]
    have ht := h.no_tickets hg he
    unfold takeStation
    split
    · dsimp only
      refine Kitchen.recordsSound.rechoose ?_ _
      refine recordsSound_empty h.items ?_ hg ht h.counter h.marks
      exact insertEntry_ascending (key := Station.number) _ _ h.stations
    · dsimp only
      have h1 : (Machine.setStation r.number (fun s => { s with defn := stationDefOf r }) w).recordsSound := by
        refine recordsSound_empty h.items ?_ hg ht h.counter h.marks
        exact ascending_congr Station.number (key' := id) (fun _ => rfl)
          (updateEntry_map Station.number r.number _ w.stations fun _ _ _ => rfl) h.stations
      split
      · exact h1
      · exact h1.rechoose _

theorem redefined_ascend (kind : Nat) (t : Terminal) (h : t.marksAscend) : (redefined kind t).marksAscend := by
  unfold redefined
  split
  · exact h
  · exact ⟨List.Pairwise.nil, h.2⟩

theorem Kitchen.recordsSound.defTerminal (h : w.recordsSound) (a kind : Nat) : (Machine.defTerminal a kind w).1.recordsSound := by
  unfold Machine.defTerminal
  rcases define_cases (terminalChecks w.toKitchen a kind) (takeTerminal a kind) w with e | ⟨-, -, e⟩
  · rw [e]; exact h
  · rw [e]
    unfold takeTerminal
    split
    · exact h
    · split
      · refine h.withTerminals rfl rfl rfl rfl rfl rfl rfl fun t ht => ?_
        rcases mem_insertEntry _ _ _ ht with rfl | ht
        · exact ⟨List.Pairwise.nil, List.Pairwise.nil, List.Pairwise.nil⟩
        · exact h.marks t ht
      · exact h.setTerminal a _ (redefined_ascend kind)

theorem Kitchen.recordsSound.clearConfig (h : w.recordsSound) (he : w.event ≠ .service) : (Machine.clearConfig w).1.recordsSound := by
  unfold Machine.clearConfig
  split
  · exact h
  · rename_i hg
    have hg : w.groups = [] := by simpa using hg
    exact Kitchen.recordsSound.setBroadcast
      (recordsSound_empty List.Pairwise.nil List.Pairwise.nil hg (h.no_tickets hg he) h.counter fun t ht => by cases ht)

theorem Kitchen.recordsSound.clearedKitchen {k : Kitchen} (h : k.recordsSound) : (Machine.clearedKitchen k).recordsSound := by
  refine recordsSound_empty (List.pairwise_map.2 h.items) (List.pairwise_map.2 h.stations) rfl rfl (by decide : 1 ≤ 1 ∧ 1 ≤ 9999) ?_
  intro t ht
  obtain ⟨x, -, rfl⟩ := List.mem_map.1 ht
  exact ⟨List.Pairwise.nil, List.Pairwise.nil, List.Pairwise.nil⟩

/-! ### A request that the event gate passes -/

theorem Kitchen.recordsSound.perform (h : w.recordsSound) (reports : Nat) (gap : Bool) (r : Request)
    (hg : gatePasses r.kind w.event = true) : (Machine.perform reports gap r w).1.recordsSound := by
  have he : r.kind = .clrcfg ∨ r.kind = .defitem ∨ r.kind = .defstn → w.event ≠ .service := by
    intro hk q
    rw [q] at hg
    rcases hk with e | e | e <;> rw [e] at hg <;> exact absurd hg (by decide)
  cases r with
  | start => exact h.startEvent
  | close => exact h.closeEvent _
  | restart => exact h
  | clrcfg => exact h.clearConfig (he (.inl rfl))
  | defitem r => exact h.defItem (he (.inr (.inl rfl))) r
  | defcrs n b p t => exact h.defCourse n b p t
  | defstn r => exact h.defStation (he (.inr (.inr rfl))) r
  | defterm a k => exact h.defTerminal a k
  | stock i s => exact h.setStock i s
  | rebind st p f => exact h.rebind st p f
  | submit r => exact h.submit r
  | amend g i sf c => exact h.amend g i sf c
  | retime g t => exact h.retime g t
  | hold g => exact h.hold g
  | cancel g => exact h.cancel g
  | pickup g => exact h.pickup g
  | refire g i => exact h.refire g i
  | stnon n => exact h.stationOn n
  | stnoff n => exact h.stationOff n
  | pause n => exact h.pauseStation n
  | pauseall => exact h.changeAll _ _ _
  | resume n => exact h.resumeStation n
  | resumeall => exact h.changeAll _ _ _
  | halt n => exact h.haltStation n
  | clear n => exact h.clearStation n
  | qgroup g f => exact recordsSound_judgeGroup h g _ fun _ _ _ => h
  | qstn n => exact recordsSound_judgeStation h n _ fun _ => h
  | qitem i =>
    show (queryItem i w).1.recordsSound
    unfold queryItem
    split
    · exact h
    · split <;> exact h
  | qterm a =>
    show (queryTerminal a w).1.recordsSound
    unfold queryTerminal
    split
    · exact h
    · split <;> exact h
  | qstat => exact h

end

end Sys2Proof.Machine
end

