-- ==== Sys2Proof/Laws/Seconds.lean ====
section
/-! SUPPORT. What a device second can do: what is still owed is carried out, the counts advance, and the new second's events are
owed (R4, R5, R9, R106). -/

namespace Sys2Proof.Machine

/-- What the owners still have to act on takes no part in a settling. -/
theorem Settles.withOwed {a b : Work} (h : Settles a b) (o : Owed) : Settles { a with owed := o } { b with owed := o } :=
  ⟨⟨h.steady.event, h.steady.clock, h.steady.seconds, rfl, h.steady.courses, h.steady.broadcast, h.steady.lastTurn,
    h.steady.busLine, h.steady.items, h.steady.stations, h.steady.terminals, h.steady.out, h.steady.stock⟩,
    h.groups, h.stations, h.terminals, h.turn, h.tickets⟩

/-! ### What the events still owed leave as it is -/

/-- The event state and an owed clock limit stay. -/
structure LimitStays (w w' : Work) : Prop where
  limit : w'.owed.limit = w.owed.limit
  event : w'.event = w.event

theorem LimitStays.refl (w : Work) : LimitStays w w := ⟨rfl, rfl⟩

theorem LimitStays.trans {a b c : Work} (h : LimitStays a b) (g : LimitStays b c) : LimitStays a c :=
  ⟨g.limit.trans h.limit, g.event.trans h.event⟩

theorem Steady.limitStays {a b : Work} (h : Steady a b) : LimitStays a b := ⟨by rw [h.owed], h.event⟩

theorem limitStays_forEach (f : Nat → Work → Work) (hf : ∀ n w, LimitStays w (f n w)) (ns : List Nat) (w : Work) :
    LimitStays w (forEach f ns w) := by
  unfold forEach
  induction ns generalizing w with
  | nil => exact LimitStays.refl w
  | cons n ns ih => exact (hf n w).trans (ih _)

theorem limitStays_endWarmup (st : Nat) (w : Work) : LimitStays w (endWarmup st w) := by
  unfold endWarmup
  split
  · extract_lets w1
    have h1 : LimitStays w w1 := ⟨rfl, rfl⟩
    split
    · split
      · exact h1.trans (((Steady.refl w1).changeMode _ _ _ _ _).passSettle).limitStays
      · exact h1
    · exact h1
  · exact LimitStays.refl w

theorem limitStays_releaseTickets (st : Nat) (w : Work) : LimitStays w (releaseTickets st w) := by
  unfold releaseTickets
  split
  · extract_lets w1
    have h1 : LimitStays w w1 := ⟨rfl, rfl⟩
    split
    · exact h1.trans ((((Steady.refl w1).makeDue _).arbiter _).passSettle).limitStays
    · exact h1
  · exact LimitStays.refl w

theorem limitStays_overdueTickets (st : Nat) (w : Work) : LimitStays w (overdueTickets st w) := by
  unfold overdueTickets
  split
  · extract_lets w1
    have h1 : LimitStays w w1 := ⟨rfl, rfl⟩
    split
    · split
      · exact h1.trans ((Steady.refl w1).foldl _ (fun w t => (Steady.refl w).markOverdue t) _).limitStays
      · exact h1
    · exact h1
  · exact LimitStays.refl w

theorem limitStays_reachLife (n : Nat) (w : Work) : LimitStays w (reachLife n w) := by
  unfold reachLife
  split
  · extract_lets w1
    have h1 : LimitStays w w1 := ⟨rfl, rfl⟩
    split
    · split
      · extract_lets
        exact h1.trans ((((Steady.refl w1).setGroup n _).raise _).refreshDisplay n).limitStays
      · exact h1
    · exact h1
  · exact LimitStays.refl w

theorem limitStays_startPlating (n : Nat) (w : Work) : LimitStays w (startPlating n w) := by
  unfold startPlating
  split
  · extract_lets w1 w2
    have h1 : LimitStays w w1 := ⟨rfl, rfl⟩
    have h2 : Steady w1 w2 := (Steady.refl w1).testGroup n
    refine h1.trans (Steady.passSettle ?_).limitStays
    split
    · exact h2.forEach _ (fun n w => (Steady.refl w).joinDraw n) _
    · exact h2
  · exact LimitStays.refl w

/-! ### The closing, and what is still owed -/

theorem closeEvent_event (cause : EventCause) (w : Work) : (closeEvent cause w).event = .closed :=
  (((((Steady.refl (stopEvent w)).goneReports).trans (steady_sweepRecords _)).closeStations).sweepFrames).event

theorem reachLimit_closes {w : Work} (hl : w.owed.limit = true) (he : w.event = .service) : (reachLimit w).event = .closed := by
  have e : reachLimit w = closeEvent .limit w := by
    unfold reachLimit
    rw [hl, he]
    rfl
  rw [e]
  exact closeEvent_event _ w

/-- A clock limit owed in SERVICE closes the event when what is owed is carried out (R9). -/
theorem settleOwed_closes {w : Work} (hl : w.owed.limit = true) (he : w.event = .service) : (settleOwed w).event = .closed := by
  unfold settleOwed
  extract_lets w1 w2 w3 w4 w5
  have h1 : LimitStays w w1 := limitStays_forEach _ limitStays_endWarmup _ _
  have h2 : LimitStays w w2 := h1.trans (limitStays_forEach _ limitStays_releaseTickets _ _)
  have h3 : LimitStays w w3 := h2.trans (limitStays_forEach _ limitStays_overdueTickets _ _)
  have h4 : LimitStays w w4 := h3.trans (limitStays_forEach _ limitStays_reachLife _ _)
  have h5 : LimitStays w w5 := h4.trans (limitStays_forEach _ limitStays_startPlating _ _)
  exact reachLimit_closes (h5.limit.trans hl) (h5.event.trans he)

/-- With nothing owed there is nothing to carry out. -/
theorem settleOwed_none {w : Work} (h : w.owed = Owed.none) : settleOwed w = w := by
  obtain ⟨⟨_, _, _, _, _, _, _, _, _, _, _, _, _, _, _, _⟩, _⟩ := w
  simp only at h
  subst h
  rfl

/-! ### The advance -/

theorem Steady.recomputeAll {a w : Work} (h : Steady a w) (ns : List Nat) : Steady a (Machine.forEach Machine.recompute ns w) :=
  h.forEach _ (fun n w => (Steady.refl w).recompute n) _

theorem advance_serving {w : Work} (he : w.event = .service) (hc : w.clock < 65535) :
    advance w =
      passSettle
        { forEach recompute (activeGroups (tickClock (tickDevice w)).toKitchen) (tickClock (tickDevice w)) with
          owed :=
            owedNow (forEach recompute (activeGroups (tickClock (tickDevice w)).toKitchen) (tickClock (tickDevice w))).toKitchen } :=
  if_pos ⟨he, hc⟩

theorem advance_standing {w : Work} (h : w.event ≠ .service ∨ 65535 ≤ w.clock) :
    advance w = { tickDevice w with owed := { Owed.none with warm := (owedNow (tickDevice w).toKitchen).warm } } := by
  unfold advance
  rw [if_neg]
  · rfl
  · rintro ⟨he, hc⟩
    exact h.elim (fun q => q he) fun q => absurd hc (Nat.not_lt.2 q)

theorem advance_seconds (w : Work) : (advance w).seconds = w.seconds + 1 := by
  unfold advance
  split
  · extract_lets w1 w2
    have h : Steady w1 w2 := (Steady.refl w1).recomputeAll _
    exact ((Steady.refl (setOwed (fun _ => owedNow w2.toKitchen) w2)).passSettle).seconds.trans h.seconds
  · rfl

end Sys2Proof.Machine
end

