-- ==== Sys2Proof/Tests/Slice0.lean ====
section
/-! SUPPORT. The model's own tests: the checks of WellFormed, the spec's worked examples, one step of each family on a small
kitchen, and for every statement states that meet its hypotheses. -/

-- One after another: in the joined text the tests would otherwise wait for the kernel all at once, each in a thread of its own.
set_option Elab.async false

namespace Sys2Proof.Machine

open Host

/-! ### Well-formed commands -/

theorem test_wf_station_zero : (Instr.warmupEnd 0).wf = false := by decide
theorem test_wf_station_above : (Instr.ticketRelease 25).wf = false := by decide
theorem test_wf_overdue_above : (Instr.ticketOverdue 25).wf = false := by decide
theorem test_wf_group_zero : (Instr.platingStart 0).wf = false := by decide
theorem test_wf_group_above : (Instr.lifeEnd 513).wf = false := by decide
theorem test_wf_no_characters : (Instr.badReply []).wf = false := by decide
theorem test_wf_broadcast_address : (Instr.terminalLost 31).wf = false := by decide
theorem test_wf_bounds : (Instr.warmupEnd 24).wf ∧ (Instr.lifeEnd 512).wf ∧ (Instr.terminalLost 30).wf := by decide

/-- No row of the table gives bits. -/
theorem test_no_word_decodes : decodeTableWord 8 0x01 = none := by decide

/-! ### The worked examples of the spec -/

/-- R183's worked CRC: QSTAT with sequence 1. -/
theorem test_crc_worked : crc16 [0x00, 0x02, 0x44, 0x01] = 0x3B89 := by decide +kernel
theorem test_crc_registers :
    [[0x00], [0x00, 0x02], [0x00, 0x02, 0x44]].map crc16 = [0xE1F0#16, 0x3D4D#16, 0xA2BE#16] := by decide +kernel
theorem test_frame_worked : hostBytes 0x44 0x01 [] = [0xA5, 0x00, 0x02, 0x44, 0x01, 0x3B, 0x89] := by decide +kernel

/-- Check bytes worked in 10_frame_and_record_layouts.md: BUMP 402 at station 2, and a POLL with the receipt mark set. -/
theorem test_check_bump : (BusReply.chars 10 (.bump 2 402)).getLast? = some ⟨0x28, false⟩ := by decide +kernel
theorem test_check_poll : (frameChars 5 true .poll).getLast? = some ⟨0xFE, false⟩ := by decide +kernel
theorem test_poll_address_marked : (frameChars 5 true .poll).head? = some ⟨0x05, true⟩ := by decide +kernel

/-- R65: course 3 with 110 and 111 covers. -/
theorem test_plating_lead : platingLead 120 15 110 = 285 ∧ platingLead 120 15 111 = 287 := by decide

/-- R67: 104 and 100 portions in batches of at most 24. -/
theorem test_batches : batchSizes 104 24 = [21, 21, 21, 21, 20] ∧ batchSizes 100 24 = [20, 20, 20, 20, 20] := by decide

/-- R68: 18 portions of 24 are exactly 75 percent, and 19 are above. -/
theorem test_bands : [6, 7, 12, 13, 18, 19, 24].map (fun m => loadBand m 24) = [0, 1, 1, 2, 2, 3, 3] := by decide

/-- R69: 900 s with 10 percent, and 725 s with 5 percent. -/
theorem test_effective_cook : effectiveCook 900 [0, 0, 0, 10] 3 = 990 ∧ effectiveCook 725 [5] 0 = 762 := by decide

/-- R70 to R72: two waves of a component with Ceff 990 and L 60. -/
theorem test_waves : latestStart 4815 990 60 2 0 = 2775 ∧ latestStart 4815 990 60 2 1 = 3825 := by decide
theorem test_release_clamped : releaseTime 2775 120 0 = 2655 ∧ releaseTime 2775 120 2700 = 2700 := by decide
theorem test_held_time : heldTime 300 2 990 60 = 1350 ∧ heldTime 300 1 990 60 = 300 := by decide

/-- R82: with 9,999 and 1 in use, three tickets from 9,998 on are 9,998, 2 and 3. -/
theorem test_numbers :
    pickNumber [9999, 1] 2 9998 = 9998 ∧ pickNumber [9999, 1, 9998] 3 (numberAfter 9998) = 2 ∧
      pickNumber [9999, 1, 9998, 2] 4 (numberAfter 2) = 3 ∧ numberAfter 3 = 4 := by decide

/-- R163: a length of 288 abandons the frame at its second byte. -/
theorem test_length_too_long :
    (receiveByte 0x20 (receiveByte 0x01 (receiveByte 0xA5 HostPort.powerOn))).rx = .hunt := by decide +kernel

/-! ### A small kitchen -/

def grill : Station := ⟨1, ⟨2, 30, 20, 300, 60, [0, 5, 10, 20], 5, some 7⟩, .ready, 0, some 5, none⟩
def post5 : Terminal := ⟨5, .station, .live, 3, true, [], [], [], [], [], [], []⟩
def pass6 : Terminal := ⟨6, .pass, .live, 0, true, [], [], [], [], [], [], []⟩
def post7 : Terminal := ⟨7, .station, .unknown, 0, false, [], [], [], [], [], [], []⟩
def name16 : List Byte := List.replicate 16 0x41
def roast : Item := ⟨10, name16, 1, .plated, [⟨1, 120, 10, 30, 600⟩], none, .limited 100, false, 0, 0, 0, 0⟩
def jus : Item := ⟨11, name16, 1, .standing, [⟨1, 60, 0, 0, 0⟩], none, .limited 500, false, 40, 20, 300, 60⟩
def table4 : Group :=
  ⟨4, 77, 2, 1, 40, 900, 100, .planned, ⟨false, false, false, false, false⟩, 900, [⟨10, none, 10, 0, false⟩], none, none⟩
def slip (n : Nat) (st : TicketState) : Ticket :=
  ⟨n, 1, 4, 10, 0, none, 10, .normal, 500, 770, 144, 30, st, false, false, none, none, none⟩
def pantry : Kitchen :=
  { Kitchen.powerOn with
    items := [roast, jus]
    courses := [⟨1, 60, 10, 60⟩]
    stations := [grill]
    terminals := [post5, pass6, post7]
    nextTicket := 4 }
/-- SERVICE at clock 500, with one group and three of its tickets. -/
def kitchen : Kitchen :=
  { pantry with
    event := .service
    clock := 500
    groups := [table4]
    tickets := [slip 1 .queued, slip 2 .posted, slip 3 .cooking] }
def running (k : Kitchen) : State := { State.reset with kit := k }
def asking (k : Kitchen) (r : Request) : State :=
  { running k with host := { HostPort.powerOn with intake := [⟨r.kind.code, 9, r.body⟩] } }
def addressing (k : Kitchen) (a : Nat) (f : BusFrame) : State :=
  running { k with turn := some ⟨a, true, f, false, false, false⟩ }
def turnAt (a : Nat) (f : BusFrame) : Turn := ⟨a, true, f, false, false, false⟩

theorem asks_of (k : Kitchen) (r : Request)
    (h : (parseRequest r.kind.code r.body == .request r.kind r && gatePasses r.kind k.event && !k.owed.limit) = true) :
    Asks (asking k r) r 9 [] := by
  simp only [Bool.and_eq_true, Bool.not_eq_true', beq_iff_eq] at h
  exact ⟨rfl, ⟨r.body, rfl, h.1.1⟩, rfl, rfl, rfl, h.2, h.1.2⟩

theorem faces_of (k : Kitchen) (f : Frame) (h : k.owed.limit = false) :
    Faces { running k with host := { HostPort.powerOn with intake := [f] } } f [] :=
  ⟨rfl, rfl, rfl, rfl, rfl, h⟩

theorem addressed_of (k : Kitchen) (a : Nat) (f : BusFrame) (t : Terminal) (h : findTerminal k a = some t) :
    Addressed (addressing k a f) (turnAt a f) t := ⟨rfl, rfl, rfl, h⟩

/-- What a step gives, as a test reads it: the reply's answer, the reports and the kitchen. -/
def after (o : Outcome State Fault Refusal) : Option State :=
  match o with
  | .next s => some s
  | _ => none

def ticketStates (o : Outcome State Fault Refusal) : Option (List (Nat × TicketState)) :=
  (after o).map fun s => s.kit.tickets.map fun t => (t.number, t.state)

def answers (o : Outcome State Fault Refusal) : Option (List Answer) :=
  (after o).map fun s => s.host.replyPath.map Reply.answer

def reports (o : Outcome State Fault Refusal) : Option (List ReportBody) :=
  (after o).map fun s => s.host.reports.map Report.body

/-! ### One step of each family -/

theorem test_idle : after (step State.reset) = some State.reset := by decide +kernel

theorem test_qstat_from_reset :
    answers (exec .qstat (asking Kitchen.powerOn .qstat)) = some [.ok (.part ⟨.setup, 0, 0, 2048, 1, false⟩)] := by decide +kernel

/-- R2: DEFCRS in SERVICE is BADSTATE. -/
theorem test_definition_frozen : answers (exec .defcrs (asking kitchen (.defcrs 2 0 0 90))) = some [.badState] := by
  decide +kernel

/-- R19: a platebase above 1,800 is the first wrong field. -/
theorem test_course_base : answers (exec .defcrs (asking pantry (.defcrs 8 1801 0 901))) = some [.badField .platebase 0] := by
  decide +kernel

/-- R107: a station with slots held drains. -/
theorem test_stnoff_drains : answers (exec .stnoff (asking kitchen (.stnoff 1))) = some [.ok (.modeSet 1 .draining)] := by
  decide +kernel

/-- R86, R88: the ticket whose release is reached becomes DUE; both slots are held, so it is staged and not granted. -/
theorem test_release :
    ticketStates (exec (.ticketRelease 1) (running { kitchen with owed := { Owed.none with release := [1] } })) =
      some [(1, .due), (2, .posted), (3, .cooking)] := by decide +kernel

/-- R94: BUMP of the POSTED ticket frees a slot. -/
theorem test_bump :
    ticketStates (exec (.bump 1 2) (addressing kitchen 5 .poll)) = some [(1, .queued), (2, .done), (3, .cooking)] := by
  decide +kernel

/-- R96: a BUMP from a terminal that is not the station's current one is ignored. -/
theorem test_bump_elsewhere :
    ticketStates (exec (.bump 1 2) (addressing kitchen 7 .poll)) = some [(1, .queued), (2, .posted), (3, .cooking)] := by
  decide +kernel

/-- R90, R82: a RETIME frees the staged ticket 1, and its successor takes the number 1 again and is staged: NEXT is handed over. -/
theorem test_staged_successor :
    let k : Kitchen :=
      { kitchen with
        stations := [{ grill with staged := some 1 }]
        groups := [{ table4 with lines := [⟨10, none, 30, 0, false⟩] }]
        tickets := [slip 1 .due, slip 2 .posted, slip 3 .cooking]
        nextTicket := 1 }
    (after (exec .retime (asking k (.retime 4 700)))).map
      (fun s => (s.kit.stations.map Station.staged, s.kit.terminals.map Terminal.nextMarks)) =
      some ([some 1], [[1], [], []]) := by decide +kernel

/-- R112: FAULT halts the station. -/
theorem test_fault : (after (exec .fault (addressing kitchen 5 .poll))).map (fun s => s.kit.stations.map Station.mode) =
    some [.halted] := by decide +kernel

/-- R130: the eighth miss loses the terminal. -/
theorem test_eighth_miss :
    (after (exec .replyWindowExpiry
      (addressing { kitchen with terminals := [{ post5 with misses := 7 }, pass6, post7] } 5 .poll))).map
      (fun s => (s.kit.terminals.map Terminal.state, s.kit.stations.map Station.current)) =
    some ([.lost, .live, .unknown], [none]) := by decide +kernel

/-- R52, R99: CANCEL voids what is on the rail and frees the rest. -/
theorem test_cancel : ticketStates (exec .cancel (asking kitchen (.cancel 4))) = some [(2, .voiding), (3, .voiding)] ∧
    answers (exec .cancel (asking kitchen (.cancel 4))) = some [.ok (.cancelled 2)] := by decide +kernel

/-- R8: CLOSE leaves no group and no ticket; its reports stand in the order of its steps. -/
theorem test_close : reports (exec .close (asking kitchen .close)) =
    some [.started, .grpgone 4 77 .abandoned, .stnmode 1 .off .close 0, .evstate .closed .close] := by decide +kernel

/-- R4, R5: a device second in SERVICE. -/
theorem test_second : (after (exec .deviceSecond (running { kitchen with groups := [], tickets := [] }))).map
    (fun s => (s.kit.seconds, s.kit.clock)) = some (1, 501) := by decide +kernel

/-- R173: the removal of a report with the gap mark set puts GAP at the tail. -/
theorem test_gap :
    (after (exec .transmitterChoice { running kitchen with
      host := { HostPort.powerOn with reports := [⟨3, .started⟩, ⟨4, .gap 9⟩], gap := true, discards := 48 } })).map
      (fun s => (s.host.reports, s.host.gap)) = some ([⟨4, .gap 9⟩, ⟨500, .gap 48⟩], false) := by decide +kernel

/-! ### States that meet the hypotheses of the statements, clause by clause -/

theorem witness_StepRunsFrontCommand :
    ({ State.reset with pending := [.turn] } : State).pending = .turn :: [] ∧ State.reset.pending = [] := ⟨rfl, rfl⟩

theorem witness_ResetLeavesPowerOnState :
    (running kitchen).resetLow = false ∧ (assertReset (running kitchen)).resetLow = true ∧ Instr.turn ≠ .resetRelease := by
  decide +kernel

theorem witness_DeviceSecondAdvances :
    (∀ k ∈ [kitchen, { kitchen with clock := 65534 }],
      (running k).resetLow = false ∧ k.owed = Owed.none ∧ k.event = .service ∧ k.clock < 65535) ∧
    (∀ k ∈ [pantry, { kitchen with clock := 65535 }], k.owed = Owed.none ∧ (k.event ≠ .service ∨ 65535 ≤ k.clock)) ∧
    ({ kitchen with clock := 65535, owed := { Owed.none with limit := true } } : Kitchen).owed.limit = true ∧
    (let w := settleOwed (begun { kitchen with owed := { Owed.none with release := [1] } })
     w.owed = Owed.none ∧ w.event = .service ∧ w.clock < 65535 ∧ w.tickets.map Ticket.state = [.due, .posted, .cooking]) := by
  decide +kernel

/-- A new second at which station 1's QUEUED ticket reaches its release, T − D of group 4 is past, and a WARMING station counts down
(R86, R106, R143). -/
theorem test_second_owes :
    (let w := deviceSecond (begun { kitchen with
       clock := 799, groups := [{ table4 with target := 900, lead := 100 }], tickets := [{ slip 1 .queued with release := 800 }]
       stations := [grill, { grill with number := 2, mode := .warming, countdown := 1 }] })
     (w.owed.release, w.owed.plating, w.owed.warm, w.owed.overdue, w.stations.map Station.countdown, w.clock)) =
      ([1], [4], [2], [], [0, 0], 800) := by decide +kernel

def warming : Kitchen :=
  { pantry with stations := [{ grill with mode := .warming }], owed := { Owed.none with warm := [1] } }

theorem witness_WarmupEndMakesReady :
    1 ∈ warming.owed.warm ∧ findStation warming 1 = some { grill with mode := .warming } ∧ 1 ∉ kitchen.owed.warm := by
  decide +kernel

def releasing : Kitchen := { kitchen with owed := { Owed.none with release := [1] } }

theorem witness_ReleaseMakesTicketsDue :
    1 ∈ releasing.owed.release ∧ releasing.event = .service ∧ 1 ∉ kitchen.owed.release := by decide +kernel

def lateSlip : Ticket := { slip 3 .cooking with startAt := some 296 }
def cookingLate : Kitchen := { kitchen with tickets := [lateSlip], owed := { Owed.none with overdue := [1] } }

/-- start + Ceff + G is the clock itself. -/
theorem witness_OverdueTicketsMarked :
    cookingLate.event = .service ∧ 1 ∈ cookingLate.owed.overdue ∧ findStation cookingLate 1 = some grill ∧
      (queueOf cookingLate 1).filter (overdueNow cookingLate grill) = [lateSlip] ∧ 296 + 144 + 60 = cookingLate.clock := by
  decide +kernel

def plating (g : Group) (ts : List Ticket) : Kitchen :=
  { kitchen with clock := 800, groups := [g], tickets := ts, owed := { Owed.none with plating := [4] } }
def sauced : Group := { table4 with lines := [⟨11, none, 10, 0, false⟩] }

/-- T − D is the clock itself. -/
theorem witness_PlatingStartTestsGroup :
    (testPasses (plating table4 [slip 1 .done]) table4 = true ∧
      ¬∃ l ∈ table4.lines, l.drawn = false ∧
        (findItem (plating table4 [slip 1 .done]) l.item).map Item.kind = some .standing) ∧
    (testPasses (plating sauced []) sauced = true ∧
      ∃ l ∈ sauced.lines, l.drawn = false ∧ (findItem (plating sauced []) l.item).map Item.kind = some .standing) ∧
    testPasses (plating table4 [slip 1 .cooking]) table4 = false ∧ 4 ∈ (plating sauced []).owed.plating ∧
    findGroup (plating sauced []) 4 = some sauced ∧ 4 ∉ kitchen.owed.plating := by decide +kernel

def aging : Group := { table4 with state := .firing, lifeEnd := some 500 }

/-- A group whose life end is the clock itself, not yet shown as DYING and shown so; and a group of two lines of which only the
second has a DONE ticket, that of its component 0, which gives the life end 500. -/
theorem witness_LifeEndMarksDying :
    (∀ d ∈ [none, some Display.ready, some Display.dying],
      let g : Group := { aging with display := d }
      let k : Kitchen := { kitchen with groups := [g], owed := { Owed.none with life := [4] } }
      4 ∈ k.owed.life ∧ k.event = .service ∧ findGroup k 4 = some g ∧ g.flags.dying = false ∧ (500 : Int) ≤ k.clock) ∧
      4 ∉ kitchen.owed.life ∧ roast.lines[0]? = some ⟨1, 120, 10, 30, 600⟩ ∧
      (let done : Ticket := { slip 1 .done with doneAt := some 100 }
       let k : Kitchen := { kitchen with clock := 700, tickets := [slip 2 .queued, done] }
       let g : Group := { aging with lines := [⟨11, none, 10, 0, false⟩, ⟨10, none, 10, 0, false⟩], lifeEnd := some 700 }
       done ∈ k.tickets ∧ findItem k 10 = some roast ∧ (700 : Int) = (100 : Nat) + (600 : Nat) ∧
         lifeEndSource k g 700 = (10, 0)) := by
  decide +kernel

theorem witness_ClosingSweepsEvent :
    Asks (asking kitchen .close) .close 9 [] ∧
      ({ kitchen with owed := { Owed.none with limit := true } } : Kitchen).owed.limit = true ∧ kitchen.owed.limit = false ∧
      kitchen.stations.Pairwise (fun a b => a.number < b.number) ∧ grill.mode ≠ .off ∧ grill.current = some post5.address :=
  ⟨asks_of _ _ (by decide +kernel), rfl, rfl, by decide, by decide, rfl⟩

theorem witness_HostBytesFollowTable :
    ([0, 2, 258, 259].map fun n : Nat => (2 ≤ n ∧ n ≤ 258 : Bool)) = [false, true, true, false] ∧
      ([0x44, 0x01] : List Byte).length = (0x00 : Byte).toNat * 256 + (0x02 : Byte).toNat ∧
      (after (exec .close (asking kitchen .close))).isSome = true := by decide +kernel

theorem witness_FramesJudgedOrAbandoned :
    crc16 [0x00, 0x02, 0x44, 0x01] = (0x3B : Byte) ++ (0x89 : Byte) ∧
      crc16 [0x00, 0x02, 0x44, 0x01] ≠ (0x3B : Byte) ++ (0x8A : Byte) ∧
      (List.replicate 3 (⟨1, 0x44, .busy⟩ : Reply)).length < 4 ∧
      ((List.replicate 4 (⟨1, 0x44, .busy⟩ : Reply)).filter isBusy).length = 4 := by decide +kernel

theorem witness_HostFramesReadBack :
    (List.replicate 256 (0 : Byte)).length ≤ 256 ∧ State.reset.host.rx = .hunt ∧ State.reset.host.intake.length < 4 := by
  decide +kernel

/-- Each form of the reply path and the report queue; with RESTART acted on, its reply in the path, BUSY replies alone, and none; and
the answers and reports that a statement of bytes takes apart. -/
theorem witness_TransmitterChooses :
    let h := HostPort.powerOn
    let owed := fun path => ({ h with restartOwed := true, replyPath := path } : HostPort)
    ({ h with replyPath := [⟨1, 0x44, .busy⟩] } : HostPort).restartOwed = false ∧
      (h.replyPath = [] ∧ h.reports = [⟨0, .started⟩] ∧ h.gap = false) ∧
      ({ h with gap := true, discards := 1 } : HostPort).gap = true ∧ ({ h with reports := [] } : HostPort).reports = [] ∧
      (owed []).replyPath = [] ∧ (∃ q ∈ (owed [⟨1, 0x44, .busy⟩, ⟨9, 0x03, .ok .empty⟩]).replyPath, isBusy q = false) ∧
      (∀ q ∈ (owed [⟨1, 0x44, .busy⟩]).replyPath, isBusy q = true) ∧
      (h.reports.length < 96 ∧ 96 ≤ (List.replicate 96 (⟨0, .started⟩ : Report)).length) ∧
      ((⟨1, 0x44, .badField .length 0⟩ : Reply).bytes.drop 3).take 6 = [0xC4, 1, 2, 0x44, 32, 0] ∧
      ((⟨258, .gap 48⟩ : Report).bytes.drop 3).take 6 = [0xEC, 0, 1, 2, 0, 48] := by decide +kernel

theorem witness_HostPortSoundKept :
    HostPort.powerOn.sound ∧ (after (step { State.reset with pending := [.transmitterChoice] })).isSome = true :=
  ⟨⟨trivial, by decide, by decide, by decide, by decide, by decide, by decide, by decide, by decide⟩, by decide +kernel⟩

theorem witness_RequestBodiesReadBack :
    (Request.qgroup 65535 255).fits = true ∧ (Request.submit ⟨4294967295, 255, 8, 400, 65535, [⟨255, 400⟩]⟩).fits = true ∧
      (Request.defcrs 0 65535 255 0).fits = true := by decide +kernel

/-- A refused kind and a passed one in each event state. -/
theorem witness_GateRefusesByTable :
    Faces { running pantry with host := { HostPort.powerOn with intake := [⟨0x02, 9, []⟩] } } ⟨0x02, 9, []⟩ [] ∧
      [ReqKind.close, .start, .qstat].map ReqKind.code = [0x02, 0x01, 0x44] ∧
      bodyLength .close [] = 0 ∧ bodyLength .start [] = 0 ∧ bodyLength .restart [] = 0 :=
  ⟨faces_of _ _ rfl, by decide, rfl, rfl, rfl⟩

theorem witness_FramesActedOnInTurn :
    Faces { running pantry with host := { HostPort.powerOn with intake := [⟨0x99, 9, []⟩] } } ⟨0x99, 9, []⟩ [] ∧
      kindOf 0x99 = none ∧ ([0x00] : List Byte).length ≠ bodyLength .qstat [0x00] ∧
      replyWaiting { HostPort.powerOn with replyPath := [⟨9, 0x44, .badState⟩] } = true ∧
      sendingReply { HostPort.powerOn with tx := some (.reply ⟨9, 0x44, .badState⟩) } = true ∧
      (kindOf 0x44).isSome = true :=
  ⟨faces_of _ _ rfl, by decide, by decide, by decide, by decide, by decide⟩

theorem witness_StartOpensService :
    Asks (asking Kitchen.powerOn .start) .start 9 [] ∧ Kitchen.powerOn.stations = [] ∧
      Asks (asking { pantry with stations := [{ grill with number := 2 }] } .start) .start 9 [] ∧
      firstLoose { pantry with stations := [{ grill with number := 2 }] } = some (1, 10) ∧
      Asks (asking pantry .start) .start 9 [] ∧ firstLoose pantry = none ∧ pantry.stations ≠ [] :=
  ⟨asks_of _ _ (by decide +kernel), rfl, asks_of _ _ (by decide +kernel), by decide +kernel, asks_of _ _ (by decide +kernel),
    by decide +kernel, by decide +kernel⟩

/-- RESTART asked; its reply being sent with a frame of no request, a QSTAT and a CLOSE behind it, of which SETUP
passes the QSTAT and refuses the CLOSE; and nothing to clear. -/
theorem witness_RestartAnsweredThenCleared :
    Asks (asking kitchen .restart) .restart 9 [] ∧
      (∀ f ∈ [(⟨0x99, 9, []⟩ : Frame), ⟨0x44, 9, []⟩, ⟨0x02, 9, []⟩],
        let h :=
          { HostPort.powerOn with restartOwed := true, tx := some (.reply ⟨9, 0x03, .ok .empty⟩), intake := [f] }
        h.restartOwed = true ∧ replyWaiting h = false ∧ h.intake = [f]) ∧
      kindOf 0x99 = none ∧ parseRequest 0x44 [] = .request .qstat .qstat ∧ parseRequest 0x02 [] = .request .close .close ∧
      gatePasses .qstat .setup = true ∧ gatePasses .close .setup = false ∧ HostPort.powerOn.restartOwed = false :=
  ⟨asks_of _ _ (by decide +kernel), by decide +kernel⟩

/-- R11, R12: a CLOSE behind RESTART is answered BADSTATE, after the clearing. -/
theorem test_close_behind_restart :
    (match exec .close
        { running kitchen with
          host :=
            { HostPort.powerOn with
              restartOwed := true, tx := some (.reply ⟨9, 0x03, .ok .empty⟩), intake := [⟨0x02, 10, []⟩] } } with
     | .next t => some (t.host.replyPath, t.host.reports, t.kit.event)
     | .fault _ | .refused _ => none) =
      some ([⟨10, 0x02, .badState⟩], [⟨0, .evstate .setup .restart⟩], .setup) := by decide +kernel

theorem witness_ConfigCleared :
    Asks (asking pantry .clrcfg) .clrcfg 9 [] ∧ pantry.groups = [] ∧
      Asks (asking { pantry with groups := [table4] } .clrcfg) .clrcfg 9 [] ∧ [table4] ≠ [] ∧
      (∀ f ∈ [BusFrame.poll, .note ⟨4, 2, .ready⟩],
        Asks (asking { pantry with turn := some ⟨5, true, f, false, false, false⟩ } .clrcfg) .clrcfg 9 []) :=
  ⟨asks_of _ _ (by decide +kernel), rfl, asks_of _ _ (by decide +kernel), by decide +kernel, fun f hf =>
    asks_of _ _ (by fin_cases hf <;> decide +kernel)⟩

theorem witness_DefinitionsJudged :
    Asks (asking { pantry with groups := [table4] } (.defcrs 9 0 0 0)) (.defcrs 9 0 0 0) 9 [] ∧
      Asks (asking pantry (.defcrs 9 0 0 0)) (.defcrs 9 0 0 0) 9 [] ∧
      courseChecks 9 0 0 = [] ++ (true, .number, 0) :: [(false, .platebase, 0), (false, .tol, 0)] :=
  ⟨asks_of _ _ (by decide +kernel), asks_of _ _ (by decide +kernel), by decide +kernel⟩

def newItem (kind stock : Nat) : ItemReq :=
  ⟨12, name16, 1, kind, 0, stock, if kind = 2 then 240 else 0, 0, 0, [⟨24, 7200, 240, 1800, 60⟩]⟩

/-- A PLATED item exhausted at once, a STANDING one with unlimited stock, and the largest course. -/
theorem witness_ItemAndCourseDefined :
    (∀ r ∈ [newItem 1 0, newItem 2 65535], firstBad (itemChecks pantry r) = none) ∧
      Asks (asking pantry (.defitem (newItem 1 0))) (.defitem (newItem 1 0)) 9 [] ∧
      Asks (asking pantry (.defcrs 8 1800 255 900)) (.defcrs 8 1800 255 900) 9 [] ∧ pantry.groups = [] :=
  ⟨by decide +kernel, asks_of _ _ (by decide +kernel), asks_of _ _ (by decide +kernel), rfl⟩

def newStation (n primary fallback : Nat) : StationReq := ⟨n, 8, 600, 600, 3600, 900, [0, 0, 0, 100], primary, fallback⟩

/-- A new station, a defined one with its binding as it was, and one with another, READY, and DRAINING with a slot held. -/
theorem witness_StationDefined :
    firstBad (stationChecks pantry (newStation 24 7 0)) = none ∧ findStation pantry 24 = none ∧
      firstBad (stationChecks pantry (newStation 1 5 7)) = none ∧ firstBad (stationChecks pantry (newStation 1 7 5)) = none ∧
      findStation pantry 1 = some grill ∧ grill.mode ≠ .draining ∧ grill.staged = none ∧
      (let k : Kitchen := { pantry with stations := [{ grill with mode := .draining }], tickets := [slip 2 .posted] }
       firstBad (stationChecks k (newStation 1 7 0)) = none ∧ (slip 2 .posted).station = 1 ∧
         ∀ t ∈ k.tickets, t.state ≠ .voiding) ∧
      terminalLive pantry 5 = true ∧ terminalLive pantry 7 = false ∧
      Asks (asking pantry (.defstn (newStation 24 7 0))) (.defstn (newStation 24 7 0)) 9 [] := by
  and_intros
  all_goals first | exact asks_of _ _ (by decide +kernel) | decide +kernel

theorem witness_TerminalDefined :
    (∀ p ∈ [(30, 1), (7, 1), (7, 2), (6, 1)], firstBad (terminalChecks { pantry with stations := [] } p.1 p.2) = none) ∧
      findTerminal pantry 30 = none ∧ findTerminal pantry 7 = some post7 ∧
      2 ≤ ([pass6, { pass6 with address := 8 }].filter fun t => t.kind == .pass && t.address != 7).length ∧
      Asks (asking pantry (.defterm 30 1)) (.defterm 30 1) 9 [] :=
  ⟨by decide +kernel, by decide +kernel, by decide +kernel, by decide +kernel, asks_of _ _ (by decide +kernel)⟩

theorem witness_StockSet :
    Asks (asking kitchen (.stock 10 0)) (.stock 10 0) 9 [] ∧ Asks (asking kitchen (.stock 10 65535)) (.stock 10 65535) 9 [] ∧
      Asks (asking kitchen (.stock 0 1)) (.stock 0 1) 9 [] ∧ findItem kitchen 10 = some roast ∧ findItem kitchen 99 = none :=
  ⟨asks_of _ _ (by decide +kernel), asks_of _ _ (by decide +kernel), asks_of _ _ (by decide +kernel), by decide +kernel,
    by decide +kernel⟩

/-- A binding that leaves the current terminal, one that changes it, a wrong one, and numbers not defined and out of range; and a
station whose choice differs from its current terminal, having one and having none. -/
theorem witness_StationRebound :
    Asks (asking kitchen (.rebind 1 7 5)) (.rebind 1 7 5) 9 [] ∧ firstBad (bindingChecks kitchen 1 7 5) = none ∧
      grill.current = some 5 ∧ terminalLive kitchen 7 = false ∧ terminalLive kitchen 5 = true ∧
      terminalLive { kitchen with terminals := [post5, pass6, { post7 with state := .live }] } 7 = true ∧
      firstBad (bindingChecks kitchen 1 6 0) = some (.badField .primary 0) ∧ findStation kitchen 1 = some grill ∧
      findStation kitchen 24 = none ∧ Asks (asking kitchen (.rebind 25 7 5)) (.rebind 25 7 5) 9 [] ∧
      ([some 5, some 7, none].map fun c => decide (chooseCurrent kitchen { grill with current := c } = c)) = [true, false, false] ∧
      findTerminal kitchen 5 = some post5 ∧ post5.state = .live := by
  and_intros
  all_goals first | exact asks_of _ _ (by decide +kernel) | decide +kernel

/-- Numbers just outside, a number not in use, and a record in a state that does not admit the request. -/
theorem witness_RecordRequestsJudged :
    Asks (asking kitchen (.hold 513)) (.hold 513) 9 [] ∧ Asks (asking kitchen (.retime 0 0)) (.retime 0 0) 9 [] ∧
      findGroup kitchen 512 = none ∧ Asks (asking kitchen (.pickup 4)) (.pickup 4) 9 [] ∧
      findGroup kitchen 4 = some table4 ∧ table4.state ≠ .ready ∧ Asks (asking kitchen (.stnon 25)) (.stnon 25) 9 [] ∧
      findStation kitchen 24 = none ∧ Asks (asking kitchen (.stnon 1)) (.stnon 1) 9 [] ∧ grill.mode ≠ .off :=
  ⟨asks_of _ _ (by decide +kernel), asks_of _ _ (by decide +kernel), by decide +kernel, asks_of _ _ (by decide +kernel),
    by decide +kernel, by decide, asks_of _ _ (by decide +kernel), by decide +kernel, asks_of _ _ (by decide +kernel), by decide⟩

def order (n : Nat) : SubmitReq := ⟨5, 1, 1, 400, 900, [⟨10, n⟩]⟩
def fullPool : Kitchen := { kitchen with tickets := List.replicate 2048 (slip 1 .queued) }

theorem witness_GroupSubmitted :
    Asks (asking kitchen (.submit (order 400))) (.submit (order 400)) 9 [] ∧
      firstBad (submitChecks kitchen (order 400)) = none ∧ findGroup kitchen 1 = none ∧
      findCourse kitchen 1 = some ⟨1, 60, 10, 60⟩ ∧
      firstBad (submitChecks kitchen (order 401)) = some (.badField .count 0) ∧ fullPool.tickets.length = 2048 ∧
      lowestFree { kitchen with groups := (List.range 512).map fun i => { table4 with number := i + 1 } } = none := by
  and_intros
  all_goals first | exact asks_of _ _ (by decide +kernel) | decide +kernel

def swap : Item := { roast with number := 13, stock := .limited 3 }
def scarce : Kitchen := { pantry with items := [{ roast with stock := .limited 4, subst := some 13 }, jus, swap] }

/-- A STANDING line, an unlimited one, one that the stock covers, and one short of 6 portions whose substitute is PLATED with 3, or
none, or unlimited stock, or STANDING, or names an undefined station; and the twelfth line. -/
theorem witness_WalkCommitsStock :
    findItem scarce 11 = some jus ∧ jus.kind = .standing ∧
      findItem { scarce with items := [{ roast with stock := .unlimited }] } 10 = some { roast with stock := .unlimited } ∧
      findItem pantry 10 = some roast ∧ roast.subst = none ∧
      findItem scarce 10 = some { roast with stock := .limited 4, subst := some 13 } ∧
      (∀ st ∈ [Stock.limited 3, .limited 0, .unlimited], ∀ y ∈ [swap, { jus with number := 13 }],
        findItem { scarce with items := [{ roast with stock := .limited 4, subst := some 13 }, { y with stock := st }] } 13 =
          some { y with stock := st } ∧ ∀ c ∈ y.lines, findStation scarce c.station ≠ none) ∧
      findStation scarce 2 = none ∧ 11 + ([] : List Line).length < 12 ∧ 12 ≤ 12 + ([] : List Line).length := by decide +kernel

/-- An equal count, a lower one with tickets dispatched and without, a higher one, and a new line; lines in place, at the end and
removed; a substitute's line held and not, drawn and not; and commitments of limited and unlimited stock. -/
theorem witness_LineAmended :
    (∀ c ∈ [9, 10, 11, 0], amendRefusal kitchen table4 10 0 c = none) ∧
      amendRefusal kitchen table4 11 0 1 = none ∧ amendRefusal kitchen table4 10 0 401 = some (.badField .count 0) ∧
      9 < largestDispatched kitchen 4 ⟨10, none, 10, 0, false⟩ ∧
      largestDispatched { kitchen with tickets := [] } 4 ⟨10, none, 10, 0, false⟩ = 0 ∧
      Asks (asking kitchen (.amend 4 10 0 11)) (.amend 4 10 0 11) 9 [] ∧ table4.state = .planned ∧
      ([(⟨10, none, 7, 0, false⟩ : Line), ⟨13, some 10, 7, 0, false⟩, ⟨10, none, 0, 0, false⟩].map fun l =>
        (putLine l table4.lines).map Line.count) = [[7], [10, 7], []] ∧
      ([true, false].map fun d => subRoom { table4 with lines := [⟨13, some 10, 2, 0, d⟩] } 10 13 true) = [false, true] ∧
      subRoom { table4 with lines := List.replicate 11 ⟨10, none, 1, 0, false⟩ } 10 13 true = false ∧
      subRoom { table4 with lines := List.replicate 11 ⟨10, none, 1, 0, false⟩ } 10 13 false = true ∧
      findItem kitchen 10 = some roast ∧ findItem kitchen 11 = some jus ∧ (∀ c ∈ roast.lines, findStation kitchen c.station ≠ none) ∧
      findItem { kitchen with items := [{ roast with stock := .unlimited }] } 10 = some { roast with stock := .unlimited } := by
  and_intros
  all_goals first | exact asks_of _ _ (by decide +kernel) | decide +kernel

/-- A group of one PLATED line with a waiting ticket and two dispatched ones, whose remainder is then nothing; the same line of 45
portions; and a STANDING line. -/
theorem witness_GroupRetimed :
    Asks (asking kitchen (.retime 4 65535)) (.retime 4 65535) 9 [] ∧ findGroup kitchen 4 = some table4 ∧
      table4.state = .planned ∧ findItem kitchen 10 = some roast ∧ roast.kind = .plated ∧ findItem kitchen 11 = some jus ∧
      jus.kind ≠ .plated ∧ findStation kitchen 1 = some grill ∧ largestDispatched kitchen 4 ⟨10, none, 45, 0, false⟩ = 20 ∧
      waitingTickets kitchen 4 ⟨10, none, 45, 0, false⟩ = [1] ∧ lineComputations kitchen table4 ⟨10, none, 20, 0, false⟩ = [] ∧
      (descsOf (lineComputations kitchen table4 ⟨10, none, 45, 5, false⟩)).map TicketDesc.portions = [10, 10] := by
  and_intros
  all_goals first | exact asks_of _ _ (by decide +kernel) | decide +kernel

theorem witness_GroupHeld :
    Asks (asking kitchen (.hold 4)) (.hold 4) 9 [] ∧ table4.flags.held = false ∧
      findGroup { kitchen with groups := [{ table4 with flags := ⟨true, false, false, false, false⟩ }] } 4 =
        some { table4 with flags := ⟨true, false, false, false, false⟩ } ∧ (kitchen.tickets.map Ticket.number).Nodup :=
  ⟨asks_of _ _ (by decide +kernel), rfl, by decide +kernel, by decide +kernel⟩

/-- A PLANNED group with tickets on the rail; and returns of portions to a limited stock, up to the most it holds, and to an unlimited
one. -/
theorem witness_GroupCancelled :
    Asks (asking kitchen (.cancel 4)) (.cancel 4) 9 [] ∧ findGroup kitchen 4 = some table4 ∧ table4.state = .planned ∧
      (currentOf kitchen 1 = some 5 ∧ (slip 3 .cooking).state = .cooking) ∧
      currentOf { kitchen with stations := [{ grill with current := none }] } 1 = none ∧
      (∀ i ∈ [roast, { roast with stock := .limited 65534 }, { roast with stock := .limited 0, exhausted := true },
          { roast with stock := .unlimited }],
        findItem (begun { kitchen with items := [i] }).toKitchen 10 = some i ∧ i.sound) :=
  ⟨asks_of _ _ (by decide +kernel), by decide +kernel, rfl, by decide +kernel, by decide +kernel, by
    intro i hi
    refine ⟨by fin_cases hi <;> decide +kernel, ?_⟩
    fin_cases hi <;> exact ⟨by decide, by intro n hn; cases hn <;> decide, by decide⟩⟩

/-- A PLANNED group whose line's shortfall rises to 3, so that GRPSHORT is raised; a group that passes the readiness test without an
undrawn line, one that passes with one, one that does not pass, and no group. -/
theorem witness_GroupSettled :
    findGroup (begun kitchen).toKitchen 4 = some table4 ∧ table4.state = .planned ∧
      (settleGroup kitchen.items table4 [⟨10, none, 10, 3, false⟩] [] (begun kitchen)).out.map Report.body =
        [.grpshort 4 77 10 none 10 3] ∧
      (testPasses (plating table4 [slip 1 .done]) table4 = true ∧ table4.lines.map Line.item = [10] ∧
        findItem (plating table4 [slip 1 .done]) 10 = some roast ∧ roast.kind ≠ .standing) ∧
      (testPasses (plating sauced []) sauced = true ∧ (⟨11, none, 10, 0, false⟩ : Line) ∈ sauced.lines ∧
        findItem (plating sauced []) 11 = some jus ∧ jus.kind = .standing) ∧
      testPasses (plating table4 [slip 1 .cooking]) table4 = false ∧ findGroup (plating table4 []) 5 = none := by decide +kernel

def plated : Kitchen := { kitchen with groups := [{ table4 with state := .ready }], tickets := [slip 1 .done] }

/-- A READY group; a NOTE on the pair, one pending, one shown; and a group whose display changes, to each state. -/
theorem witness_GroupPickedUp :
    Asks (asking plated (.pickup 4)) (.pickup 4) 9 [] ∧ findGroup plated 4 = some { table4 with state := .ready } ∧
      noteOnPair (some (turnAt 6 (.note ⟨4, 2, .ready⟩))) 6 4 = true ∧ noteOnPair (some (turnAt 6 .poll)) 6 4 = false ∧
      (enterNote none ⟨4, 2, .gone⟩ { pass6 with notes := [⟨9, 1, .ready⟩, ⟨4, 2, .ready⟩] }).notes = [⟨9, 1, .ready⟩] ∧
      (enterNote none ⟨4, 2, .gone⟩ { pass6 with notes := [⟨4, 2, .dying⟩, ⟨9, 1, .ready⟩], shown := [⟨4, 2, .ready⟩] }).notes =
        [⟨4, 2, .gone⟩, ⟨9, 1, .ready⟩] ∧
      [({ table4 with state := .ready } : Group), { table4 with state := .ready, flags := ⟨false, false, false, false, true⟩ },
        { table4 with display := some .ready }].map displayOf = [some .ready, some .dying, none] := by
  and_intros
  all_goals first | exact asks_of _ _ (by decide +kernel) | decide +kernel

/-- A taken REFIRE, one with too little stock, and one with nothing done; and R159's arithmetic where the stock allows 4 of the 10
portions asked, with 10 done of component 0 and none done but 10 waiting of component 1: 4 are redone of the one, and 4 rebuilt of the
other. -/
theorem witness_ItemRefired :
    Asks (asking plated (.refire 4 10)) (.refire 4 10) 9 [] ∧
      (let plans := refirePlans plated { table4 with state := .ready } (refireLines table4 10) roast.stock
       plans ≠ [] ∧ ∀ p ∈ plans, ∀ c ∈ p.comps, p.lost ≤ c.done + c.waiting) ∧
      refirePlans kitchen table4 (refireLines table4 10) roast.stock = [] ∧
      (let two : Item := { roast with lines := [⟨1, 120, 10, 30, 600⟩, ⟨1, 120, 10, 30, 600⟩], stock := .limited 0 }
       let k : Kitchen := { plated with items := [two] }
       ∃ p ∈ refirePlans k table4 (refireLines table4 10) two.stock, ∃ c ∈ p.comps, c.done < p.lost ∧ c.waiting < p.lost - c.done) ∧
      (∀ l ∈ table4.lines, l.item ≠ 11) ∧ findItem plated 11 = some jus ∧
      (let two : Item := { roast with lines := [⟨1, 120, 10, 30, 600⟩, ⟨1, 120, 10, 30, 600⟩], stock := .limited 4 }
       let k : Kitchen := { plated with items := [two], tickets := [slip 1 .done, { slip 2 .queued with comp := 1 }] }
       findItem k 10 = some two ∧ findStation k 1 = some grill ∧
         (refirePlans k table4 (refireLines table4 10) two.stock).map (fun p => (p.asked, p.lost)) = [(10, 6)] ∧
         (refirePlans k table4 (refireLines table4 10) two.stock).flatMap (fun p =>
           p.comps.map fun c => (c.done, c.waiting, (descsOf c.rush).map TicketDesc.portions,
             (descsOf c.rebuilt).map TicketDesc.portions)) = [(10, 0, [4], []), (0, 10, [], [4])]) := by
  and_intros
  all_goals first | exact asks_of _ _ (by decide +kernel) | decide +kernel

/-- Two undrawn lines of the item, 10 and 20 portions, against a pool of 60, a pool of 25, and 25 exhausted with no run in use. -/
def waiting (jus : Item) : Kitchen :=
  { plating { sauced with lines := [⟨11, none, 10, 0, false⟩, ⟨11, some 10, 20, 0, false⟩] } [] with
    items := [roast, jus], drawOrder := [4] }

theorem witness_DrawPassDrawsGroups :
    ([jus, { jus with pool := 25 }, { jus with pool := 25, stock := .limited 0, exhausted := true }].map fun i =>
      (drawPass (begun (waiting i))).out.map Report.body) =
      [[.grpready 4 77 900 900 ⟨false, false, false, false, false⟩], [],
       [.grpshort 4 77 11 (some 10) 20 5, .grpready 4 77 900 900 ⟨false, false, false, true, false⟩]] ∧
      findGroup (begun (waiting jus)).toKitchen 4 ≠ none ∧ findItem (begun (waiting jus)).toKitchen 11 = some jus := by
  decide +kernel

theorem witness_PassUnitSettles : pantry.event ≠ .service ∧ (waiting jus).event = .service := by decide

/-- R152's example: U 40, V 10, stock 70, pool 0 and an undrawn line of 30 within the window give a run of 40, and leave 30. -/
theorem witness_RunTicketsCreated :
    let i : Item := { jus with runSize := 40, reorder := 10, stock := .limited 70, pool := 0 }
    let w := runTest 11 (begun (waiting i))
    findItem (waiting i) 11 = some i ∧ (w.tickets.map fun t => (t.portions, t.kind)) = [(40, .standing)] ∧
      findItem w.toKitchen 11 = some { i with stock := .limited 30 } ∧ i.lines ≠ [] ∧ findStation (waiting i) 1 = some grill ∧
      runWanted (waiting jus) jus = false := by decide +kernel

/-- Every mode a request is taken in, with and without a warm-up and with and without a slot held; and the requests for all. -/
theorem witness_ModeRequestsTaken :
    findStation kitchen 1 = some grill ∧ Asks (asking kitchen (.stnoff 1)) (.stnoff 1) 9 [] ∧
      0 < slotsHeld kitchen 1 ∧ slotsHeld pantry 1 = 0 ∧ 0 < grill.defn.warmup ∧
      (∀ m ∈ [Mode.off, .warming, .ready, .paused, .halted],
        findStation { pantry with stations := [{ grill with mode := m }] } 1 = some { grill with mode := m }) ∧
      findStation { pantry with stations := [{ grill with mode := .off, defn := { grill.defn with warmup := 0 } }] } 1 =
        some { grill with mode := .off, defn := { grill.defn with warmup := 0 } } ∧
      Asks (asking kitchen .pauseall) .pauseall 9 [] ∧ Asks (asking kitchen .resumeall) .resumeall 9 [] := by
  and_intros
  all_goals first | exact asks_of _ _ (by decide +kernel) | decide +kernel

theorem witness_QueriesAnswered :
    Asks (asking kitchen (.qgroup 4 0)) (.qgroup 4 0) 9 [] ∧ Asks (asking kitchen (.qstn 1)) (.qstn 1) 9 [] ∧
      Asks (asking kitchen (.qitem 0)) (.qitem 0) 9 [] ∧ Asks (asking kitchen (.qterm 30)) (.qterm 30) 9 [] ∧
      Asks (asking kitchen .qstat) .qstat 9 [] ∧ findTerminal kitchen 30 = none ∧ findTerminal kitchen 5 = some post5 :=
  ⟨asks_of _ _ (by decide +kernel), asks_of _ _ (by decide +kernel), asks_of _ _ (by decide +kernel),
    asks_of _ _ (by decide +kernel), asks_of _ _ (by decide +kernel), by decide +kernel, by decide +kernel⟩

theorem witness_BusRepliesReadBack :
    judgeReply 30 (BusReply.chars 30 (.bump 24 65535)) = .valid (.bump 24 65535) ∧ (30 : Nat) < 256 := by decide +kernel

/-- A STATION terminal with every kind of frame pending, a PASS one and one not LIVE; the turn goes on to the next address, and
round to the lowest. -/
theorem witness_TurnAndBroadcast :
    (let t : Terminal :=
       { post5 with railclrs := [2], voids := [⟨1, 2⟩], posts := [⟨1, 3⟩], nextMarks := [1], modeMarks := [1] }
     t.state = .live ∧ t.kind = .station ∧ findTicket kitchen 3 = some (slip 3 .cooking) ∧
       findStation kitchen 1 = some grill ∧ ({ pass6 with notes := [⟨4, 1, .ready⟩] } : Terminal).notes = [⟨4, 1, .ready⟩] ∧
       post7.state ≠ .live) ∧
      kitchen.turn = none ∧ kitchen.terminals.Pairwise (fun x y => x.address < y.address) ∧
      nextAddress { kitchen with lastTurn := 5 } = some 6 ∧ nextAddress { kitchen with lastTurn := 7 } = some 5 ∧
      Kitchen.powerOn.terminals = [] ∧ (addressing kitchen 5 .poll).kit.turn ≠ none ∧
      ({ kitchen with broadcast := true } : Kitchen).broadcast = true := by decide +kernel

theorem witness_MissesAndLoss :
    Addressed (addressing kitchen 5 .poll) (turnAt 5 .poll) post5 ∧ post5.misses + 1 < 8 ∧
      Addressed (addressing { kitchen with terminals := [{ post5 with misses := 7 }] } 5 .poll) (turnAt 5 .poll)
        { post5 with misses := 7 } ∧
      Addressed (addressing kitchen 7 .poll) (turnAt 7 .poll) post7 ∧ post7.state ≠ .live ∧
      judgeReply 5 [⟨0x05, true⟩] = .bad ∧ judgeReply 5 (BusReply.chars 5 .ack) = .valid .ack :=
  ⟨addressed_of _ _ _ _ (by decide +kernel), by decide, addressed_of _ _ _ _ (by decide +kernel),
    addressed_of _ _ _ _ (by decide +kernel), by decide, by decide +kernel, by decide +kernel⟩

theorem witness_RepliesTakenInSteps :
    (Instr.hello, BusReply.hello) ∈ replyCommands 24 9999 512 ∧ Addressed (addressing kitchen 5 .poll) (turnAt 5 .poll) post5 ∧
      Addressed (addressing kitchen 7 .poll) (turnAt 7 .poll) post7 ∧ kitchen.turn = none ∧
      findTerminal kitchen 8 = none ∧ (addressing kitchen 8 .poll).kit.turn = some (turnAt 8 .poll) :=
  ⟨by decide, addressed_of _ _ _ _ (by decide +kernel), addressed_of _ _ _ _ (by decide +kernel), rfl, by decide +kernel, rfl⟩

def offered (n : Nat) : BusFrame := .post 1 n name16 10 .normal false 770

/-- A POST of a SENT ticket, of a COOKING one, a DONE one and one freed during the turn, and one for a station the terminal is not
current for; a VOID of a VOIDING ticket and of another; a RAILCLR and a NOTE on the pair, the last also renewed; and a CANCELLED group
with and without a ticket record. -/
theorem witness_AckAcceptsFrame :
    let k : Kitchen := { kitchen with tickets := [slip 1 .sent, slip 2 .voiding, slip 3 .cooking, slip 4 .done] }
    let gone : BusFrame := .note ⟨4, 1, .gone⟩
    let stale : Turn := { turnAt 5 (offered 9) with stale := true }
    let renewed : Turn := { turnAt 6 gone with renewed := true }
    let dropped : Group := { table4 with state := .cancelled }
    (∀ n ∈ [1, 3, 4, 9], Addressed (addressing k 5 (offered n)) (turnAt 5 (offered n)) post5) ∧
      currentOf (heard (addressing k 5 (offered 1)) (turnAt 5 (offered 1))).toKitchen 1 = some 5 ∧
      ([1, 3, 4, 9].map fun n => findTicket (heard (addressing k 5 (offered n)) (turnAt 5 (offered n))).toKitchen n) =
        [some (slip 1 .sent), some (slip 3 .cooking), some (slip 4 .done), none] ∧ k.event = .service ∧
      Addressed (running { k with turn := some stale }) stale post5 ∧
      Addressed (addressing k 7 (offered 1)) (turnAt 7 (offered 1)) post7 ∧
      currentOf (heard (addressing k 7 (offered 1)) (turnAt 7 (offered 1))).toKitchen 1 ≠ some 7 ∧
      (∀ n ∈ [2, 3], Addressed (addressing k 5 (.void 1 n)) (turnAt 5 (.void 1 n)) post5) ∧
      (findTicket k 2 = some (slip 2 .voiding) ∧ findTicket k 3 = some (slip 3 .cooking)) ∧
      Addressed (addressing k 5 (.railclr 1)) (turnAt 5 (.railclr 1)) post5 ∧
      Addressed (addressing k 6 gone) (turnAt 6 gone) pass6 ∧ pass6.kind = .pass ∧
      Addressed (running { k with turn := some renewed }) renewed pass6 ∧
      findGroup { k with groups := [dropped] } 4 = some dropped ∧ (∃ t ∈ k.tickets, t.group = 4) ∧
      ∀ t ∈ ({ k with tickets := [] } : Kitchen).tickets, t.group ≠ 4 :=
  ⟨by intro n hn; fin_cases hn <;> exact addressed_of _ _ _ _ (by decide +kernel), by decide +kernel, by decide +kernel, rfl,
    ⟨rfl, rfl, rfl, by decide +kernel⟩, addressed_of _ _ _ _ (by decide +kernel), by decide +kernel,
    by intro n hn; fin_cases hn <;> exact addressed_of _ _ _ _ (by decide +kernel), by decide +kernel,
    addressed_of _ _ _ _ (by decide +kernel), addressed_of _ _ _ _ (by decide +kernel), rfl,
    ⟨rfl, rfl, rfl, by decide +kernel⟩, by decide +kernel, by decide +kernel, by decide +kernel⟩

/-- SENT, POSTED and COOKING tickets at the current terminal; no ticket of the number; another terminal. -/
theorem witness_StartSetsCooking :
    let k : Kitchen := { kitchen with tickets := [slip 1 .sent, slip 2 .posted, slip 3 .cooking] }
    let w0 := acceptFrame (turnAt 5 .poll) (heard (addressing k 5 .poll) (turnAt 5 .poll))
    Addressed (addressing k 5 .poll) (turnAt 5 .poll) post5 ∧ findTicket w0.toKitchen 1 = some (slip 1 .sent) ∧
      findTicket w0.toKitchen 2 = some (slip 2 .posted) ∧ findTicket w0.toKitchen 3 = some (slip 3 .cooking) ∧
      findTicket w0.toKitchen 9 = none ∧ currentOf w0.toKitchen 1 = some 5 ∧ w0.event = .service :=
  ⟨addressed_of _ _ _ _ (by decide +kernel), by decide +kernel, by decide +kernel, by decide +kernel, by decide +kernel,
    by decide +kernel, by decide +kernel⟩

/-- A group's ticket, a run's ticket, and one already DONE. -/
theorem witness_BumpSetsDone :
    let k : Kitchen :=
      { kitchen with tickets := [slip 1 .sent, { slip 2 .cooking with kind := .standing, group := 0, item := 11 }, slip 3 .done] }
    let w0 := acceptFrame (turnAt 5 .poll) (heard (addressing k 5 .poll) (turnAt 5 .poll))
    Addressed (addressing k 5 .poll) (turnAt 5 .poll) post5 ∧ findTicket w0.toKitchen 1 = some (slip 1 .sent) ∧
      (findTicket w0.toKitchen 2).map Ticket.kind = some .standing ∧ findTicket w0.toKitchen 3 = some (slip 3 .done) ∧
      findTicket w0.toKitchen 9 = none ∧ currentOf w0.toKitchen 1 = some 5 ∧ w0.event = .service :=
  ⟨addressed_of _ _ _ _ (by decide +kernel), by decide +kernel, by decide +kernel, by decide +kernel, by decide +kernel,
    by decide +kernel, by decide +kernel⟩

theorem witness_TakenServesGroup :
    let w0 := acceptFrame (turnAt 6 .poll) (heard (addressing plated 6 .poll) (turnAt 6 .poll))
    Addressed (addressing plated 6 .poll) (turnAt 6 .poll) pass6 ∧ pass6.state = .live ∧ pass6.kind = .pass ∧
      findGroup w0.toKitchen 4 = some { table4 with state := .ready } ∧ w0.event = .service ∧
      Addressed (addressing plated 5 .poll) (turnAt 5 .poll) post5 ∧ post5.kind ≠ .pass :=
  ⟨addressed_of _ _ _ _ (by decide +kernel), rfl, rfl, by decide +kernel, by decide +kernel,
    addressed_of _ _ _ _ (by decide +kernel), by decide⟩

theorem witness_WaitAndFaultTaken :
    Addressed (addressing kitchen 5 (.next 1 0)) (turnAt 5 (.next 1 0)) post5 ∧ post5.state = .live ∧
      currentOf kitchen 1 = some 5 ∧ Addressed (addressing kitchen 5 (.mode 1 .ready)) (turnAt 5 (.mode 1 .ready)) post5 ∧
      Addressed (addressing kitchen 5 .poll) (turnAt 5 .poll) post5 ∧
      ((keepFrame (turnAt 5 .poll) (heard (addressing kitchen 5 .poll) (turnAt 5 .poll))).stations.filter fun x =>
        x.current == some 5 && x.mode != .off && x.mode != .halted) = [grill] :=
  ⟨addressed_of _ _ _ _ (by decide +kernel), rfl, by decide +kernel, addressed_of _ _ _ _ (by decide +kernel),
    addressed_of _ _ _ _ (by decide +kernel), by decide +kernel⟩

theorem witness_HelloRepostsRails :
    Addressed (addressing kitchen 5 .poll) (turnAt 5 .poll) post5 ∧ findTerminal kitchen 5 = some post5 ∧
      (kitchen.tickets.map Ticket.number).Nodup ∧ ((queueOf kitchen 1).filter onRail).map Ticket.number = [2, 3] :=
  ⟨addressed_of _ _ _ _ (by decide +kernel), by decide +kernel, by decide +kernel⟩

theorem witness_BatchesCoverPortions : (batchSizes 400 1).length = 400 ∧ batchSizes 1 240 = [1] := by decide +kernel

theorem witness_LoadBandAndEffectiveCook :
    [0, 5, 10, 100][3]? = some 100 ∧ effectiveCook 7200 [0, 5, 10, 100] 3 = 14400 := by decide

theorem witness_ComponentTicketsDescribed :
    (batchSizes 104 24)[4]? = some 20 ∧ 4 < (104 + 24 - 1) / 24 ∧
      (componentComputation 0 5000 85 ⟨1, 10, 0, none⟩ ⟨1, 900, 24, 100, 900⟩ grill.defn 104).tickets.length = 5 := by
  decide +kernel

/-- Tickets in each state, one of them DONE at 300; R147's life end is 300 + 600. -/
theorem witness_ProjectionAndLifeEnd :
    let done : Ticket := { slip 1 .done with doneAt := some 300 }
    let k : Kitchen :=
      { kitchen with tickets := [done, { slip 2 .cooking with startAt := some 400 }, slip 3 .sent, slip 4 .queued] }
    k.tickets.map (expectedDone 500) = [300, 544, 644, 674] ∧ projection k table4 = 674 + 30 + 100 ∧
      projection { k with tickets := [] } table4 = 900 ∧ lifeEndOf k 4 = some 900 ∧ lifeEndOf kitchen 4 = none := by
  decide +kernel

/-- A station with every slot held and with none; DRAINING with a slot held, and with none; a number not defined; a free slot with an
eligible ticket behind one that is not, and with none; a ticket to stage; and one granted whose POST is pending already. -/
theorem witness_StationQueueAndArbiter :
    findStation (begun kitchen).toKitchen 1 = some grill ∧ slotsHeld kitchen 1 = grill.defn.slots ∧
      slotsHeld { kitchen with tickets := [] } 1 < grill.defn.slots ∧
      (let drains := fun ts => begun { kitchen with stations := [{ grill with mode := .draining }], tickets := ts }
       (∀ ts ∈ [[], [slip 2 .posted]], findStation (drains ts).toKitchen 1 = some { grill with mode := .draining }) ∧
         slotsHeld (arbiter 1 (drains [])).toKitchen 1 = 0 ∧ slotsHeld (arbiter 1 (drains [slip 2 .posted])).toKitchen 1 ≠ 0) ∧
      findStation (begun kitchen).toKitchen 2 = none ∧
      (let k : Kitchen := { kitchen with tickets := [slip 1 .queued, slip 2 .due] }
       slotsHeld k 1 < 2 ∧ queueOf k 1 = [slip 1 .queued] ++ [slip 2 .due] ∧ eligible k grill (slip 1 .queued) = false ∧
         eligible k grill (slip 2 .due) = true) ∧
      (∀ t ∈ queueOf kitchen 1, eligible kitchen grill t = false) ∧
      stagedTicket { kitchen with tickets := [slip 1 .due, slip 2 .posted, slip 3 .cooking] } grill ≠ grill.staged ∧
      stagedTicket kitchen grill = grill.staged ∧
      ([[], [⟨1, 2⟩]].map fun l : List Slip =>
        (grant (slip 2 .due) (begun { kitchen with terminals := [{ post5 with posts := l }] })).terminals.map Terminal.posts) =
        [[[⟨1, 2⟩]], [[⟨1, 2⟩]]] := by decide +kernel

/-- A turn with a POST of ticket 2, one with a VOID of it, one with a POST of another, and none; the next ticket number at its last. -/
theorem witness_TicketsFreedAndCreated :
    kitchen.tickets.length < 9999 ∧ 1 ≤ kitchen.nextTicket ∧
      ({ kitchen with nextTicket := 9999 } : Kitchen).nextTicket ≤ 9999 ∧
      ([offered 2, .void 1 2, offered 1].map (carries 2)) = [true, true, false] ∧
      (begun (addressing kitchen 5 (offered 2)).kit).turn = some (turnAt 5 (offered 2)) ∧ (begun kitchen).turn = none ∧
      (dropTicket 2 (begun { kitchen with stations := [{ grill with staged := some 2 }] })).terminals.map Terminal.nextMarks =
        [[1], [], []] := by decide +kernel

theorem witness_DefinitionsFrozen :
    kitchen.event ≠ .setup ∧
      (after (step { running kitchen with pending := [.deviceSecond] })).map (fun s => (s.kit.event, s.resetLow)) =
        some (.service, false) := by decide +kernel

theorem witness_EventAndClockMove :
    (asking pantry .start).host.restartOwed = false ∧
      (after (exec .start (asking pantry .start))).map (fun s => (s.kit.event, s.resetLow)) = some (.service, false) := by
  decide +kernel

theorem witness_StockAndBusSoundKept :
    kitchen.busSound ∧ kitchen.stockSound ∧ kitchen.recordsSound ∧
      (after (step { running kitchen with pending := [.turn] })).isSome = true := by
  refine ⟨⟨by decide +kernel, ?_⟩, ?_, ?_, by decide +kernel⟩
  · intro t ht
    fin_cases ht <;> decide
  · intro i hi
    fin_cases hi <;> exact ⟨by decide, by intro n hn; cases hn; decide, by decide⟩
  · constructor
    case marks => intro t ht; fin_cases ht <;> exact ⟨by decide, by decide, by decide⟩
    case batches =>
      intro t ht _ c hc
      fin_cases ht <;> (cases hc; decide)
    case covered =>
      intro g hg _ l hl i c hc _
      fin_cases hg
      fin_cases hl
      cases i with
      | zero => decide
      | succ i => cases hc
    all_goals decide +kernel

end Sys2Proof.Machine
end

section
/-! PROOF. The event's life and the service clock: what a command can do to the event state, the two counts of seconds and the
definitions (R1 to R5), and the steps of the event: START, CLOSE, RESTART, CLRCFG, reset, and the device second. -/

namespace Sys2Proof.Machine

/-! ### Requests as bytes: what a parsed request says of its frame -/

theorem code_of_kindOf {b : Byte} {k : ReqKind} (h : kindOf b = some k) : b = k.code := by
  have := List.find?_some h
  exact (beq_iff_eq.1 this).symm

theorem readRequest_kind (k : ReqKind) (b : List Byte) : (readRequest k b).kind = k := by cases k <;> rfl

/-- A parsed request has the kind of its frame, the length the kind requires, and the fields of its body (R167). -/
theorem parseRequest_request {kind : Byte} {body : List Byte} {k : ReqKind} {r : Request}
    (h : parseRequest kind body = .request k r) : kind = k.code ∧ body.length = bodyLength k body ∧ r = readRequest k body := by
  unfold parseRequest at h
  split at h
  · cases h
  · rename_i j hj
    split at h
    · rename_i hl
      cases h
      exact ⟨code_of_kindOf hj, hl, rfl⟩
    · cases h

theorem parsed_kind {kind : Byte} {body : List Byte} {k : ReqKind} {r : Request} (h : parseRequest kind body = .request k r) :
    r.kind = k := by
  obtain ⟨-, -, rfl⟩ := parseRequest_request h
  exact readRequest_kind k body

theorem u8_lt (b : List Byte) (i : Nat) : u8 b i < 256 := (b.getD i 0).isLt

theorem u16_lt (b : List Byte) (i : Nat) : u16 b i < 65536 := by
  have h1 := u8_lt b i
  have h2 := u8_lt b (i + 1)
  unfold u16
  omega

/-- The stock field of a STOCK is a 2-byte field (R176, R179). -/
theorem parsed_stock_range {kind : Byte} {body : List Byte} {k : ReqKind} {item stock : Nat}
    (h : parseRequest kind body = .request k (.stock item stock)) : stock < 65536 := by
  obtain ⟨-, -, hr⟩ := parseRequest_request h
  cases k <;> cases hr
  exact u16_lt body 1

/-! ### The definition requests leave the event and the counts as they are -/

/-- The event state and the two counts of seconds are as they were. -/
structure SameTime (w w' : Work) : Prop where
  event : w'.event = w.event
  clock : w'.clock = w.clock
  seconds : w'.seconds = w.seconds

theorem SameTime.refl (w : Work) : SameTime w w := ⟨rfl, rfl, rfl⟩

theorem Steady.sameTime {w w' : Work} (h : Steady w w') : SameTime w w' := ⟨h.event, h.clock, h.seconds⟩

theorem SameTime.trans {a b c : Work} (h : SameTime a b) (g : SameTime b c) : SameTime a c :=
  ⟨g.event.trans h.event, g.clock.trans h.clock, g.seconds.trans h.seconds⟩

theorem sameTime_define {cs : List FieldCheck} {take : Work → Work × Answer} {w : Work} (h : SameTime w (take w).1) :
    SameTime w (define cs take w).1 := by
  rcases define_cases cs take w with e | ⟨-, -, e⟩
  · rw [e]; exact SameTime.refl w
  · rw [e]; exact h

theorem sameTime_defItem (r : ItemReq) (w : Work) : SameTime w (defItem r w).1 := by
  refine sameTime_define ?_
  unfold takeItem
  dsimp only
  split <;> exact ⟨rfl, rfl, rfl⟩

theorem sameTime_defCourse (n b p t : Nat) (w : Work) : SameTime w (defCourse n b p t w).1 :=
  sameTime_define ⟨rfl, rfl, rfl⟩

theorem SameTime.rechoose {a w : Work} (h : SameTime a w) (st : Nat) : SameTime a (rechoose st w) :=
  h.trans ((Steady.refl w).rechoose st).sameTime

theorem sameTime_defStation (r : StationReq) (w : Work) : SameTime w (defStation r w).1 := by
  refine sameTime_define ?_
  unfold takeStation
  split
  · exact SameTime.rechoose (by exact ⟨rfl, rfl, rfl⟩) r.number
  · dsimp only
    split
    · exact ⟨rfl, rfl, rfl⟩
    · exact SameTime.rechoose (by exact ⟨rfl, rfl, rfl⟩) r.number

theorem sameTime_defTerminal (a k : Nat) (w : Work) : SameTime w (defTerminal a k w).1 := by
  refine sameTime_define ?_
  unfold takeTerminal
  split
  · exact SameTime.refl w
  · split <;> exact ⟨rfl, rfl, rfl⟩

theorem sameTime_clearConfig (w : Work) : SameTime w (clearConfig w).1 := by
  unfold clearConfig
  split <;> exact ⟨rfl, rfl, rfl⟩

/-! ### What a command can do to the event, the counts and the definitions -/

/-- The event state stays, passes from SERVICE to CLOSED, or, where the command `starts`, from SETUP to SERVICE; the counts of
seconds stay; and unless the part is in SETUP afterwards the definitions stay (R1, R3, R4, R5). -/
structure EventMove (starts : Prop) (k k' : Kitchen) : Prop where
  event : k'.event = k.event ∨ (k.event = .service ∧ k'.event = .closed) ∨ (starts ∧ k.event = .setup ∧ k'.event = .service)
  clock : k'.clock = k.clock
  seconds : k'.seconds = k.seconds
  definitions : k'.event ≠ .setup → k'.definitions = k.definitions

theorem Frozen.eventMove {w w' : Work} (h : Frozen w w') (starts : Prop) : EventMove starts w.toKitchen w'.toKitchen :=
  ⟨h.event.elim .inl fun e => .inr (.inl e), h.clock, h.seconds, fun _ => h.definitions⟩

theorem EventMove.refl (starts : Prop) (k : Kitchen) : EventMove starts k k := ⟨.inl rfl, rfl, rfl, fun _ => rfl⟩

/-- A request passed in SETUP alone that is not START: the part is in SETUP afterwards. -/
theorem SameTime.eventMove {w w' : Work} (h : SameTime w w') (hs : w.event = .setup) (starts : Prop) :
    EventMove starts w.toKitchen w'.toKitchen :=
  ⟨.inl h.event, h.clock, h.seconds, fun hn => absurd (h.event.trans hs) hn⟩

theorem EventMove.mono {p q : Prop} {k k' : Kitchen} (h : EventMove p k k') (hpq : p → q) : EventMove q k k' :=
  ⟨h.event.imp_right (Or.imp_right (And.imp_left hpq)), h.clock, h.seconds, h.definitions⟩

theorem Frozen.then_eventMove {p : Prop} {a b : Work} {k : Kitchen} (h : Frozen a b) (g : EventMove p b.toKitchen k) :
    EventMove p a.toKitchen k := by
  refine ⟨?_, g.clock.trans h.clock, g.seconds.trans h.seconds, fun hn => (g.definitions hn).trans h.definitions⟩
  rcases h.event with he | ⟨hs, hc⟩
  · rw [← he]
    exact g.event
  · rcases g.event with ge | ⟨gs, -⟩ | ⟨-, gs, -⟩
    · exact .inr (.inl ⟨hs, ge.trans hc⟩)
    · cases hc.symm.trans gs
    · cases hc.symm.trans gs

/-- Every pool at 0 (R7, R11): a pool is no definition. -/
theorem emptied_definitions (l : List Item) :
    (l.map fun i => { i with pool := 0 }).map Item.definition = l.map Item.definition := by
  rw [List.map_map]
  rfl

theorem startEvent_eventMove {w : Work} (hs : w.event = .setup) : EventMove True w.toKitchen (startEvent w).1.toKitchen := by
  unfold startEvent
  split
  · exact EventMove.refl _ _
  · split
    · exact EventMove.refl _ _
    · extract_lets w1 w2 w3
      have h2 : Steady w1 w2 := ((Steady.refl w1).makeDue _).arbiters _
      have h3 : Steady w1 w3 := h2.raise _
      have h := (h3.forEach testGroup (fun n w => (Steady.refl w).testGroup n) (activeGroups w3.toKitchen)).passSettle
      have hdef : w1.toKitchen.definitions = w.toKitchen.definitions := by
        show Definitions.mk ((w.items.map fun i => { i with pool := 0 }).map Item.definition) _ _ _ = _
        rw [emptied_definitions]
        rfl
      exact ⟨.inr (.inr ⟨trivial, hs, h.event⟩), h.clock, h.seconds, fun _ => h.definitions.trans hdef⟩

/-- The requests of which the gate passes none outside SETUP (R2). -/
theorem gate_setup {k : ReqKind} (hk : k ∈ [ReqKind.start, .clrcfg, .defitem, .defcrs, .defstn, .defterm]) {e : EventState}
    (h : gatePasses k e = true) : e = .setup := by
  cases e with
  | setup => rfl
  | service => fin_cases hk <;> cases h
  | closed => fin_cases hk <;> cases h

theorem gate_close {e : EventState} (h : gatePasses .close e = true) : e = .service := by
  cases e with
  | service => rfl
  | setup => cases h
  | closed => cases h

/-- What a request that the gate passes can do to the event, the counts and the definitions: START alone opens the service, CLOSE
closes it, the definition requests are of SETUP, and every other request is steady. -/
theorem perform_eventMove (reports : Nat) (gap : Bool) (r : Request) (w : Work) (hg : gatePasses r.kind w.event = true)
    (hr : ∀ item stock, r = .stock item stock → stock < 65536) :
    EventMove (r = .start) w.toKitchen (perform reports gap r w).1.toKitchen := by
  have h := Steady.refl w
  cases r with
  | start => exact (startEvent_eventMove (gate_setup (k := .start) (by decide) hg)).mono fun _ => rfl
  | close => exact (frozen_closeEvent .close w (gate_close hg)).eventMove _
  | restart => exact EventMove.refl _ _
  | clrcfg => exact (sameTime_clearConfig w).eventMove (gate_setup (k := .clrcfg) (by decide) hg) _
  | defitem q => exact (sameTime_defItem q w).eventMove (gate_setup (k := .defitem) (by decide) hg) _
  | defcrs n b p t => exact (sameTime_defCourse n b p t w).eventMove (gate_setup (k := .defcrs) (by decide) hg) _
  | defstn q => exact (sameTime_defStation q w).eventMove (gate_setup (k := .defstn) (by decide) hg) _
  | defterm a k => exact (sameTime_defTerminal a k w).eventMove (gate_setup (k := .defterm) (by decide) hg) _
  | stock i n => exact (h.setStock i n (hr i n rfl)).frozen.eventMove _
  | rebind st p f => exact (h.rebind st p f).frozen.eventMove _
  | submit q => exact (h.submit q).frozen.eventMove _
  | amend g i sf c => exact (h.amend g i sf c).frozen.eventMove _
  | retime g t => exact (h.retime g t).frozen.eventMove _
  | hold g => exact (h.hold g).frozen.eventMove _
  | cancel g => exact (h.cancel g).frozen.eventMove _
  | pickup g => exact (h.pickup g).frozen.eventMove _
  | refire g i => exact (h.refire g i).frozen.eventMove _
  | stnon n => exact (h.stationOn n).frozen.eventMove _
  | stnoff n => exact (h.stationOff n).frozen.eventMove _
  | pause n => exact (h.pauseStation n).frozen.eventMove _
  | pauseall => exact (h.changeAll _ _ _).frozen.eventMove _
  | resume n => exact (h.resumeStation n).frozen.eventMove _
  | resumeall => exact (h.changeAll _ _ _).frozen.eventMove _
  | halt n => exact (h.haltStation n).frozen.eventMove _
  | clear n => exact (h.clearStation n).frozen.eventMove _
  | qgroup g f => exact (steady_queryGroup h g f).frozen.eventMove _
  | qstn n => exact (steady_queryStation h n).frozen.eventMove _
  | qitem i => exact (steady_queryItem h i).frozen.eventMove _
  | qterm a => exact (steady_queryTerminal h a).frozen.eventMove _
  | qstat => exact EventMove.refl _ _

theorem answerFrame_eventMove (reports : Nat) (gap : Bool) (f : Frame) (w : Work) :
    EventMove (f.kind = ReqKind.start.code) w.toKitchen (answerFrame reports gap f w).1.toKitchen := by
  unfold answerFrame
  split
  · exact EventMove.refl _ _
  · exact EventMove.refl _ _
  · rename_i k r hp
    have hk := parsed_kind hp
    split
    · rename_i hg
      refine (perform_eventMove reports gap r w (hk ▸ hg) ?_).mono ?_
      · rintro item stock rfl
        exact parsed_stock_range hp
      · rintro rfl
        rw [(parseRequest_request hp).1, ← hk]
        rfl
    · exact EventMove.refl _ _

theorem actOn_eventMove (f : Frame) (s : State) : EventMove (f.kind = ReqKind.start.code) s.kit (actOn f s).kit :=
  answerFrame_eventMove s.host.reports.length s.host.gap f (begun s.kit)

/-! ### The frame being sent has ended: the clearing of RESTART, or nothing of the kitchen -/

/-- The kitchen is as it was, or a RESTART's clearing was still to come and has been completed (R11). -/
def ClearedOr (s : State) (k : Kitchen) : Prop := k = s.kit ∨ (s.host.restartOwed = true ∧ k = clearedKitchen s.kit)

theorem frameEnded_kit (s : State) : ClearedOr s (frameEnded s).kit := by
  unfold frameEnded
  dsimp only
  split
  · rename_i h
    exact .inr ⟨(Bool.and_eq_true_iff.1 h).1, rfl⟩
  · exact .inl rfl

theorem replyEnded_kit (s : State) : ClearedOr s (replyEnded s).kit := by
  unfold replyEnded
  split
  · exact frameEnded_kit s
  · exact .inl rfl

theorem completeClearing_kit (s : State) : ClearedOr s (completeClearing s).kit := by
  unfold completeClearing
  split
  · exact frameEnded_kit s
  · exact .inl rfl

theorem transmit_kit (s : State) : ClearedOr s (transmit s).kit := frameEnded_kit s

theorem limitFirst_frozen (s : State) : ∃ w, Frozen (begun s.kit) w ∧ (limitFirst s).kit = w.toKitchen := by
  unfold limitFirst
  split
  · exact ⟨_, frozen_reachLimit (begun s.kit), rfl⟩
  · exact ⟨_, Frozen.refl _, rfl⟩

/-- Acting on the oldest frame: the clearing or nothing first, then a move of the event, which only a START opens. -/
theorem actOnOldest_eventMove (mine : Byte → Bool) (s : State) :
    ∃ k, ClearedOr s k ∧ EventMove (mine ReqKind.start.code = true) k (actOnOldest mine s).kit := by
  unfold actOnOldest
  split
  · rename_i f rest hf
    split
    · rename_i hm
      have hmine : mine f.kind = true := (Bool.and_eq_true_iff.1 hm).1
      obtain ⟨w, hw, hk⟩ := limitFirst_frozen (replyEnded { s with host := { s.host with intake := rest } })
      refine ⟨_, replyEnded_kit { s with host := { s.host with intake := rest } }, hw.then_eventMove ?_⟩
      rw [← hk]
      exact (actOn_eventMove f _).mono fun e => e ▸ hmine
    · exact ⟨s.kit, .inl rfl, EventMove.refl _ _⟩
  · exact ⟨s.kit, .inl rfl, EventMove.refl _ _⟩

theorem clearedKitchen_definitions (k : Kitchen) : (clearedKitchen k).definitions = k.definitions := by
  simp only [Kitchen.definitions, clearedKitchen, List.map_map]
  rfl

/-! ### The commands by the part of the state they work in -/

/-- Every command is an edge of RESETN, the device second, a frozen step of the kitchen, a step of the receiver, the acting on a
frame, which is START's alone for a START frame, or the end of the frame being sent. -/
inductive CommandClass (c : Instr) : Prop where
  | edge (h : c = .resetAssert ∨ c = .resetRelease)
  | second (h : c = .deviceSecond)
  | kitchen (f : Work → Work) (frozen : ∀ w, Frozen w (f w)) (h : ∀ s, exec c s = .next (inPart f s))
  | receiver (f : HostPort → HostPort) (h : ∀ s, exec c s = .next (inReceiver f s))
  | request (mine : Byte → Bool) (own : mine ReqKind.start.code = true → c = .start)
      (h : ∀ s, exec c s = .next (unlessReset (actOnOldest mine) s))
  | frameEnd (f : State → State) (kit : ∀ s, ClearedOr s (f s).kit) (h : ∀ s, exec c s = .next (unlessReset f s))

theorem exec_command (k : ReqKind) (s : State) : exec k.command s = .next (actOnKind k s) := by cases k <;> rfl

theorem commandClass_request (k : ReqKind) : CommandClass k.command := by
  refine .request (fun b => b == k.code) (fun h => ?_) (exec_command k)
  have : some ReqKind.start = some k := by
    rw [← kindOf_code k, ← beq_iff_eq.1 h, kindOf_code]
  cases this
  rfl

theorem commandClass (c : Instr) : CommandClass c := by
  cases c with
  | resetAssert => exact .edge (.inl rfl)
  | resetRelease => exact .edge (.inr rfl)
  | deviceSecond => exact .second rfl
  | warmupEnd n => exact .kitchen _ (frozen_endWarmup n) fun _ => rfl
  | ticketRelease n => exact .kitchen _ (frozen_releaseTickets n) fun _ => rfl
  | ticketOverdue n => exact .kitchen _ (frozen_overdueTickets n) fun _ => rfl
  | platingStart n => exact .kitchen _ (frozen_startPlating n) fun _ => rfl
  | lifeEnd n => exact .kitchen _ (frozen_reachLife n) fun _ => rfl
  | clockLimit => exact .kitchen _ frozen_reachLimit fun _ => rfl
  | turn => exact .kitchen _ frozen_takeTurn fun _ => rfl
  | railclrBroadcast => exact .kitchen _ frozen_broadcastTurn fun _ => rfl
  | replyWindowExpiry => exact .kitchen _ frozen_missTurn fun _ => rfl
  | badReply cs => exact .kitchen _ (frozen_badReply cs) fun _ => rfl
  | terminalLost a => exact .kitchen _ (frozen_loseTerminal a) fun _ => rfl
  | ack => exact .kitchen _ (frozen_handleReply .ack) fun _ => rfl
  | terminalStart st n => exact .kitchen _ (frozen_handleReply (.start st.toNat n.toNat)) fun _ => rfl
  | bump st n => exact .kitchen _ (frozen_handleReply (.bump st.toNat n.toNat)) fun _ => rfl
  | taken g => exact .kitchen _ (frozen_handleReply (.taken g.toNat)) fun _ => rfl
  | wait => exact .kitchen _ (frozen_handleReply .wait) fun _ => rfl
  | fault => exact .kitchen _ (frozen_handleReply .fault) fun _ => rfl
  | hello => exact .kitchen _ (frozen_handleReply .hello) fun _ => rfl
  | hostByte b => exact .receiver (receiveByte b) fun _ => rfl
  | hostFrame b => exact .receiver (completeFrame b) fun _ => rfl
  | interByteGapExpiry => exact .receiver abandonFrame fun _ => rfl
  | framingError => exact .receiver abandonFrame fun _ => rfl
  | transmitterChoice => exact .frameEnd transmit transmit_kit fun _ => rfl
  | restartClearing => exact .frameEnd completeClearing completeClearing_kit fun _ => rfl
  | unknownKind => exact .request (fun b => (kindOf b).isNone) (fun h => by rw [kindOf_code] at h; cases h) fun _ => rfl
  | start => exact commandClass_request .start
  | close => exact commandClass_request .close
  | restart => exact commandClass_request .restart
  | clrcfg => exact commandClass_request .clrcfg
  | defitem => exact commandClass_request .defitem
  | defcrs => exact commandClass_request .defcrs
  | defstn => exact commandClass_request .defstn
  | defterm => exact commandClass_request .defterm
  | stock => exact commandClass_request .stock
  | rebind => exact commandClass_request .rebind
  | submit => exact commandClass_request .submit
  | amend => exact commandClass_request .amend
  | retime => exact commandClass_request .retime
  | hold => exact commandClass_request .hold
  | cancel => exact commandClass_request .cancel
  | pickup => exact commandClass_request .pickup
  | refire => exact commandClass_request .refire
  | stnon => exact commandClass_request .stnon
  | stnoff => exact commandClass_request .stnoff
  | pause => exact commandClass_request .pause
  | pauseall => exact commandClass_request .pauseall
  | resume => exact commandClass_request .resume
  | resumeall => exact commandClass_request .resumeall
  | halt => exact commandClass_request .halt
  | clear => exact commandClass_request .clear
  | qgroup => exact commandClass_request .qgroup
  | qstn => exact commandClass_request .qstn
  | qitem => exact commandClass_request .qitem
  | qterm => exact commandClass_request .qterm
  | qstat => exact commandClass_request .qstat

theorem unlessReset_running (f : State → State) {s : State} (h : s.resetLow = false) : unlessReset f s = f s := by
  simp [unlessReset, h]

/-- What any command can do while the part runs: a RESTART's clearing first, where it is still to come, or nothing; and then a move
of the event that only START opens, or the device second. -/
theorem exec_eventMove {c : Instr} {s t : State} (hs : s.resetLow = false) (ht : t.resetLow = false) (h : exec c s = .next t) :
    ∃ k, ClearedOr s k ∧
      (EventMove (c = .start) k t.kit ∨ (c = .deviceSecond ∧ t.kit = (deviceSecond (begun k)).toKitchen)) := by
  have of_next : ∀ {u : State}, exec c s = .next u → u = t := fun e => Host.Outcome.next.inj (e.symm.trans h)
  cases commandClass c with
  | edge hc =>
    rcases hc with rfl | rfl
    · obtain rfl : assertReset s = t := of_next rfl
      simp [assertReset, hs] at ht
    · obtain rfl : releaseReset s = t := of_next rfl
      have e : releaseReset s = s := by simp [releaseReset, hs]
      rw [e]
      exact ⟨s.kit, .inl rfl, .inl (EventMove.refl _ _)⟩
  | second hc =>
    subst hc
    obtain rfl : inPart deviceSecond s = t := of_next rfl
    rw [inPart_running _ hs]
    exact ⟨s.kit, .inl rfl, .inr ⟨rfl, rfl⟩⟩
  | kitchen f hf he =>
    obtain rfl := of_next (he s)
    rw [inPart_running _ hs]
    exact ⟨s.kit, .inl rfl, .inl ((hf (begun s.kit)).eventMove _)⟩
  | receiver f he =>
    obtain rfl := of_next (he s)
    rw [inReceiver, unlessReset_running _ hs]
    exact ⟨s.kit, .inl rfl, .inl (EventMove.refl _ _)⟩
  | request mine own he =>
    obtain rfl := of_next (he s)
    rw [unlessReset_running _ hs]
    obtain ⟨k, hk, hm⟩ := actOnOldest_eventMove mine s
    exact ⟨k, hk, .inl (hm.mono own)⟩
  | frameEnd f hf he =>
    obtain rfl := of_next (he s)
    rw [unlessReset_running _ hs]
    exact ⟨_, hf s, .inl (EventMove.refl _ _)⟩

theorem ClearedOr.definitions {s : State} {k : Kitchen} (h : ClearedOr s k) : k.definitions = s.kit.definitions := by
  rcases h with rfl | ⟨-, rfl⟩
  · rfl
  · exact clearedKitchen_definitions _

/-- Settles O58: whatever the command, the kitchen it leaves outside SETUP has the definitions it found, since a clearing keeps
them and only requests of SETUP, which stay in SETUP, change them. -/
theorem definitionsFrozen : Obligations.DefinitionsFrozen := by
  intro s t _ ht hs htl h
  unfold step at h
  split at h
  · rename_i rest _
    obtain ⟨k, hk, hm | ⟨-, hd⟩⟩ := exec_eventMove (s := { s with pending := rest }) hs htl h
    · exact (hm.definitions ht).trans hk.definitions
    · rw [hd]
      exact (kept_deviceSecond (begun k)).definitions.trans hk.definitions
  · cases h
    rfl

/-! ### The advance, in the event and the clock -/

theorem advance_event (w : Work) : (advance w).event = w.event := by
  by_cases h : w.event = .service ∧ w.clock < 65535
  · rw [advance_serving h.1 h.2]
    exact ((Steady.refl _).passSettle).event.trans ((Steady.refl _).recomputeAll _).event
  · rw [advance_standing (by rw [← not_lt]; tauto)]
    rfl

/-- The service clock advances in SERVICE below its limit alone (R5, R9). -/
theorem advance_clock (w : Work) :
    (advance w).clock = w.clock ∨ ((advance w).clock = w.clock + 1 ∧ w.event = .service ∧ w.clock < 65535) := by
  by_cases h : w.event = .service ∧ w.clock < 65535
  · refine .inr ⟨?_, h⟩
    rw [advance_serving h.1 h.2]
    exact ((Steady.refl _).passSettle).clock.trans ((Steady.refl _).recomputeAll _).clock
  · rw [advance_standing (by rw [← not_lt]; tauto)]
    exact .inl rfl

theorem deviceSecond_seconds (w : Work) : (deviceSecond w).seconds = w.seconds + 1 := by
  rw [deviceSecond, advance_seconds, (frozen_settleOwed w).seconds]

theorem deviceSecond_event (w : Work) :
    (deviceSecond w).event = w.event ∨ (w.event = .service ∧ (deviceSecond w).event = .closed) := by
  rw [deviceSecond, advance_event]
  exact (frozen_settleOwed w).event

theorem deviceSecond_clock (w : Work) :
    (deviceSecond w).clock = w.clock ∨
      ((deviceSecond w).clock = w.clock + 1 ∧ w.event = .service ∧ (deviceSecond w).clock ≤ 65535) := by
  have hf := frozen_settleOwed w
  rw [deviceSecond, ← hf.clock]
  refine (advance_clock (settleOwed w)).imp_right fun ⟨hc, he, hl⟩ => ⟨hc, ?_, by omega⟩
  rcases hf.event with e | ⟨e, -⟩
  · exact e.symm.trans he
  · exact e

/-- Settles O59: with no clearing to come, a command is a move of the event or the device second. -/
theorem eventAndClockMove : Obligations.EventAndClockMove := by
  intro c s t hs ht hr h
  obtain ⟨k, hk, hm⟩ := exec_eventMove hs ht h
  obtain rfl : k = s.kit := hk.elim id fun hc => by rw [hr] at hc; cases hc.1
  rcases hm with hm | ⟨rfl, hd⟩
  · refine ⟨?_, .inl hm.seconds, .inl hm.clock⟩
    rcases hm.event with e | e | ⟨hc, e1, e2⟩
    · exact .inl e
    · exact .inr (.inr e)
    · exact .inr (.inl ⟨e1, e2, hc⟩)
  · rw [hd]
    refine ⟨(deviceSecond_event (begun s.kit)).imp_right .inr, .inr ⟨deviceSecond_seconds (begun s.kit), rfl⟩, ?_⟩
    exact (deviceSecond_clock (begun s.kit)).imp_right fun ⟨e1, e2, e3⟩ => ⟨e1, rfl, e2, e3⟩

/-! ### The device second (R4, R5) -/

/-- What becomes owed at a new second of SERVICE, written out (R86, R98, R106, R143, R148, R9). -/
theorem owedNow_service {k : Kitchen} (h : k.event = .service) :
    owedNow k =
      { warm := (k.stations.filter fun x => x.mode == .warming && x.countdown == 0).map Station.number
        release :=
          (k.stations.filter fun x =>
            k.tickets.any fun t => t.station == x.number && t.state == .queued && decide (t.release ≤ k.clock)).map Station.number
        overdue :=
          (k.stations.filter fun x =>
            k.tickets.any fun t =>
              t.station == x.number && t.state == .cooking && !t.overdue && decide (t.startAt.getD 0 < k.clock) &&
                decide (t.startAt.getD 0 + t.ceff + x.defn.grace ≤ k.clock)).map Station.number
        plating :=
          (k.groups.filter fun g =>
            (g.state == .planned || g.state == .firing) && decide ((g.target : Int) - g.lead ≤ k.clock)).map Group.number
        life :=
          (k.groups.filter fun g =>
            (g.state == .firing || g.state == .ready) && !g.flags.dying && g.lifeEnd.any fun e => decide (e ≤ (k.clock : Int))).map
            Group.number
        limit := k.clock == 65535 } := by
  have hlife : ∀ g : Group, lifeReached k g =
      ((g.state == .firing || g.state == .ready) && !g.flags.dying && g.lifeEnd.any fun e => decide (e ≤ (k.clock : Int))) := by
    intro g
    unfold lifeReached
    cases g.lifeEnd <;> rfl
  have hs : (k.event == .service) = true := by rw [h]; rfl
  unfold owedNow
  simp only [hs, Bool.true_and, hlife]
  rfl

/-- Settles O3: a device second is what is still owed, carried out in order, and then the advance. -/
theorem deviceSecondAdvances : Obligations.DeviceSecondAdvances := by
  intro s hs w0 w1 w2 w3 w4 w5 w6 ticked served now warmed due
  have hadv : deviceSecond w0 = advance w6 := rfl
  have hstand : w6.event ≠ .service ∨ 65535 ≤ w6.clock →
      deviceSecond w0 = { ticked with owed := { Owed.none with warm := warmed ticked } } :=
    fun h => hadv.trans (advance_standing h)
  refine ⟨fun n => ?_, fun h => settleOwed_none (w := w0) h, deviceSecond w0, ?_, deviceSecond_seconds w0, ?_, hstand, ?_⟩
  · have running : ∀ f : Work → Work, (.next (inPart f s) : Host.Outcome State Fault Refusal) = .next (moved s (f w0)) :=
      fun f => congrArg Host.Outcome.next (inPart_running f hs)
    exact ⟨running _, running _, running _, running _, running _, running _⟩
  · exact congrArg Host.Outcome.next (inPart_running deviceSecond hs)
  · intro he hc
    have hset : Settles served now := (Settles.refl served).forEach _ (fun n w => (Settles.refl w).recompute n) _
    have hserved : tickClock (tickDevice w6) = served := rfl
    have hnow : forEach recompute (activeGroups served.toKitchen) served = now := rfl
    have hserve : deviceSecond w0 = passSettle { now with owed := owedNow now.toKitchen } := by
      rw [hadv, advance_serving he hc, hserved, hnow]
    have hservice : now.event = .service := hset.steady.event.trans he
    clear_value now
    have hw : deviceSecond w0 = passSettle { now with owed := due } := by rw [hserve, owedNow_service hservice]
    exact ⟨hw, hw ▸ (hset.withOwed due).passSettle⟩
  · intro hl he
    have hclosed : w6.event = .closed := settleOwed_closes (w := w0) hl he
    have hw := hstand (.inl (by rw [hclosed]; decide))
    exact ⟨hclosed, hw ▸ hclosed, hw ▸ (frozen_settleOwed w0).clock⟩

/-! ### START (R6, R7) -/

theorem startEvent_noStation {w : Work} (h : w.stations = []) : startEvent w = (w, .incomplete .noStation 0 0) := if_pos h

theorem startEvent_loose {w : Work} {st i : Nat} (h : w.stations ≠ []) (hl : firstLoose w.toKitchen = some (st, i)) :
    startEvent w = (w, .incomplete .itemStn st i) := by
  unfold startEvent
  rw [if_neg h, hl]

/-- The service opened (R7): every pool 0, the tickets of release 0 DUE, the arbiters' actions, and EVSTATE. -/
def serviceOpened (w : Work) : Work :=
  raise (.evstate .service .start)
    (arbiters (w.stations.map Station.number)
      (makeDue (fun t => t.release == 0) { w with event := .service, items := w.items.map fun i => { i with pool := 0 } }))

theorem startEvent_opens {w : Work} (h : w.stations ≠ []) (hl : firstLoose w.toKitchen = none) :
    startEvent w = (passSettle (forEach testGroup (activeGroups (serviceOpened w).toKitchen) (serviceOpened w)), .ok .empty) := by
  unfold startEvent
  rw [if_neg h, hl]
  rfl

/-- A report raised stays among those raised, whatever follows. -/
theorem Steady.mem_out {w w' : Work} (h : Steady w w') {r : Report} (hr : r ∈ w.out) : r ∈ w'.out := by
  obtain ⟨rs, e, -⟩ := h.out
  rw [e]
  exact List.mem_append_left _ hr

theorem mem_out_raise (b : ReportBody) (w : Work) : ⟨w.clock, b⟩ ∈ (raise b w).out := by simp

/-- Settles O18: the three outcomes of START, by the stations and by the first component line that names none. -/
theorem startOpensService : Obligations.StartOpensService := by
  intro s seq rest h loose
  have asked := fun {w : Work} {a : Answer} (hp : startEvent (begun s.kit) = (w, a)) => exec_asks h (by decide) hp
  refine ⟨fun hst => asked (startEvent_noStation hst), fun st i hst hl => asked (startEvent_loose hst hl), ?_⟩
  intro hst hl begin w1 told due opened active
  have hdue : Settles w1 (forEach arbiter (s.kit.stations.map Station.number) due) :=
    ((Settles.refl w1).foldl _ (fun w n => (Settles.refl w).recompute n) told).arbiters _
  have htest := (hdue.raise (.evstate .service .start)).forEach testGroup (fun n w => (Settles.refl w).testGroup n) active
  refine ⟨_, asked (startEvent_opens hst hl), rfl, htest.passSettle, ?_⟩
  have hclock : (forEach arbiter (s.kit.stations.map Station.number) due).clock = s.kit.clock := hdue.steady.clock
  have hout : ⟨s.kit.clock, .evstate .service .start⟩ ∈ opened.out := hclock ▸ mem_out_raise _ _
  exact (((Steady.refl opened).forEach testGroup (fun n w => (Steady.refl w).testGroup n) active).passSettle).mem_out hout

/-! ### CLRCFG (R13) -/

theorem clearConfig_refused {w : Work} (h : w.groups ≠ []) : clearConfig w = (w, .groups) := if_pos h

/-- The configuration cleared (R13). -/
def emptiedConfig (w : Work) : Work :=
  setBroadcast
    { w with
      items := [], courses := [], stations := [], terminals := [], drawOrder := [], owed := Owed.none, lastTurn := 0
      turn := w.turn.map fun u => { u with orphan := true } }

theorem clearConfig_taken {w : Work} (h : w.groups = []) : clearConfig w = (emptiedConfig w, .ok .empty) :=
  if_neg (not_not.2 h)

/-- The turn under way at CLRCFG is an orphan; a NOTE in it will enter nothing (R120, R139). -/
theorem emptiedConfig_turn {w : Work} {u : Turn} (h : w.turn = some u) :
    ((∃ n, u.frame = .note n) → (emptiedConfig w).turn = some { u with orphan := true, stale := true }) ∧
      ((∀ n, u.frame ≠ .note n) → (emptiedConfig w).turn = some { u with orphan := true }) := by
  constructor
  · rintro ⟨n, hn⟩
    simp [emptiedConfig, setBroadcast, h, hn]
  · -- `hn` rules the NOTE out of the turn's match
    intro hn
    simp only [emptiedConfig, setBroadcast, h, Option.map_some]

/-- Settles O20: refused while a group is in use; else the tables go, and with them what was owed, drawn and going round. -/
theorem configCleared : Obligations.ConfigCleared := by
  intro s seq rest h
  have asked := fun {w : Work} {a : Answer} (hp : clearConfig (begun s.kit) = (w, a)) => exec_asks h (by decide) hp
  refine ⟨fun hg => asked (clearConfig_refused hg), fun hg => ⟨_, asked (clearConfig_taken hg), ?_⟩⟩
  refine ⟨rfl, rfl, rfl, rfl, hg, rfl, rfl, rfl, rfl, rfl, rfl, rfl, rfl, rfl, rfl, rfl, ?_, fun u hu => emptiedConfig_turn hu⟩
  intro ht
  simp [emptiedConfig, setBroadcast, ht]

/-! ### Reset (R14) -/

theorem unlessReset_low (f : State → State) {s : State} (h : s.resetLow = true) : unlessReset f s = s := by
  simp [unlessReset, h]

/-- While RESETN is low only its release is an event (R14). -/
theorem exec_low {c : Instr} {s : State} (h : s.resetLow = true) (hc : c ≠ .resetRelease) : exec c s = .next s := by
  cases commandClass c with
  | edge he =>
    obtain rfl : c = .resetAssert := he.resolve_right hc
    exact congrArg Host.Outcome.next (if_pos h)
  | second he =>
    subst he
    exact congrArg Host.Outcome.next (unlessReset_low _ h)
  | kitchen f _ he => rw [he, inPart, unlessReset_low _ h]
  | receiver f he => rw [he, inReceiver, unlessReset_low _ h]
  | request mine _ he => rw [he, unlessReset_low _ h]
  | frameEnd f _ he => rw [he, unlessReset_low _ h]

theorem powerOn_host_sound : HostPort.powerOn.sound where
  rx := trivial
  intake := Nat.zero_le _
  busy := Nat.zero_le _
  answers := Nat.zero_le _
  reports := by decide
  gapFull := by decide
  gapCounts := by decide
  discards := Nat.zero_le _
  restart := by decide

theorem powerOn_recordsSound : Kitchen.powerOn.recordsSound where
  items := .nil
  stations := .nil
  groups := .nil
  numbers := .nil
  pool := Nat.zero_le _
  counter := by decide
  homes := fun _ h => nomatch h
  slots := fun _ h => nomatch h
  marks := fun _ h => nomatch h
  lines := fun _ h => nomatch h
  batches := fun _ h => nomatch h
  covered := fun _ h => nomatch h
  draws := fun _ h => nomatch h

theorem powerOn_busSound : Kitchen.powerOn.busSound := ⟨.nil, fun _ h => nomatch h⟩

/-- Settles O2: the power-on state field by field, its invariants, the edges of RESETN, and that only a release ends a reset. -/
theorem resetLeavesPowerOnState : Obligations.ResetLeavesPowerOnState := by
  refine ⟨?_, ⟨powerOn_host_sound, fun _ h => (nomatch h), powerOn_busSound, powerOn_recordsSound⟩, fun s => ⟨?_, ?_, ?_, ?_⟩,
    fun c s h hc => exec_low h hc⟩
  · exact ⟨rfl, rfl, rfl, rfl, rfl, rfl, rfl, rfl, rfl, rfl, rfl, rfl, rfl, rfl, rfl, rfl, rfl, rfl, rfl, rfl, rfl, rfl, rfl⟩
  · exact fun h => congrArg Host.Outcome.next (if_neg (by simp [h]))
  · exact fun h => congrArg Host.Outcome.next (if_pos h)
  · exact fun h => exec_low h (by decide)
  · exact fun h => congrArg Host.Outcome.next (if_neg (by simp [h]))

/-! ### The oldest frame, faced and acted on (R166, R167, R2) -/

/-- The state with the oldest frame taken from the intake. -/
def takenFrom (s : State) (rest : List Frame) : State := { s with host := { s.host with intake := rest } }

theorem replyEnded_idle {s : State} (h1 : sendingReply s.host = false) (h2 : s.host.restartOwed = false) : replyEnded s = s :=
  if_neg (by simp [h1, h2])

theorem limitFirst_idle {s : State} (h : s.kit.owed.limit = false) : limitFirst s = s := if_neg (by simp [h])

theorem actOnOldest_faces {s : State} {f : Frame} {rest : List Frame} (h : Faces s f rest) {mine : Byte → Bool}
    (hm : mine f.kind = true) : unlessReset (actOnOldest mine) s = actOn f (takenFrom s rest) := by
  have h1 : replyEnded (takenFrom s rest) = takenFrom s rest := replyEnded_idle h.noneSending h.noClearing
  have h2 : limitFirst (takenFrom s rest) = takenFrom s rest := limitFirst_idle h.noLimit
  unfold takenFrom at h1 h2
  rw [unlessReset_running _ h.high, actOnOldest, h.front]
  simp only [hm, h.noneWaiting, Bool.not_false, Bool.and_self, if_true, h1, h2, takenFrom]

theorem exec_faces {s : State} {f : Frame} {rest : List Frame} (h : Faces s f rest) {k : ReqKind} (hk : f.kind = k.code) :
    exec k.command s = .next (actOn f (takenFrom s rest)) := by
  rw [exec_command, actOnKind, actOnOldest_faces (mine := fun b => b == k.code) h (beq_iff_eq.2 hk)]

theorem exec_unknownKind_faces {s : State} {f : Frame} {rest : List Frame} (h : Faces s f rest) (hk : kindOf f.kind = none) :
    exec .unknownKind s = .next (actOn f (takenFrom s rest)) :=
  congrArg Host.Outcome.next (actOnOldest_faces h (by rw [hk]; rfl))

/-- A frame answered without a change of the kitchen and without a report: of the Host Port only the reply path changes, and a
RESTART taken has its clearing to come. -/
theorem actOn_answered {s : State} {f : Frame} {a : Answer}
    (ha : answerFrame s.host.reports.length s.host.gap f (begun s.kit) = (begun s.kit, a)) :
    actOn f s =
      { s with
        host :=
          { s.host with
            replyPath := s.host.replyPath ++ [⟨f.seq, f.kind, a⟩], restartOwed := s.host.restartOwed || isRestart f a } } := by
  unfold actOn
  rw [ha]
  rfl

theorem parseRequest_code {f : Frame} {k : ReqKind} (hk : f.kind = k.code) (hl : f.body.length = bodyLength k f.body) :
    parseRequest f.kind f.body = .request k (readRequest k f.body) := by
  unfold parseRequest
  rw [hk, kindOf_code]
  exact if_pos hl

/-- A request of the right length that the gate passes is asked (R2, R166). -/
theorem Faces.asks {s : State} {f : Frame} {rest : List Frame} (h : Faces s f rest) {k : ReqKind} {r : Request}
    (hp : parseRequest f.kind f.body = .request k r) (hg : gatePasses k s.kit.event = true) : Asks s r f.seq rest := by
  have hk : r.kind = k := parsed_kind hp
  have hc : f.kind = r.kind.code := hk ▸ (parseRequest_request hp).1
  exact ⟨h.high, ⟨f.body, by rw [← hc]; exact h.front, by rw [← hc, hk]; exact hp⟩, h.noneWaiting, h.noneSending, h.noClearing,
    h.noLimit, hk ▸ hg⟩

theorem Asks.faces {s : State} {r : Request} {seq : Byte} {rest : List Frame} (h : Asks s r seq rest) :
    ∃ body, parseRequest r.kind.code body = .request r.kind r ∧ Faces s ⟨r.kind.code, seq, body⟩ rest := by
  obtain ⟨body, hf, hp⟩ := h.front
  exact ⟨body, hp, h.high, hf, h.noneWaiting, h.noneSending, h.noClearing, h.noLimit⟩

/-- A request that the gate does not pass is answered BADSTATE, and nothing else changes (R2). -/
theorem exec_refused {s : State} {f : Frame} {rest : List Frame} (h : Faces s f rest) {k : ReqKind} {r : Request}
    (hp : parseRequest f.kind f.body = .request k r) (hg : gatePasses k s.kit.event = false) :
    exec k.command s = .next (turnedAway s k f.seq rest .badState) := by
  have hk := (parseRequest_request hp).1
  have ha : answerFrame s.host.reports.length s.host.gap f (begun s.kit) = (begun s.kit, .badState) := by
    simp [answerFrame, hp, hg]
  rw [exec_faces h hk, actOn_answered (s := takenFrom s rest) ha, hk]
  simp [isRestart, takenFrom, turnedAway]

/-- RESTART passes in every event state, and is answered OK with its clearing to come (R2, R11). -/
theorem exec_restart_faces {s : State} {f : Frame} {rest : List Frame} (h : Faces s f rest) (hk : f.kind = ReqKind.restart.code)
    (hl : f.body.length = 0) :
    exec .restart s =
      .next
        { s with
          host :=
            { s.host with
              intake := rest, replyPath := s.host.replyPath ++ [⟨f.seq, 0x03, .ok .empty⟩], restartOwed := true } } := by
  have hg : gatePasses .restart s.kit.event = true := by cases s.kit.event <;> rfl
  have ha : answerFrame s.host.reports.length s.host.gap f (begun s.kit) = (begun s.kit, .ok .empty) := by
    simp [answerFrame, parseRequest_code hk hl, hg, readRequest, perform]
  refine (exec_faces (k := .restart) h hk).trans ?_
  rw [actOn_answered (s := takenFrom s rest) ha, hk]
  simp [isRestart, takenFrom, hk, ReqKind.code]

/-- The table of R2: what the gate refuses in each event state. -/
def refusedKinds : EventState → List ReqKind
  | .setup => [.close]
  | .service => [.start, .clrcfg, .defitem, .defcrs, .defstn, .defterm]
  | .closed =>
    [.start, .close, .clrcfg, .defitem, .defcrs, .defstn, .defterm, .submit, .amend, .retime, .hold, .cancel, .pickup,
     .refire, .stnon, .stnoff, .pause, .pauseall, .resume, .resumeall, .halt, .clear]

theorem gatePasses_eq_false_iff (k : ReqKind) (e : EventState) : gatePasses k e = false ↔ k ∈ refusedKinds e := by
  cases e with
  | setup => cases k <;> decide
  | service => cases k <;> decide
  | closed => cases k <;> decide

/-- Settles O16: a frame of no kind, a request refused, a request passed to its owner, and RESTART. -/
theorem gateRefusesByTable : Obligations.GateRefusesByTable := by
  unfold Obligations.GateRefusesByTable
  intro refusedIn
  have hrefused : ∀ e, refusedIn e = refusedKinds e := fun e => by cases e <;> rfl
  simp only [hrefused, ← gatePasses_eq_false_iff]
  refine ⟨fun s f rest h hk => ?_, fun s f rest k h hk hl => ⟨fun hr => ?_, fun hr hne => ?_, ?_⟩⟩
  · have ha : answerFrame s.host.reports.length s.host.gap f (begun s.kit) = (begun s.kit, .badKind) := by
      simp [answerFrame, parseRequest, hk]
    rw [exec_unknownKind_faces h hk, actOn_answered (s := takenFrom s rest) ha]
    simp [isRestart, takenFrom]
  · exact exec_refused h (parseRequest_code hk hl) hr
  · have hg : gatePasses k s.kit.event = true := Bool.eq_true_of_not_eq_false hr
    have hkind := readRequest_kind k f.body
    have := exec_asks (h.asks (parseRequest_code hk hl) hg) (by rw [hkind]; exact hne) rfl
    rwa [hkind] at this
  · rintro rfl
    exact exec_restart_faces h hk hl

/-! ### RESTART (R11, R12) -/

/-- The part cleared at the end of RESTART's reply (R11). -/
def clearedPart (s : State) : State := restartClear { s with host := { s.host with tx := none } }

/-- With a clearing to come and RESTART's reply no longer waiting, the end of the frame being sent is the clearing (R11). -/
theorem frameEnded_clears {s : State} (ho : s.host.restartOwed = true) (hw : replyWaiting s.host = false) :
    frameEnded s = clearedPart s := by
  unfold frameEnded
  exact if_pos (by simp [ho, hw])

theorem exec_restartClearing {s : State} (hs : s.resetLow = false) (ho : s.host.restartOwed = true)
    (hw : replyWaiting s.host = false) :
    exec .restartClearing s = .next (clearedPart s) := by
  show Host.Outcome.next (unlessReset completeClearing s) = _
  rw [unlessReset_running _ hs, completeClearing, if_pos (by simp [ho, hw]), frameEnded_clears ho hw]

/-- The frame behind RESTART finds the clearing completed first (R12, R166). -/
theorem actOnOldest_behind {s : State} {f : Frame} {rest : List Frame} (hs : s.resetLow = false)
    (ho : s.host.restartOwed = true) (hw : replyWaiting s.host = false) (hf : s.host.intake = f :: rest) {mine : Byte → Bool}
    (hm : mine f.kind = true) :
    unlessReset (actOnOldest mine) s =
      actOn f (takenFrom (clearedPart s) rest) := by
  have h1 : replyEnded (takenFrom s rest) = takenFrom (clearedPart s) rest := by
    unfold replyEnded
    rw [if_pos (by simp [takenFrom, ho])]
    exact frameEnded_clears (s := takenFrom s rest) ho hw
  rw [unlessReset_running _ hs, actOnOldest, hf]
  simp only [hm, hw, Bool.not_false, Bool.and_self, if_true]
  unfold takenFrom at h1 ⊢
  rw [h1]
  exact congrArg (actOn f) (limitFirst_idle rfl)

/-- Settles O19: RESTART's answer, the frame behind it, which acts as in the cleared part, and the clearing itself. -/
theorem restartAnsweredThenCleared : Obligations.RestartAnsweredThenCleared := by
  refine ⟨fun s seq rest h => ?_, fun s f rest hs ho hw hf => ?_, fun s hs => ⟨fun h => ?_, fun ho hw => ?_⟩⟩
  · obtain ⟨body, hp, hfaces⟩ := h.faces
    exact exec_restart_faces hfaces rfl (parseRequest_request hp).2.1
  · have hfaces : Faces (clearedPart s) f rest := ⟨hs, hf, hw, rfl, rfl, rfl⟩
    have same : ∀ {mine : Byte → Bool}, mine f.kind = true → unlessReset (actOnOldest mine) s =
        unlessReset (actOnOldest mine) (clearedPart s) :=
      fun hm => (actOnOldest_behind hs ho hw hf hm).trans (actOnOldest_faces hfaces hm).symm
    have acted : ∀ k : ReqKind, f.kind = k.code →
        exec k.command s = exec k.command (clearedPart s) := fun k hk => by
      rw [exec_command, exec_command, actOnKind, actOnKind, same (mine := fun b => b == k.code) (beq_iff_eq.2 hk)]
    refine ⟨_, exec_restartClearing hs ho hw, rfl, hf, rfl, acted, fun hk => ?_, fun r hk hp => ⟨hfaces.asks hp, fun hg => ?_⟩⟩
    · exact congrArg Host.Outcome.next (same (by rw [hk]; rfl))
    · rw [acted r.kind hk]
      exact exec_refused hfaces hp hg
  · show Host.Outcome.next (unlessReset completeClearing s) = _
    rw [unlessReset_running _ hs, completeClearing, if_neg]
    rcases h with h | h <;> simp [h]
  · exact ⟨clearedKitchen s.kit, exec_restartClearing hs ho hw, rfl, rfl, rfl, rfl, rfl, rfl, rfl, rfl, rfl,
      clearedKitchen_definitions s.kit, rfl, rfl, rfl⟩

/-! ### The closing of the event (R8, R9) -/

/-- Reports raised one after another, all at the present clock (R172). -/
theorem foldl_raise {α : Type} (b : α → ReportBody) (l : List α) (w : Work) :
    l.foldl (fun w x => raise (b x) w) w = { w with out := w.out ++ l.map fun x => ⟨w.clock, b x⟩ } := by
  induction l generalizing w with
  | nil => simp
  | cons x l ih =>
    rw [List.foldl_cons, ih]
    simp [raise]

theorem goneReports_eq (w : Work) :
    goneReports w = { w with out := w.out ++ w.groups.map fun g => ⟨w.clock, .grpgone g.number g.tag (closedState g)⟩ } :=
  foldl_raise (fun g : Group => .grpgone g.number g.tag (closedState g)) w.groups w

/-- A change of stations that keeps their numbers and current terminals keeps each station's current terminal. -/
theorem currentOf_map {k k' : Kitchen} (f : Station → Station) (hn : ∀ x, (f x).number = x.number)
    (hc : ∀ x, (f x).current = x.current) (h : k'.stations = k.stations.map f) (st : Nat) : currentOf k' st = currentOf k st := by
  unfold currentOf findStation
  rw [h, ← entryOf_map Station.number Station.number f hn]
  cases entryOf Station.number st k.stations with
  | none => rfl
  | some x => exact hc x

/-- A hand-over to a station's current terminal changes the terminal with its address, where there is one (R127). -/
theorem atCurrent_eq (st : Nat) (f : Terminal → Terminal) (w : Work) :
    atCurrent st f w =
      { w with terminals := w.terminals.map fun t => if currentOf w.toKitchen st = some t.address then f t else t } := by
  unfold atCurrent currentOf
  cases findStation w.toKitchen st with
  | none => simp
  | some x =>
    cases hx : x.current with
    | none => simp [hx]
    | some a => simp [hx, setTerminal, updateEntry, eq_comm]

/-- The stations in `sts` made OFF (R8 step 4). -/
def offIn (sts : List Nat) (x : Station) : Station :=
  if x.number ∈ sts then { x with mode := .off, countdown := 0 } else x

@[simp] theorem offIn_number (sts : List Nat) (x : Station) : (offIn sts x).number = x.number := by unfold offIn; split <;> rfl
@[simp] theorem offIn_current (sts : List Nat) (x : Station) : (offIn sts x).current = x.current := by unfold offIn; split <;> rfl
@[simp] theorem offIn_fixed (sts : List Nat) (x : Station) : (offIn sts x).fixed = x.fixed := by unfold offIn; split <;> rfl

theorem offIn_cons (st : Nat) (sts : List Nat) (x : Station) : offIn sts (offIn [st] x) = offIn (st :: sts) x := by
  by_cases h : x.number = st
  · simp [offIn, h]
  · simp [offIn, h]

/-- The MODE marks a terminal has after one for each of `sts` it is the current terminal of. -/
def modeMarksFor (k : Kitchen) (sts : List Nat) (t : Terminal) : List Nat :=
  sts.foldl (fun ms st => if currentOf k st = some t.address then addNumber st ms else ms) t.modeMarks

/-- The terminal with those marks. -/
def markedFor (k : Kitchen) (sts : List Nat) (t : Terminal) : Terminal := { t with modeMarks := modeMarksFor k sts t }

theorem markedFor_cons (k : Kitchen) (st : Nat) (sts : List Nat) (t : Terminal) :
    markedFor k sts (markedFor k [st] t) = markedFor k (st :: sts) t := rfl

theorem modeMarksFor_congr {k k' : Kitchen} (h : ∀ st, currentOf k' st = currentOf k st) (sts : List Nat) (t : Terminal) :
    modeMarksFor k' sts t = modeMarksFor k sts t := by
  simp only [modeMarksFor, h]

theorem closeStation_eq (st : Nat) (w : Work) :
    closeStation st w =
      { w with
        stations := w.stations.map (offIn [st])
        terminals := w.terminals.map (markedFor w.toKitchen [st])
        out := w.out ++ [⟨w.clock, .stnmode st .off .close 0⟩] } := by
  have hoff : setStation st (fun s => { s with mode := .off, countdown := 0 }) w =
      { w with stations := w.stations.map (offIn [st]) } := by
    simp [setStation, updateEntry, offIn]
  have hcur : currentOf { w.toKitchen with stations := w.stations.map (offIn [st]) } st = currentOf w.toKitchen st :=
    currentOf_map (offIn [st]) (offIn_number _) (offIn_current _) rfl st
  have hmark : ∀ t : Terminal, (if currentOf w.toKitchen st = some t.address then markMode st t else t) =
      markedFor w.toKitchen [st] t := by
    intro t
    by_cases h : currentOf w.toKitchen st = some t.address
    · simp [markedFor, modeMarksFor, h, markMode]
    · simp [markedFor, modeMarksFor, h]
  unfold closeStation
  rw [hoff, atCurrent_eq]
  simp only [raise, hcur, hmark]

theorem closeStations_forEach (sts : List Nat) (w : Work) :
    forEach closeStation sts w =
      { w with
        stations := w.stations.map (offIn sts)
        terminals := w.terminals.map (markedFor w.toKitchen sts)
        out := w.out ++ sts.map fun st => ⟨w.clock, .stnmode st .off .close 0⟩ } := by
  induction sts generalizing w with
  | nil =>
    have hoff : offIn [] = id := funext fun x => if_neg List.not_mem_nil
    have hmark : markedFor w.toKitchen [] = id := rfl
    simp [forEach, hoff, hmark]
  | cons st sts ih =>
    have hcur : ∀ n, currentOf (closeStation st w).toKitchen n = currentOf w.toKitchen n :=
      currentOf_map (offIn [st]) (offIn_number _) (offIn_current _) (by rw [closeStation_eq])
    have hmark : markedFor (closeStation st w).toKitchen sts = markedFor w.toKitchen sts := funext fun t => by
      simp only [markedFor, modeMarksFor_congr hcur]
    show forEach closeStation sts (closeStation st w) = _
    rw [ih, hmark, closeStation_eq]
    simp [List.map_map, Function.comp_def, offIn_cons, markedFor_cons]

/-- The stations that are not OFF, which the closing makes OFF (R8 step 4). -/
def openStations (k : Kitchen) : List Nat := stationsWhere k fun x => x.mode != .off

/-- The kitchen after the closing of the event (R8). -/
def closedKitchen (k : Kitchen) : Kitchen :=
  { k with
    event := .closed, owed := Owed.none, groups := [], tickets := [], drawOrder := [], broadcast := true
    stations := k.stations.map fun x => { offIn (openStations k) x with staged := none }
    terminals := k.terminals.map fun t =>
      { t with
        posts := [], voids := [], nextMarks := [], modeMarks := modeMarksFor k (openStations k) t, notes := [], shown := [] }
    turn := k.turn.map fun u => { u with stale := true } }

/-- The reports of the closing, in order (R8). -/
def closingReports (k : Kitchen) (cause : EventCause) : List Report :=
  (k.groups.map fun g => ⟨k.clock, .grpgone g.number g.tag (closedState g)⟩) ++
    ((openStations k).map fun st => ⟨k.clock, .stnmode st .off .close 0⟩) ++ [⟨k.clock, .evstate .closed cause⟩]

/-- The pending frames swept and the broadcast mark set: step 5 of R8. -/
theorem setBroadcast_sweepFrames (w : Work) :
    setBroadcast (sweepFrames w) =
      { w with
        broadcast := true
        terminals := w.terminals.map fun t => { t with posts := [], voids := [], nextMarks := [], notes := [], shown := [] }
        turn := w.turn.map fun u => { u with stale := true } } := by
  have hturn : (setBroadcast (sweepFrames w)).turn = w.turn.map fun u => { u with stale := true } := by
    unfold setBroadcast sweepFrames
    cases w.turn with
    | none => rfl
    | some u =>
      obtain ⟨_, _, frame, _, _, _⟩ := u
      cases frame <;> rfl
  have hterm : (setBroadcast (sweepFrames w)).terminals =
      w.terminals.map fun t => { t with posts := [], voids := [], nextMarks := [], notes := [], shown := [] } := List.map_map
  rw [← hturn, ← hterm]
  rfl

/-- A kitchen with no group and no ticket, the event CLOSED: steps 1 to 3 of R8. -/
def sweptKitchen (k : Kitchen) : Kitchen :=
  { k with
    event := .closed, owed := Owed.none, groups := [], drawOrder := [], tickets := []
    stations := k.stations.map fun x => { x with staged := none } }

theorem openStations_sweptKitchen (k : Kitchen) : openStations (sweptKitchen k) = openStations k := by
  simp [openStations, stationsWhere, sweptKitchen, List.filter_map, Function.comp_def]

theorem markedFor_sweptKitchen (k : Kitchen) (sts : List Nat) : markedFor (sweptKitchen k) sts = markedFor k sts := funext fun t => by
  simp only [markedFor, modeMarksFor_congr
    (currentOf_map (k' := sweptKitchen k) (fun x => { x with staged := none }) (fun _ => rfl) (fun _ => rfl) rfl)]

/-- What the closing makes of the kitchen, and the reports it raises (R8). -/
theorem closeEvent_begun (cause : EventCause) (k : Kitchen) :
    closeEvent cause (begun k) = { closedKitchen k with out := closingReports k cause } := by
  have hswept : sweepRecords (goneReports (stopEvent (begun k))) =
      { sweptKitchen k with out := k.groups.map fun g => ⟨k.clock, .grpgone g.number g.tag (closedState g)⟩ } := by
    rw [goneReports_eq]
    rfl
  have hoff : ∀ x : Station, offIn (openStations k) { x with staged := none } = { offIn (openStations k) x with staged := none } := by
    intro x
    unfold offIn
    split <;> rfl
  have hopen : stationsWhere (sweptKitchen k) (fun s => s.mode != .off) = openStations k := openStations_sweptKitchen k
  unfold closeEvent closeStations
  rw [hswept, hopen, closeStations_forEach, setBroadcast_sweepFrames]
  simp only [raise, markedFor_sweptKitchen]
  simp only [sweptKitchen, closedKitchen, closingReports, markedFor, List.map_map, Function.comp_def, hoff]

/-! ### The views of the closed kitchen -/

theorem mem_addNumber (m n : Nat) (l : List Nat) : m ∈ addNumber n l ↔ m = n ∨ m ∈ l := by
  unfold addNumber
  induction l with
  | nil => simp [insertEntry]
  | cons y l ih =>
    unfold insertEntry
    split
    · simp
    · split
      · rename_i h
        simp only [id] at h
        simp [h]
      · simp [ih, or_left_comm]

theorem mem_modeMarksFor (k : Kitchen) (sts : List Nat) (t : Terminal) (m : Nat) :
    m ∈ modeMarksFor k sts t ↔ m ∈ t.modeMarks ∨ (m ∈ sts ∧ currentOf k m = some t.address) := by
  unfold modeMarksFor
  generalize t.modeMarks = ms
  induction sts generalizing ms with
  | nil => simp
  | cons st sts ih =>
    rw [List.foldl_cons, ih]
    by_cases h : currentOf k st = some t.address
    · rw [if_pos h, mem_addNumber]
      constructor
      · rintro ((rfl | hm) | ⟨hm, hc⟩)
        · exact .inr ⟨List.mem_cons_self, h⟩
        · exact .inl hm
        · exact .inr ⟨List.mem_cons_of_mem _ hm, hc⟩
      · rintro (hm | ⟨hm, hc⟩)
        · exact .inl (.inr hm)
        · exact (List.mem_cons.1 hm).elim (fun e => .inl (.inl e)) fun hm => .inr ⟨hm, hc⟩
    · rw [if_neg h]
      have : ∀ (_ : currentOf k m = some t.address), m ≠ st := fun hc e => h (e ▸ hc)
      simp only [List.mem_cons]
      tauto

theorem mem_openStations (k : Kitchen) (m : Nat) : m ∈ openStations k ↔ ∃ x ∈ k.stations, x.number = m ∧ x.mode ≠ .off := by
  simp [openStations, stationsWhere, and_assoc, and_comm]

theorem currentOf_of_mem {k : Kitchen} (h : k.stations.Pairwise fun a b => a.number < b.number) {x : Station}
    (hx : x ∈ k.stations) : currentOf k x.number = x.current := by
  have : findStation k x.number = some x := entryOf_of_mem h hx
  unfold currentOf
  rw [this]

theorem offIn_openStations_off {k : Kitchen} {x : Station} (hx : x ∈ k.stations) : (offIn (openStations k) x).mode = .off := by
  unfold offIn
  split
  · rfl
  · rename_i hn
    by_contra hm
    exact hn ((mem_openStations k x.number).2 ⟨x, hx, rfl, hm⟩)

/-- Ascending stations have each its own number, so that the closing goes by the station's own mode. -/
theorem mem_openStations_iff_mode {k : Kitchen} (h : k.stations.Pairwise fun a b => a.number < b.number) {x : Station}
    (hx : x ∈ k.stations) : x.number ∈ openStations k ↔ x.mode ≠ .off := by
  rw [mem_openStations]
  refine ⟨?_, fun hm => ⟨x, hx, rfl, hm⟩⟩
  rintro ⟨y, hy, hn, hm⟩
  have hxy : some y = some x := by
    rw [← entryOf_of_mem (key := Station.number) h hy, ← entryOf_of_mem (key := Station.number) h hx, hn]
  cases hxy
  exact hm

/-- With stations ascending, the stations that are not OFF and have the terminal for their current one, by number. -/
theorem openAt_iff {k : Kitchen} (h : k.stations.Pairwise fun a b => a.number < b.number) (m a : Nat) :
    (m ∈ openStations k ∧ currentOf k m = some a) ↔
      ∃ x ∈ k.stations, x.number = m ∧ x.mode ≠ .off ∧ x.current = some a := by
  rw [mem_openStations]
  constructor
  · rintro ⟨⟨x, hx, rfl, hm⟩, hc⟩
    exact ⟨x, hx, rfl, hm, (currentOf_of_mem h hx).symm.trans hc⟩
  · rintro ⟨x, hx, rfl, hm, hc⟩
    exact ⟨⟨x, hx, rfl, hm⟩, (currentOf_of_mem h hx).trans hc⟩

/-- With stations ascending, each station of the closed kitchen by its own mode. -/
theorem closedKitchen_stations {k : Kitchen} (h : k.stations.Pairwise fun a b => a.number < b.number) :
    (closedKitchen k).stations = k.stations.map fun x =>
      if x.mode = .off then { x with staged := none } else { x with mode := .off, countdown := 0, staged := none } := by
  refine List.map_congr_left fun x hx => ?_
  by_cases hm : x.mode = .off
  · simp [offIn, mem_openStations_iff_mode h hx, hm]
  · simp [offIn, mem_openStations_iff_mode h hx, hm]

/-- A CLOCK_LIMIT that is not owed leaves the kitchen as it is (log entry 3). -/
theorem reachLimit_idle {w : Work} (h : w.owed.limit = false) : reachLimit w = w := by
  have ho : ({ w.owed with limit := false } : Owed) = w.owed := by rw [← h]
  unfold reachLimit
  rw [if_neg (by simp [h]), setOwed, ho]

theorem reachLimit_owed {w : Work} (hl : w.owed.limit = true) (he : w.event = .service) :
    reachLimit w = closeEvent .limit w := if_pos (by simp [hl, he])

/-- Settles O9: the closing is the closed kitchen and its reports, whichever command brings it. -/
theorem closingSweepsEvent : Obligations.ClosingSweepsEvent := by
  unfold Obligations.ClosingSweepsEvent
  intro swept
  have hswept : ∀ k cause, swept k cause (closeEvent cause (begun k)) := by
    intro k cause
    rw [closeEvent_begun]
    refine ⟨rfl, rfl, rfl, rfl, rfl, rfl, rfl, rfl, rfl, rfl, rfl, ?fixed, ?current, ?stations, ?health, ?frames, ?whole, ?out⟩
    case fixed => exact List.map_map.trans (List.map_congr_left fun x _ => offIn_fixed _ x)
    case current => exact List.map_map.trans (List.map_congr_left fun x _ => offIn_current _ x)
    case stations =>
      intro x hx
      obtain ⟨y, hy, rfl⟩ := List.mem_map.1 hx
      exact ⟨offIn_openStations_off hy, rfl⟩
    case health => exact List.map_map
    case frames =>
      intro t ht
      obtain ⟨u, -, rfl⟩ := List.mem_map.1 ht
      exact ⟨rfl, rfl, rfl, rfl, rfl⟩
    case whole =>
      intro hasc
      refine ⟨modeMarksFor k (openStations k), fun t m => ?_, ?_⟩
      · rw [mem_modeMarksFor, openAt_iff hasc]
      · rw [← closedKitchen_stations hasc]
        rfl
    case out =>
      simp only [closingReports, openStations, stationsWhere, List.map_map, Function.comp_def]
      rfl
  have running : ∀ s : State, s.resetLow = false → exec .clockLimit s = .next (moved s (reachLimit (begun s.kit))) :=
    fun s hs => congrArg Host.Outcome.next (inPart_running reachLimit hs)
  refine ⟨fun s seq rest h => ⟨_, exec_asks h (by decide) rfl, hswept s.kit .close⟩, fun s hs he hl => ?_, fun s hs hl => ?_⟩
  · exact ⟨_, (running s hs).trans (by rw [reachLimit_owed hl he]), hswept s.kit .limit⟩
  · rw [running s hs, reachLimit_idle (w := begun s.kit) hl, moved_begun]

end Sys2Proof.Machine
end

section
/-! PROOF. What every step keeps of the kitchen: an invariant of the kitchen is one that power-on meets and that each operation keeps
which a command does; the steps follow once for all of them (R30, R81, R88, R121). -/

namespace Sys2Proof.Machine

/-! ### Invariants of the kitchen -/

/-- The operation leaves a kitchen of the kind, where it finds one. -/
def Keeps (P : Kitchen → Prop) (f : Work → Work) : Prop := ∀ w : Work, P w.toKitchen → P (f w).toKitchen

/-- The kitchen is of the kind at power-on, and every operation keeps it so that a command does: the clearing of RESTART, a request
that its frame holds and the gate passes, the events of time, and the turns of the bus with what ends them. -/
structure KitchenInvariant (P : Kitchen → Prop) : Prop where
  powerOn : P Kitchen.powerOn
  cleared : ∀ k, P k → P (clearedKitchen k)
  performed : ∀ reports gap kind body k r (w : Work), parseRequest kind body = .request k r →
    gatePasses r.kind w.event = true → P w.toKitchen → P (perform reports gap r w).1.toKitchen
  second : Keeps P deviceSecond
  warmup : ∀ n, Keeps P (endWarmup n)
  release : ∀ n, Keeps P (releaseTickets n)
  overdue : ∀ n, Keeps P (overdueTickets n)
  plating : ∀ n, Keeps P (startPlating n)
  life : ∀ n, Keeps P (reachLife n)
  limit : Keeps P reachLimit
  turn : Keeps P takeTurn
  broadcast : Keeps P broadcastTurn
  miss : Keeps P missTurn
  bad : ∀ cs, Keeps P (badReply cs)
  lose : ∀ a, Keeps P (loseTerminal a)
  reply : ∀ r, Keeps P (handleReply r)

theorem unlessReset_kit {P : Kitchen → Prop} {f : State → State} {s : State} (h : P s.kit) (hf : P (f s).kit) :
    P (unlessReset f s).kit := by
  unfold unlessReset
  split
  · exact h
  · exact hf

theorem Keeps.inPart {P : Kitchen → Prop} {f : Work → Work} (hf : Keeps P f) {s : State} (h : P s.kit) : P (inPart f s).kit :=
  unlessReset_kit (f := inKitchen f) h (hf (begun s.kit) h)

theorem inReceiver_kit (f : HostPort → HostPort) (s : State) : (inReceiver f s).kit = s.kit :=
  unlessReset_kit (P := (· = s.kit)) (f := fun s => { s with host := f s.host }) rfl rfl

section

variable {P : Kitchen → Prop} {s : State}

theorem KitchenInvariant.clearedOr (hP : KitchenInvariant P) {k : Kitchen} (hk : ClearedOr s k) (h : P s.kit) : P k := by
  rcases hk with rfl | ⟨-, rfl⟩
  · exact h
  · exact hP.cleared _ h

theorem KitchenInvariant.limitFirst (hP : KitchenInvariant P) (h : P s.kit) : P (limitFirst s).kit := by
  unfold Machine.limitFirst
  split
  · exact hP.limit (begun s.kit) h
  · exact h

theorem KitchenInvariant.actOn (hP : KitchenInvariant P) (f : Frame) (h : P s.kit) : P (actOn f s).kit := by
  show P (answerFrame _ _ f (begun s.kit)).1.toKitchen
  unfold answerFrame
  split
  · exact h
  · exact h
  · rename_i k r hp
    split
    · rename_i hg
      exact hP.performed _ _ _ _ k r _ hp (parsed_kind hp ▸ hg) h
    · exact h

/-- Acting on the oldest frame: what has ended first, then an owed clock limit, then the request (R166, R9). -/
theorem KitchenInvariant.actOnOldest (hP : KitchenInvariant P) (mine : Byte → Bool) (h : P s.kit) :
    P (unlessReset (actOnOldest mine) s).kit := by
  refine unlessReset_kit h ?_
  unfold Machine.actOnOldest
  split
  · rename_i f rest _
    split
    · have hended := hP.clearedOr (replyEnded_kit { s with host := { s.host with intake := rest } }) h
      exact hP.actOn f (hP.limitFirst hended)
    · exact h
  · exact h

theorem KitchenInvariant.assertReset (hP : KitchenInvariant P) (h : P s.kit) : P (assertReset s).kit := by
  unfold Machine.assertReset
  split
  · exact h
  · exact hP.powerOn

theorem KitchenInvariant.releaseReset (hP : KitchenInvariant P) (h : P s.kit) : P (releaseReset s).kit := by
  unfold Machine.releaseReset
  split
  · exact hP.powerOn
  · exact h

/-- Every command keeps an invariant of the kitchen: the last arm is the requests' own, which all act on the oldest frame. -/
theorem KitchenInvariant.exec (hP : KitchenInvariant P) (c : Instr) (h : P s.kit) : ∃ t, exec c s = .next t ∧ P t.kit := by
  have receiver : ∀ f, P (inReceiver f s).kit := fun f => (inReceiver_kit f s).symm ▸ h
  have ended : ∀ f, (∀ s, ClearedOr s (f s).kit) → P (unlessReset f s).kit := fun f hf => unlessReset_kit h (hP.clearedOr (hf s) h)
  cases c with
  | resetAssert => exact ⟨_, rfl, hP.assertReset h⟩
  | resetRelease => exact ⟨_, rfl, hP.releaseReset h⟩
  | deviceSecond => exact ⟨_, rfl, hP.second.inPart h⟩
  | warmupEnd n => exact ⟨_, rfl, (hP.warmup n).inPart h⟩
  | ticketRelease n => exact ⟨_, rfl, (hP.release n).inPart h⟩
  | ticketOverdue n => exact ⟨_, rfl, (hP.overdue n).inPart h⟩
  | platingStart n => exact ⟨_, rfl, (hP.plating n).inPart h⟩
  | lifeEnd n => exact ⟨_, rfl, (hP.life n).inPart h⟩
  | clockLimit => exact ⟨_, rfl, hP.limit.inPart h⟩
  | turn => exact ⟨_, rfl, hP.turn.inPart h⟩
  | railclrBroadcast => exact ⟨_, rfl, hP.broadcast.inPart h⟩
  | replyWindowExpiry => exact ⟨_, rfl, hP.miss.inPart h⟩
  | badReply cs => exact ⟨_, rfl, (hP.bad cs).inPart h⟩
  | terminalLost a => exact ⟨_, rfl, (hP.lose a).inPart h⟩
  | ack => exact ⟨_, rfl, (hP.reply _).inPart h⟩
  | terminalStart st n => exact ⟨_, rfl, (hP.reply _).inPart h⟩
  | bump st n => exact ⟨_, rfl, (hP.reply _).inPart h⟩
  | taken g => exact ⟨_, rfl, (hP.reply _).inPart h⟩
  | wait => exact ⟨_, rfl, (hP.reply _).inPart h⟩
  | fault => exact ⟨_, rfl, (hP.reply _).inPart h⟩
  | hello => exact ⟨_, rfl, (hP.reply _).inPart h⟩
  | hostByte b => exact ⟨_, rfl, receiver _⟩
  | hostFrame b => exact ⟨_, rfl, receiver _⟩
  | interByteGapExpiry => exact ⟨_, rfl, receiver _⟩
  | framingError => exact ⟨_, rfl, receiver _⟩
  | transmitterChoice => exact ⟨_, rfl, ended transmit transmit_kit⟩
  | restartClearing => exact ⟨_, rfl, ended completeClearing completeClearing_kit⟩
  | _ => exact ⟨_, rfl, hP.actOnOldest _ h⟩

/-- Every step keeps an invariant of the kitchen. -/
theorem KitchenInvariant.step (hP : KitchenInvariant P) {t : State} (h : P s.kit) (hst : step s = .next t) : P t.kit := by
  unfold Machine.step at hst
  split at hst
  · rename_i c rest _
    obtain ⟨u, hu, hk⟩ := hP.exec (s := { s with pending := rest }) c h
    obtain rfl : u = t := Host.Outcome.next.inj (hu.symm.trans hst)
    exact hk
  · cases hst
    exact h

end

/-! ### Sound stocks and a sound terminal table (R27, R30, R33, R130, R149) -/

def Kitchen.stockBusSound (k : Kitchen) : Prop := k.stockSound ∧ k.busSound

theorem Kept.stockBusSound {w w' : Work} (h : Kept w w') (hs : w.stockBusSound) : w'.stockBusSound := ⟨h.stock hs.1, h.bus hs.2⟩

theorem Frozen.stockBusSound {w w' : Work} (h : Frozen w w') (hs : w.stockBusSound) : w'.stockBusSound := h.kept.stockBusSound hs

theorem Frozen.keeps {f : Work → Work} (h : ∀ w, Frozen w (f w)) : Keeps Kitchen.stockBusSound f := fun w => (h w).stockBusSound

/-- The stock field of a DEFITEM is a 2-byte field (R176, R179). -/
theorem parsed_item_stock_range {kind : Byte} {body : List Byte} {k : ReqKind} {q : ItemReq}
    (h : parseRequest kind body = .request k (.defitem q)) : q.stock < 65536 := by
  obtain ⟨-, -, hr⟩ := parseRequest_request h
  cases k <;> cases hr
  exact u16_lt body 20

/-- START, CLOSE and the requests of the definitions by a lemma of their own; every other request is steady. -/
theorem perform_stockBusSound {reports : Nat} {gap : Bool} {kind : Byte} {body : List Byte} {k : ReqKind} {r : Request} {w : Work}
    (hp : parseRequest kind body = .request k r) (hg : gatePasses r.kind w.event = true) (h : w.stockBusSound) :
    (perform reports gap r w).1.stockBusSound := by
  have hw := Steady.refl w
  have steady : ∀ {w' : Work}, Steady w w' → w'.stockBusSound := fun hs => hs.frozen.stockBusSound h
  cases r with
  | start => exact startEvent_sound w h.1 h.2
  | close => exact (frozen_closeEvent .close w (gate_close hg)).stockBusSound h
  | restart => exact h
  | clrcfg => exact clearConfig_sound w h.1 h.2
  | defitem q => exact defItem_sound q w (parsed_item_stock_range hp) h.1 h.2
  | defcrs n b p t => exact defCourse_sound n b p t w h.1 h.2
  | defstn q => exact defStation_sound q w h.1 h.2
  | defterm a k => exact defTerminal_sound a k w h.1 h.2
  | stock i n => exact steady (hw.setStock i n (parsed_stock_range hp))
  | rebind st p f => exact steady (hw.rebind st p f)
  | submit q => exact steady (hw.submit q)
  | amend g i sf c => exact steady (hw.amend g i sf c)
  | retime g t => exact steady (hw.retime g t)
  | hold g => exact steady (hw.hold g)
  | cancel g => exact steady (hw.cancel g)
  | pickup g => exact steady (hw.pickup g)
  | refire g i => exact steady (hw.refire g i)
  | stnon n => exact steady (hw.stationOn n)
  | stnoff n => exact steady (hw.stationOff n)
  | pause n => exact steady (hw.pauseStation n)
  | pauseall => exact steady (hw.changeAll _ _ _)
  | resume n => exact steady (hw.resumeStation n)
  | resumeall => exact steady (hw.changeAll _ _ _)
  | halt n => exact steady (hw.haltStation n)
  | clear n => exact steady (hw.clearStation n)
  | qgroup g f => exact steady (steady_queryGroup hw g f)
  | qstn n => exact steady (steady_queryStation hw n)
  | qitem i => exact steady (steady_queryItem hw i)
  | qterm a => exact steady (steady_queryTerminal hw a)
  | qstat => exact h

theorem stockBusSound_invariant : KitchenInvariant Kitchen.stockBusSound where
  powerOn := ⟨fun _ h => (nomatch h), powerOn_busSound⟩
  cleared k h := clearedKitchen_sound k h.1 h.2
  performed _ _ _ _ _ _ _ hp hg h := perform_stockBusSound hp hg h
  second w := (kept_deviceSecond w).stockBusSound
  warmup n := Frozen.keeps (frozen_endWarmup n)
  release n := Frozen.keeps (frozen_releaseTickets n)
  overdue n := Frozen.keeps (frozen_overdueTickets n)
  plating n := Frozen.keeps (frozen_startPlating n)
  life n := Frozen.keeps (frozen_reachLife n)
  limit := Frozen.keeps frozen_reachLimit
  turn := Frozen.keeps frozen_takeTurn
  broadcast := Frozen.keeps frozen_broadcastTurn
  miss := Frozen.keeps frozen_missTurn
  bad cs := Frozen.keeps (frozen_badReply cs)
  lose a := Frozen.keeps (frozen_loseTerminal a)
  reply r := Frozen.keeps (frozen_handleReply r)

/-! ### Sound records (R81, R82, R88, R121) -/

theorem recordsSound_invariant : KitchenInvariant Kitchen.recordsSound where
  powerOn := powerOn_recordsSound
  cleared _ h := h.clearedKitchen
  performed reports gap _ _ _ r _ _ hg h := h.perform reports gap r hg
  second _ h := h.deviceSecond
  warmup n _ h := h.endWarmup n
  release n _ h := h.releaseTickets n
  overdue n _ h := h.overdueTickets n
  plating n _ h := h.startPlating n
  life n _ h := h.reachLife n
  limit _ h := h.reachLimit
  turn _ h := h.takeTurn
  broadcast _ h := h.broadcastTurn
  miss _ h := h.missTurn
  bad cs _ h := h.badReply cs
  lose a _ h := h.loseTerminal a
  reply r _ h := h.handleReply r

/-- Settles O60: both are invariants of the kitchen, which every step keeps. -/
theorem stockAndBusSoundKept : Obligations.StockAndBusSoundKept :=
  ⟨fun _ _ hs hb h => stockBusSound_invariant.step ⟨hs, hb⟩ h, fun _ _ hr h => recordsSound_invariant.step hr h⟩

end Sys2Proof.Machine
end

section
/-! PROOF. The Menu Store and the tables of the part: what STOCK and the four definition requests refuse, what each leaves in its table,
and what it leaves as it was (R15 to R31). -/

namespace Sys2Proof.Machine

/-! ### STOCK (R31) -/

/-- A stock field makes an item exhausted exactly when it is 0 (R30, R176). -/
theorem stockField_exhausted (v : Nat) : (stockField v == .limited 0) = (v == 0) := by
  unfold stockField
  split
  · rename_i h
    subst h
    rfl
  · rw [Bool.eq_iff_iff, beq_iff_eq, beq_iff_eq, Stock.limited.injEq]

theorem withStock_stockField (v : Nat) (i : Item) :
    withStock (stockField v) i = { i with stock := stockField v, exhausted := v == 0 } := by
  rw [withStock, stockField_exhausted]

theorem setStock_unnumbered (v : Nat) (w : Work) : setStock 0 v w = (w, .badField .number 0) := rfl

theorem setStock_undefined {n v : Nat} {w : Work} (hn : n ≠ 0) (h : findItem w.toKitchen n = none) :
    setStock n v w = (w, .noSuch) := by
  unfold setStock
  rw [if_neg hn, h]

/-- The stock set, before the Pass Unit settles: the item's stock and mark, and ITEM86 if it becomes exhausted (R31, R35). -/
def stockPlaced (n v : Nat) (i : Item) (w : Work) : Work :=
  { w with
    items := updateEntry Item.number n (fun j => { j with stock := stockField v, exhausted := v == 0 }) w.items
    out := w.out ++ if v = 0 ∧ i.exhausted = false then [⟨w.clock, .item86 n .stock⟩] else [] }

theorem setStock_defined {n v : Nat} {i : Item} {w : Work} (hn : n ≠ 0) (h : findItem w.toKitchen n = some i) :
    setStock n v w = (passSettle (stockPlaced n v i w), .ok (.stockSet n (stockField v) (v == 0))) := by
  have hw : withStock (stockField v) = fun j => { j with stock := stockField v, exhausted := v == 0 } :=
    funext (withStock_stockField v)
  unfold setStock
  rw [if_neg hn, h]
  simp only [hw, stockPlaced, Prod.mk.injEq, and_true]
  congr 1
  by_cases hv : v = 0 ∧ i.exhausted = false
  · simp [hv, raise, setItem]
  · rw [if_neg (by simpa using hv), if_neg hv, List.append_nil]
    rfl

/-- Settles O25: STOCK by its item, which is none, undefined or defined; the Pass Unit's settling is what `Settles` says. -/
theorem stockSet : Obligations.StockSet := by
  intro s seq rest n v h st
  have asked := fun {w : Work} {a : Answer} (hp : setStock n v (begun s.kit) = (w, a)) => exec_asks h nofun hp
  refine ⟨?_, fun hn hi => asked (setStock_undefined hn hi), ?_⟩
  · rintro rfl
    exact asked (setStock_unnumbered v _)
  · intro i hn hi w1
    exact ⟨asked (setStock_defined hn hi), (Settles.refl w1).passSettle⟩

/-! ### A definition request in its steps (R19) -/

section

variable {checks : List FieldCheck} {take : Work → Work × Answer} {w : Work}

theorem define_inUse (hg : w.groups ≠ []) : define checks take w = (w, .groups) := if_pos hg

theorem define_bad {a : Answer} (hg : w.groups = []) (h : firstBad checks = some a) : define checks take w = (w, a) := by
  unfold define
  rw [if_neg (not_not.2 hg), h]

theorem define_taken (hg : w.groups = []) (h : firstBad checks = none) : define checks take w = take w := by
  unfold define
  rw [if_neg (not_not.2 hg), h]

end

/-! ### Field checks and their tables (R19) -/

theorem firstBad_none_iff {cs : List FieldCheck} : firstBad cs = none ↔ ∀ c ∈ cs, c.1 = false := by
  refine ⟨firstBad_none, fun h => ?_⟩
  have : cs.find? (fun c => c.1) = none := List.find?_eq_none.2 fun c hc => by simp [h c hc]
  rw [firstBad, this]

theorem firstBad_at {earlier later : List FieldCheck} (code : FieldCode) (index : Nat) (h : ∀ c ∈ earlier, c.1 = false) :
    firstBad (earlier ++ (true, code, index) :: later) = some (.badField code index) := by
  have : earlier.find? (fun c => c.1) = none := List.find?_eq_none.2 fun c hc => by simp [h c hc]
  rw [firstBad, List.find?_append, this]
  rfl

/-- One more row: the check says what the row says. -/
theorem checksAre_cons {b : Bool} {p : Prop} {cs : List FieldCheck} {rows : List CheckRow} (code : FieldCode) (index : Nat)
    (hp : b = true ↔ p) (h : ChecksAre cs rows) : ChecksAre ((b, code, index) :: cs) ((p, code, index) :: rows) := ⟨hp, rfl, h⟩

theorem ChecksAre.append {as bs : List FieldCheck} {ps qs : List CheckRow} (ha : ChecksAre as ps) (hb : ChecksAre bs qs) :
    ChecksAre (as ++ bs) (ps ++ qs) := by
  induction as generalizing ps with
  | nil =>
    cases ps with
    | nil => exact hb
    | cons p ps => exact ha.elim
  | cons a as ih =>
    cases ps with
    | nil => exact ha.elim
    | cons p ps => exact ⟨ha.1, ha.2.1, ih ha.2.2⟩

/-- The checks of the entries of a list, one table for each entry and its index. -/
theorem checksAre_flatten {α : Type} (f : Nat → α → List FieldCheck) (g : Nat → α → List CheckRow)
    (h : ∀ i x, ChecksAre (f i x) (g i x)) (l : List α) : ChecksAre (l.mapIdx f).flatten (l.mapIdx g).flatten := by
  induction l generalizing f g with
  | nil => exact trivial
  | cons x l ih =>
    rw [List.mapIdx_cons, List.mapIdx_cons, List.flatten_cons, List.flatten_cons]
    exact (h 0 x).append (ih _ _ fun i => h (i + 1))

theorem checksAre_mapIdx {α : Type} (f : Nat → α → FieldCheck) (g : Nat → α → CheckRow) (h : ∀ i x, ChecksAre [f i x] [g i x])
    (l : List α) : ChecksAre (l.mapIdx f) (l.mapIdx g) := by
  induction l generalizing f g with
  | nil => exact trivial
  | cons x l ih =>
    rw [List.mapIdx_cons, List.mapIdx_cons]
    exact (h 0 x).append (ih _ _ fun i => h (i + 1))

/-- A request passes its checks exactly when no row of their table holds. -/
theorem ChecksAre.pass_iff {cs : List FieldCheck} {rows : List CheckRow} (h : ChecksAre cs rows) :
    firstBad cs = none ↔ ∀ row ∈ rows, ¬row.1 := by
  rw [firstBad_none_iff]
  induction cs generalizing rows with
  | nil =>
    cases rows with
    | nil => simp
    | cons p ps => exact h.elim
  | cons c cs ih =>
    cases rows with
    | nil => exact h.elim
    | cons p ps => rw [List.forall_mem_cons, List.forall_mem_cons, ih h.2.2, ← h.1, Bool.not_eq_true]

theorem outside_iff {lo hi n : Nat} : outside lo hi n = true ↔ n < lo ∨ hi < n := by simp [outside]

/-! ### The tables of the four kinds (R20, R22, R25, R26, R28) -/

theorem checksAre_course (n base tol : Nat) :
    ChecksAre (courseChecks n base tol) [(n < 1 ∨ 8 < n, .number, 0), (1800 < base, .platebase, 0), (900 < tol, .tol, 0)] :=
  checksAre_cons _ _ outside_iff (checksAre_cons _ _ decide_eq_true_iff (checksAre_cons _ _ decide_eq_true_iff trivial))

theorem checksAre_terminal (k : Kitchen) (a kind : Nat) :
    ChecksAre (terminalChecks k a kind)
      [(a < 1 ∨ 30 < a, .address, 0), (kind ≠ 1 ∧ kind ≠ 2, .kind, 0),
       ((∃ t, findTerminal k a = some t ∧ t.kind ≠ termKindOf kind) ∧
         ∃ x ∈ k.stations, x.defn.primary = a ∨ x.defn.fallback = some a, .kind, 0)] := by
  refine checksAre_cons _ _ outside_iff (checksAre_cons _ _ ?kind (checksAre_cons _ _ ?bound trivial))
  case kind => rw [outside_iff]; omega
  case bound =>
    rw [Bool.and_eq_true]
    refine and_congr ?_ (by simp [boundTo])
    cases findTerminal k a <;> simp

theorem isStationTerminal_eq_false {k : Kitchen} {a : Nat} :
    isStationTerminal k a = false ↔ ∀ t, findTerminal k a = some t → t.kind ≠ .station := by
  unfold isStationTerminal
  cases findTerminal k a <;> simp

/-- What the two checks of a binding refuse (R25). -/
def bindingRows (k : Kitchen) (st p f : Nat) : List CheckRow :=
  [(p < 1 ∨ 30 < p ∨ (∀ t, findTerminal k p = some t → t.kind ≠ .station) ∨
      ∃ x ∈ k.stations, x.number ≠ st ∧ x.defn.primary = p, .primary, 0),
   (f ≠ 0 ∧ (30 < f ∨ (∀ t, findTerminal k f = some t → t.kind ≠ .station) ∨ f = p), .fallback, 0)]

theorem checksAre_binding (k : Kitchen) (st p f : Nat) : ChecksAre (bindingChecks k st p f) (bindingRows k st p f) := by
  refine checksAre_cons _ _ ?primary (checksAre_cons _ _ ?fallback trivial)
  case primary =>
    rw [← isStationTerminal_eq_false]
    simp [outside_iff, or_assoc]
  case fallback =>
    rw [← isStationTerminal_eq_false]
    simp only [Bool.and_eq_true, Bool.or_eq_true, outside_iff, bne_iff_ne, Bool.not_eq_true', beq_iff_eq]
    refine and_congr_right fun hf => ?_
    rw [or_assoc, or_iff_right (a := f < 1) (by omega)]

theorem checksAre_station (k : Kitchen) (r : StationReq) :
    ChecksAre (stationChecks k r)
      (([(r.number < 1 ∨ 24 < r.number, .number, 0), (r.slots < 1 ∨ 8 < r.slots, .slots, 0), (600 < r.advance, .advance, 0),
        (600 < r.step, .step, 0), (3600 < r.warmup, .warmup, 0), (900 < r.grace, .grace, 0)] : List CheckRow) ++
       r.load.mapIdx (fun i p => ((100 < p, .load, i) : CheckRow)) ++
       bindingRows k r.number r.primary r.fallback) := by
  refine ChecksAre.append (ChecksAre.append ?fields ?load) (checksAre_binding k r.number r.primary r.fallback)
  case fields =>
    exact checksAre_cons _ _ outside_iff (checksAre_cons _ _ outside_iff (checksAre_cons _ _ decide_eq_true_iff
      (checksAre_cons _ _ decide_eq_true_iff (checksAre_cons _ _ decide_eq_true_iff
        (checksAre_cons _ _ decide_eq_true_iff trivial)))))
  case load => exact checksAre_mapIdx _ _ (fun i p => checksAre_cons _ _ decide_eq_true_iff trivial) r.load

theorem isStandingCode_iff {n : Nat} : isStandingCode n = true ↔ n = 2 := beq_iff_eq

/-- What the checks of a component line refuse (R20 check 6). -/
def componentRows (kind i : Nat) (c : Component) : List CheckRow :=
  [(c.station < 1 ∨ 24 < c.station, .station, i), (7200 < c.cook, .cook, i),
   (¬kind = 2 ∧ (c.batch < 1 ∨ 240 < c.batch), .batch, i), (¬kind = 2 ∧ 1800 < c.rest, .rest, i),
   (¬kind = 2 ∧ (c.hold < 60 ∨ 7200 < c.hold), .hold, i)]

theorem checksAre_component (kind i : Nat) (c : Component) :
    ChecksAre (componentChecks (isStandingCode kind) i c) (componentRows kind i c) := by
  have plated : (!isStandingCode kind) = true ↔ ¬kind = 2 := by rw [Bool.not_eq_true', ← Bool.not_eq_true, isStandingCode_iff]
  refine checksAre_cons _ _ outside_iff (checksAre_cons _ _ decide_eq_true_iff (checksAre_cons _ _ ?_ (checksAre_cons _ _ ?_
    (checksAre_cons _ _ ?_ trivial))))
  · rw [Bool.and_eq_true, plated, outside_iff]
  · rw [Bool.and_eq_true, plated, decide_eq_true_iff]
  · rw [Bool.and_eq_true, plated, outside_iff]

theorem badSubstitute_iff {k : Kitchen} {r : ItemReq} :
    badSubstitute k r = true ↔
      r.subst ≠ 0 ∧ (r.kind = 2 ∨ ∀ y, findItem k r.subst = some y → y.number = r.number ∨ y.course ≠ r.course) := by
  unfold badSubstitute
  split
  · rename_i h
    simp [isStandingCode_iff.1 h]
  · rename_i h
    rw [isStandingCode_iff] at h
    cases findItem k r.subst <;> simp [h]

theorem movesSubstitute_iff {k : Kitchen} {r : ItemReq} :
    movesSubstitute k r = true ↔
      ∃ old, findItem k r.number = some old ∧ old.course ≠ r.course ∧
        ∃ i ∈ k.items, i.number ≠ r.number ∧ i.subst = some r.number := by
  unfold movesSubstitute
  cases findItem k r.number with
  | none => simp
  | some old => simp [and_comm]

theorem checksAre_item (k : Kitchen) (r : ItemReq) :
    ChecksAre (itemChecks k r)
      (([(r.number = 0, .number, 0), (∃ b ∈ r.name, b.toNat < 0x20 ∨ 0x7E < b.toNat, .name, 0),
         (r.course < 1 ∨ 8 < r.course ∨ findCourse k r.course = none, .course, 0), (r.kind ≠ 1 ∧ r.kind ≠ 2, .kind, 0),
         (r.lines.length < 1 ∨ 6 < r.lines.length ∨ (r.kind = 2 ∧ r.lines.length ≠ 1), .lines, 0)] : List CheckRow) ++
        (r.lines.mapIdx (componentRows r.kind)).flatten ++
        [(r.kind = 2 ∧ (r.runSize < 1 ∨ 240 < r.runSize), .runsize, 0), (r.kind = 2 ∧ 999 < r.reorder, .reorder, 0),
         (r.kind = 2 ∧ 3600 < r.lookahead, .lookahead, 0),
         (r.subst ≠ 0 ∧ (r.kind = 2 ∨ ∀ y, findItem k r.subst = some y → y.number = r.number ∨ y.course ≠ r.course), .subst, 0),
         (∃ old, findItem k r.number = some old ∧ old.course ≠ r.course ∧
           ∃ i ∈ k.items, i.number ≠ r.number ∧ i.subst = some r.number, .subof, 0)]) := by
  refine ChecksAre.append (ChecksAre.append ?fields (checksAre_flatten _ _ (checksAre_component r.kind) r.lines)) ?rest
  case fields =>
    refine checksAre_cons _ _ beq_iff_eq (checksAre_cons _ _ ?name (checksAre_cons _ _ ?course (checksAre_cons _ _ ?kind
      (checksAre_cons _ _ ?lines trivial))))
    case name => simp [terminalChar]
    case course => simp [outside_iff, or_assoc]
    case kind => rw [outside_iff]; omega
    case lines => simp [outside_iff, isStandingCode_iff, or_assoc]
  case rest =>
    refine checksAre_cons _ _ ?_ (checksAre_cons _ _ ?_ (checksAre_cons _ _ ?_ (checksAre_cons _ _ badSubstitute_iff
      (checksAre_cons _ _ movesSubstitute_iff trivial))))
    · rw [Bool.and_eq_true, isStandingCode_iff, outside_iff]
    · rw [Bool.and_eq_true, isStandingCode_iff, decide_eq_true_iff]
    · rw [Bool.and_eq_true, isStandingCode_iff, decide_eq_true_iff]

/-! ### The limits of the definitions -/

/-- None of the rows of a table written out holds: one condition for each row. -/
theorem forall_rows_cons {p : Prop} {x : FieldCode × Nat} {rows : List CheckRow} :
    (∀ row ∈ (p, x) :: rows, ¬row.1) ↔ ¬p ∧ ∀ row ∈ rows, ¬row.1 := List.forall_mem_cons

theorem forall_rows_last {p : Prop} {x : FieldCode × Nat} : (∀ row ∈ ([(p, x)] : List CheckRow), ¬row.1) ↔ ¬p :=
  List.forall_mem_singleton

/-- A condition on the entries of a list made from another by index, which asks the same of each entry there. -/
theorem forall_mem_mapIdx_iff {α β : Type} {f : Nat → α → β} {p : β → Prop} {q : α → Prop} (h : ∀ i x, p (f i x) ↔ q x)
    (l : List α) : (∀ y ∈ l.mapIdx f, p y) ↔ ∀ x ∈ l, q x := by
  induction l generalizing f with
  | nil => simp
  | cons x l ih => rw [List.mapIdx_cons, List.forall_mem_cons, List.forall_mem_cons, h 0 x, ih fun i => h (i + 1)]

theorem course_passes_iff (n base tol : Nat) :
    firstBad (courseChecks n base tol) = none ↔ (1 ≤ n ∧ n ≤ 8) ∧ base ≤ 1800 ∧ tol ≤ 900 := by
  rw [(checksAre_course n base tol).pass_iff, forall_rows_cons, forall_rows_cons, forall_rows_last]
  omega

theorem terminal_passes_iff (k : Kitchen) (a kind : Nat) :
    firstBad (terminalChecks k a kind) = none ↔
      (1 ≤ a ∧ a ≤ 30) ∧ (kind = 1 ∨ kind = 2) ∧
        ∀ t, findTerminal k a = some t → t.kind ≠ termKindOf kind →
          ∀ x ∈ k.stations, x.defn.primary ≠ a ∧ x.defn.fallback ≠ some a := by
  rw [(checksAre_terminal k a kind).pass_iff, forall_rows_cons, forall_rows_cons, forall_rows_last]
  refine and_congr (by omega) (and_congr (by omega) ?_)
  push Not
  exact ⟨fun h t ht hk => h ⟨t, ht, hk⟩, fun h ⟨t, ht, hk⟩ => h t ht hk⟩

theorem not_isStationTerminal {k : Kitchen} {a : Nat} :
    ¬(∀ t, findTerminal k a = some t → t.kind ≠ .station) ↔ isStationTerminal k a = true := by
  rw [← isStationTerminal_eq_false, Bool.not_eq_false]

/-- A binding in the ranges of R25. -/
theorem bindingRows_iff {k : Kitchen} {st p f : Nat} :
    (∀ row ∈ bindingRows k st p f, ¬row.1) ↔
      ((1 ≤ p ∧ p ≤ 30) ∧ isStationTerminal k p = true ∧ ∀ x ∈ k.stations, x.number ≠ st → x.defn.primary ≠ p) ∧
        (f = 0 ∨ (1 ≤ f ∧ f ≤ 30) ∧ isStationTerminal k f = true ∧ f ≠ p) := by
  rw [bindingRows, forall_rows_cons, forall_rows_last]
  refine and_congr ?_ ?_
  · simp only [not_or, not_isStationTerminal, Nat.not_lt, not_exists, not_and, ne_eq, and_assoc]
  · rcases Nat.eq_zero_or_pos f with rfl | hf
    · simp
    · simp only [Nat.pos_iff_ne_zero.1 hf, ne_eq, not_false_eq_true, true_and, false_or, not_or, not_isStationTerminal, Nat.not_lt,
        Nat.one_le_iff_ne_zero]

theorem station_passes_iff (k : Kitchen) (r : StationReq) :
    firstBad (stationChecks k r) = none ↔
      (1 ≤ r.number ∧ r.number ≤ 24) ∧ (1 ≤ r.slots ∧ r.slots ≤ 8) ∧ r.advance ≤ 600 ∧ r.step ≤ 600 ∧ r.warmup ≤ 3600 ∧
        r.grace ≤ 900 ∧ (∀ p ∈ r.load, p ≤ 100) ∧
        ((1 ≤ r.primary ∧ r.primary ≤ 30) ∧ isStationTerminal k r.primary = true ∧
          ∀ x ∈ k.stations, x.number ≠ r.number → x.defn.primary ≠ r.primary) ∧
        (r.fallback = 0 ∨
          (1 ≤ r.fallback ∧ r.fallback ≤ 30) ∧ isStationTerminal k r.fallback = true ∧ r.fallback ≠ r.primary) := by
  have hload : (∀ row ∈ r.load.mapIdx (fun i p => ((100 < p, .load, i) : CheckRow)), ¬row.1) ↔ ∀ p ∈ r.load, p ≤ 100 :=
    forall_mem_mapIdx_iff (p := fun row : CheckRow => ¬row.1) (fun _ _ => Nat.not_lt) r.load
  rw [(checksAre_station k r).pass_iff, List.forall_mem_append, List.forall_mem_append, hload, bindingRows_iff]
  simp only [forall_rows_cons, List.not_mem_nil, false_imp_iff, implies_true, and_true, not_or, Nat.not_lt, and_assoc]

/-- The rows of a component line in the ranges of R16 and R18. -/
theorem componentRows_iff {kind : Nat} (h : kind = 1 ∨ kind = 2) (i : Nat) (c : Component) :
    (∀ row ∈ componentRows kind i c, ¬row.1) ↔
      (1 ≤ c.station ∧ c.station ≤ 24) ∧ c.cook ≤ 7200 ∧
        (kind = 1 → (1 ≤ c.batch ∧ c.batch ≤ 240) ∧ c.rest ≤ 1800 ∧ (60 ≤ c.hold ∧ c.hold ≤ 7200)) := by
  rw [componentRows, forall_rows_cons, forall_rows_cons, forall_rows_cons, forall_rows_cons, forall_rows_last]
  omega

theorem item_passes_iff (k : Kitchen) (r : ItemReq) :
    firstBad (itemChecks k r) = none ↔
      r.number ≠ 0 ∧ (∀ b ∈ r.name, 0x20 ≤ b.toNat ∧ b.toNat ≤ 0x7E) ∧
        ((1 ≤ r.course ∧ r.course ≤ 8) ∧ findCourse k r.course ≠ none) ∧
        (r.kind = 1 ∨ r.kind = 2) ∧ (1 ≤ r.lines.length ∧ r.lines.length ≤ 6) ∧ (r.kind = 2 → r.lines.length = 1) ∧
        (∀ c ∈ r.lines, (1 ≤ c.station ∧ c.station ≤ 24) ∧ c.cook ≤ 7200 ∧
          (r.kind = 1 → (1 ≤ c.batch ∧ c.batch ≤ 240) ∧ c.rest ≤ 1800 ∧ (60 ≤ c.hold ∧ c.hold ≤ 7200))) ∧
        (r.kind = 2 → (1 ≤ r.runSize ∧ r.runSize ≤ 240) ∧ r.reorder ≤ 999 ∧ r.lookahead ≤ 3600 ∧ r.subst = 0) ∧
        (r.kind = 1 → r.subst = 0 ∨
          ∃ y, findItem k r.subst = some y ∧ y.number ≠ r.number ∧ y.course = r.course) ∧
        (∀ old, findItem k r.number = some old → old.course ≠ r.course →
          ∀ i ∈ k.items, i.number ≠ r.number → i.subst ≠ some r.number) := by
  have hname : (¬∃ b ∈ r.name, b.toNat < 0x20 ∨ 0x7E < b.toNat) ↔ ∀ b ∈ r.name, 0x20 ≤ b.toNat ∧ b.toNat ≤ 0x7E := by simp
  have hsubst : (¬∀ y, findItem k r.subst = some y → y.number = r.number ∨ y.course ≠ r.course) ↔
      ∃ y, findItem k r.subst = some y ∧ y.number ≠ r.number ∧ y.course = r.course := by simp
  have hsubof : (¬∃ old, findItem k r.number = some old ∧ old.course ≠ r.course ∧
        ∃ i ∈ k.items, i.number ≠ r.number ∧ i.subst = some r.number) ↔
      ∀ old, findItem k r.number = some old → old.course ≠ r.course →
        ∀ i ∈ k.items, i.number ≠ r.number → i.subst ≠ some r.number := by simp
  have hlines := fun q : r.kind = 1 ∨ r.kind = 2 => forall_mem_mapIdx_iff (p := fun rows : List CheckRow => ∀ row ∈ rows, ¬row.1)
    (componentRows_iff q) r.lines
  rw [(checksAre_item k r).pass_iff, List.forall_mem_append, List.forall_mem_append, List.forall_mem_flatten]
  simp only [forall_rows_cons, List.not_mem_nil, false_imp_iff, implies_true, and_true, hname, hsubof]
  by_cases hk : r.kind = 1 ∨ r.kind = 2
  · rw [hlines hk]
    grind
  · grind

/-- The owner of a definition request takes its steps (R19). -/
theorem perform_define {k : Kitchen} {r : Request} {checks : List FieldCheck}
    (h : (∃ d, r = .defitem d ∧ checks = itemChecks k d) ∨ (∃ n b p t, r = .defcrs n b p t ∧ checks = courseChecks n b t) ∨
      (∃ d, r = .defstn d ∧ checks = stationChecks k d) ∨ (∃ a c, r = .defterm a c ∧ checks = terminalChecks k a c)) :
    r.kind ≠ .restart ∧ ∃ take, ∀ reports gap, perform reports gap r (begun k) = define checks take (begun k) := by
  rcases h with ⟨d, rfl, rfl⟩ | ⟨n, b, p, t, rfl, rfl⟩ | ⟨d, rfl, rfl⟩ | ⟨a, c, rfl, rfl⟩
  · exact ⟨nofun, takeItem d, fun _ _ => rfl⟩
  · exact ⟨nofun, takeCourse ⟨n, b, p, t⟩, fun _ _ => rfl⟩
  · exact ⟨nofun, takeStation d, fun _ _ => rfl⟩
  · exact ⟨nofun, takeTerminal a c, fun _ _ => rfl⟩

/-- Settles O21: the steps of a definition request, and its checks row by row; the limits are what no row of the table refuses. -/
theorem definitionsJudged : Obligations.DefinitionsJudged := by
  refine ⟨fun s seq rest r checks h hr => ?_, ⟨course_passes_iff, terminal_passes_iff, station_passes_iff, item_passes_iff⟩,
    checksAre_course, checksAre_terminal, checksAre_station, checksAre_item⟩
  obtain ⟨hk, take, hp⟩ := perform_define hr
  refine ⟨fun hg => exec_turnedAway h hk ((hp _ _).trans (define_inUse hg)), ?_⟩
  rintro earlier code index later hg rfl hearlier
  exact exec_turnedAway h hk ((hp _ _).trans (define_bad hg (firstBad_at code index hearlier)))

theorem markOf_eq {α : Type} (o : Option α) [DecidableEq (Option α)] : markOf o = if o = none then .new else .replaced := by
  cases o <;> simp [markOf]

/-! ### DEFTERM (R28, R29) -/

theorem passFull_iff {k : Kitchen} {a kind : Nat} :
    passFull k a kind = true ↔ kind = 2 ∧ 2 ≤ (k.terminals.filter fun t => t.kind == .pass && t.address != a).length := by
  have hk : (termKindOf kind == .pass) = true ↔ kind = 2 := by
    unfold termKindOf
    split <;> simp_all
  unfold passFull
  rw [Bool.and_eq_true, hk, decide_eq_true_iff]

theorem takeTerminal_full {a kind : Nat} {w : Work} (h : passFull w.toKitchen a kind = true) : takeTerminal a kind w = (w, .full) :=
  if_pos h

/-- The terminal table after a DEFTERM that is taken. -/
def terminalPlaced (a kind : Nat) (k : Kitchen) : List Terminal :=
  if findTerminal k a = none then insertEntry Terminal.address (newTerminal a kind) k.terminals
  else updateEntry Terminal.address a (redefined kind) k.terminals

theorem takeTerminal_taken {a kind : Nat} {w : Work} (h : ¬passFull w.toKitchen a kind = true) :
    takeTerminal a kind w =
      ({ w with terminals := terminalPlaced a kind w.toKitchen },
        .ok (.defined a (if findTerminal w.toKitchen a = none then .new else .replaced))) := by
  unfold takeTerminal terminalPlaced
  rw [if_neg h]
  cases findTerminal w.toKitchen a <;> rfl

theorem redefined_same {kind : Nat} {t : Terminal} (h : t.kind = termKindOf kind) : redefined kind t = t := if_pos h

theorem redefined_other {kind : Nat} {t : Terminal} (h : t.kind ≠ termKindOf kind) :
    redefined kind t = { t with kind := termKindOf kind, railclrs := [], notes := [], shown := [] } := if_neg h

theorem terminalPlaced_new {a kind : Nat} {k : Kitchen} (h : findTerminal k a = none) :
    entryOf Terminal.address a (terminalPlaced a kind k) = some (newTerminal a kind) := by
  rw [terminalPlaced, if_pos h]
  exact entryOf_insertEntry_same (key := Terminal.address) (newTerminal a kind) k.terminals

theorem terminalPlaced_defined {a kind : Nat} {k : Kitchen} {t : Terminal} (h : findTerminal k a = some t) :
    entryOf Terminal.address a (terminalPlaced a kind k) = some (redefined kind t) := by
  rw [terminalPlaced, if_neg (by rw [h]; simp), entryOf_updateEntry_same _ _ _ fun x hx => (redefined_misses kind x).1.trans hx]
  exact congrArg (Option.map _) h

theorem terminalPlaced_other {a kind m : Nat} {k : Kitchen} (hm : m ≠ a) :
    entryOf Terminal.address m (terminalPlaced a kind k) = findTerminal k m := by
  unfold terminalPlaced
  split
  · exact entryOf_insertEntry_other (newTerminal a kind) hm _
  · exact entryOf_updateEntry_other hm _ _ fun x hx => (redefined_misses kind x).1.trans hx

/-- Settles O24: DEFTERM by the count of PASS terminals, and then by what stands at the address. -/
theorem terminalDefined : Obligations.TerminalDefined := by
  intro s seq rest a kind h hg hchecks full asked
  have done := fun {w : Work} {a' : Answer} (hp : takeTerminal a kind (begun s.kit) = (w, a')) =>
    exec_asks h nofun ((define_taken (w := begun s.kit) hg hchecks).trans hp)
  refine ⟨fun hf => done (takeTerminal_full (passFull_iff.2 hf)), fun hf => ⟨_, done (takeTerminal_taken ?_), ?_⟩⟩
  · rwa [passFull_iff]
  · refine ⟨fun hn => terminalPlaced_new hn, fun t ht hk => ?_, fun t ht hk => ?_, fun m hm => terminalPlaced_other hm, rfl, rfl⟩
    · exact (terminalPlaced_defined ht).trans (congrArg some (redefined_same hk))
    · exact (terminalPlaced_defined ht).trans (congrArg some (redefined_other hk))

/-! ### DEFITEM and DEFCRS (R20 to R22) -/

theorem wasExhausted_eq_false_iff {l : List Item} {n : Nat} :
    wasExhausted l n = false ↔ ∀ i ∈ l, i.number = n → i.exhausted = false := by
  simp [wasExhausted]

theorem itemOf_exhausted (r : ItemReq) : (itemOf r).exhausted = (r.stock == 0) := stockField_exhausted r.stock

/-- The reports of a DEFITEM taken: ITEM86 if the item is exhausted and was not (R35). -/
theorem takeItem_eq (r : ItemReq) (w : Work) :
    takeItem r w =
      ({ w with
          items := insertEntry Item.number (itemOf r) w.items
          out := w.out ++ if r.stock = 0 ∧ wasExhausted w.items r.number = false then [⟨w.clock, .item86 r.number .define⟩] else [] },
        .ok (.defined r.number (if findItem w.toKitchen r.number = none then .new else .replaced))) := by
  unfold takeItem
  rw [markOf_eq, itemOf_exhausted]
  by_cases hf : r.stock = 0 ∧ wasExhausted w.items r.number = false
  · simp [hf, raise]
  · have hb : ¬(r.stock == 0 && !wasExhausted w.items r.number) = true := by simpa using hf
    simp only [if_neg hf, if_neg hb, List.append_nil]

/-- The record of a PLATED item keeps no U, V and K (R21). -/
theorem itemOf_plated {r : ItemReq} (h : r.kind = 1) :
    (itemOf r).kind = .plated ∧ (itemOf r).lines = r.lines ∧ (itemOf r).runSize = 0 ∧ (itemOf r).reorder = 0 ∧
      (itemOf r).lookahead = 0 := by
  have hs : isStandingCode r.kind = false := by rw [h]; rfl
  simp [itemOf, withStock, hs]

/-- The record of a STANDING item keeps no B, R and H on its line (R21). -/
theorem itemOf_standing {r : ItemReq} (h : r.kind = 2) :
    (itemOf r).kind = .standing ∧ (itemOf r).runSize = r.runSize ∧ (itemOf r).reorder = r.reorder ∧
      (itemOf r).lookahead = r.lookahead ∧ (itemOf r).lines = r.lines.map fun c => { c with batch := 0, rest := 0, hold := 0 } := by
  have hs : isStandingCode r.kind = true := by rw [h]; rfl
  simp [itemOf, withStock, hs]

theorem takeCourse_eq (c : Course) (w : Work) :
    takeCourse c w =
      ({ w with courses := insertEntry Course.number c w.courses },
        .ok (.defined c.number (if findCourse w.toKitchen c.number = none then .new else .replaced))) := by
  unfold takeCourse
  rw [markOf_eq]

/-- Settles O22: the entry inserted is found at its number, and every other number finds what it found. -/
theorem itemAndCourseDefined : Obligations.ItemAndCourseDefined := by
  refine ⟨?_, fun s seq rest n base pc tol h hg hn hb ht => ?_⟩
  · intro s seq rest r h hg hchecks fresh
    have hfresh : fresh ↔ r.stock = 0 ∧ wasExhausted s.kit.items r.number = false := and_congr_right' wasExhausted_eq_false_iff.symm
    have hp := (define_taken (w := begun s.kit) hg hchecks).trans (takeItem_eq r (begun s.kit))
    refine ⟨_, exec_asks h nofun hp, ⟨itemOf r, entryOf_insertEntry_same (key := Item.number) (itemOf r) _, ?_⟩, fun m hm => ?_,
      fun hf => ?_, fun hf => ?_, rfl⟩
    · refine ⟨rfl, rfl, rfl, ?_, rfl, rfl, itemOf_plated, itemOf_standing⟩
      rw [itemOf_exhausted, beq_iff_eq]
    · exact entryOf_insertEntry_other (itemOf r) hm _
    · exact if_pos (hfresh.1 hf)
    · exact if_neg (mt hfresh.2 hf)
  · have hchecks := (course_passes_iff n base tol).2 ⟨hn, hb, ht⟩
    have hp := (define_taken (w := begun s.kit) hg hchecks).trans (takeCourse_eq ⟨n, base, pc, tol⟩ (begun s.kit))
    exact ⟨_, exec_asks h nofun hp, entryOf_insertEntry_same (key := Course.number) ⟨n, base, pc, tol⟩ _,
      fun m hm => entryOf_insertEntry_other (key := Course.number) ⟨n, base, pc, tol⟩ hm _, rfl, rfl⟩

end Sys2Proof.Machine
end

section
/-! PROOF. DEFSTN and the choice of a station's current terminal (R26, R132, R133): what of the stations the choice leaves as it was,
and what it gives the station itself. -/

namespace Sys2Proof.Machine

/-! ### The stations but for their staged marks -/

/-- The stations stay but for their staged marks. -/
def PostsStay (w w' : Work) : Prop := w'.stations.map Station.post = w.stations.map Station.post

theorem post_eq_iff {x z : Station} :
    x.post = z.post ↔
      x.number = z.number ∧ x.defn = z.defn ∧ x.mode = z.mode ∧ x.countdown = z.countdown ∧ x.current = z.current := by
  cases x
  cases z
  simp [Station.post]

theorem PostsStay.refl (w : Work) : PostsStay w w := rfl

theorem PostsStay.trans {a b c : Work} (h : PostsStay a b) (g : PostsStay b c) : PostsStay a c := Eq.trans g h

/-- The station found under a number stays but for its staged mark. -/
theorem PostsStay.find {w w' : Work} (h : PostsStay w w') (n : Nat) :
    (findStation w'.toKitchen n).map Station.post = (findStation w.toKitchen n).map Station.post := by
  unfold findStation
  rw [entryOf_map Station.number Station.number Station.post (fun _ => rfl), entryOf_map Station.number Station.number Station.post
    (fun _ => rfl), h]

theorem PostsStay.find_some {w w' : Work} (h : PostsStay w w') {n : Nat} {s : Station} (hs : findStation w.toKitchen n = some s) :
    ∃ x, findStation w'.toKitchen n = some x ∧ x.post = s.post := by
  have e := h.find n
  rw [hs] at e
  exact Option.map_eq_some_iff.1 e

section

variable {a w : Work}

theorem PostsStay.dropTicket (h : PostsStay a w) (n : Nat) : PostsStay a (dropTicket n w) :=
  h.trans (by simp [PostsStay, Machine.dropTicket, List.map_map, Function.comp_def])

theorem PostsStay.foldl {α : Type} (h : PostsStay a w) (f : Work → α → Work) (hf : ∀ w x, PostsStay w (f w x)) (l : List α) :
    PostsStay a (l.foldl f w) := by
  induction l generalizing w with
  | nil => exact h
  | cons x l ih => exact ih (h.trans (hf w x))

theorem PostsStay.freeGroup (h : PostsStay a w) (n : Nat) (final : GroupState) : PostsStay a (freeGroup n final w) := by
  unfold Machine.freeGroup
  split
  · exact h.trans ((PostsStay.refl _).foldl _ (fun w n => (PostsStay.refl w).dropTicket n) _)
  · exact h

theorem PostsStay.groupTicketFreed (h : PostsStay a w) (n : Nat) : PostsStay a (groupTicketFreed n w) := by
  unfold Machine.groupTicketFreed
  split
  · split
    · split
      · exact h.freeGroup n _
      · exact h
    · exact h.trans ((Settles.refl w).recompute n).stations
  · exact h

theorem PostsStay.freeVoiding (h : PostsStay a w) (st : Nat) : PostsStay a (freeVoiding st w) :=
  h.foldl _ (fun w (t : Ticket) => ((PostsStay.refl w).dropTicket t.number).groupTicketFreed t.group) _

theorem PostsStay.rebuildRail (h : PostsStay a w) (st t : Nat) : PostsStay a (rebuildRail st t w) :=
  h.foldl (fun w n => repost st t n w) (fun w _ => PostsStay.refl w) (((queueOf w.toKitchen st).filter onRail).map Ticket.number)

theorem PostsStay.arbiter (h : PostsStay a w) (st : Nat) : PostsStay a (arbiter st w) := h.trans ((Settles.refl w).arbiter st).stations

end

theorem findStation_setStation_same {n : Nat} {f : Station → Station} {w : Work} {s : Station} (hf : ∀ x, (f x).number = x.number)
    (h : findStation w.toKitchen n = some s) : findStation (setStation n f w).toKitchen n = some (f s) :=
  (entryOf_updateEntry_same n f w.stations fun x hx => (hf x).trans hx).trans (congrArg (Option.map f) h)

theorem findStation_setStation_other {m n : Nat} {f : Station → Station} {w : Work} (hf : ∀ x, (f x).number = x.number) (hm : m ≠ n) :
    findStation (setStation n f w).toKitchen m = findStation w.toKitchen m :=
  entryOf_updateEntry_other hm f w.stations fun x hx => (hf x).trans hx

/-! ### A slot freed, and the end of a drain (R89, R108) -/

theorem atCurrent_stations (st : Nat) (f : Terminal → Terminal) (w : Work) : (atCurrent st f w).stations = w.stations := by
  rw [atCurrent_eq]

theorem changeMode_posts (st : Nat) (m : Mode) (c : Nat) (cause : ModeCause) (t : Nat) (w : Work) :
    PostsStay (setStation st (fun s => { s with mode := m, countdown := c }) w) (changeMode st m c cause t w) :=
  PostsStay.arbiter (congrArg (List.map Station.post) (atCurrent_stations _ _ _)) st

/-- A drain ends, or nothing happens (R108). -/
theorem drainEnd_posts (st : Nat) (w : Work) :
    PostsStay w (drainEnd st w) ∨
      PostsStay (setStation st (fun s => { s with mode := .off, countdown := 0 }) w) (drainEnd st w) := by
  unfold drainEnd
  split
  · split
    · exact .inr (changeMode_posts _ _ _ _ _ _)
    · exact .inl (PostsStay.refl w)
  · exact .inl (PostsStay.refl w)

theorem drainEnd_idle {st : Nat} {w : Work} {s : Station} (hs : findStation w.toKitchen st = some s)
    (h : s.mode ≠ .draining ∨ slotsHeld w.toKitchen st ≠ 0) : drainEnd st w = w := by
  unfold drainEnd
  rw [hs]
  exact if_neg (by tauto)

theorem slotFreed_other {m st : Nat} (hm : m ≠ st) (w : Work) :
    (findStation (slotFreed st w).toKitchen m).map Station.post = (findStation w.toKitchen m).map Station.post := by
  have ha := ((PostsStay.refl w).arbiter st).find m
  rcases drainEnd_posts st (arbiter st w) with h | h
  · exact (h.find m).trans ha
  · exact (h.find m).trans ((congrArg _ (findStation_setStation_other (by intro x; rfl) hm)).trans ha)

/-- A slot freed leaves the station its definition and current terminal. -/
theorem slotFreed_own {st : Nat} {w : Work} {s : Station} (hs : findStation w.toKitchen st = some s) :
    ∃ x, findStation (slotFreed st w).toKitchen st = some x ∧ x.defn = s.defn ∧ x.current = s.current := by
  obtain ⟨y, hy, ey⟩ := ((PostsStay.refl w).arbiter st).find_some hs
  obtain ⟨-, hyd, -, -, hyc⟩ := post_eq_iff.1 ey
  rcases drainEnd_posts st (arbiter st w) with h | h
  · obtain ⟨x, hx, ex⟩ := h.find_some hy
    obtain ⟨-, hd, -, -, hc⟩ := post_eq_iff.1 ex
    exact ⟨x, hx, hd.trans hyd, hc.trans hyc⟩
  · obtain ⟨x, hx, ex⟩ := h.find_some (findStation_setStation_same (by intro x; rfl) hy)
    obtain ⟨-, hd, -, -, hc⟩ := post_eq_iff.1 ex
    exact ⟨x, hx, hd.trans hyd, hc.trans hyc⟩

/-- A slot freed leaves the station its mode and countdown, unless a drain ends. -/
theorem slotFreed_mode {st : Nat} {w : Work} {s x : Station} (hs : findStation w.toKitchen st = some s)
    (hx : findStation (slotFreed st w).toKitchen st = some x)
    (h : s.mode ≠ .draining ∨ slotsHeld (arbiter st w).toKitchen st ≠ 0) : x.mode = s.mode ∧ x.countdown = s.countdown := by
  obtain ⟨y, hy, ey⟩ := ((PostsStay.refl w).arbiter st).find_some hs
  obtain ⟨-, -, hm, hc, -⟩ := post_eq_iff.1 ey
  rw [slotFreed, drainEnd_idle hy (hm ▸ h), hy] at hx
  cases hx
  exact ⟨hm, hc⟩

/-! ### The arbiter outside SERVICE (R87) -/

section

variable {w : Work} (he : w.event ≠ .service)

include he

theorem firstEligible_idle (s : Station) : firstEligible w.toKitchen s = none := by
  have : stationAdmits w.toKitchen s = false := by simp [stationAdmits, he]
  exact List.find?_eq_none.2 fun t _ => by simp [eligible, this]

theorem grantSlots_idle (st n : Nat) : grantSlots st n w = w := by
  have h1 : grantOne st w = w := by
    unfold grantOne
    split
    · rw [firstEligible_idle he]
      split <;> rfl
    · rfl
  induction n with
  | zero => rfl
  | succ n ih => rw [grantSlots, h1, ih]

/-- Outside SERVICE an arbiter grants nothing, and stages nothing. -/
theorem arbiter_idle (st : Nat) :
    (arbiter st w).tickets = w.tickets ∧ ∀ x, findStation (arbiter st w).toKitchen st = some x → x.staged = none := by
  unfold arbiter
  split
  · rename_i s hs
    have hn : stagedTicket w.toKitchen s = none := by
      unfold stagedTicket
      rw [firstEligible_idle he]
      split <;> rfl
    rw [grantSlots_idle he, reviseStaged, hs]
    simp only [hn]
    split
    · rename_i h
      refine ⟨rfl, fun x hx => ?_⟩
      cases hs.symm.trans hx
      exact h.symm
    · rw [atCurrent_eq]
      refine ⟨rfl, fun x hx => ?_⟩
      cases (findStation_setStation_same (by intro x; rfl) hs).symm.trans hx
      rfl
  · rename_i hs
    exact ⟨rfl, fun x hx => absurd (hs.symm.trans hx) nofun⟩

theorem slotFreed_idle (st : Nat) : ∀ x, findStation (slotFreed st w).toKitchen st = some x → x.staged = none := by
  have hs := (Steady.refl w).arbiter st
  unfold slotFreed drainEnd
  split
  · split
    · refine (arbiter_idle ?_ st).2
      rw [atCurrent_eq]
      exact hs.event.symm ▸ he
    · exact (arbiter_idle he st).2
  · exact (arbiter_idle he st).2

end

/-! ### The choice of the current terminal (R132, R133) -/

/-- The station leaves its current terminal, where it has one, and its VOIDING tickets are freed (R132). -/
def leaveTerminal (st : Nat) (old : Option Nat) (w : Work) : Work :=
  match old with
  | some a => freeVoiding st (setTerminal a (loseStation st) w)
  | none => w

/-- The station's rail is rebuilt at its new terminal, where it has one (R133). -/
def joinTerminal (st : Nat) (new : Option Nat) (w : Work) : Work :=
  match new with
  | some a => rebuildRail st a w
  | none => w

/-- The station moved from one current terminal to another, before its arbiter acts. -/
def moveStation (st : Nat) (old new : Option Nat) (w : Work) : Work :=
  joinTerminal st new (leaveTerminal st old (setStation st (fun y => { y with current := new }) w))

theorem rechoose_stays {st : Nat} {w : Work} {s : Station} (hs : findStation w.toKitchen st = some s)
    (h : chooseCurrent w.toKitchen s = s.current) : rechoose st w = w := by
  unfold rechoose
  rw [hs]
  exact if_pos h

theorem rechoose_moves {st : Nat} {w : Work} {s : Station} (hs : findStation w.toKitchen st = some s)
    (h : chooseCurrent w.toKitchen s ≠ s.current) :
    rechoose st w = slotFreed st (moveStation st s.current (chooseCurrent w.toKitchen s) w) := by
  unfold rechoose
  rw [hs]
  exact if_neg h

theorem PostsStay.leaveTerminal {a w : Work} (h : PostsStay a w) (st : Nat) (old : Option Nat) :
    PostsStay a (leaveTerminal st old w) := by
  cases old with
  | none => exact h
  | some t => exact PostsStay.freeVoiding (w := setTerminal t (loseStation st) w) h st

theorem PostsStay.joinTerminal {a w : Work} (h : PostsStay a w) (st : Nat) (new : Option Nat) :
    PostsStay a (joinTerminal st new w) := by
  cases new with
  | none => exact h
  | some t => exact h.rebuildRail st t

theorem moveStation_posts (st : Nat) (old new : Option Nat) (w : Work) :
    PostsStay (setStation st (fun y => { y with current := new }) w) (moveStation st old new w) :=
  ((PostsStay.refl _).leaveTerminal st old).joinTerminal st new

theorem moveStation_own {st : Nat} {old new : Option Nat} {w : Work} {s : Station} (hs : findStation w.toKitchen st = some s) :
    ∃ y, findStation (moveStation st old new w).toKitchen st = some y ∧ y.defn = s.defn ∧ y.mode = s.mode ∧
      y.countdown = s.countdown ∧ y.current = new := by
  obtain ⟨y, hy, ey⟩ := (moveStation_posts st old new w).find_some (findStation_setStation_same (by intro x; rfl) hs)
  exact ⟨y, hy, (post_eq_iff.1 ey).2⟩

/-- The choice for one station leaves every other as it is, but for its staged mark. -/
theorem rechoose_other {m st : Nat} (hm : m ≠ st) (w : Work) :
    (findStation (rechoose st w).toKitchen m).map Station.post = (findStation w.toKitchen m).map Station.post := by
  cases hs : findStation w.toKitchen st with
  | none =>
    have : rechoose st w = w := by
      unfold rechoose
      rw [hs]
    rw [this]
  | some s =>
    by_cases hc : chooseCurrent w.toKitchen s = s.current
    · rw [rechoose_stays hs hc]
    · rw [rechoose_moves hs hc]
      refine (slotFreed_other hm _).trans (((moveStation_posts st _ _ w).find m).trans (congrArg _ ?_))
      exact findStation_setStation_other (by intro x; rfl) hm

/-- The choice gives the station the current terminal chosen, and leaves it its definition; its mode and countdown too, unless it
is DRAINING. -/
theorem rechoose_own {st : Nat} {w : Work} {s : Station} (hs : findStation w.toKitchen st = some s) :
    ∃ x, findStation (rechoose st w).toKitchen st = some x ∧ x.defn = s.defn ∧ x.current = chooseCurrent w.toKitchen s ∧
      (s.mode ≠ .draining → x.mode = s.mode ∧ x.countdown = s.countdown) := by
  by_cases hc : chooseCurrent w.toKitchen s = s.current
  · rw [rechoose_stays hs hc]
    exact ⟨s, hs, rfl, hc.symm, fun _ => ⟨rfl, rfl⟩⟩
  · rw [rechoose_moves hs hc]
    obtain ⟨y, hy, hd, hm, hcd, hcur⟩ := moveStation_own (old := s.current) (new := chooseCurrent w.toKitchen s) hs
    obtain ⟨x, hx, ed, ec⟩ := slotFreed_own hy
    refine ⟨x, hx, ed.trans hd, ec.trans hcur, fun h => ?_⟩
    obtain ⟨em, ecd⟩ := slotFreed_mode hy hx (.inl (hm ▸ h))
    exact ⟨em.trans hm, ecd.trans hcd⟩

/-! ### The choice outside SERVICE: staged marks, and a drain that does not end -/

theorem steady_moveStation (st : Nat) (old new : Option Nat) (w : Work) : Steady w (moveStation st old new w) := by
  have h1 := (Steady.refl w).setStation st (fun y => { y with current := new }) (by intro s; rfl)
  have h2 : Steady w (leaveTerminal st old (setStation st (fun y => { y with current := new }) w)) := by
    cases old with
    | none => exact h1
    | some a => exact (h1.setTerminal a _ (loseStation_health st)).freeVoiding st
  cases new with
  | none => exact h2
  | some a => exact h2.rebuildRail st a

theorem rechoose_staged {st : Nat} {w : Work} {s x : Station} (he : w.event ≠ .service) (hs : findStation w.toKitchen st = some s)
    (hx : findStation (rechoose st w).toKitchen st = some x) (h : s.staged = none) : x.staged = none := by
  by_cases hc : chooseCurrent w.toKitchen s = s.current
  · rw [rechoose_stays hs hc, hs] at hx
    cases hx
    exact h
  · rw [rechoose_moves hs hc] at hx
    exact slotFreed_idle ((steady_moveStation st _ _ w).event.symm ▸ he) st x hx

/-- The place of a ticket: what decides whether it holds a slot, and whose. -/
def Ticket.place (t : Ticket) : Nat × TicketState := (t.station, t.state)

theorem slotsHeld_congr {k k' : Kitchen} (h : k'.tickets.map Ticket.place = k.tickets.map Ticket.place) (st : Nat) :
    slotsHeld k' st = slotsHeld k st := by
  have count : ∀ k : Kitchen, slotsHeld k st = ((k.tickets.map Ticket.place).filter fun p =>
      p.1 == st && (p.2 == .sent || p.2 == .posted || p.2 == .cooking || p.2 == .voiding)).length := by
    intro k
    rw [List.filter_map, List.length_map]
    rfl
  rw [count, count, h]

theorem rebuildRail_places (st a : Nat) (w : Work) :
    (rebuildRail st a w).tickets.map Ticket.place = w.tickets.map Ticket.place := by
  have key : ∀ (ns : List Nat) (v : Work), (forEach (repost st a) ns v).tickets.map Ticket.place = v.tickets.map Ticket.place := by
    intro ns
    unfold forEach
    induction ns with
    | nil => exact fun v => rfl
    | cons n ns ih => exact fun v => (ih _).trans (updateEntry_map _ n _ v.tickets fun t _ _ => rfl)
  exact key _ w

theorem freeVoiding_none {st : Nat} {w : Work} (h : ∀ t ∈ w.tickets, t.station = st → t.state ≠ .voiding) : freeVoiding st w = w := by
  have : w.tickets.filter (fun t => t.station == st && t.state == .voiding) = [] := by simpa [List.filter_eq_nil_iff] using h
  rw [freeVoiding, this]
  rfl

theorem leaveTerminal_tickets {st : Nat} {w : Work} (h : ∀ t ∈ w.tickets, t.station = st → t.state ≠ .voiding) (old : Option Nat) :
    (leaveTerminal st old w).tickets = w.tickets := by
  cases old with
  | none => rfl
  | some a =>
    rw [leaveTerminal, freeVoiding_none (w := setTerminal a (loseStation st) w) h]
    rfl

theorem joinTerminal_places (st : Nat) (new : Option Nat) (w : Work) :
    (joinTerminal st new w).tickets.map Ticket.place = w.tickets.map Ticket.place := by
  cases new with
  | none => rfl
  | some a => exact rebuildRail_places st a w

/-- With no VOIDING ticket of the station its move frees no slot. -/
theorem moveStation_slots {st : Nat} {w : Work} (h : ∀ t ∈ w.tickets, t.station = st → t.state ≠ .voiding) (old new : Option Nat) :
    slotsHeld (moveStation st old new w).toKitchen st = slotsHeld w.toKitchen st := by
  refine slotsHeld_congr ?_ st
  rw [moveStation, joinTerminal_places, leaveTerminal_tickets (w := setStation st _ w) h]
  rfl

theorem slotsHeld_ne_zero {k : Kitchen} {st : Nat} {t : Ticket} (ht : t ∈ k.tickets) (hst : t.station = st)
    (h : t.state = .sent ∨ t.state = .posted ∨ t.state = .cooking) : slotsHeld k st ≠ 0 := by
  have hh : holdsSlot t = true := by rcases h with h | h | h <;> simp [holdsSlot, h]
  exact Nat.ne_of_gt (List.length_pos_of_mem (List.mem_filter.2 ⟨ht, by simp [hst, hh]⟩))

/-- Outside SERVICE a station that keeps a slot held keeps its mode and countdown through the choice, also DRAINING. -/
theorem rechoose_drain {st : Nat} {w : Work} {s x : Station} (he : w.event ≠ .service) (hs : findStation w.toKitchen st = some s)
    (hx : findStation (rechoose st w).toKitchen st = some x) (hheld : slotsHeld w.toKitchen st ≠ 0)
    (hvoid : ∀ t ∈ w.tickets, t.station = st → t.state ≠ .voiding) : x.mode = s.mode ∧ x.countdown = s.countdown := by
  by_cases hc : chooseCurrent w.toKitchen s = s.current
  · rw [rechoose_stays hs hc, hs] at hx
    cases hx
    exact ⟨rfl, rfl⟩
  · rw [rechoose_moves hs hc] at hx
    obtain ⟨y, hy, -, hm, hcd, -⟩ := moveStation_own (old := s.current) (new := chooseCurrent w.toKitchen s) hs
    have hmoved := (steady_moveStation st s.current (chooseCurrent w.toKitchen s) w).event.symm ▸ he
    have harb : slotsHeld (arbiter st (moveStation st s.current (chooseCurrent w.toKitchen s) w)).toKitchen st ≠ 0 := by
      rw [slotsHeld_congr (congrArg _ (arbiter_idle hmoved st).1), moveStation_slots hvoid]
      exact hheld
    obtain ⟨em, ecd⟩ := slotFreed_mode hy hx (.inr harb)
    exact ⟨em.trans hm, ecd.trans hcd⟩

/-! ### DEFSTN (R26) -/

/-- The record of a station not defined before: OFF, with no current terminal chosen yet (R23). -/
def offStation (r : StationReq) : Station := ⟨r.number, stationDefOf r, .off, 0, none, none⟩

def stationEntered (r : StationReq) (w : Work) : Work := { w with stations := insertEntry Station.number (offStation r) w.stations }

/-- A defined station with its new fields. -/
def stationChanged (r : StationReq) (w : Work) : Work := setStation r.number (fun y => { y with defn := stationDefOf r }) w

section

variable {r : StationReq} {w : Work}

theorem takeStation_new (h : findStation w.toKitchen r.number = none) :
    takeStation r w = (rechoose r.number (stationEntered r w), .ok (.defined r.number .new)) := by
  unfold takeStation
  rw [h]
  rfl

theorem takeStation_same {old : Station} (h : findStation w.toKitchen r.number = some old)
    (hb : old.defn.primary = r.primary ∧ old.defn.fallback = present r.fallback) :
    takeStation r w = (stationChanged r w, .ok (.defined r.number .replaced)) := by
  unfold takeStation
  rw [h]
  exact congrArg (·, _) (if_pos hb)

theorem takeStation_rebound {old : Station} (h : findStation w.toKitchen r.number = some old)
    (hb : ¬(old.defn.primary = r.primary ∧ old.defn.fallback = present r.fallback)) :
    takeStation r w = (rechoose r.number (stationChanged r w), .ok (.defined r.number .replaced)) := by
  unfold takeStation
  rw [h]
  exact congrArg (·, _) (if_neg hb)

/-- The choice by the fields of a DEFSTN, in which a fallback of 0 is absent (R132, R176). -/
theorem chooseCurrent_stationDefOf {k : Kitchen} {s : Station} (h : s.defn = stationDefOf r) :
    chooseCurrent k s =
      if terminalLive k r.primary then some r.primary
      else if r.fallback ≠ 0 ∧ terminalLive k r.fallback then some r.fallback else none := by
  unfold chooseCurrent
  rw [h]
  by_cases hf : r.fallback = 0 <;> simp [stationDefOf, present, hf]

end

/-- Settles O23: a new station, a defined one with its binding as it was, and one bound anew; the choice says the rest. -/
theorem stationDefined : Obligations.StationDefined := by
  intro s seq rest r h hg hchecks chosen placed changed
  have he : s.kit.event ≠ .service := by
    rw [gate_setup (k := .defstn) (by decide) h.gate]
    decide
  have done := fun {w : Work} {a : Answer} (hp : takeStation r (begun s.kit) = (w, a)) =>
    exec_asks h nofun ((define_taken (w := begun s.kit) hg hchecks).trans hp)
  cases hold : findStation s.kit r.number with
  | none =>
    have hplaced : findStation placed.toKitchen r.number = some (offStation r) :=
      entryOf_insertEntry_same (key := Station.number) (offStation r) _
    obtain ⟨x, hx, hd, hc, hm⟩ := rechoose_own hplaced
    obtain ⟨hoff, hzero⟩ := hm nofun
    have hs := (Steady.refl placed).rechoose r.number
    refine ⟨_, done (takeStation_new hold), ⟨x, hx, hd, nofun, nofun, fun _ => ⟨rfl, hoff, hzero, ?_⟩⟩, rfl, fun m hm => ?_,
      hs.items, hs.courses, hs.terminals, hs.event, hs.clock⟩
    · exact hc.trans (chooseCurrent_stationDefOf rfl)
    · exact (rechoose_other hm placed).trans (congrArg _ (entryOf_insertEntry_other (offStation r) hm _))
  | some old =>
    have hchanged : findStation changed.toKitchen r.number = some { old with defn := stationDefOf r } :=
      findStation_setStation_same (w := begun s.kit) (by intro x; rfl) hold
    have hothers : ∀ m, m ≠ r.number → findStation changed.toKitchen m = findStation s.kit m :=
      fun m hm => findStation_setStation_other (w := begun s.kit) (by intro x; rfl) hm
    by_cases hb : old.defn.primary = r.primary ∧ old.defn.fallback = present r.fallback
    · refine ⟨_, done (takeStation_same hold hb), ⟨_, hchanged, rfl, ?_, ?_, nofun⟩, rfl, fun m hm => congrArg _ (hothers m hm),
        rfl, rfl, rfl, rfl, rfl⟩
      · rintro _ ⟨⟩ - -
        exact ⟨rfl, rfl⟩
      · rintro _ ⟨⟩ hne
        exact absurd hb (by tauto)
    · obtain ⟨x, hx, hd, hc, hm⟩ := rechoose_own hchanged
      have hs := (Steady.refl changed).rechoose r.number
      refine ⟨_, done (takeStation_rebound hold hb), ⟨x, hx, hd, ?_, ?_, nofun⟩, rfl,
        fun m hm => (rechoose_other hm changed).trans (congrArg _ (hothers m hm)), hs.items, hs.courses, hs.terminals, hs.event,
        hs.clock⟩
      · rintro _ ⟨⟩ hp hf
        exact absurd ⟨hp, hf⟩ hb
      · rintro _ ⟨⟩ -
        refine ⟨rfl, hc.trans (chooseCurrent_stationDefOf rfl), fun hst => rechoose_staged he hchanged hx hst, ?_⟩
        rintro (hmode | ⟨⟨t, ht, hst, hheld⟩, hvoid⟩)
        · exact hm hmode
        · obtain ⟨hmode, hcount⟩ := rechoose_drain he hchanged hx (slotsHeld_ne_zero ht hst hheld) hvoid
          exact ⟨hmode, hcount⟩

end Sys2Proof.Machine
end

section
/-! PROOF. The requests that name a record (R45, R104): what each refuses before its owner acts, and the queries, which answer with the
record as it stands (R36, R61, R102, R117, R141, R170). -/

namespace Sys2Proof.Machine

/-! ### A group or a station named by its number (R45, R104) -/

theorem keepsProjection_iff {g : Group} : keepsProjection g = true ↔ g.state = .planned ∨ g.state = .firing := by
  simp [keepsProjection]

section

variable {n : Nat} {w : Work}

theorem judgeGroup_unnumbered (h : n < 1 ∨ 512 < n) (act : Group → Work × Answer) :
    judgeGroup n w act = (w, .badField .number 0) := if_pos (outside_eq_true h)

theorem judgeGroup_unused (h : 1 ≤ n ∧ n ≤ 512) (hg : findGroup w.toKitchen n = none) (act : Group → Work × Answer) :
    judgeGroup n w act = (w, .noSuch) := by
  unfold judgeGroup
  rw [outside_eq_false h.1 h.2, hg]
  rfl

theorem judgeGroup_found (h : 1 ≤ n ∧ n ≤ 512) {g : Group} (hg : findGroup w.toKitchen n = some g) (act : Group → Work × Answer) :
    judgeGroup n w act = act g := by
  unfold judgeGroup
  rw [outside_eq_false h.1 h.2, hg]
  rfl

theorem judgeActive_found (h : 1 ≤ n ∧ n ≤ 512) {g : Group} (hg : findGroup w.toKitchen n = some g)
    (hs : g.state = .planned ∨ g.state = .firing) (act : Group → Work × Answer) : judgeActive n w act = act g :=
  (judgeGroup_found h hg _).trans (if_pos (keepsProjection_iff.2 hs))

theorem judgeStation_unnumbered (h : n < 1 ∨ 24 < n) (act : Station → Work × Answer) :
    judgeStation n w act = (w, .badField .number 0) := if_pos (outside_eq_true h)

theorem judgeStation_undefined (h : 1 ≤ n ∧ n ≤ 24) (hx : findStation w.toKitchen n = none) (act : Station → Work × Answer) :
    judgeStation n w act = (w, .noSuch) := by
  unfold judgeStation
  rw [outside_eq_false h.1 h.2, hx]
  rfl

theorem judgeStation_found (h : 1 ≤ n ∧ n ≤ 24) {x : Station} (hx : findStation w.toKitchen n = some x)
    (act : Station → Work × Answer) : judgeStation n w act = act x := by
  unfold judgeStation
  rw [outside_eq_false h.1 h.2, hx]
  rfl

end

/-- A state of the group in which the request is not admitted (R45, R52, R55, R158). -/
def GroupBars (k : ReqKind) (g : Group) : Prop :=
  (k ∈ [ReqKind.amend, .retime, .hold] ∧ g.state ≠ .planned ∧ g.state ≠ .firing) ∨
    (k = .cancel ∧ g.state ≠ .planned ∧ g.state ≠ .firing ∧ g.state ≠ .ready) ∨
    (k = .pickup ∧ g.state ≠ .ready) ∨ (k = .refire ∧ g.state ≠ .firing ∧ g.state ≠ .ready)

/-- A mode of the station in which the request is not admitted (R105, R107, R109, R111, R113). -/
def StationBars (k : ReqKind) (x : Station) : Prop :=
  (k = .stnon ∧ x.mode ≠ .off) ∨ (k = .stnoff ∧ x.mode ≠ .warming ∧ x.mode ≠ .ready ∧ x.mode ≠ .paused) ∨
    (k = .pause ∧ x.mode ≠ .ready) ∨ (k = .resume ∧ x.mode ≠ .paused) ∨
    (k = .halt ∧ (x.mode = .off ∨ x.mode = .halted)) ∨ (k = .clear ∧ x.mode ≠ .halted)

/-- Every request that names a group is judged by the number, the record and its state before its owner acts. -/
theorem perform_judgesGroup {n item sf count target first : Nat} {r : Request}
    (hr : r ∈ [Request.amend n item sf count, .retime n target, .hold n, .cancel n, .pickup n, .refire n item, .qgroup n first])
    (w : Work) :
    r.kind ≠ .restart ∧ ∃ act : Group → Work × Answer, (∀ reports gap, perform reports gap r w = judgeGroup n w act) ∧
      ∀ g, GroupBars r.kind g → act g = (w, .badState) := by
  simp only [List.mem_cons, List.not_mem_nil, or_false] at hr
  rcases hr with rfl | rfl | rfl | rfl | rfl | rfl | rfl <;> refine ⟨nofun, _, fun _ _ => rfl, fun g hb => ?_⟩
  · exact if_neg (by simpa [GroupBars, Request.kind, keepsProjection] using hb)
  · exact if_neg (by simpa [GroupBars, Request.kind, keepsProjection] using hb)
  · exact if_neg (by simpa [GroupBars, Request.kind, keepsProjection] using hb)
  · exact if_neg (by simpa [GroupBars, Request.kind, keepsProjection, and_assoc] using hb)
  · exact if_neg (by simpa [GroupBars, Request.kind] using hb)
  · exact if_pos (by simpa [GroupBars, Request.kind] using hb)
  · simp [GroupBars, Request.kind] at hb

/-- Every request that names a station is judged by the number, the record and its mode before its owner acts. -/
theorem perform_judgesStation {n : Nat} {r : Request}
    (hr : r ∈ [Request.stnon n, .stnoff n, .pause n, .resume n, .halt n, .clear n, .qstn n]) (w : Work) :
    r.kind ≠ .restart ∧ ∃ act : Station → Work × Answer, (∀ reports gap, perform reports gap r w = judgeStation n w act) ∧
      ∀ x, StationBars r.kind x → act x = (w, .badState) := by
  simp only [List.mem_cons, List.not_mem_nil, or_false] at hr
  rcases hr with rfl | rfl | rfl | rfl | rfl | rfl | rfl <;> refine ⟨nofun, _, fun _ _ => rfl, fun x hb => ?_⟩
  · exact if_neg (by simpa [StationBars, Request.kind] using hb)
  · exact if_neg (by simpa [StationBars, Request.kind] using hb)
  · exact if_neg (by simpa [StationBars, Request.kind] using hb)
  · exact if_neg (by simpa [StationBars, Request.kind] using hb)
  · exact if_pos (by simpa [StationBars, Request.kind] using hb)
  · exact if_neg (by simpa [StationBars, Request.kind] using hb)
  · simp [StationBars, Request.kind] at hb

/-- Settles O27: a request that names a group or a station is judged by number, record, and state or mode, in that order. -/
theorem recordRequestsJudged : Obligations.RecordRequestsJudged := by
  refine ⟨fun s seq rest r n item sf count target first h hr => ?_, fun s seq rest r n h hr => ?_⟩
  · obtain ⟨hk, act, hp, hbars⟩ := perform_judgesGroup hr (begun s.kit)
    have away := fun {a : Answer} (e : judgeGroup n (begun s.kit) act = (begun s.kit, a)) => exec_turnedAway h hk ((hp _ _).trans e)
    exact ⟨fun hn => away (judgeGroup_unnumbered hn act), fun hn hg => away (judgeGroup_unused hn hg act),
      fun g hn hg hb => away ((judgeGroup_found hn hg act).trans (hbars g hb))⟩
  · obtain ⟨hk, act, hp, hbars⟩ := perform_judgesStation hr (begun s.kit)
    have away := fun {a : Answer} (e : judgeStation n (begun s.kit) act = (begun s.kit, a)) =>
      exec_turnedAway h hk ((hp _ _).trans e)
    exact ⟨fun hn => away (judgeStation_unnumbered hn act), fun hn hx => away (judgeStation_undefined hn hx act),
      fun x hn hx hb => away ((judgeStation_found hn hx act).trans (hbars x hb))⟩

/-! ### The queries of a group and a station (R61, R102, R117) -/

/-- The lines fitted are a first part of the lines: whole, within the room, and the next would not fit (R180). -/
theorem fitLines_spec (room : Nat) (vs : List LineView) :
    ∃ m, fitLines room vs = vs.take m ∧ ((vs.take m).map lineSize).sum ≤ room ∧
      (m < vs.length → room < ((vs.take (m + 1)).map lineSize).sum) := by
  induction vs generalizing room with
  | nil => exact ⟨0, rfl, Nat.zero_le _, fun h => absurd h (Nat.not_lt_zero _)⟩
  | cons v vs ih =>
    by_cases hv : lineSize v ≤ room
    · obtain ⟨m, hm, hle, hlt⟩ := ih (room - lineSize v)
      refine ⟨m + 1, ?_, ?_, fun h => ?_⟩
      · rw [fitLines, if_pos hv, hm, List.take_succ_cons]
      · rw [List.take_succ_cons, List.map_cons, List.sum_cons]
        omega
      · have := hlt (Nat.lt_of_succ_lt_succ h)
        rw [List.take_succ_cons, List.map_cons, List.sum_cons]
        omega
    · refine ⟨0, by rw [fitLines, if_neg hv]; rfl, Nat.zero_le _, fun _ => ?_⟩
      simpa using hv

/-- The portions of a line's component in the group's tickets of the states given. -/
def portionsIn (k : Kitchen) (g : Nat) (l : Line) (c : Nat) (states : List TicketState) : Nat :=
  portionsOf k fun t => ofComponent g l.item l.subFrom c t && states.contains t.state

theorem undispatched_contains (t : Ticket) : undispatched t = [TicketState.queued, .due].contains t.state := by
  unfold undispatched
  cases t.state <;> rfl

theorem onRail_contains (t : Ticket) : onRail t = [TicketState.sent, .posted, .cooking].contains t.state := by
  unfold onRail
  cases t.state <;> rfl

theorem dispatched_contains (t : Ticket) : dispatched t = [TicketState.sent, .posted, .cooking, .done].contains t.state := by
  unfold dispatched onRail
  cases t.state <;> rfl

theorem state_contains (s : TicketState) (t : Ticket) : (t.state == s) = [s].contains t.state := by
  rw [List.contains_cons, List.contains_nil, Bool.or_false]

theorem compPortions_eq (k : Kitchen) (g : Nat) (l : Line) (c : Nat) :
    compPortions k g l c =
      ⟨portionsIn k g l c [.queued, .due], portionsIn k g l c [.sent, .posted, .cooking], portionsIn k g l c [.done],
        portionsIn k g l c [.voiding]⟩ := by
  simp only [compPortions, portionsIn, undispatched_contains, onRail_contains, state_contains]

theorem itemKind_some {k : Kitchen} {n : Nat} {i : Item} (h : findItem k n = some i) : itemKind k n = some i.kind := by
  rw [itemKind, h]
  rfl

theorem componentsOf_some {k : Kitchen} {n : Nat} {i : Item} (h : findItem k n = some i) : componentsOf k n = i.lines := by
  rw [componentsOf, h]
  rfl

theorem lineView_eq (k : Kitchen) (g : Nat) (l : Line) :
    lineView k g l =
      ⟨l, match findItem k l.item with
        | some i => if i.kind = .plated then (List.range i.lines.length).map (compPortions k g l) else []
        | none => []⟩ := by
  unfold lineView
  cases h : findItem k l.item with
  | none => simp [itemKind, h]
  | some i => simp [itemKind_some h, componentsOf_some h]

theorem stationsWhere_headD (k : Kitchen) (p : Station → Bool) :
    (stationsWhere k p).headD 0 = ((k.stations.find? p).map Station.number).getD 0 := by
  unfold stationsWhere
  rw [← List.head?_filter, List.headD_eq_head?_getD, List.head?_map]

section

variable {n : Nat} {w : Work}

theorem queryItem_undefined (hn : n ≠ 0) (h : findItem w.toKitchen n = none) : queryItem n w = (w, .noSuch) := by
  rw [queryItem, if_neg hn, h]

theorem queryItem_defined (hn : n ≠ 0) {i : Item} (h : findItem w.toKitchen n = some i) :
    queryItem n w = (w, .ok (.item i (inRuns w.toKitchen n))) := by
  rw [queryItem, if_neg hn, h]

theorem queryTerminal_unnumbered (h : n < 1 ∨ 30 < n) : queryTerminal n w = (w, .badField .number 0) := if_pos (outside_eq_true h)

theorem queryTerminal_undefined (hn : 1 ≤ n ∧ n ≤ 30) (h : findTerminal w.toKitchen n = none) :
    queryTerminal n w = (w, .noSuch) := by
  rw [queryTerminal, outside_eq_false hn.1 hn.2, h]
  rfl

theorem queryTerminal_defined (hn : 1 ≤ n ∧ n ≤ 30) {t : Terminal} (h : findTerminal w.toKitchen n = some t) :
    queryTerminal n w =
      (w, .ok (.terminal
        { terminal := t
          primaryOf := ((w.stations.find? fun x => x.defn.primary == n).map Station.number).getD 0
          fallbackOf := stationsWhere w.toKitchen fun x => x.defn.fallback == some n
          currentFor := stationsWhere w.toKitchen fun x => x.current == some n })) := by
  rw [queryTerminal, outside_eq_false hn.1 hn.2, h, ← stationsWhere_headD]
  rfl

end

/-! ### The bytes of the queries' replies (R176 to R180) -/

theorem be4_eq (v : Nat) :
    be4 v = [BitVec.ofNat 8 (v / 16777216), BitVec.ofNat 8 (v / 65536), BitVec.ofNat 8 (v / 256), BitVec.ofNat 8 v] := by
  have h1 : v / 65536 / 256 = v / 16777216 := Nat.div_div_eq_div_mul v 65536 256
  rw [be4, be2, be2, h1]
  rfl

theorem flatMap_be1 (l : List Nat) : l.flatMap be1 = l.map (BitVec.ofNat 8) := by
  induction l with
  | nil => rfl
  | cons x l ih => rw [List.flatMap_cons, ih]; rfl

theorem groupState_byte (s : GroupState) :
    BitVec.ofNat 8 s.code =
      match s with | .planned => 1 | .firing => 2 | .ready => 3 | .served => 4 | .cancelled => 5 | .abandoned => 6 := by
  cases s <;> rfl

theorem mode_byte (m : Mode) :
    BitVec.ofNat 8 m.code =
      match m with | .off => 1 | .warming => 2 | .ready => 3 | .paused => 4 | .draining => 5 | .halted => 6 := by
  cases m <;> rfl

theorem ticketKind_byte (k : TicketKind) :
    BitVec.ofNat 8 k.code = match k with | .normal => 1 | .rush => 2 | .standing => 3 := by cases k <;> rfl

theorem ticketState_byte (s : TicketState) :
    BitVec.ofNat 8 s.code =
      match s with | .queued => 1 | .due => 2 | .sent => 3 | .posted => 4 | .cooking => 5 | .done => 6 | .voiding => 7 := by
  cases s <;> rfl

theorem itemKind_byte (k : ItemKind) : BitVec.ofNat 8 k.code = match k with | .plated => 1 | .standing => 2 := by cases k <;> rfl

theorem termKind_byte (k : TermKind) : BitVec.ofNat 8 k.code = match k with | .station => 1 | .pass => 2 := by cases k <;> rfl

theorem termState_byte (s : TermState) :
    BitVec.ofNat 8 s.code = match s with | .unknown => 1 | .live => 2 | .lost => 3 := by cases s <;> rfl

/-- The state byte of a terminal that may be absent, sent as 0. -/
theorem absentState_byte (s : Option TermState) :
    BitVec.ofNat 8 ((s.map TermState.code).getD 0) =
      (s.map fun t => (match t with | .unknown => 1 | .live => 2 | .lost => 3 : Byte)).getD 0 := by
  cases s with
  | none => rfl
  | some t => exact termState_byte t

theorem mark_byte (b : Bool) : BitVec.ofNat 8 (bit b 0) = if b then 1 else 0 := by cases b <;> rfl

theorem stock_bytes (st : Stock) :
    be2 (stockCode st) = match st with | .unlimited => be2 65535 | .limited v => be2 v := by cases st <;> rfl

theorem count1_eq (n : Nat) : count1 n = [if n < 256 then BitVec.ofNat 8 n else Config.longCount n] := by
  unfold count1
  split <;> rfl

/-- A line of a QGROUP reply (R180). -/
theorem lineBytes_eq (v : LineView) :
    lineBytes v =
      BitVec.ofNat 8 v.line.item :: BitVec.ofNat 8 (v.line.subFrom.getD 0) :: (be2 v.line.count ++ be2 v.line.shortfall ++
        (if v.line.drawn then 1 else 0) :: BitVec.ofNat 8 v.comps.length ::
          v.comps.flatMap fun c => be2 c.waiting ++ be2 c.dispatched ++ be2 c.done ++ be2 c.voiding) := by
  rw [← mark_byte]
  rfl

/-- A ticket of a QSTN reply (R180). -/
theorem ticketBytes_eq (staged : Option Nat) (t : Ticket) :
    ticketBytes staged t =
      be2 t.number ++ be2 t.group ++ [BitVec.ofNat 8 t.item, BitVec.ofNat 8 t.comp, BitVec.ofNat 8 t.portions,
        match t.kind with | .normal => 1 | .rush => 2 | .standing => 3,
        match t.state with
        | .queued => 1 | .due => 2 | .sent => 3 | .posted => 4 | .cooking => 5 | .done => 6 | .voiding => 7] ++
        be2 t.release ++ be4 (BitVec.ofInt 32 t.due).toNat ++ be2 (t.startAt.getD 0) ++
        [BitVec.ofNat 8 ((if t.overdue then 1 else 0) + (if t.reprint then 2 else 0) + if staged = some t.number then 4 else 0)] := by
  rw [← ticketKind_byte, ← ticketState_byte]
  simp only [ticketBytes, marksByte, bit, beq_iff_eq]
  rfl

theorem part_bytes (v : PartView) :
    let byte := BitVec.ofNat 8
    (OkBody.part v).bytes =
      [match v.event with | .setup => 1 | .service => 2 | .closed => 3, byte (v.clock / 256), byte v.clock, byte (v.groups / 256),
        byte v.groups, byte (v.freeTickets / 256), byte v.freeTickets, byte v.reports, if v.gap then 1 else 0, 1] := by
  obtain ⟨event, clock, groups, free, reports, gap⟩ := v
  cases event <;> cases gap <;> rfl

/-- A QSTAT with a body is of the wrong length (R167, R170). -/
theorem exec_qstat_length {s : State} {f : Frame} {rest : List Frame} (h : Faces s f rest) (hk : f.kind = ReqKind.qstat.code)
    (hb : f.body ≠ []) : exec .qstat s = .next (turnedAway s .qstat f.seq rest (.badField .length 0)) := by
  have ha : answerFrame s.host.reports.length s.host.gap f (begun s.kit) = (begun s.kit, .badField .length 0) := by
    simp [answerFrame, parseRequest, hk, kindOf_code, bodyLength, hb]
  refine (exec_faces (k := .qstat) h hk).trans ?_
  rw [actOn_answered (s := takenFrom s rest) ha, hk]
  simp [isRestart, takenFrom, turnedAway]

/-- Settles O42: each query is judged by its number and its record and leaves the kitchen as it is; the fitted lines of QGROUP are a
first part of them, and the bytes are those of the tables, field by field. -/
theorem queriesAnswered : Obligations.QueriesAnswered := by
  refine ⟨fun s seq rest n => ⟨?group, ?station, ?item, ?terminal⟩, fun s seq rest h => exec_turnedAway h nofun rfl, part_bytes,
    ⟨?groupBytes, ?stationBytes, ?itemBytes, ?terminalBytes⟩, fun e => by cases e <;> rfl,
    fun s f rest h hk hb => exec_qstat_length h hk hb⟩
  case group =>
    intro g first h h1 h2 hg portions comps size
    have hv : ∀ l, lineView s.kit n l = ⟨l, comps l⟩ := fun l => by
      rw [lineView_eq, funext (compPortions_eq s.kit n l)]
      rfl
    obtain ⟨m, hm, hle, hlt⟩ := fitLines_spec lineRoom ((g.lines.drop first).map (lineView s.kit n))
    have hsize : ∀ m, ((((g.lines.drop first).map (lineView s.kit n)).take m).map lineSize).sum = size m := fun m => by
      rw [← List.map_take, List.map_map]
      simp only [Function.comp_def, hv, lineSize]
      rfl
    rw [hsize] at hle hlt
    rw [List.length_map] at hlt
    refine ⟨m, exec_turnedAway h nofun ((judgeGroup_found (w := begun s.kit) ⟨h1, h2⟩ hg _).trans ?_), hle, hlt⟩
    rw [begun_toKitchen, hm, ← List.map_take, List.map_congr_left fun l _ => hv l]
    simp [ticketsOf]
  case station =>
    intro x h h1 h2 hx count
    obtain rfl : x.number = n := entryOf_key hx
    refine exec_turnedAway h nofun ((judgeStation_found (w := begun s.kit) ⟨h1, h2⟩ hx _).trans ?_)
    cases hc : x.current <;> simp only [stationView, hc] <;> rfl
  case item =>
    intro h
    refine ⟨?_, fun hn hi => exec_turnedAway h nofun (queryItem_undefined hn hi),
      fun i hn hi => exec_turnedAway h nofun (queryItem_defined hn hi)⟩
    rintro rfl
    exact exec_turnedAway h nofun rfl
  case terminal =>
    exact fun h => ⟨fun hn => exec_turnedAway h nofun (queryTerminal_unnumbered hn),
      fun hn ht => exec_turnedAway h nofun (queryTerminal_undefined hn ht),
      fun t hn ht => exec_turnedAway h nofun (queryTerminal_defined hn ht)⟩
  case groupBytes =>
    intro v g
    simp only [OkBody.bytes, groupBytes, signed4, be4_eq, funext lineBytes_eq, be1, groupState_byte]
    rfl
  case stationBytes =>
    intro v x d n
    show stationBytes v = _
    unfold stationBytes
    simp only [funext (ticketBytes_eq _), flatMap_be1, be4_eq, be1, be2, absent0, mode_byte, absentState_byte, List.append_assoc,
      List.cons_append, List.nil_append]
    rfl
  case itemBytes =>
    intro i runs
    simp only [OkBody.bytes, itemBytes, stock_bytes, mark1, be1, itemKind_byte, mark_byte, List.append_assoc, List.cons_append,
      List.nil_append]
    rfl
  case terminalBytes =>
    intro v t
    simp only [OkBody.bytes, terminalBytes, count1_eq, mark1, be1, termKind_byte, termState_byte, mark_byte]
    rfl

end Sys2Proof.Machine
end

section
/-! PROOF. Tickets freed and tickets created (R46, R81 to R84, R90, R101, R127). -/

namespace Sys2Proof.Machine

/-! ### One ticket freed (R90, R101, R127) -/

/-- The NEXT marks after a ticket is freed: one more for each station that had it staged with the terminal for its current one. -/
theorem mem_renewNext (ss : List Station) (n : Nat) (t : Terminal) (m : Nat) :
    m ∈ (renewNext ss n t).nextMarks ↔
      m ∈ t.nextMarks ∨ ∃ x ∈ ss, x.number = m ∧ x.staged = some n ∧ x.current = some t.address := by
  have marks : ∀ (l : List Station) (u : Terminal),
      m ∈ (l.foldl (fun t s => markNext s.number t) u).nextMarks ↔ m ∈ u.nextMarks ∨ ∃ x ∈ l, x.number = m := by
    intro l
    induction l with
    | nil => simp
    | cons x l ih =>
      intro u
      rw [List.foldl_cons, ih, markNext, mem_addNumber, List.exists_mem_cons_iff, ← or_assoc, or_comm (a := m = x.number),
        eq_comm (a := m)]
  rw [renewNext, marks]
  simp only [List.mem_filter, Bool.and_eq_true, beq_iff_eq]
  exact or_congr_right ⟨fun ⟨x, ⟨hx, hs, hc⟩, hm⟩ => ⟨x, hx, hm, hs, hc⟩, fun ⟨x, hx, hm, hs, hc⟩ => ⟨x, ⟨hx, hs, hc⟩, hm⟩⟩

theorem carries_iff {n : Nat} {f : BusFrame} :
    carries n f = true ↔ (∃ st name p kind re due, f = .post st n name p kind re due) ∨ ∃ st, f = .void st n := by
  cases f <;> simp [carries]

theorem dropTicket_turn {n : Nat} {w : Work} {u : Turn} (h : w.turn = some u) :
    (dropTicket n w).turn = some (if carries n u.frame then { u with stale := true } else u) := by
  simp [dropTicket, h]

/-! ### Tickets created (R82, R84) -/

/-- What of a new ticket its description does not say: DUE in SERVICE with its release reached, else QUEUED, no mark and no time. -/
def Ticket.isNew (event : EventState) (clock : Nat) (t : Ticket) : Prop :=
  t.state = (if event = .service ∧ t.release ≤ clock then .due else .queued) ∧ t.overdue = false ∧ t.reprint = false ∧
    t.postedAt = none ∧ t.startAt = none ∧ t.doneAt = none

theorem createTicket_tickets (d : TicketDesc) (w : Work) :
    ∃ t : Ticket, (createTicket d w).tickets = w.tickets ++ [t] ∧ t.desc = d ∧ t.isNew w.event w.clock :=
  ⟨_, rfl, rfl, rfl, rfl, rfl, rfl, rfl, rfl⟩

theorem createTickets_tickets (ds : List TicketDesc) (w : Work) :
    ∃ news : List Ticket, (createTickets ds w).tickets = w.tickets ++ news ∧ news.map Ticket.desc = ds ∧
      ∀ t ∈ news, t.isNew w.event w.clock := by
  unfold createTickets
  induction ds generalizing w with
  | nil => exact ⟨[], (List.append_nil _).symm, rfl, List.forall_mem_nil _⟩
  | cons d ds ih =>
    obtain ⟨news, ht, hd, hn⟩ := ih (createTicket d w)
    obtain ⟨t, ht1, hd1, hn1⟩ := createTicket_tickets d w
    refine ⟨t :: news, ?_, by rw [List.map_cons, hd, hd1], List.forall_mem_cons.2 ⟨hn1, hn⟩⟩
    rw [List.foldl_cons, ht, ht1, List.append_assoc, List.singleton_append]

theorem rebuild_tickets (frees : List Nat) (cs : List Computation) (w : Work) :
    ∃ news : List Ticket, (rebuild frees cs w).tickets = (w.tickets.filter fun t => !frees.contains t.number) ++ news ∧
      news.map Ticket.desc = descsOf cs ∧ ∀ t ∈ news, t.isNew w.event w.clock := by
  have st := (Steady.refl w).forEach dropTicket (fun n w => (Steady.refl w).dropTicket n) frees
  rw [← (forEach_dropTicket frees w).1, ← st.event, ← st.clock]
  exact createTickets_tickets _ _

/-- The number picked is some places after n, and the numbers passed over are in use (R82). -/
theorem pickNumber_passed (used : List Nat) (fuel n : Nat) (h1 : 1 ≤ n) (h2 : n ≤ 9999) :
    ∃ passed, pickNumber used fuel n = numberFrom n passed ∧ ∀ j, j < passed → numberFrom n j ∈ used := by
  induction fuel generalizing n with
  | zero => exact ⟨0, (numberFrom_zero h1 h2).symm, fun j hj => absurd hj (Nat.not_lt_zero j)⟩
  | succ fuel ih =>
    unfold pickNumber
    split
    · rename_i hu
      obtain ⟨passed, hp, hused⟩ := ih (numberAfter n) (numberAfter_range n).1 ((numberAfter_range n).2 h2)
      refine ⟨passed + 1, hp.trans (numberFrom_after h1 h2 passed), fun j hj => ?_⟩
      cases j with
      | zero => rw [numberFrom_zero h1 h2]; simpa using hu
      | succ j => rw [← numberFrom_after h1 h2]; exact hused j (Nat.lt_of_succ_lt_succ hj)
    · exact ⟨0, (numberFrom_zero h1 h2).symm, fun j hj => absurd hj (Nat.not_lt_zero j)⟩

theorem numberAfter_eq {n : Nat} (h1 : 1 ≤ n) (h2 : n ≤ 9999) : numberAfter n = n % 9999 + 1 := by
  unfold numberAfter Config.maxTicketNumber
  split <;> omega

/-- Settles O28: the freeing of a ticket part by part, a rebuild's tickets, and the number of a new one. -/
theorem ticketsFreedAndCreated : Obligations.TicketsFreedAndCreated := by
  refine ⟨?freed, fun frees cs w => rebuild_tickets frees cs w, ?numbered⟩
  case freed =>
    intro n w w' onPair
    refine ⟨rfl, rfl, ⟨fun t => renewNext w.stations n (unpendVoid n (unpendPost n t)), rfl, fun t => ⟨?_, fun m => ?_⟩⟩,
      fun u hu => ⟨fun hp => ?_, fun hp => ?_⟩, fun hu => ?_, rfl⟩
    · exact renewNext_eq w.stations n (unpendVoid n (unpendPost n t))
    · exact mem_renewNext w.stations n _ m
    · exact (dropTicket_turn hu).trans (congrArg some (if_pos (carries_iff.2 hp)))
    · exact (dropTicket_turn hu).trans (congrArg some (if_neg (mt carries_iff.1 hp)))
    · exact congrArg (Option.map _) hu
  case numbered =>
    intro d w hl h1 h2
    have hr := pickNumber_range (w.tickets.map Ticket.number) w.tickets.length w.nextTicket h1 h2
    have hf := pickNumber_fresh (w.tickets.map Ticket.number) w.nextTicket h1 h2 (by rwa [List.length_map])
    rw [List.length_map] at hf
    obtain ⟨passed, hp, hused⟩ := pickNumber_passed (w.tickets.map Ticket.number) w.tickets.length w.nextTicket h1 h2
    refine ⟨_, passed, rfl, hf, hr.1, hr.2, hp, hused, numberAfter_eq hr.1 hr.2, fun hn => ?_⟩
    simp only [createTicket, List.map_append, List.map_cons, List.map_nil]
    exact hn.append (List.nodup_singleton _) (by simpa using hf)

end Sys2Proof.Machine
end

section
/-! PROOF. The settling of a group: P and the late flag, the group's part in a taken request with its reports, and the hand-over to the
Pass Unit (R44, R48, R56 to R59, R143, R147). -/

namespace Sys2Proof.Machine

/-! ### A group found after an update -/

section

variable {n : Nat} {w : Work}

theorem findGroup_setGroup_same {f : Group → Group} {g : Group} (hf : ∀ x, (f x).number = x.number)
    (h : findGroup w.toKitchen n = some g) : findGroup (setGroup n f w).toKitchen n = some (f g) :=
  (entryOf_updateEntry_same n f w.groups fun x hx => (hf x).trans hx).trans (congrArg (Option.map f) h)

theorem findGroup_setGroup_other {m : Nat} {f : Group → Group} (hf : ∀ x, (f x).number = x.number) (hm : m ≠ n) :
    findGroup (setGroup n f w).toKitchen m = findGroup w.toKitchen m :=
  entryOf_updateEntry_other hm f w.groups fun x hx => (hf x).trans hx

/-- An update of an entry that is not there changes nothing. -/
theorem updateEntry_absent {α : Type} {key : α → Nat} {l : List α} (f : α → α) (h : ∀ x ∈ l, key x ≠ n) :
    updateEntry key n f l = l :=
  (List.map_congr_left fun x hx => if_neg (h x hx)).trans (List.map_id l)

theorem entryOf_none {α : Type} {key : α → Nat} {l : List α} : entryOf key n l = none ↔ ∀ x ∈ l, key x ≠ n := by
  simp [entryOf, List.find?_eq_none]

theorem setGroup_absent (f : Group → Group) (h : findGroup w.toKitchen n = none) : setGroup n f w = w := by
  have : updateEntry Group.number n f w.groups = w.groups := updateEntry_absent f (entryOf_none.1 h)
  rw [setGroup, this]

/-- The plan of the group found under a number stays through the arbiters and the Pass Unit. -/
theorem Settles.findGroup {w w' : Work} (h : Settles w w') (m : Nat) :
    (findGroup w'.toKitchen m).map Group.plan = (findGroup w.toKitchen m).map Group.plan := by
  unfold Machine.findGroup
  rw [entryOf_map Group.number Group.number Group.plan (fun _ => rfl), entryOf_map Group.number Group.number Group.plan
    (fun _ => rfl), h.groups]

theorem Settles.findGroup_some {w w' : Work} (h : Settles w w') {m : Nat} {g : Group} (hg : Machine.findGroup w.toKitchen m = some g) :
    ∃ x, Machine.findGroup w'.toKitchen m = some x ∧ x.plan = g.plan := by
  have e := h.findGroup m
  rw [hg] at e
  exact Option.map_eq_some_iff.1 e

theorem flagsAndP_found {k : Kitchen} {g : Group} (h : findGroup k n = some g) : flagsAndP k n = (g.flags, g.proj) := by
  rw [flagsAndP, h]

end

/-! ### P and the late flag (R56) -/

theorem tolOf_eq (k : Kitchen) (c : Nat) : tolOf k c = ((findCourse k c).map Course.tol).getD 0 := by
  unfold tolOf
  cases findCourse k c <;> rfl

/-- The group with P computed, and its late flag by it (R56). -/
def projected (p : Int) (late : Bool) (x : Group) : Group := { x with proj := p, flags := { x.flags with late := late } }

section

variable {n : Nat} {w : Work} {g : Group} (hg : findGroup w.toKitchen n = some g)

include hg

theorem recompute_passive (h : ¬keepsProjection g = true) : recompute n w = w := by
  unfold recompute
  rw [hg]
  exact if_neg h

theorem recompute_active (h : keepsProjection g = true) :
    recompute n w =
      { setGroup n (projected (projection w.toKitchen g) (isLate w.toKitchen g (projection w.toKitchen g))) w with
        out := w.out ++ if isLate w.toKitchen g (projection w.toKitchen g) = g.flags.late then []
          else [⟨w.clock, .grplate n g.tag (projection w.toKitchen g) g.target (isLate w.toKitchen g (projection w.toKitchen g))⟩] } := by
  unfold recompute
  rw [hg]
  simp only [h, if_true]
  split
  · rw [List.append_nil]
    rfl
  · rfl

end

/-! ### The group's part in a taken request (R44, R48, R57, R58, R160) -/

theorem settleStock_eq (before : List Item) (w : Work) :
    settleStock before w =
      { w with
        out := w.out ++ (w.items.filter fun i => i.exhausted && !(before.any fun j => j.number == i.number && j.exhausted)).map fun i =>
          ⟨w.clock, .item86 i.number .commit⟩ } := by
  refine (foldl_raise (fun n => .item86 n .commit) _ w).trans ?_
  rw [List.map_map]
  rfl

theorem raiseShort_eq (g : Group) (before after : List Line) (w : Work) :
    raiseShort g before after w =
      { w with
        out := w.out ++ (after.filter fun l => oldShortfall before l < l.shortfall).map fun l =>
          ⟨w.clock, .grpshort g.number g.tag l.item l.subFrom l.count l.shortfall⟩ } := foldl_raise _ _ w

theorem raiseStretch_eq (g : Group) (cs : List Computation) (w : Work) :
    raiseStretch g cs w =
      { w with
        out := w.out ++ (cs.filter fun c => c.hold < c.held).map fun c =>
          ⟨w.clock, .grpstretch g.number g.tag c.item c.comp c.held c.hold⟩ } := foldl_raise _ _ w

/-- The group with the lines of a taken request, and the short and stretched flags that follow them (R57, R58). -/
def relined (lines : List Line) (cs : List Computation) (x : Group) : Group :=
  { x with
    lines := lines
    flags := { x.flags with short := anyShort lines, stretched := x.flags.stretched || cs.any Computation.stretched } }

/-- The reports of a taken request before that of the late flag, in order (R44). -/
def settlingReports (items : List Item) (g : Group) (lines : List Line) (cs : List Computation) (w : Work) : List Report :=
  ((w.items.filter fun i => i.exhausted && !(items.any fun j => j.number == i.number && j.exhausted)).map fun i =>
      ⟨w.clock, .item86 i.number .commit⟩) ++
    ((lines.filter fun l => oldShortfall g.lines l < l.shortfall).map fun l =>
      ⟨w.clock, .grpshort g.number g.tag l.item l.subFrom l.count l.shortfall⟩) ++
    ((cs.filter fun c => c.hold < c.held).map fun c => ⟨w.clock, .grpstretch g.number g.tag c.item c.comp c.held c.hold⟩)

/-- The lines entered and the reports raised, before P is computed. -/
def settling (items : List Item) (g : Group) (lines : List Line) (cs : List Computation) (w : Work) : Work :=
  { setGroup g.number (relined lines cs) w with out := w.out ++ settlingReports items g lines cs w }

section

variable (items : List Item) (g : Group) (lines : List Line) (cs : List Computation) (w : Work)

theorem settleGroup_eq : settleGroup items g lines cs w = recompute g.number (settling items g lines cs w) := by
  unfold settleGroup settling settlingReports relined
  simp only [settleStock_eq, raiseShort_eq, raiseStretch_eq, setGroup_items, setGroup_clock, setGroup_out, List.append_assoc]

theorem settles_settling : Settles (settling items g lines cs w) (settleGroup items g lines cs w) := by
  rw [settleGroup_eq]
  exact (Settles.refl _).recompute g.number

theorem settleGroup_tickets : (settleGroup items g lines cs w).tickets = w.tickets := by
  rw [settleGroup_eq, recompute_tickets]
  rfl

/-- The plans of the groups after the group's part: only its stretched flag may have changed. -/
theorem settleGroup_plans :
    (settleGroup items g lines cs w).groups.map Group.plan =
      (updateEntry Group.number g.number
        (fun x => { x with flags := { x.flags with stretched := x.flags.stretched || cs.any Computation.stretched } })
        w.groups).map Group.plan := by
  refine (settles_settling items g lines cs w).groups.trans ?_
  simp only [settling, setGroup, updateEntry, List.map_map]
  refine List.map_congr_left fun x _ => ?_
  simp only [Function.comp_apply]
  split <;> rfl

theorem settleGroup_found {h : Group} (hg : findGroup w.toKitchen g.number = some h) :
    ∃ h', findGroup (settleGroup items g lines cs w).toKitchen g.number = some h' := by
  obtain ⟨x, hx, -⟩ := (settles_settling items g lines cs w).findGroup_some
    (findGroup_setGroup_same (f := relined lines cs) (fun _ => rfl) hg)
  exact ⟨x, hx⟩

end

theorem anyShort_iff {lines : List Line} : anyShort lines = true ↔ ∃ l ∈ lines, 0 < l.shortfall := by simp [anyShort]

theorem oldShortfall_lt (before : List Line) (l : Line) :
    decide (oldShortfall before l < l.shortfall) =
      match before.find? (fun m => m.item == l.item && m.subFrom == l.subFrom) with
      | some m => decide (m.shortfall < l.shortfall)
      | none => decide (0 < l.shortfall) := by
  unfold oldShortfall isLine
  cases before.find? fun m => m.item == l.item && m.subFrom == l.subFrom <;> rfl

/-! ### The hand-over to the Pass Unit (R59, R143, R147) -/

theorem undrawn_iff {k : Kitchen} {l : Line} :
    undrawn k l = true ↔ l.drawn = false ∧ ∃ i, findItem k l.item = some i ∧ i.kind = .standing := by
  unfold undrawn itemKind
  cases findItem k l.item <;> simp [and_comm]

/-- The group's life end, computed anew (R147). -/
theorem recomputeLife_eq (n : Nat) (w : Work) :
    recomputeLife n w =
      { w with groups := w.groups.map fun x => if x.number = n then { x with lifeEnd := lifeEndOf w.toKitchen n } else x } := rfl

theorem handOver_absent {n : Nat} {w : Work} (h : findGroup w.toKitchen n = none) :
    handOver n w = { w with drawOrder := w.drawOrder.filter fun m => m != n } := by
  have : recomputeLife n w = w := setGroup_absent _ h
  unfold handOver testGroup
  rw [this, h]
  rfl

/-- A group found is tested with its life end computed anew, on which the test does not depend. -/
theorem handOver_found {n : Nat} {w : Work} {g : Group} (h : findGroup w.toKitchen n = some g) :
    handOver n w =
      if testPasses w.toKitchen g then
        if g.lines.any (undrawn w.toKitchen) then joinDraw n (recomputeLife n w) else becomeReady n (recomputeLife n w)
      else leaveDraw n (recomputeLife n w) := by
  have hf : findGroup (recomputeLife n w).toKitchen n = some { g with lifeEnd := lifeEndOf w.toKitchen n } :=
    findGroup_setGroup_same (fun _ => rfl) h
  unfold handOver testGroup
  rw [hf]
  rfl

/-- Settles O35: the hand-over by the test, the recomputation of P by the group's state, and the group's part in a taken request. -/
theorem groupSettled : Obligations.GroupSettled := by
  refine ⟨fun w n => ⟨handOver_absent, fun g hg => ?handed⟩, fun w n g hg => ⟨fun h1 h2 => ?_, fun h => ?_⟩, ?settled⟩
  case handed =>
    intro waits
    have hw : g.lines.any (undrawn w.toKitchen) = true ↔ waits := by simp [waits, undrawn_iff]
    rw [handOver_found hg]
    refine ⟨fun ht hn => ?_, fun ht hy => ?_, fun ht => ?_⟩
    · rw [if_pos ht, if_neg (mt hw.1 hn)]
      rfl
    · rw [if_pos ht, if_pos (hw.2 hy)]
      rfl
    · rw [if_neg (by simp [ht])]
      rfl
  case settled =>
    intro items g h lines cs w hg hs w' rose tol
    have hrose : ∀ l, decide (oldShortfall g.lines l < l.shortfall) = rose l := oldShortfall_lt g.lines
    have hfound : findGroup (settling items g lines cs w).toKitchen g.number = some (relined lines cs h) :=
      findGroup_setGroup_same (fun _ => rfl) hg
    have hw' : w' = _ := (settleGroup_eq items g lines cs w).trans (recompute_active hfound (keepsProjection_iff.2 hs))
    have hlate : ∀ p, isLate (settling items g lines cs w).toKitchen (relined lines cs h) p = decide ((h.target : Int) + tol < p) :=
      fun p => by
        rw [isLate, tolOf_eq]
        rfl
    have hfound' := findGroup_setGroup_same (f := projected (projection (settling items g lines cs w).toKitchen (relined lines cs h))
      (isLate (settling items g lines cs w).toKitchen (relined lines cs h)
        (projection (settling items g lines cs w).toKitchen (relined lines cs h)))) (fun _ => rfl) hfound
    simp only [hlate] at hw' hfound'
    have hreports : settlingReports items g lines cs w = _ ++ ((lines.filter rose).map _) ++ _ :=
      congrArg (fun r => _ ++ ((lines.filter r).map _) ++ _) (funext hrose)
    refine ⟨_, (congrArg (fun v : Work => findGroup v.toKitchen g.number) hw').trans hfound', rfl, anyShort_iff, ?_, ?_, ?_,
      fun m hm => ?_, ?_, ?_⟩
    · simp [projected, relined, Computation.stretched]
    · rw [hw']
      rfl
    · exact decide_eq_true_iff
    · rw [hw']
      exact (findGroup_setGroup_other (f := projected _ _) (fun _ => rfl) hm).trans
        (findGroup_setGroup_other (f := relined lines cs) (fun _ => rfl) hm)
    · rw [hw']
      change (w.out ++ settlingReports items g lines cs w) ++ _ = _
      rw [hreports]
      simp only [List.append_assoc]
      rfl
    · rw [hw']
      rfl
  · exact recompute_passive hg (by rw [keepsProjection_iff]; tauto)
  · refine (recompute_active hg (keepsProjection_iff.2 h)).trans ?_
    unfold isLate
    rw [tolOf_eq]
    rfl

end Sys2Proof.Machine
end

section
/-! PROOF. The walk of a SUBMIT: what one line commits, moves to its substitute and lacks (R32, R42). -/

namespace Sys2Proof.Machine

/-! ### Commitment and substitution (R32, R42) -/

section

variable {m item n : Nat} {w : Work} {i : Item}

/-- An item after a commitment of n (R32). -/
def Item.less (n : Nat) (i : Item) : Item := withStock (stockAfter i.stock n) i

theorem Item.less_unlimited (h : i.stock = .unlimited) : i.less n = { i with stock := .unlimited, exhausted := false } := by
  rw [Item.less, h]
  rfl

theorem Item.less_limited {k : Nat} (h : i.stock = .limited k) :
    i.less n = { i with stock := .limited (k - n), exhausted := decide (k ≤ n) } := by
  have : ((Stock.limited (k - n) == .limited 0) : Bool) = decide (k ≤ n) := by
    rw [beq_eq_decide, decide_eq_decide]
    simp only [Stock.limited.injEq]
    omega
  simp [Item.less, h, stockAfter, withStock, this]

/-- The stock and the mark of an item found, after a commitment of n. -/
theorem Item.less_marks (h : findItem w.toKitchen item = some (i.less n)) :
    (i.stock = .unlimited → (findItem w.toKitchen item).map (fun j => (j.stock, j.exhausted)) = some (.unlimited, false)) ∧
      ∀ k, i.stock = .limited k →
        (findItem w.toKitchen item).map (fun j => (j.stock, j.exhausted)) = some (.limited (k - n), decide (k ≤ n)) := by
  rw [h]
  exact ⟨fun hi => by rw [less_unlimited hi]; rfl, fun k hi => by rw [less_limited hi]; rfl⟩

theorem Item.less_emptied {k : Nat} (h : findItem w.toKitchen item = some (i.less n)) (hi : i.stock = .limited k) (hk : k ≤ n) :
    (findItem w.toKitchen item).map (fun j => (j.stock, j.exhausted)) = some (.limited 0, true) := by
  rw [(less_marks h).2 k hi, Nat.sub_eq_zero_of_le hk, decide_eq_true hk]

theorem commit_found (h : findItem w.toKitchen item = some i) :
    commit item n w = (setItem item (Item.less n) w, takeable i.stock n) := by
  rw [commit, h]
  rfl

theorem findItem_commit_same (h : findItem w.toKitchen item = some i) :
    findItem (commit item n w).1.toKitchen item = some (i.less n) := by
  rw [commit_found h]
  exact (entryOf_updateEntry_same (key := Item.number) item (Item.less n) w.items fun _ hx => hx).trans
    (congrArg (Option.map (Item.less n)) h)

theorem findItem_commit_other (hm : m ≠ item) : findItem (commit item n w).1.toKitchen m = findItem w.toKitchen m := by
  unfold commit
  split
  · exact entryOf_updateEntry_other hm _ w.items fun _ hx => hx
  · rfl

theorem commit_items (item n : Nat) (w : Work) : (commit item n w).1 = { w with items := (commit item n w).1.items } := by
  unfold commit
  split <;> rfl

theorem findStation_commit (st : Nat) : findStation (commit item n w).1.toKitchen st = findStation w.toKitchen st := by
  rw [commit_items]
  rfl

theorem hasLooseStation_iff {k : Kitchen} : hasLooseStation k i = true ↔ ∃ c ∈ i.lines, findStation k c.station = none := by
  simp [hasLooseStation]

theorem offer_items (item n : Nat) (w : Work) : (offer item n w).1 = { w with items := (offer item n w).1.items } := by
  unfold offer
  split
  · split
    · rfl
    · split
      · exact commit_items _ _ _
      · rfl
  · rfl

theorem offer_standing (h : findItem w.toKitchen item = some i) (hl : ¬∃ c ∈ i.lines, findStation w.toKitchen c.station = none)
    (hk : i.kind = .standing) : offer item n w = (w, takeable i.stock n) := by
  unfold offer
  rw [h]
  simp only [hasLooseStation_iff, hl, if_false, hk]

theorem offer_plated (h : findItem w.toKitchen item = some i) (hl : ¬∃ c ∈ i.lines, findStation w.toKitchen c.station = none)
    (hk : i.kind = .plated) : offer item n w = commit item n w := by
  unfold offer
  rw [h]
  simp only [hasLooseStation_iff, hl, if_false, hk]

/-- A substitute that is not found, or names an undefined station, takes nothing. -/
theorem offer_loose (h : ∀ y, findItem w.toKitchen item = some y → ∃ c ∈ y.lines, findStation w.toKitchen c.station = none) :
    offer item n w = (w, 0) := by
  unfold offer
  cases hy : findItem w.toKitchen item with
  | none => rfl
  | some y => exact if_pos (hasLooseStation_iff.2 (h y hy))

/-- What a substitute found, with its stations defined, gives of n portions, and the items after it. -/
theorem offer_gives (h : findItem w.toKitchen item = some i) (hl : ¬∃ c ∈ i.lines, findStation w.toKitchen c.station = none) :
    (offer item n w).2 = takeable i.stock n ∧
      (∀ m, m ≠ item → findItem (offer item n w).1.toKitchen m = findItem w.toKitchen m) ∧
      (i.kind = .standing → findItem (offer item n w).1.toKitchen item = some i) ∧
      (i.kind = .plated → findItem (offer item n w).1.toKitchen item = some (i.less n)) := by
  cases hk : i.kind with
  | plated =>
    rw [offer_plated h hl hk]
    exact ⟨by rw [commit_found h], fun m hm => findItem_commit_other hm, ItemKind.noConfusion, fun _ => findItem_commit_same h⟩
  | standing =>
    rw [offer_standing h hl hk]
    exact ⟨rfl, fun _ _ => rfl, fun _ => h, ItemKind.noConfusion⟩

theorem substitute_idle {sub : Option Nat} {short : Nat} {room : Bool} (h : sub = none ∨ short = 0 ∨ room = false) :
    substitute sub short room w = (w, 0) := by
  unfold substitute
  split
  · refine if_pos ?_
    rcases h with h | h | h <;> simp_all
  · rfl

theorem substitute_offer {y short : Nat} {room : Bool} (hs : short ≠ 0) (hr : room = true) :
    substitute (some y) short room w = offer y short w := if_neg (by simp [hs, hr])

theorem substitute_items (sub : Option Nat) (short : Nat) (room : Bool) (w : Work) :
    (substitute sub short room w).1 = { w with items := (substitute sub short room w).1.items } := by
  unfold substitute
  split
  · split
    · rfl
    · exact offer_items _ _ _
  · rfl

end

/-! ### One line of the walk (R42) -/

/-- The walk with a line of which its own item gave some portions and the substitute gave others, out of a changed stock. -/
def Walk.took (v : Walk) (l : OrderLine) (sub : Option Nat) (own : Nat) (u : Work × Nat) : Walk :=
  { work := u.1
    ordered := v.ordered ++ [⟨l.item, none, l.count - u.2, l.count - own - u.2, false⟩]
    subs := if u.2 = 0 then v.subs else v.subs ++ [⟨sub.getD 0, some l.item, u.2, 0, false⟩]
    info := v.info ++ [⟨own, if u.2 = 0 then 0 else sub.getD 0, u.2, l.count - own - u.2⟩] }

section

variable {places : Nat} {v : Walk} {l : OrderLine} {x : Item}

theorem walkLine_standing (h : findItem v.work.toKitchen l.item = some x) (hk : x.kind = .standing) :
    walkLine places v l =
      { v with ordered := v.ordered ++ [⟨l.item, none, l.count, 0, false⟩], info := v.info ++ [⟨0, 0, 0, 0⟩] } := by
  unfold walkLine
  rw [h]
  simp only [hk]

theorem walkLine_plated (h : findItem v.work.toKitchen l.item = some x) (hk : x.kind = .plated) :
    walkLine places v l =
      v.took l x.subst (takeable x.stock l.count)
        (substitute x.subst (l.count - takeable x.stock l.count) (decide (places + v.subs.length < 12))
          (commit l.item l.count v.work).1) := by
  unfold walkLine
  rw [h]
  simp only [hk, commit_found h]
  rfl

/-- A line whose substitute gives nothing. -/
theorem Walk.took_alone (sub : Option Nat) (own : Nat) (w : Work) :
    v.took l sub own (w, 0) =
      { work := w, ordered := v.ordered ++ [⟨l.item, none, l.count, l.count - own, false⟩], subs := v.subs
        info := v.info ++ [⟨own, 0, 0, l.count - own⟩] } := rfl

end

theorem takeable_limited (k n : Nat) : takeable (.limited k) n = min n k := rfl

section

variable {places k : Nat} {v : Walk} {l : OrderLine} {x : Item} (hx : findItem v.work.toKitchen l.item = some x)
  (hk : x.kind = .plated)

include hx hk

theorem walkLine_unlimited (hs : x.stock = .unlimited) :
    walkLine places v l =
      { work := (commit l.item l.count v.work).1, ordered := v.ordered ++ [⟨l.item, none, l.count, 0, false⟩], subs := v.subs
        info := v.info ++ [⟨l.count, 0, 0, 0⟩] } := by
  have hall : takeable x.stock l.count = l.count := by rw [hs]; rfl
  rw [walkLine_plated hx hk, hall, Nat.sub_self, substitute_idle (.inr (.inl rfl)), Walk.took_alone, Nat.sub_self]

/-- A line of an item with k portions, and what the substitute gives of the portions it lacks. -/
theorem walkLine_limited {u : Work × Nat} (hs : x.stock = .limited k)
    (hu : substitute x.subst (l.count - k) (decide (places + v.subs.length < 12)) (commit l.item l.count v.work).1 = u) :
    walkLine places v l =
      { work := u.1, ordered := v.ordered ++ [⟨l.item, none, l.count - u.2, l.count - k - u.2, false⟩]
        subs := if u.2 = 0 then v.subs else v.subs ++ [⟨x.subst.getD 0, some l.item, u.2, 0, false⟩]
        info := v.info ++ [⟨min l.count k, if u.2 = 0 then 0 else x.subst.getD 0, u.2, l.count - k - u.2⟩] } := by
  have hlack : l.count - min l.count k = l.count - k := by omega
  rw [walkLine_plated hx hk, hs, takeable_limited, hlack, hu, Walk.took, hlack]

end

/-- Settles O30: a PLATED line is its commitment and then what the substitute is offered, by the kind and stock of either. -/
theorem walkCommitsStock : Obligations.WalkCommitsStock := by
  refine ⟨fun places v l x hx => ?_, fun r w => ⟨rfl, rfl⟩⟩
  intro u
  have hu : u = walkLine places v l := rfl
  clear_value u
  intro stockOf alone
  have hown := findItem_commit_same (n := l.count) hx
  have hothers : ∀ m, m ≠ l.item → findItem (commit l.item l.count v.work).1.toKitchen m = findItem v.work.toKitchen m :=
    fun m hm => findItem_commit_other hm
  refine ⟨fun hk => ?standing, fun hk hs => ?unlimited, fun k hk hsub hs => ?sufficed, fun k n hk hsub hs hlt hn hno => ?barred,
    fun k n y hk hsub hs hlt hn hroom hy hdef => ?shared⟩
  case standing =>
    obtain rfl := hu.trans (walkLine_standing hx hk)
    exact ⟨rfl, rfl, rfl, rfl⟩
  case unlimited =>
    obtain rfl := hu.trans (walkLine_unlimited hx hk hs)
    exact ⟨(Item.less_marks hown).1 hs, rfl, rfl, rfl⟩
  case sufficed =>
    obtain rfl := hu.trans (walkLine_limited hx hk hs (substitute_idle (hsub.imp id fun h => .inl (by omega))))
    exact ⟨(Item.less_marks hown).2 k hs, hothers, rfl, rfl, rfl⟩
  case barred =>
    have hnone : substitute x.subst (l.count - k) (decide (places + v.subs.length < 12)) (commit l.item l.count v.work).1 =
        ((commit l.item l.count v.work).1, 0) := by
      by_cases hroom : places + v.subs.length < 12
      · have hloose := hno.resolve_left (by omega)
        rw [hsub, substitute_offer (by omega) (decide_eq_true hroom)]
        refine offer_loose fun y hy => ?_
        obtain ⟨c, hc, hst⟩ := hloose y ((hothers n hn).symm.trans hy)
        exact ⟨c, hc, (findStation_commit c.station).trans hst⟩
      · exact substitute_idle (.inr (.inr (decide_eq_false hroom)))
    obtain rfl := hu.trans (walkLine_limited hx hk hs hnone)
    exact ⟨Item.less_emptied hown hs hlt.le, hothers, rfl, rfl, rfl⟩
  case shared =>
    intro gone
    have hgone : takeable y.stock (l.count - k) = gone := by cases hst : y.stock <;> simp only [gone, hst, takeable]
    obtain ⟨htake, hkept, hstanding, hplated⟩ := offer_gives (n := l.count - k) ((hothers n hn).trans hy)
      fun ⟨c, hc, hst⟩ => hdef c hc ((findStation_commit c.station).symm.trans hst)
    rw [hgone] at htake
    have hsubst := walkLine_limited (places := places) hx hk hs
      ((congrArg (substitute · _ _ _) hsub).trans (substitute_offer (by omega) (decide_eq_true hroom)))
    rw [htake, hsub, Nat.min_eq_right hlt.le] at hsubst
    obtain rfl := hu.trans hsubst
    refine ⟨Item.less_emptied ((hkept l.item hn.symm).trans hown) hs hlt.le,
      fun m hm hm' => (hkept m hm').trans (hothers m hm), hstanding, fun hy' => (Item.less_marks (hplated hy')).1,
      fun m hy' hm => ?_, fun h0 => ?_, fun h0 => ?_⟩
    · refine ((Item.less_marks (hplated hy')).2 m hm).trans ?_
      have : gone = min (l.count - k) m := by simp only [gone, hm]
      rw [this]
      simp only [Option.some.injEq, Prod.mk.injEq, Stock.limited.injEq, decide_eq_decide]
      omega
    · simp only [alone, h0, if_true, Nat.min_eq_right hlt.le]
      exact ⟨trivial, rfl, rfl⟩
    · simp only [h0, if_false]
      exact ⟨rfl, trivial, rfl⟩

end Sys2Proof.Machine
end

section
/-! PROOF. SUBMIT: its checks, FULL, and the group it enters (R37, R41 to R44). -/

namespace Sys2Proof.Machine

/-! ### The checks (R41) -/

theorem checksAre_orderLine (k : Kitchen) (r : SubmitReq) (i : Nat) (l : OrderLine) :
    ChecksAre (orderChecks k r i l)
      [(l.item = 0 ∨ (∀ y, findItem k l.item = some y → y.course ≠ r.course) ∨ ∃ m ∈ r.lines.take i, m.item = l.item, .item, i),
       (l.count < 1 ∨ 400 < l.count, .count, i),
       (∃ y, findItem k l.item = some y ∧ y.kind = .plated ∧ ∃ c ∈ y.lines, findStation k c.station = none, .station, i)] := by
  refine checksAre_cons _ _ ?item (checksAre_cons _ _ outside_iff (checksAre_cons _ _ ?station trivial))
  case item =>
    rw [Bool.or_eq_true, ← or_assoc]
    refine or_congr ?_ (by simp)
    cases findItem k l.item <;> simp
  case station =>
    cases findItem k l.item with
    | none => simp
    | some y => simp [hasLooseStation]

theorem checksAre_submit (k : Kitchen) (r : SubmitReq) :
    ChecksAre (submitChecks k r)
      (([(r.sect = 0, .sect, 0), (r.course < 1 ∨ 8 < r.course ∨ findCourse k r.course = none, .course, 0),
          (r.covers < 1 ∨ 400 < r.covers, .covers, 0), (r.lines.length < 1 ∨ 12 < r.lines.length, .lines, 0)] : List CheckRow) ++
        (r.lines.mapIdx fun i l =>
          ([(l.item = 0 ∨ (∀ y, findItem k l.item = some y → y.course ≠ r.course) ∨ ∃ m ∈ r.lines.take i, m.item = l.item,
               .item, i),
            (l.count < 1 ∨ 400 < l.count, .count, i),
            (∃ y, findItem k l.item = some y ∧ y.kind = .plated ∧ ∃ c ∈ y.lines, findStation k c.station = none,
               .station, i)] : List CheckRow)).flatten ++
        [(r.covers < (r.lines.map OrderLine.count).sum, .sum, 0)]) := by
  refine ChecksAre.append (ChecksAre.append ?fields (checksAre_flatten _ _ (checksAre_orderLine k r) r.lines))
    (checksAre_cons _ _ decide_eq_true_iff trivial)
  refine checksAre_cons _ _ beq_iff_eq (checksAre_cons _ _ ?_ (checksAre_cons _ _ outside_iff (checksAre_cons _ _ outside_iff trivial)))
  rw [Bool.or_eq_true, outside_iff, or_assoc, Option.isNone_iff_eq_none]

/-! ### The number of the new group (R37) -/

section

variable {k : Kitchen}

theorem lowestFree_none (h : ∀ m, 1 ≤ m → m ≤ 512 → findGroup k m ≠ none) : lowestFree k = none := by
  refine List.find?_eq_none.2 fun m hm => ?_
  obtain ⟨i, hi, rfl⟩ := List.mem_map.1 hm
  have := List.mem_range.1 hi
  simpa using h (i + 1) (by omega) this

theorem lowestFree_some {n : Nat} (h1 : 1 ≤ n) (h2 : n ≤ 512) (hn : findGroup k n = none)
    (hlow : ∀ m, 1 ≤ m → m < n → findGroup k m ≠ none) : lowestFree k = some n := by
  have hlast : n - 1 + 1 = n := by omega
  rw [lowestFree, List.find?_map, List.find?_range_eq_some.2 ⟨?_, List.mem_range.2 ?_, fun j hj => ?_⟩]
  · exact congrArg some hlast
  · simpa [hlast] using hn
  · show n - 1 < 512
    omega
  · simpa [Option.isSome_iff_ne_none] using hlow (j + 1) (by omega) (by omega)

end

/-! ### The walk changes items only -/

theorem walkLine_items (places : Nat) (v : Walk) (l : OrderLine) :
    (walkLine places v l).work = { v.work with items := (walkLine places v l).work.items } := by
  unfold walkLine
  split
  · split
    · rfl
    · dsimp only
      rw [substitute_items, commit_items]
  · rfl

theorem walk_items (r : SubmitReq) (w : Work) : (walk r w).work = { w with items := (walk r w).work.items } := by
  refine List.foldlRecOn (motive := fun v : Walk => v.work = { w with items := v.work.items }) r.lines _ rfl fun v hv l _ => ?_
  rw [walkLine_items, hv]

/-! ### The pool, and the entry of a group -/

theorem poolHas_iff {k : Kitchen} {frees : List Nat} {cs : List Computation} :
    poolHas k frees cs = true ↔ (cs.flatMap Computation.tickets).length ≤ 2048 - k.tickets.length + frees.length := decide_eq_true_iff

/-- An update of an entry just made in a place that was free. -/
theorem updateEntry_insertEntry {α : Type} {key : α → Nat} {x : α} {f : α → α} (hf : key (f x) = key x) {l : List α}
    (h : ∀ y ∈ l, key y ≠ key x) : updateEntry key (key x) f (insertEntry key x l) = insertEntry key (f x) l := by
  have hcons : ∀ l, updateEntry key (key x) f (x :: l) = f x :: updateEntry key (key x) f l := fun l => by simp [updateEntry]
  induction l with
  | nil => exact hcons []
  | cons y l ih =>
    obtain ⟨hy, hl⟩ := List.forall_mem_cons.1 h
    unfold insertEntry
    rw [hf]
    split
    · rw [hcons, updateEntry_absent f h]
    · rw [if_neg (Ne.symm hy), if_neg (Ne.symm hy)]
      exact (congrArg (· :: _) (if_neg hy)).trans (congrArg (y :: ·) (ih hl))

theorem recompute_rest (n : Nat) (w : Work) :
    recompute n w = { w with groups := (recompute n w).groups, out := (recompute n w).out } := by
  unfold recompute
  split
  · split
    · dsimp only
      split <;> rfl
    · rfl
  · rfl

theorem settleGroup_stations (items : List Item) (g : Group) (lines : List Line) (cs : List Computation) (w : Work) :
    (settleGroup items g lines cs w).stations = w.stations := by
  rw [settleGroup_eq, recompute_rest]
  rfl

theorem createTickets_stations (ds : List TicketDesc) (w : Work) : (createTickets ds w).stations = w.stations :=
  List.foldlRecOn (motive := fun v : Work => v.stations = w.stations) ds _ rfl fun _ hv _ _ => hv

/-- The stations of new tickets, where none is freed. -/
theorem touched_new (k : Kitchen) (cs : List Computation) :
    touched k [] cs =
      (k.stations.filter fun x => (cs.flatMap Computation.tickets).any fun d => d.station == x.number).map Station.number := by
  refine congrArg (List.map _) (List.filter_congr fun x _ => ?_)
  have hnone : (k.tickets.any fun t => ([] : List Nat).contains t.number && t.station == x.number) = false :=
    List.any_eq_false.2 (by simp)
  exact (congrArg _ hnone).trans (Bool.or_false _)

/-- The plans of a new group settled, whose lines were rebuilt in no place: its stretched flag is by the computations. -/
theorem settleGroup_entered {items : List Item} {g : Group} {lines : List Line} {cs : List Computation} {w : Work} {gs : List Group}
    (hw : w.groups = insertEntry Group.number g gs) (hg : ∀ x ∈ gs, x.number ≠ g.number) :
    (settleGroup items g lines cs w).groups.map Group.plan =
      (insertEntry Group.number { g with flags := { g.flags with stretched := g.flags.stretched || cs.any Computation.stretched } }
        gs).map Group.plan := by
  rw [settleGroup_plans, hw]
  exact congrArg (List.map Group.plan) (updateEntry_insertEntry (key := Group.number) rfl hg)

/-- The state of the request past its checks, with a number for the group. -/
theorem submit_numbered {r : SubmitReq} {w : Work} {n : Nat} (hok : firstBad (submitChecks w.toKitchen r) = none)
    (hn : lowestFree w.toKitchen = some n) :
    submit r w =
      let g := newGroup w.toKitchen r n
      let walked := walk r w
      let cs := walked.lines.flatMap (lineComputations walked.work.toKitchen g)
      let w1 := settleGroup w.items g walked.lines cs
        (rebuild [] cs { walked.work with groups := insertEntry Group.number g w.groups })
      if poolHas w.toKitchen [] cs then
        (passSettle (handOver n (arbiters (touched w1.toKitchen [] cs) w1)),
          .ok (.submitted n (flagsAndP w1.toKitchen n).1 (flagsAndP w1.toKitchen n).2 walked.info))
      else (w, .full) := by
  unfold submit
  have hgroups : (walk r w).work.groups = w.groups := by
    rw [walk_items]
  simp only [hok, hn, hgroups]
  rfl

/-- Settles O29: the table of checks row by row, FULL by the numbers or the pool, and the group entered by the walk, settled and
handed over. -/
theorem groupSubmitted : Obligations.GroupSubmitted := by
  refine ⟨checksAre_submit, fun s seq rest r h => ⟨fun a ha => exec_turnedAway h nofun ?_, fun hok hfull => exec_turnedAway h nofun ?_,
    fun n c hok h1 h2 hn hlow hc => ?_⟩⟩
  · simp only [perform, submit, begun_toKitchen, ha]
  · simp only [perform, submit, begun_toKitchen, hok, lowestFree_none hfull]
  intro g walked cs fitting
  have hg : newGroup s.kit r n = g := by
    rw [newGroup, hc]
    rfl
  have hp := submit_numbered (w := begun s.kit) hok (lowestFree_some h1 h2 hn hlow)
  rw [begun_toKitchen, hg] at hp
  have hfit : poolHas s.kit [] cs = true ↔ fitting := poolHas_iff
  refine ⟨fun hno => exec_turnedAway h nofun (hp.trans (if_neg (mt hfit.1 hno))), fun hyes => ?_⟩
  intro w1 sts
  have hwalk : walked.work = { begun s.kit with items := walked.work.items } := walk_items r (begun s.kit)
  have hstations : w1.stations = s.kit.stations := by
    refine (settleGroup_stations ..).trans ((createTickets_stations ..).trans ?_)
    show walked.work.stations = _
    rw [hwalk]
    rfl
  have habsent : ∀ x ∈ s.kit.groups, x.number ≠ g.number := entryOf_none.1 hn
  obtain ⟨x, hx⟩ := settleGroup_found s.kit.items g walked.lines cs
    (rebuild [] cs { walked.work with groups := insertEntry Group.number g s.kit.groups }) (h := g) (by
      refine (congrArg (entryOf Group.number n) (rebuild_groups ..)).trans ?_
      exact entryOf_insertEntry_same (key := Group.number) g s.kit.groups)
  have hsettles : Settles w1 (passSettle (handOver n (arbiters sts w1))) :=
    (((Settles.refl w1).arbiters sts).handOver n).passSettle
  refine ⟨x, _, hx, exec_asks h nofun (hp.trans ?_), rfl, hsettles, ?_⟩
  · refine (if_pos (hfit.2 hyes)).trans ?_
    show (passSettle (handOver n (arbiters (touched w1.toKitchen [] cs) w1)),
      Answer.ok (.submitted n (flagsAndP w1.toKitchen n).1 (flagsAndP w1.toKitchen n).2 walked.info)) = _
    rw [touched_new, hstations, flagsAndP_found hx]
  · refine hsettles.groups.trans ((settleGroup_entered (rebuild_groups ..) habsent).trans ?_)
    rfl

end Sys2Proof.Machine
end

section
/-! PROOF. AMEND: its refusals, the line it changes, and what it takes (R45 to R49). -/

namespace Sys2Proof.Machine

/-! ### A table of refusals -/

/-- One row of a table of refusals, decided by its test. -/
theorem firstThatHolds_if {p q : Prop} [Decidable q] {a : Answer} {o : Option Answer} {rest : List (Prop × Answer)} (h : q ↔ p)
    (hr : FirstThatHolds rest o) : FirstThatHolds ((p, a) :: rest) (if q then some a else o) :=
  ⟨fun hp => if_pos (h.2 hp), fun hp => (if_neg (mt h.1 hp)).symm ▸ hr⟩

/-- The refusals of an AMEND of an item that is defined (R45). -/
theorem amendRefusal_found {k : Kitchen} {g : Group} {item sf count : Nat} {i : Item} (h : findItem k item = some i) :
    FirstThatHolds
      [(item = 0 ∨ i.course ≠ g.course, .badField .item 0), (sf ≠ 0 ∧ ¬∃ l ∈ g.lines, isLine item (present sf) l = true, .noSuch),
       (400 < count ∨ (count = 0 ∧ ¬∃ l ∈ g.lines, isLine item (present sf) l = true), .badField .count 0),
       (presentCount g item (present sf) < count ∧ i.kind = .plated ∧ ∃ c ∈ i.lines, findStation k c.station = none,
         .badField .station 0),
       (g.covers < (g.lines.map Line.count).sum - presentCount g item (present sf) + count, .badField .sum 0),
       ((¬∃ l ∈ g.lines, isLine item (present sf) l = true) ∧ sf = 0 ∧ 12 ≤ g.lines.length, .full)]
      (amendRefusal k g item sf count) := by
  have hheld : (!g.lines.any (isLine item (present sf))) = true ↔ ¬∃ l ∈ g.lines, isLine item (present sf) l = true := by
    rw [Bool.not_eq_true', ← Bool.not_eq_true, List.any_eq_true]
  unfold amendRefusal
  rw [h]
  refine firstThatHolds_if Iff.rfl (firstThatHolds_if (and_congr_right fun _ => hheld)
    (firstThatHolds_if (or_congr_right (and_congr_right fun _ => hheld))
      (firstThatHolds_if (and_congr_right fun _ => and_congr_right fun _ => hasLooseStation_iff)
        (firstThatHolds_if Iff.rfl (firstThatHolds_if (and_congr_left fun _ => hheld) rfl)))))

theorem amendRefusal_undefined {k : Kitchen} {g : Group} {item sf count : Nat} (h : findItem k item = none) :
    amendRefusal k g item sf count = some (.badField .item 0) := by
  rw [amendRefusal, h]

/-! ### The room for a substitute's line, and the stock (R32, R47) -/

theorem subRoom_held {g : Group} {x y : Nat} {adding : Bool} {m : Line} (h : g.lines.find? (isLine y (some x)) = some m) :
    subRoom g x y adding = !m.drawn := by
  rw [subRoom, h]

theorem subRoom_new {g : Group} {x y : Nat} {adding : Bool} (h : g.lines.find? (isLine y (some x)) = none) :
    subRoom g x y adding = decide (g.lines.length + (if adding then 1 else 0) < 12) := by
  rw [subRoom, h]

theorem Item.less_eq (n : Nat) (j : Item) :
    j.less n =
      match j.stock with
      | .unlimited => { j with exhausted := false }
      | .limited k => { j with stock := .limited (k - n), exhausted := decide (k ≤ n) } := by
  cases hj : j.stock with
  | unlimited => rw [Item.less_unlimited hj]
  | limited k => exact Item.less_limited hj

theorem takeable_eq (st : Stock) (n : Nat) :
    takeable st n =
      match st with
      | .unlimited => n
      | .limited k => min n k := by cases st <;> rfl

/-! ### The lines of an AMEND -/

section

variable {w : Work} {g : Group} {n item sf count : Nat} (hn : 1 ≤ n ∧ n ≤ 512) (hg : findGroup w.toKitchen n = some g)
  (hs : g.state = .planned ∨ g.state = .firing)

include hn hg hs

theorem amend_refused {a : Answer} (ha : amendRefusal w.toKitchen g item sf count = some a) : amend n item sf count w = (w, a) := by
  refine (judgeActive_found hn hg hs _).trans ?_
  rw [ha]

/-- An AMEND past its refusals, by the line as it stands and the kind of its item. -/
theorem amend_judged {x : Item} {old : Option Line} {l : Line} (ha : amendRefusal w.toKitchen g item sf count = none)
    (hx : findItem w.toKitchen item = some x) (ho : g.lines.find? (isLine item (present sf)) = old)
    (hl : old.getD ⟨item, present sf, 0, 0, false⟩ = l) :
    (count = l.count → amend n item sf count w = (w, .ok (.amended g.flags g.proj [amendLine w.toKitchen l 0 0]))) ∧
      (count ≠ l.count → x.kind = .standing → amend n item sf count w = amendStanding g l count w) ∧
      (count < l.count → x.kind = .plated → amend n item sf count w = amendDown g l count w) ∧
      (l.count < count → x.kind = .plated → amend n item sf count w = amendUp g x l old.isNone count w) := by
  have hjudged : amend n item sf count w =
      if count = l.count then (w, .ok (.amended g.flags g.proj [amendLine w.toKitchen l 0 0]))
      else
        match x.kind with
        | .standing => amendStanding g l count w
        | .plated => if count < l.count then amendDown g l count w else amendUp g x l old.isNone count w := by
    refine (judgeActive_found hn hg hs _).trans ?_
    rw [ha, hx, ho]
    subst hl
    rfl
  rw [hjudged]
  refine ⟨fun hc => if_pos hc, fun hc hk => ?_, fun hc hk => ?_, fun hc hk => ?_⟩
  · rw [if_neg hc, hk]
  · rw [if_neg hc.ne, hk]
    exact if_pos hc
  · rw [if_neg hc.ne', hk]
    exact if_neg hc.asymm

end

theorem amendLine_plated {k : Kitchen} {l : Line} (h : itemKind k l.item = some .plated) (sub moved : Nat) :
    amendLine k l sub moved = ⟨l.item, l.subFrom, l.count, l.count - l.shortfall, sub, moved, l.shortfall⟩ := by
  rw [amendLine, committedOf, if_pos h]

theorem amendLine_standing {k : Kitchen} {l : Line} (h : itemKind k l.item = some .standing) (sub moved : Nat) :
    amendLine k l sub moved = ⟨l.item, l.subFrom, l.count, 0, sub, moved, l.shortfall⟩ := by
  rw [amendLine, committedOf, if_neg (by rw [h]; exact nofun)]

theorem amendStanding_undrawn {g : Group} {l : Line} {count : Nat} {w : Work} (hd : l.drawn = false)
    (hk : itemKind w.toKitchen l.item = some .standing) :
    amendStanding g l count w =
      takeAmend w g (putLine { l with count := count } g.lines) [] [⟨l.item, l.subFrom, count, 0, 0, 0, l.shortfall⟩] w := by
  rw [← amendLine_standing (l := { l with count := count }) hk]
  exact if_neg (by simp [hd])

theorem amendDown_eq (g : Group) (l : Line) (count : Nat) (w : Work) :
    amendDown g l count w =
      let m : Line := { l with count := count, shortfall := l.shortfall - (l.count - count) }
      if count - m.shortfall < largestDispatched w.toKitchen g.number l then (w, .inFire)
      else
        takeAmend w g (putLine m g.lines) [m] [amendLine w.toKitchen m 0 0]
          (giveBack l.item ((l.count - l.shortfall) - (count - m.shortfall)) w) := rfl

theorem amendUp_eq {g : Group} {x : Item} {l : Line} {adding : Bool} {count short y : Nat} {sub : Option Nat} {w : Work}
    (hx : findItem w.toKitchen x.number = some x) (hsub : (if l.subFrom = none then x.subst else none) = sub)
    (hshort : count - l.count - takeable x.stock (count - l.count) = short) (hy : sub.getD 0 = y) :
    amendUp g x l adding count w =
      let u := substitute sub short (subRoom g x.number (sub.getD 0) adding) (commit x.number (count - l.count) w).1
      let m : Line := { l with count := count - u.2, shortfall := l.shortfall + (short - u.2) }
      if u.2 = 0 then takeAmend w g (putLine m g.lines) [m] [amendLine w.toKitchen m 0 0] u.1
      else
        let had := (g.lines.find? (isLine y (some x.number))).getD ⟨y, some x.number, 0, 0, false⟩
        let o : Line := { had with count := had.count + u.2 }
        takeAmend w g (putLine o (putLine m g.lines)) [m, o]
          [amendLine w.toKitchen m y u.2, amendLine w.toKitchen o 0 0] u.1 := by
  have htaken : (commit x.number (count - l.count) w).2 = takeable x.stock (count - l.count) := by rw [commit_found hx]
  subst hsub hshort hy
  rw [← htaken]
  rfl

/-! ### The group after its part in a taken request -/

theorem recompute_absent {n : Nat} {w : Work} (h : findGroup w.toKitchen n = none) : recompute n w = w := by
  rw [recompute, h]

/-- The recomputation of P keeps the groups in their places, with their numbers, states, lines and short flags. -/
theorem recompute_groups (n : Nat) (w : Work) :
    ∃ f : Group → Group, (recompute n w).groups = w.groups.map f ∧
      ∀ x, (f x).number = x.number ∧ (f x).state = x.state ∧ (f x).lines = x.lines ∧ (f x).flags.short = x.flags.short := by
  have hsame : ∃ f : Group → Group, w.groups = w.groups.map f ∧
      ∀ x, (f x).number = x.number ∧ (f x).state = x.state ∧ (f x).lines = x.lines ∧ (f x).flags.short = x.flags.short :=
    ⟨id, (List.map_id _).symm, fun _ => ⟨rfl, rfl, rfl, rfl⟩⟩
  cases hg : findGroup w.toKitchen n with
  | none =>
    rw [recompute_absent hg]
    exact hsame
  | some g =>
    by_cases hk : keepsProjection g = true
    · rw [recompute_active hg hk]
      exact ⟨_, rfl, fun x => by split <;> exact ⟨rfl, rfl, rfl, rfl⟩⟩
    · rw [recompute_passive hg hk]
      exact hsame

theorem settleGroup_records (items : List Item) (g : Group) (lines : List Line) (cs : List Computation) (w : Work) :
    (settleGroup items g lines cs w).groups.map (fun x => (x.number, x.state)) = w.groups.map (fun x => (x.number, x.state)) ∧
      ∀ x ∈ (settleGroup items g lines cs w).groups, x.number = g.number →
        x.lines = lines ∧ (x.flags.short = true ↔ ∃ l ∈ lines, 0 < l.shortfall) := by
  obtain ⟨f, hf, hkept⟩ := recompute_groups g.number (settling items g lines cs w)
  rw [settleGroup_eq, hf]
  refine ⟨?_, fun x hx hn => ?_⟩
  · rw [settling, setGroup_groups, updateEntry, List.map_map, List.map_map]
    refine List.map_congr_left fun x _ => ?_
    obtain ⟨hnum, hstate, -, -⟩ := hkept (if x.number = g.number then relined lines cs x else x)
    simp only [Function.comp_apply, hnum, hstate]
    split <;> rfl
  · obtain ⟨y, hy, rfl⟩ := List.mem_map.1 hx
    obtain ⟨z, -, rfl⟩ := List.mem_map.1 hy
    obtain ⟨hnum, -, hlines, hshort⟩ := hkept (if z.number = g.number then relined lines cs z else z)
    rw [hlines, hshort]
    rw [hnum] at hn
    split at hn
    · rw [if_pos ‹_›]
      exact ⟨rfl, anyShort_iff⟩
    · exact absurd hn ‹_›

/-! ### The taking (R46, R48) -/

theorem takeAmend_full {before w : Work} {g : Group} {lines changed : List Line} {info : List AmendLine}
    (h : poolHas w.toKitchen (changed.flatMap (waitingTickets w.toKitchen g.number))
      ((lines.filter fun l => changed.any (isLine l.item l.subFrom)).flatMap (lineComputations w.toKitchen g)) = false) :
    takeAmend before g lines changed info w = (before, .full) := if_neg (by rw [h]; exact Bool.false_ne_true)

/-- Settles O31: the table of refusals, the shares of putLine, subRoom, commit and substitute, the AMEND by the kind and the
direction, and its taking. -/
theorem lineAmended : Obligations.LineAmended := by
  refine ⟨fun k g item sf count => ?refusals, fun _ _ => rfl, fun g x y adding => ⟨fun m hm => ?held, fun hnone => ?new⟩,
    fun w item n i hi => ⟨?commit, fun room =>
      ⟨rfl, fun hidle => ?idle, fun hn hr hl hk => ?plated, fun hn hr hl hk => ?standing⟩⟩,
    fun s seq rest n item sf count g h h1 h2 hg hs => ?amended,
    fun before w g lines changed info => ?taking⟩
  case refusals =>
    intro named held present
    cases hi : findItem k item with
    | none => exact ⟨fun _ => amendRefusal_undefined hi, fun hno => absurd (.inr nofun) hno⟩
    | some i =>
      have hcourse : (∀ y, some i = some y → y.course ≠ g.course) ↔ i.course ≠ g.course := by simp
      have hloose : (∃ y, some i = some y ∧ y.kind = .plated ∧ ∃ c ∈ y.lines, findStation k c.station = none) ↔
          i.kind = .plated ∧ ∃ c ∈ i.lines, findStation k c.station = none := by simp
      rw [hcourse, hloose]
      exact amendRefusal_found hi
  case held =>
    rw [subRoom_held hm]
    simp
  case new =>
    rw [subRoom_new hnone]
    exact decide_eq_true_iff
  case commit =>
    rw [commit_found hi, funext (Item.less_eq n), takeable_eq]
    rfl
  case idle =>
    by_cases hnone : n = 0 ∨ room = false
    · exact substitute_idle (.inr hnone)
    · obtain ⟨hn, hr⟩ := not_or.1 hnone
      have hloose := (hidle.resolve_left hn).resolve_left hr
      rw [substitute_offer hn (eq_true_of_ne_false hr)]
      exact offer_loose fun y hy => Option.some.inj (hi.symm.trans hy) ▸ hloose
  case plated => rw [substitute_offer hn hr, offer_plated hi hl hk]
  case standing =>
    rw [substitute_offer hn hr, offer_standing hi hl hk]
    exact congrArg (Prod.mk w) (takeable_eq _ _)
  case taking =>
    intro frees cs sts w1
    have hpool : poolHas w.toKitchen frees cs = true ↔ _ := poolHas_iff
    refine ⟨fun hlt => takeAmend_full (eq_false_of_ne_true (mt hpool.1 (by omega))), fun hle =>
      ⟨_, (flagsAndP w1.toKitchen g.number).1, (flagsAndP w1.toKitchen g.number).2, if_pos (hpool.2 hle), fun h hh => ?_, rfl,
        (((Settles.refl w1).arbiters sts).handOver g.number).passSettle, ?_, ?_⟩⟩
    · rw [flagsAndP_found hh]
      exact ⟨rfl, rfl⟩
    · rw [← rebuild_groups frees cs w]
      exact (settleGroup_records ..).1
    · exact (settleGroup_records ..).2
  case amended =>
    intro w0 from_ old l leads told
    have hn : 1 ≤ n ∧ n ≤ 512 := ⟨h1, h2⟩
    obtain ⟨hitem, hfrom⟩ : l.item = item ∧ l.subFrom = present sf := getD_line _ ⟨rfl, rfl⟩
    have hleads : ∀ r, amend n item sf count w0 = r → leads r := fun r hr => exec_asks h nofun hr
    refine ⟨fun a ha => exec_turnedAway h nofun (amend_refused (w := w0) hn hg hs ha), fun x ha hx => ?_⟩
    obtain ⟨hsame, hstanding, hdown, hup⟩ := amend_judged (w := w0) (l := l) hn hg hs ha hx rfl rfl
    have hkind : ∀ z : Line, z.item = item → itemKind w0.toKitchen z.item = some x.kind := fun z hz => hz ▸ itemKind_some hx
    have htold : ∀ (m : Line) (sub moved : Nat), m.item = item → x.kind = .plated →
        amendLine w0.toKitchen m sub moved = told m sub moved :=
      fun m sub moved hm hk => amendLine_plated ((hkind m hm).trans (congrArg some hk)) sub moved
    refine ⟨fun hc hk => ?same, fun hc hk => ?sameStanding, fun hc hk hd => ?drawn, fun hc hk hd => ?undrawn, fun hc hk => ?down,
      fun hc hk => ?up⟩
    case same =>
      refine hleads _ ((hsame hc).trans ?_)
      rw [htold l 0 0 hitem hk]
    case sameStanding =>
      refine hleads _ ((hsame hc).trans ?_)
      rw [amendLine_standing ((hkind l hitem).trans (congrArg some hk))]
    case drawn => exact hleads _ ((hstanding hc hk).trans (if_pos hd))
    case undrawn =>
      exact hleads _ ((hstanding hc hk).trans (amendStanding_undrawn hd ((hkind l hitem).trans (congrArg some hk))))
    case down =>
      intro m d
      have hn' : g.number = n := entryOf_key hg
      have hdown' := (hdown hc hk).trans (amendDown_eq g l count w0)
      rw [hn'] at hdown'
      refine ⟨fun hlt => hleads _ (hdown'.trans (if_pos hlt)), fun hle => hleads _ (hdown'.trans ((if_neg hle.not_gt).trans ?_))⟩
      rw [← htold m 0 0 hitem hk, ← hitem]
    case up =>
      intro added sub room short u m
      have hx' : x.number = item := entryOf_key hx
      have hsub : (if l.subFrom = none then x.subst else none) = sub := by
        rw [hfrom]
        unfold present
        by_cases h0 : sf = 0 <;> simp [sub, h0]
      have hshort : added - takeable x.stock added = short := by
        simp only [short, takeable]
        cases x.stock with
        | unlimited => exact Nat.sub_self added
        | limited k => rfl
      have hup' := fun y (hy : sub.getD 0 = y) => (hup hc hk).trans (amendUp_eq (hx' ▸ hx) hsub hshort hy)
      rw [hx'] at hup'
      refine ⟨fun h0 => hleads _ ((hup' _ rfl).trans ((if_pos h0).trans ?_)), fun h0 => ?_⟩
      · exact congrArg (fun i => takeAmend w0 g (putLine m g.lines) [m] [i] u.1) (htold m 0 0 hitem hk)
      · obtain ⟨y, hy⟩ : ∃ y, sub = some y :=
          Option.ne_none_iff_exists'.1 fun hno => h0 (congrArg Prod.snd (substitute_idle (.inl hno)))
        refine ⟨y, hy, ?_⟩
        intro had o held
        have ho : o.item = y := (getD_line (g := g) (item := y) (sf := some item) _ ⟨rfl, rfl⟩).1
        have hheld : amendLine w0.toKitchen o 0 0 = ⟨o.item, o.subFrom, o.count, held, 0, 0, o.shortfall⟩ := by
          rw [amendLine, committedOf, ho]
          rfl
        refine hleads _ ((hup' y (congrArg (Option.getD · 0) hy)).trans ((if_neg h0).trans ?_))
        exact congrArg₂ (fun i j => takeAmend w0 g (putLine o (putLine m g.lines)) [m, o] [i, j] u.1) (htold m y u.2 hitem hk) hheld

end Sys2Proof.Machine
end

section
/-! PROOF. RETIME: what a rebuild of a line computes and frees, and the group with its new T (R43, R46, R50, R74). -/

namespace Sys2Proof.Machine

/-! ### What a rebuild of a line computes (R43, R46) -/

theorem computeFor_eq (k : Kitchen) (g : Group) (l : Line) (idx : Nat) (c : Component) (n : Nat) :
    computeFor k g l idx c n =
      match findStation k c.station with
      | some x => if n = 0 then [] else [componentComputation k.clock g.target g.lead ⟨g.number, l.item, idx, l.subFrom⟩ c x.defn n]
      | none => [] := by
  unfold computeFor
  cases findStation k c.station <;> simp

section

variable {k : Kitchen} {g : Group} {l : Line} {i : Item}

theorem lineComputations_unplated (h : ∀ i, findItem k l.item = some i → i.kind ≠ .plated) : lineComputations k g l = [] := by
  refine if_neg fun hk => ?_
  obtain ⟨i, hi, hp⟩ := Option.map_eq_some_iff.1 hk
  exact h i hi hp

theorem lineComputations_plated (hi : findItem k l.item = some i) (hk : i.kind = .plated) :
    lineComputations k g l =
      (i.lines.mapIdx fun idx c => computeFor k g l idx c (l.count - l.shortfall - dispatchedOf k g.number l idx)).flatten := by
  rw [lineComputations, if_pos ((itemKind_some hi).trans (congrArg some hk)), componentsOf_some hi]

/-- The largest d is that of a component, or 0, and no component's d is above it. -/
theorem largestDispatched_spec (n : Nat) (hi : findItem k l.item = some i) :
    (∀ c, c < i.lines.length → dispatchedOf k n l c ≤ largestDispatched k n l) ∧
      (largestDispatched k n l = 0 ∨ ∃ c, c < i.lines.length ∧ dispatchedOf k n l c = largestDispatched k n l) := by
  have hmax : largestDispatched k n l = ((List.range i.lines.length).map (dispatchedOf k n l)).max?.getD 0 := by
    rw [largestDispatched, componentsOf_some hi, List.foldl_max, Nat.zero_max]
  rw [hmax]
  refine ⟨fun c hc => List.le_max?_getD_of_mem (List.mem_map_of_mem (List.mem_range.2 hc)), ?_⟩
  cases hm : ((List.range i.lines.length).map (dispatchedOf k n l)).max? with
  | none => exact .inl rfl
  | some d =>
    obtain ⟨c, hc, hd⟩ := List.mem_map.1 (List.max?_mem hm)
    exact .inr ⟨c, List.mem_range.1 hc, hd⟩

end

theorem dispatchedOf_eq (k : Kitchen) (n : Nat) (l : Line) (c : Nat) :
    dispatchedOf k n l c =
      ((k.tickets.filter fun t =>
        (t.group == n && t.item == l.item && t.subFrom == l.subFrom && t.kind != .standing) && t.comp == c &&
          [TicketState.sent, .posted, .cooking, .done].contains t.state).map Ticket.portions).sum := by
  unfold dispatchedOf portionsOf
  refine congrArg (fun ts => (List.map Ticket.portions ts).sum) (List.filter_congr fun t _ => ?_)
  rw [dispatched_contains, ofComponent]
  exact congrArg (· && _) (Bool.and_right_comm ..)

/-- Two updates of the same entry are one. -/
theorem updateEntry_updateEntry {α : Type} {key : α → Nat} {n : Nat} (f f' : α → α) (h : ∀ x, key (f x) = key x) (l : List α) :
    updateEntry key n f' (updateEntry key n f l) = updateEntry key n (fun x => f' (f x)) l := by
  unfold updateEntry
  rw [List.map_map]
  refine List.map_congr_left fun x _ => ?_
  by_cases hx : key x = n <;> simp [hx, h]

/-- Settles O32: the shares of a rebuild, and a RETIME as the rebuild and settling of the group with its new T. -/
theorem groupRetimed : Obligations.GroupRetimed := by
  refine ⟨fun k g l => ?line, fun s seq rest n target g h h1 h2 hg hs => ?retimed⟩
  case line =>
    intro mine d
    have hd : ∀ c, dispatchedOf k g.number l c = d c := dispatchedOf_eq k g.number l
    refine ⟨rfl, lineComputations_unplated, fun i hi => ?_⟩
    obtain ⟨hle, hsome⟩ := largestDispatched_spec g.number hi
    simp only [hd] at hle hsome
    refine ⟨hle, hsome, fun hk => ?_⟩
    refine (lineComputations_plated hi hk).trans (congrArg (fun f => (List.mapIdx f i.lines).flatten) (funext₂ fun idx c => ?_))
    rw [hd]
    exact computeFor_eq k g l idx c _
  case retimed =>
    obtain rfl : g.number = n := entryOf_key hg
    intro timed frees cs w1 sts
    have hfound : findGroup (setGroup g.number timed (rebuild frees cs (begun s.kit))).toKitchen g.number = some (timed g) :=
      findGroup_setGroup_same (fun _ => rfl) ((congrArg (entryOf Group.number g.number) (rebuild_groups ..)).trans hg)
    obtain ⟨x, hx⟩ := settleGroup_found s.kit.items (timed g) g.lines cs _ hfound
    have hsettles : Settles w1 (passSettle (handOver g.number (arbiters sts w1))) :=
      (((Settles.refl w1).arbiters sts).handOver g.number).passSettle
    refine ⟨x, _, hx, exec_asks h nofun ((judgeActive_found (w := begun s.kit) ⟨h1, h2⟩ hg hs _).trans ?_), rfl, hsettles, ?_⟩
    · show (passSettle (handOver g.number (arbiters sts w1)),
        Answer.ok (.timed (flagsAndP w1.toKitchen g.number).1 (flagsAndP w1.toKitchen g.number).2)) = _
      rw [flagsAndP_found hx]
    · refine hsettles.groups.trans ((settleGroup_plans ..).trans ?_)
      rw [setGroup_groups, rebuild_groups]
      exact congrArg (List.map Group.plan) (updateEntry_updateEntry (key := Group.number) timed _ (fun _ => rfl) s.kit.groups)

end Sys2Proof.Machine
end

section
/-! PROOF. CANCEL: the portions returned, each ticket voided or freed, and the group (R33, R52, R99). -/

namespace Sys2Proof.Machine

/-! ### A return of portions (R33) -/

section

variable {item n : Nat} {w : Work} {i : Item}

theorem giveBack_some (hn : 1 ≤ n) : giveBack item n w = setItem item (fun i => withStock (stockReturned i.stock n) i) w :=
  if_neg (by omega)

theorem findItem_giveBack_same (hn : 1 ≤ n) (h : findItem w.toKitchen item = some i) :
    findItem (giveBack item n w).toKitchen item = some (withStock (stockReturned i.stock n) i) := by
  rw [giveBack_some hn]
  exact (entryOf_updateEntry_same (key := Item.number) item (fun i => withStock (stockReturned i.stock n) i) w.items fun _ hx => hx).trans
    (congrArg (Option.map fun i => withStock (stockReturned i.stock n) i) h)

theorem findItem_giveBack_other {m : Nat} (hm : m ≠ item) :
    findItem (giveBack item n w).toKitchen m = findItem w.toKitchen m := by
  unfold giveBack
  split
  · rfl
  · exact entryOf_updateEntry_other hm _ w.items fun _ hx => hx

theorem giveBack_items (item n : Nat) (w : Work) : giveBack item n w = { w with items := (giveBack item n w).items } := by
  unfold giveBack
  split <;> rfl

/-- A return leaves an unlimited item as it was. -/
theorem returned_unlimited (hs : i.sound) (hi : i.stock = .unlimited) : withStock (stockReturned i.stock n) i = i := by
  have hx : i.exhausted = false := by
    rw [← Bool.not_eq_true, hs.1, hi]
    exact nofun
  cases i
  simp_all [withStock, stockReturned]

theorem returned_limited {v : Nat} (hn : 1 ≤ n) (hi : i.stock = .limited v) :
    withStock (stockReturned i.stock n) i = { i with stock := .limited (min (v + n) 65534), exhausted := false } := by
  have hx : (Stock.limited (min (v + n) 65534) == .limited 0) = false := by
    rw [beq_eq_decide, decide_eq_false_iff_not, Stock.limited.injEq]
    omega
  rw [hi]
  simp only [withStock, stockReturned, Config.maxStock, hx]

end

/-! ### One ticket of a cancelled group (R52, R99) -/

section

variable {t : Ticket} {w : Work}

theorem onRail_iff : onRail t = true ↔ t.state = .sent ∨ t.state = .posted ∨ t.state = .cooking := by
  simp [onRail, or_assoc]

theorem cancelTicket_voided {a : Nat} (h : onRail t = true) (ha : currentOf w.toKitchen t.station = some a) :
    cancelTicket t w =
      setTerminal a (fun x => pendVoid t.station t.number (unpendPost t.number x))
        (setTicket t.number (fun t => { t with state := .voiding }) w) := by
  rw [cancelTicket, if_pos h, ha]

theorem cancelTicket_freed (h : onRail t = false ∨ currentOf w.toKitchen t.station = none) :
    cancelTicket t w = dropTicket t.number w := by
  unfold cancelTicket
  split
  · rw [h.resolve_left (by simp [*])]
  · rfl

theorem pendVoid_eq (st n : Nat) (x : Terminal) :
    pendVoid st n x = { x with voids := if x.voids.any fun p => p.ticket == n then x.voids else x.voids ++ [⟨st, n⟩] } := by
  unfold pendVoid
  split <;> rfl

end

/-! ### The request (R52) -/

theorem cancel_admitted {w : Work} {n : Nat} {g : Group} (hn : 1 ≤ n ∧ n ≤ 512) (hg : findGroup w.toKitchen n = some g)
    (hs : g.state = .planned ∨ g.state = .firing ∨ g.state = .ready) :
    cancel n w =
      let w1 := leaveDraw n (setGroup n (fun x => { x with state := .cancelled, flags := { x.flags with held := false } }) w)
      let w2 := (w.tickets.filter fun t => t.group == n).foldl (fun w t => cancelTicket t w) w1
      let w3 := g.lines.foldl (fun w' l => giveBack l.item (cancelReturn w.toKitchen n l) w') w2
      let w4 := refreshDisplay n (forEach slotFreed (groupStations w.toKitchen n) w3)
      let left := (ticketsOf w4.toKitchen n).length
      (passSettle (if left = 0 then freeGroup n .cancelled w4 else w4), .ok (.cancelled left)) := by
  refine (judgeGroup_found hn hg _).trans (if_pos ?_)
  rw [Bool.or_eq_true, keepsProjection_iff, beq_iff_eq, or_assoc]
  exact hs

/-- Settles O34: a return by the stock, the request as its parts in order, and one ticket by its state and its station's terminal. -/
theorem groupCancelled : Obligations.GroupCancelled := by
  refine ⟨fun item n w i hi hs hn => ?returned, fun s seq rest n g h h1 h2 hg hs => ?cancelled, fun t w => ?ticket⟩
  case returned =>
    have hsame := findItem_giveBack_same hn hi
    refine ⟨fun hu => hsame.trans (congrArg some (returned_unlimited hs hu)),
      fun v hv => hsame.trans (congrArg some (returned_limited hn hv)), fun m hm => findItem_giveBack_other hm, giveBack_items item n w⟩
  case cancelled =>
    intro sts returned w1 w2 w3 w4 left
    have hleft : (ticketsOf w4.toKitchen n).length = left := List.length_map _
    have hp : cancel n (begun s.kit) =
        (passSettle (if left = 0 then freeGroup n .cancelled w4 else w4), Answer.ok (.cancelled left)) := by
      rw [← hleft]
      exact cancel_admitted (w := begun s.kit) ⟨h1, h2⟩ hg hs
    refine ⟨fun h0 => exec_asks h nofun (hp.trans ?_), fun h0 => exec_asks h nofun (hp.trans ?_)⟩
    · rw [if_pos h0, h0]
    · rw [if_neg h0]
  case ticket =>
    refine ⟨fun a hs ha => ?_, fun hs => ?_⟩
    · refine (cancelTicket_voided (onRail_iff.2 hs) ha).trans ?_
      simp only [pendVoid_eq]
      rfl
    · have hfreed : cancelTicket t w = dropTicket t.number w := by
        refine cancelTicket_freed (or_iff_not_imp_left.2 fun hr => ?_)
        have := onRail_iff.1 (eq_true_of_ne_false hr)
        rcases hs with hs | hs | hs | hs | hs <;> simp_all
      exact ⟨hfreed, congrArg (fun v : Work => v.tickets) hfreed⟩

end Sys2Proof.Machine
end

section
/-! PROOF. PICKUP: the NOTEs handed over, the display state, and the group freed with its tickets (R54, R55, R139, R146). -/

namespace Sys2Proof.Machine

/-! ### A NOTE handed over (R139) -/

section

variable {n : Note} {w : Work}

theorem handNote_turn_same {u : Turn} {m : Note} (hu : w.turn = some u) (hf : u.frame = .note m) (hm : m.group = n.group) :
    (handNote n w).turn = some { u with renewed := true } := by
  simp [handNote, hu, hf, hm]

theorem handNote_turn_other (h : ∀ u m, w.turn = some u → u.frame = .note m → m.group ≠ n.group) : (handNote n w).turn = w.turn := by
  cases hu : w.turn with
  | none => simp [handNote, hu]
  | some u =>
    simp only [handNote, hu, Option.map_some, Option.some.injEq]
    split
    · exact if_neg (h u _ hu ‹_›)
    · rfl

theorem noteOnPair_iff {turn : Option Turn} {address g : Nat} :
    noteOnPair turn address g = true ↔ ∃ u m, turn = some u ∧ u.frame = .note m ∧ u.address = address ∧ m.group = g := by
  unfold noteOnPair
  cases turn with
  | none => simp
  | some u => cases hf : u.frame <;> simp [hf]

/-- A GONE for a group that the terminal neither shows nor is being sent. -/
def Note.unsent (turn : Option Turn) (n : Note) (t : Terminal) : Prop :=
  n.state = .gone ∧ (∀ m ∈ t.shown, m.group ≠ n.group) ∧
    ¬∃ u m, turn = some u ∧ u.frame = .note m ∧ u.address = t.address ∧ m.group = n.group

variable {turn : Option Turn} {t : Terminal}

theorem unsent_test : (n.state = .gone && !(t.shown.any (fun m => m.group == n.group)) && !(noteOnPair turn t.address n.group)) = true ↔
    n.unsent turn t := by
  rw [Note.unsent, ← noteOnPair_iff]
  simp [and_assoc]

theorem enterNote_station (h : t.kind = .station) : enterNote turn n t = t := if_neg (by rw [h]; exact nofun)

theorem enterNote_unsent (h : t.kind = .pass) (hu : n.unsent turn t) :
    enterNote turn n t = { t with notes := t.notes.filter fun m => m.group != n.group } :=
  (if_pos h).trans (if_pos (unsent_test.2 hu))

theorem enterNote_placed (h : t.kind = .pass) (hu : ¬n.unsent turn t) : enterNote turn n t = { t with notes := placeNote n t.notes } :=
  (if_pos h).trans (if_neg (mt unsent_test.1 hu))

theorem placeNote_new {l : List Note} (h : ∀ m ∈ l, m.group ≠ n.group) : placeNote n l = l ++ [n] :=
  if_neg (by simpa using h)

theorem placeNote_held {before later : List Note} {old : Note} (ho : old.group = n.group) (hb : ∀ m ∈ before, m.group ≠ n.group)
    (hl : ∀ m ∈ later, m.group ≠ n.group) : placeNote n (before ++ old :: later) = before ++ n :: later := by
  have kept : ∀ l : List Note, (∀ m ∈ l, m.group ≠ n.group) → l.map (fun m => if m.group == n.group then n else m) = l :=
    fun l h => (List.map_congr_left fun m hm => if_neg (by simpa using h m hm)).trans (List.map_id' l)
  rw [placeNote, if_pos (by simp [ho]), List.map_append, List.map_cons, kept before hb, kept later hl, if_pos (beq_iff_eq.2 ho)]

end

/-! ### The display state (R146) -/

theorem displayOf_eq (g : Group) :
    displayOf g =
      if g.flags.dying = true ∧ (g.state = .firing ∨ g.state = .ready) then some .dying
      else if g.state = .ready then some .ready else none := by
  unfold displayOf
  congr 1
  simp

section

variable {n : Nat} {w : Work} {g : Group} (hg : findGroup w.toKitchen n = some g)

include hg

theorem refreshDisplay_same (h : displayOf g = g.display) : refreshDisplay n w = w := by
  rw [refreshDisplay, hg]
  exact if_pos h

theorem refreshDisplay_changed (h : displayOf g ≠ g.display) :
    refreshDisplay n w =
      handNote ⟨n, g.sect, noteState (displayOf g)⟩ (setGroup n (fun g => { g with display := displayOf g }) w) := by
  rw [refreshDisplay, hg]
  exact if_neg h

end

/-! ### The group freed (R54) -/

theorem renewNext_kept (ss : List Station) (n : Nat) (t : Terminal) :
    ((renewNext ss n t).health, (renewNext ss n t).notes, (renewNext ss n t).shown) = (t.health, t.notes, t.shown) := by
  rw [renewNext_eq]
  rfl

/-- What the freeing of tickets leaves of the kitchen, and of each station and terminal. -/
theorem forEach_dropTicket_rest (ns : List Nat) (w : Work) :
    (forEach dropTicket ns w).items = w.items ∧ (forEach dropTicket ns w).out = w.out ∧
      (forEach dropTicket ns w).stations.map Station.post = w.stations.map Station.post ∧
      (forEach dropTicket ns w).terminals.map (fun t => (t.health, t.notes, t.shown)) =
        w.terminals.map (fun t => (t.health, t.notes, t.shown)) := by
  refine List.foldlRecOn (motive := fun v : Work => v.items = w.items ∧ v.out = w.out ∧
    v.stations.map Station.post = w.stations.map Station.post ∧
      v.terminals.map (fun t => (t.health, t.notes, t.shown)) = w.terminals.map (fun t => (t.health, t.notes, t.shown)))
    ns _ ⟨rfl, rfl, rfl, rfl⟩ fun v hv n _ => ?_
  obtain ⟨hi, ho, hs, ht⟩ := hv
  refine ⟨hi, ho, ?_, ?_⟩
  · rw [← hs]
    simp [dropTicket, Function.comp_def]
  · rw [← ht, dropTicket, List.map_map]
    exact List.map_congr_left fun t _ => renewNext_kept v.stations n (unpendVoid n (unpendPost n t))

/-- The kitchen a group leaves, before its tickets are freed. -/
def announced (n : Nat) (g : Group) (final : GroupState) (w : Work) : Work :=
  handNote ⟨n, g.sect, .gone⟩ (raise (.grpgone n g.tag final) w)

theorem freeGroup_found {n : Nat} {w : Work} {g : Group} (final : GroupState) (hg : findGroup w.toKitchen n = some g) :
    freeGroup n final w =
      let v := forEach dropTicket (ticketsOf w.toKitchen n) (announced n g final w)
      { v with groups := w.groups.filter (fun x => x.number != n), drawOrder := w.drawOrder.filter (fun m => m != n) } := by
  obtain ⟨-, hgroups, -, hdraw, -⟩ := forEach_dropTicket (ticketsOf w.toKitchen n) (announced n g final w)
  have h1 : (announced n g final w).groups = w.groups := rfl
  have h2 : (announced n g final w).drawOrder = w.drawOrder := rfl
  rw [← h1, ← hgroups, ← h2, ← hdraw, freeGroup, hg]
  rfl

theorem ticketsOf_contains (k : Kitchen) (n m : Nat) :
    (ticketsOf k n).contains m = k.tickets.any fun u => u.group == n && u.number == m := by
  rw [Bool.eq_iff_iff]
  simp [ticketsOf, and_assoc]

/-- Settles O36: the group freed part by part, the NOTE entered at each terminal by what it shows and is sent, and the display state. -/
theorem groupPickedUp : Obligations.GroupPickedUp := by
  refine ⟨fun s seq rest n g h h1 h2 hg hs => ?pickup, fun n w => ?note, fun n w g hg => ?display⟩
  case note =>
    refine ⟨rfl, rfl, fun u m => handNote_turn_same, handNote_turn_other, fun t _ => ⟨enterNote_station, enterNote_unsent,
      fun hk hu hn => ?_, fun before old later hk hu he ho hb hl => ?_⟩⟩
    · rw [enterNote_placed hk hu, placeNote_new hn]
    · rw [enterNote_placed hk hu, he, placeNote_held ho hb hl]
  case display =>
    intro shows told
    have hshows : displayOf = shows := funext displayOf_eq
    have hchanged : shows g ≠ g.display → refreshDisplay n w = told (noteState (shows g)) := fun hne => by
      rw [refreshDisplay_changed hg (hshows ▸ hne)]
      simp only [told, hshows]
    refine ⟨fun he => refreshDisplay_same hg ((displayOf_eq g).trans he), fun he hne => ?_, fun he hne => ?_, fun he hne => ?_⟩
    all_goals exact (hchanged (he ▸ hne.symm)).trans (by rw [he]; rfl)
  case pickup =>
    intro w gone
    obtain ⟨htickets, -, hnext, -, -⟩ := forEach_dropTicket (ticketsOf s.kit n) (announced n g .served (begun s.kit))
    obtain ⟨hitems, hout, hstations, hterminals⟩ :=
      forEach_dropTicket_rest (ticketsOf s.kit n) (announced n g .served (begun s.kit))
    have hw : w = _ := freeGroup_found .served hg
    refine ⟨exec_asks h nofun ((judgeGroup_found (w := begun s.kit) ⟨h1, h2⟩ hg _).trans (if_pos hs)), ?_⟩
    simp only [ticketsOf_contains] at htickets
    clear_value w
    subst hw
    exact ⟨rfl, htickets, rfl, hout, hitems, hstations, hnext, hterminals, (Settles.refl _).passSettle⟩

end Sys2Proof.Machine
end

section
/-! PROOF. HOLD: the group leaves the draw order, and no ticket of it is granted while it is held (R51, R87). -/

namespace Sys2Proof.Machine

/-! ### A number for a new ticket, wherever the counter stands (R82) -/

theorem numberAfter_outside {n : Nat} (h : ¬(1 ≤ n ∧ n ≤ 9999)) : numberAfter n = 1 := by
  unfold numberAfter Config.maxTicketNumber
  split <;> omega

theorem pickNumber_unused (used : List Nat) (n : Nat) (hl : used.length < 9999) : pickNumber used used.length n ∉ used := by
  by_cases hr : 1 ≤ n ∧ n ≤ 9999
  · exact pickNumber_fresh used n hr.1 hr.2 hl
  · intro h
    cases hlen : used.length with
    | zero => simp [List.length_eq_zero_iff.1 hlen] at h
    | succ len =>
      rw [hlen, pickNumber] at h
      have hn : n ∈ used := by
        by_contra hno
        rw [if_neg (by simpa using hno)] at h
        exact hno h
      rw [if_pos (by simpa using hn), numberAfter_outside hr] at h
      have hused := pickNumber_used used len 1 le_rfl (by omega) h
      have hnodup : (n :: (List.range used.length).map (numberFrom 1)).Nodup := by
        refine List.nodup_cons.2 ⟨fun hm => ?_, List.nodup_range.map_on fun a ha b hb e => ?_⟩
        · obtain ⟨i, -, hi⟩ := List.mem_map.1 hm
          unfold numberFrom at hi
          omega
        · simp only [List.mem_range] at ha hb
          unfold numberFrom at e
          omega
      have hsub : (n :: (List.range used.length).map (numberFrom 1)) ⊆ used := by
        refine List.cons_subset.2 ⟨hn, fun x hx => ?_⟩
        obtain ⟨i, hi, rfl⟩ := List.mem_map.1 hx
        exact hused i (by have := List.mem_range.1 hi; omega)
      have := (hnodup.subperm hsub).length_le
      simp at this

/-! ### What leaves the tickets as they are -/

theorem atCurrent_tickets (st : Nat) (f : Terminal → Terminal) (w : Work) : (atCurrent st f w).tickets = w.tickets := by
  unfold atCurrent
  split
  · split <;> rfl
  · rfl

theorem groupSent_tickets (n : Nat) (w : Work) : (groupSent n w).tickets = w.tickets := recompute_tickets ..

theorem reviseStaged_tickets (st : Nat) (w : Work) : (reviseStaged st w).tickets = w.tickets := by
  unfold reviseStaged
  split
  · split
    · rfl
    · exact atCurrent_tickets ..
  · rfl

theorem refreshDisplay_tickets (n : Nat) (w : Work) : (refreshDisplay n w).tickets = w.tickets := by
  unfold refreshDisplay
  split
  · split <;> rfl
  · rfl

theorem becomeReady_tickets (n : Nat) (w : Work) : (becomeReady n w).tickets = w.tickets := by
  unfold becomeReady
  split
  · exact refreshDisplay_tickets ..
  · rfl

theorem drawLine_tickets (n : Nat) (l : Line) (w : Work) : (drawLine n l w).tickets = w.tickets := by
  unfold drawLine
  split
  · dsimp only
    split <;> rfl
  · rfl

theorem drawGroup_tickets (n : Nat) (ls : List Line) (w : Work) : (drawGroup n ls w).tickets = w.tickets := by
  refine (becomeReady_tickets ..).trans ?_
  exact List.foldlRecOn (motive := fun v : Work => v.tickets = w.tickets) ls _ rfl fun v hv l _ => (drawLine_tickets n l v).trans hv

theorem drawWalk_tickets (ns ahead : List Nat) (w : Work) : (drawWalk ns ahead w).tickets = w.tickets := by
  induction ns generalizing ahead w with
  | nil => rfl
  | cons n rest ih =>
    unfold drawWalk
    split
    · dsimp only
      split
      · exact ih ..
      · exact (ih ..).trans (drawGroup_tickets ..)
    · exact ih ..

/-! ### A held group's tickets, kept -/

/-- Group n is held, its tickets are those given, and no two tickets have one number. -/
structure Work.holds (n : Nat) (ts : List Ticket) (w : Work) : Prop where
  held : groupHeld w.toKitchen n = true
  distinct : (w.tickets.map Ticket.number).Nodup
  kept : w.tickets.filter (fun t => t.group == n) = ts

theorem groupHeld_plan (k : Kitchen) (n : Nat) : groupHeld k n = (((findGroup k n).map Group.plan).map fun g => g.flags.held).getD false := by
  unfold groupHeld
  cases findGroup k n <;> rfl

section

variable {n : Nat} {ts : List Ticket} {w w' : Work}

theorem Settles.groupHeld (h : Settles w w') (n : Nat) : Machine.groupHeld w'.toKitchen n = Machine.groupHeld w.toKitchen n := by
  rw [groupHeld_plan, groupHeld_plan, h.findGroup]

theorem Work.holds.settles (h : w.holds n ts) (hs : Settles w w') (ht : w'.tickets = w.tickets) : w'.holds n ts :=
  ⟨(hs.groupHeld n).trans h.held, ht ▸ h.distinct, ht ▸ h.kept⟩

theorem becomeSent_number (t : Ticket) : (becomeSent t).number = t.number := by
  unfold becomeSent
  split <;> rfl

theorem becomeSent_group (t : Ticket) : (becomeSent t).group = t.group := by
  unfold becomeSent
  split <;> rfl

/-- A ticket granted is of another group than the held one. -/
theorem Work.holds.grant (h : w.holds n ts) {t : Ticket} (ht : t ∈ w.tickets) (hg : groupHeld w.toKitchen t.group = false) :
    (Machine.grant t w).holds n ts := by
  have hother : t.group ≠ n := fun e => by simp [e, h.held] at hg
  have htickets : (Machine.grant t w).tickets = updateEntry Ticket.number t.number becomeSent w.tickets :=
    (groupSent_tickets ..).trans (atCurrent_tickets ..)
  have hnumbers := updateEntry_map (key := Ticket.number) Ticket.number t.number becomeSent w.tickets fun u _ _ => becomeSent_number u
  have hgroups : ∀ u : Ticket, (if u.number = t.number then becomeSent u else u).group = u.group := fun u => by
    split
    · exact becomeSent_group u
    · rfl
  refine ⟨(((Settles.refl w).grant t).groupHeld n).trans h.held, htickets ▸ hnumbers ▸ h.distinct, ?_⟩
  rw [htickets, ← h.kept, updateEntry, List.filter_map]
  simp only [Function.comp_def, hgroups]
  refine (List.map_congr_left fun u hu => if_neg fun e => ?_).trans (List.map_id' _)
  obtain ⟨hmem, hgroup⟩ := List.mem_filter.1 hu
  have : u = t := List.inj_on_of_nodup_map h.distinct hmem ht e
  exact hother (this ▸ beq_iff_eq.1 hgroup)

theorem Work.holds.grantOne (h : w.holds n ts) (st : Nat) : (Machine.grantOne st w).holds n ts := by
  unfold Machine.grantOne
  split
  · split
    · split
      · rename_i s _ _ _ t ht
        have he : eligible w.toKitchen s t = true := List.find?_some ht
        simp only [eligible, Bool.and_eq_true, Bool.not_eq_true'] at he
        exact h.grant (mem_queueOf (List.mem_of_find?_eq_some ht)).1 he.1.2
      · exact h
    · exact h
  · exact h

theorem Work.holds.grantSlots (h : w.holds n ts) (st m : Nat) : (Machine.grantSlots st m w).holds n ts := by
  induction m generalizing w with
  | zero => exact h
  | succ m ih => exact ih (h.grantOne st)

/-- No slot arbiter grants a ticket of a held group (R87). -/
theorem Work.holds.arbiter (h : w.holds n ts) (st : Nat) : (Machine.arbiter st w).holds n ts := by
  unfold Machine.arbiter
  split
  · exact (h.grantSlots st _).settles ((Settles.refl _).reviseStaged st) (reviseStaged_tickets ..)
  · exact h

theorem Work.holds.forEach (h : w.holds n ts) {f : Nat → Work → Work} (hf : ∀ m w, w.holds n ts → (f m w).holds n ts) (ms : List Nat) :
    (Machine.forEach f ms w).holds n ts := List.foldlRecOn ms _ h fun v hv m _ => hf m v hv

/-- A ticket of another group takes a number that is not in use. -/
theorem Work.holds.createTicket (h : w.holds n ts) (d : TicketDesc) (hd : d.group ≠ n) (room : w.tickets.length < 2048) :
    (Machine.createTicket d w).holds n ts := by
  have hf := pickNumber_unused (w.tickets.map Ticket.number) w.nextTicket (by rw [List.length_map]; omega)
  rw [List.length_map] at hf
  refine ⟨h.held, ?_, ?_⟩
  · simp only [Machine.createTicket, List.map_append, List.map_cons, List.map_nil]
    exact h.distinct.append (List.nodup_singleton _) (by simpa using hf)
  · simp only [Machine.createTicket, List.filter_append, h.kept]
    simp [hd]

/-- A standing run is of no group (R152). -/
theorem Work.holds.createRun (h : w.holds n ts) (hn : n ≠ 0) (i : Item) (room : w.tickets.length < 2048) :
    (Machine.createRun i w).holds n ts := by
  unfold Machine.createRun
  split
  · exact h
  · split
    · refine Work.holds.arbiter (Work.holds.createTicket ?_ _ hn.symm ?_) _
      · refine h.settles (((Settles.refl w).commit ..).settleStock _) ?_
        rw [settleStock_eq]
        exact (commit_groups ..).2
      · rw [settleStock_eq]
        exact (congrArg List.length (commit_groups ..).2).trans_lt room
    · exact h

theorem Work.holds.runTest (h : w.holds n ts) (hn : n ≠ 0) (item : Nat) : (Machine.runTest item w).holds n ts := by
  unfold Machine.runTest
  split
  · split
    · rename_i i _ hw
      rw [runWanted, Bool.and_eq_true] at hw
      have hroom : 0 < 2048 - w.tickets.length := of_decide_eq_true hw.2
      exact h.createRun hn i (by omega)
    · exact h
  · exact h

theorem Work.holds.passRounds (h : w.holds n ts) (hn : n ≠ 0) (m : Nat) : (Machine.passRounds m w).holds n ts := by
  induction m generalizing w with
  | zero => exact h
  | succ m ih =>
    have hround : (runTests (drawPass w)).holds n ts :=
      (h.settles ((Settles.refl w).drawWalk ..) (drawWalk_tickets ..)).forEach (fun item _ hv => hv.runTest hn item) _
    unfold Machine.passRounds
    dsimp only
    split
    · exact hround
    · exact ih hround

theorem Work.holds.passSettle (h : w.holds n ts) (hn : n ≠ 0) : (Machine.passSettle w).holds n ts := by
  unfold Machine.passSettle
  split
  · exact h.passRounds hn _
  · exact h

end

/-! ### The request (R51) -/

/-- A held group is not ready, and leaves the draw order (R143, R153). -/
theorem checkDraw_held {n : Nat} {w : Work} {g : Group} (hg : findGroup w.toKitchen n = some g) (hh : g.flags.held = true) :
    checkDraw n w = leaveDraw n w := by
  rw [checkDraw, hg]
  exact if_neg (by simp [testPasses, hh])

/-- Settles O33: a held group stands as it was; a group newly held leaves the draw order, and the arbiters and the Pass Unit keep its
tickets. -/
theorem Settled.groupHeld : Obligations.GroupHeld := by
  intro s seq rest n g h h1 h2 hg hs answer
  have hjudged : hold n (begun s.kit) = if g.flags.held then _ else _ := judgeActive_found (w := begun s.kit) ⟨h1, h2⟩ hg hs _
  refine ⟨fun hh => exec_turnedAway h nofun (hjudged.trans (if_pos hh)), fun hh => ?_⟩
  intro w1 sts
  have hfound : findGroup w1.toKitchen n = some { g with flags := { g.flags with held := true } } :=
    findGroup_setGroup_same (f := fun x => { x with flags := { x.flags with held := true } }) (fun _ => rfl) hg
  have hdraw : checkDraw n w1 = { w1 with drawOrder := dropNumber n s.kit.drawOrder } := checkDraw_held hfound rfl
  have hleft : Settles w1 { w1 with drawOrder := dropNumber n s.kit.drawOrder } := (Settles.refl w1).drawOrder _
  refine ⟨_, exec_asks h nofun (hjudged.trans ((if_neg (by simp [hh])).trans ?_)), rfl, (hleft.arbiters sts).passSettle,
    fun hnodup => ?_⟩
  · rw [← hdraw]
    rfl
  · have hheld : w1.holds n (s.kit.tickets.filter fun t => t.group == n) :=
      ⟨by rw [groupHeld_plan, hfound]; rfl, hnodup, rfl⟩
    exact (((hheld.settles hleft rfl).forEach (fun st _ hv => hv.arbiter st) sts).passSettle (by omega)).kept

end Sys2Proof.Machine
end

section
/-! PROOF. The timing arithmetic (04_back_timing_arithmetic.md): the batches of a computation, the load band, the tickets a computation
describes, the projected pass time and the life end (R66 to R78, R147). -/

namespace Sys2Proof.Machine

/-! ### Ceilings and the number of batches (R67) -/

section

variable {x y : Nat}

theorem ceilDiv_eq (hy : 1 ≤ y) : ceilDiv x y = (x + y - 1) / y := by
  rw [ceilDiv, Nat.add_sub_assoc hy]

theorem ceilDiv_pred (hx : 1 ≤ x) (hy : 1 ≤ y) : ceilDiv x y = (x - 1) / y + 1 := by
  rw [ceilDiv, show x + (y - 1) = x - 1 + y by omega, Nat.add_div_right _ hy]

end

section

variable {n limit : Nat}

theorem batchCount_pos (hn : 1 ≤ n) (hl : 1 ≤ limit) : 1 ≤ batchCount n limit := by
  rw [batchCount, ceilDiv_pred hn hl]
  exact Nat.le_add_left ..

theorem batchCount_le_portions (hl : 1 ≤ limit) : batchCount n limit ≤ n :=
  (batchCount_le n limit hl).2 n (Nat.le_mul_of_pos_right n hl)

theorem fewer_batches_overflow (hl : 1 ≤ limit) {k : Nat} (hk : k < batchCount n limit) : k * limit < n := by
  by_contra h
  exact absurd ((batchCount_le n limit hl).2 k (not_lt.1 h)) (not_le.2 hk)

/-! ### The sizes of the batches (R67) -/

theorem batchSizes_eq (n limit : Nat) :
    batchSizes n limit =
      List.replicate (n % batchCount n limit) (n / batchCount n limit + 1) ++
        List.replicate (batchCount n limit - n % batchCount n limit) (n / batchCount n limit) := by
  rw [batchSizes, Nat.mod_eq_sub_div_mul]

theorem largestBatch_eq (n limit : Nat) :
    largestBatch n limit =
      if 0 < n % batchCount n limit then n / batchCount n limit + 1 else n / batchCount n limit := by
  rw [largestBatch, Nat.mod_eq_sub_div_mul]

theorem batchSizes_getElem?_larger {j : Nat} (hj : j < n % batchCount n limit) :
    (batchSizes n limit)[j]? = some (n / batchCount n limit + 1) := by
  rw [batchSizes_eq, List.getElem?_append_left (by simpa using hj), List.getElem?_replicate, if_pos hj]

theorem batchSizes_getElem?_smaller {j : Nat} (hr : n % batchCount n limit ≤ j) (hj : j < batchCount n limit) :
    (batchSizes n limit)[j]? = some (n / batchCount n limit) := by
  rw [batchSizes_eq, List.getElem?_append_right (by simpa using hr), List.length_replicate, List.getElem?_replicate,
    if_pos (by omega)]

section

variable (hn : 1 ≤ n) (hl : 1 ≤ limit)

include hn hl

theorem remainder_lt_batchCount : n % batchCount n limit < batchCount n limit :=
  Nat.mod_lt n (batchCount_pos hn hl)

theorem batchSizes_length : (batchSizes n limit).length = batchCount n limit := by
  have hr := remainder_lt_batchCount hn hl
  rw [batchSizes_eq, List.length_append, List.length_replicate, List.length_replicate]
  omega

theorem mem_batchSizes {p : Nat} :
    p ∈ batchSizes n limit ↔
      (0 < n % batchCount n limit ∧ p = n / batchCount n limit + 1) ∨ p = n / batchCount n limit := by
  have hr := remainder_lt_batchCount hn hl
  have hsmaller : batchCount n limit - n % batchCount n limit ≠ 0 := by omega
  simp [batchSizes_eq, List.mem_replicate, hsmaller, Nat.pos_iff_ne_zero]

theorem batchSizes_within {p : Nat} (hp : p ∈ batchSizes n limit) : 1 ≤ p ∧ p ≤ limit := by
  have hq : 1 ≤ n / batchCount n limit := Nat.div_pos (batchCount_le_portions hl) (batchCount_pos hn hl)
  refine ⟨?_, ?_⟩
  · rcases (mem_batchSizes hn hl).1 hp with ⟨-, rfl⟩ | rfl <;> omega
  · simpa [hl] using (batchSizes_spec n limit hn).2.1 p hp

theorem batchSizes_even {p p' : Nat} (hp : p ∈ batchSizes n limit) (hp' : p' ∈ batchSizes n limit) : p ≤ p' + 1 := by
  rw [mem_batchSizes hn hl] at hp hp'
  omega

theorem largestBatch_mem : largestBatch n limit ∈ batchSizes n limit := by
  rw [mem_batchSizes hn hl, largestBatch_eq]
  split
  · exact .inl ⟨‹_›, rfl⟩
  · exact .inr rfl

theorem le_largestBatch {p : Nat} (hp : p ∈ batchSizes n limit) : p ≤ largestBatch n limit := by
  rw [mem_batchSizes hn hl] at hp
  rw [largestBatch_eq]
  split <;> omega

end

end

/-- Settles O53: with n = q × b + r, r batches of q + 1 stand before b − r of q, and b is the least number with n ≤ b × B. -/
theorem batchesCoverPortions : Obligations.BatchesCoverPortions := by
  intro n limit hn hmost hl
  rw [← ceilDiv_eq hl, ← batchCount]
  intro b q r sizes
  have hr : r = n % b := Nat.mod_eq_sub_div_mul.symm
  rw [hr]
  exact ⟨batchSizes_length hn hl, batchCount_pos hn hl, (batchCount_le_portions hl).trans hmost,
    fun _ => fewer_batches_overflow hl, remainder_lt_batchCount hn hl, fun _ => batchSizes_getElem?_larger,
    fun _ => batchSizes_getElem?_smaller, (batchSizes_spec n limit hn).1, fun _ => batchSizes_within hn hl,
    fun _ hp _ => batchSizes_even hn hl hp, largestBatch_mem hn hl, fun _ => le_largestBatch hn hl, largestBatch_eq n limit⟩

/-! ### The load band and the effective cook time (R68, R69) -/

/-- The four bands are intervals that meet at a quarter, a half and three quarters of the limit (R68). -/
theorem loadBand_cases (m limit : Nat) :
    (loadBand m limit = 0 ∧ m * 100 ≤ 25 * limit) ∨
    (loadBand m limit = 1 ∧ 25 * limit < m * 100 ∧ m * 100 ≤ 50 * limit) ∨
    (loadBand m limit = 2 ∧ 50 * limit < m * 100 ∧ m * 100 ≤ 75 * limit) ∨
    (loadBand m limit = 3 ∧ 75 * limit < m * 100) := by
  unfold loadBand
  split_ifs <;> omega

theorem loadBand_iff (m limit : Nat) :
    (loadBand m limit = 0 ↔ m * 100 ≤ 25 * limit) ∧
    (loadBand m limit = 1 ↔ 25 * limit < m * 100 ∧ m * 100 ≤ 50 * limit) ∧
    (loadBand m limit = 2 ↔ 50 * limit < m * 100 ∧ m * 100 ≤ 75 * limit) ∧
    (loadBand m limit = 3 ↔ 75 * limit < m * 100) := by
  have hcases := loadBand_cases m limit
  omega

section

variable {cook band p : Nat} {load : List Nat}

theorem effectiveCook_of_entry (h : load[band]? = some p) : effectiveCook cook load band = cook + ceilDiv (cook * p) 100 := by
  rw [effectiveCook, List.getD_eq_getElem?_getD, h, Option.getD_some]

/-- Ceff is the least whole number of seconds that is at least C × (100 + p) / 100 (R69). -/
theorem effectiveCook_bounds (h : load[band]? = some p) :
    effectiveCook cook load band * 100 < cook * 100 + cook * p + 100 ∧
      cook * 100 + cook * p ≤ effectiveCook cook load band * 100 := by
  rw [effectiveCook_of_entry h, ceilDiv]
  omega

theorem effectiveCook_le_double (h : load[band]? = some p) (hp : p ≤ 100) : effectiveCook cook load band ≤ 2 * cook := by
  have hless : cook * p ≤ cook * 100 := Nat.mul_le_mul_left cook hp
  have := (effectiveCook_bounds (cook := cook) h).1
  omega

end

/-- Settles O54: the bands are the intervals of `loadBand_cases`, Ceff is a ceiling, and every described ticket carries that Ceff. -/
theorem loadBandAndEffectiveCook : Obligations.LoadBandAndEffectiveCook := by
  refine ⟨loadBand_iff, fun cook band p load h => ?_, fun clock target lead n key c d t ht => ?_, fun _ _ _ _ _ => rfl⟩
  · obtain ⟨hbelow, habove⟩ := effectiveCook_bounds (cook := cook) h
    refine ⟨hbelow, habove, fun hcook hp => ?_, ?_, ?_, ?_⟩
    · have := effectiveCook_le_double (cook := cook) h hp
      omega
    all_goals
      rintro rfl
      omega
  · obtain ⟨_, _, -, rfl⟩ := mem_mapIdx_desc ht
    rfl

/-! ### The waves of a computation (R70 to R72) -/

section

variable {b slots : Nat}

theorem last_wave (hb : 1 ≤ b) (hs : 1 ≤ slots) : (b - 1) / slots = ceilDiv b slots - 1 := by
  rw [ceilDiv_pred hb hs, Nat.add_sub_cancel]

theorem wave_lt (hs : 1 ≤ slots) {j : Nat} (hj : j < b) : j / slots < ceilDiv b slots := by
  rw [ceilDiv_pred (by omega) hs, Nat.lt_succ_iff]
  exact Nat.div_le_div_right (by omega)

end

theorem latestStart_eq (due : Int) (ceff step : Nat) {waves wave : Nat} (h : wave < waves) :
    latestStart due ceff step waves wave = due - ceff - ((waves : Int) - 1 - wave) * (ceff + step) := by
  have hlater : ((waves - 1 - wave : Nat) : Int) = (waves : Int) - 1 - wave := by omega
  rw [latestStart, Nat.cast_mul, hlater, Nat.cast_add]

theorem latestStart_last (due : Int) (ceff step waves : Nat) :
    latestStart due ceff step waves (waves - 1) = due - ceff := by
  simp [latestStart]

theorem releaseTime_cast (start : Int) (advance clock : Nat) :
    (releaseTime start advance clock : Int) = max (start - advance) clock :=
  Int.toNat_of_nonneg (le_max_of_le_right (Int.natCast_nonneg clock))

/-- The ticket that a component computation describes for batch j, of p portions (R70 to R73). -/
theorem componentComputation_ticket (clock target lead : Nat) (key : CompKey) {c : Component} (d : StationDef) {n j p : Nat}
    (hp : (batchSizes n c.batch)[j]? = some p) :
    let ceff := effectiveCook c.cook d.load (loadBand (largestBatch n c.batch) c.batch)
    let start := latestStart (dueTime target lead c.rest) ceff d.step (ceilDiv (batchCount n c.batch) d.slots) (j / d.slots)
    (componentComputation clock target lead key c d n).tickets[j]? =
      some ⟨c.station, key.group, key.item, key.comp, key.subFrom, p, .normal, releaseTime start d.advance clock, start + ceff, ceff,
        d.advance⟩ := by
  intro ceff start
  rw [componentComputation, List.getElem?_mapIdx, hp]
  rfl

/-- The ticket that a refire computation describes for batch j, of p portions (R75). -/
theorem refireComputation_ticket (clock : Nat) (key : CompKey) {c : Component} (d : StationDef) {n j p : Nat}
    (hp : (batchSizes n c.batch)[j]? = some p) :
    let ceff := effectiveCook c.cook d.load (loadBand (largestBatch n c.batch) c.batch)
    (refireComputation clock key c d n).tickets[j]? =
      some ⟨c.station, key.group, key.item, key.comp, key.subFrom, p, .rush, clock,
        ((clock + d.advance + ceff + j / d.slots * (ceff + d.step) : Nat) : Int), ceff, d.advance⟩ := by
  intro ceff
  rw [refireComputation, List.getElem?_mapIdx, hp]
  rfl

section

variable {n : Nat} {c : Component} (hn : 1 ≤ n) (hB : 1 ≤ c.batch)

include hn hB

theorem componentComputation_length (clock target lead : Nat) (key : CompKey) (d : StationDef) :
    (componentComputation clock target lead key c d n).tickets.length = batchCount n c.batch :=
  List.length_mapIdx.trans (batchSizes_length hn hB)

theorem refireComputation_length (clock : Nat) (key : CompKey) (d : StationDef) :
    (refireComputation clock key c d n).tickets.length = batchCount n c.batch :=
  List.length_mapIdx.trans (batchSizes_length hn hB)

/-- The last batch is of the last wave, and due at T − D − R (R66, R70). -/
theorem componentComputation_last_due {clock target lead : Nat} {key : CompKey} {d : StationDef} (hs : 1 ≤ d.slots) {t : TicketDesc}
    (ht : (componentComputation clock target lead key c d n).tickets[batchCount n c.batch - 1]? = some t) :
    t.due = dueTime target lead c.rest := by
  have hb := batchCount_pos hn hB
  have hlast : batchCount n c.batch - 1 < (batchSizes n c.batch).length := by
    rw [batchSizes_length hn hB]
    omega
  rw [componentComputation_ticket clock target lead key d (List.getElem?_eq_getElem hlast), last_wave hb hs, latestStart_last] at ht
  cases ht
  exact sub_add_cancel ..

end

/-- Settles O55: the wave of a batch is below the number of waves, and the last batch's wave is the last one. -/
theorem componentTicketsDescribed : Obligations.ComponentTicketsDescribed := by
  refine ⟨fun clock target lead n key c d hn hB hs => ?_, fun clock n key c d hn hB hs => ?_⟩
  · rw [← ceilDiv_eq hB, ← batchCount]
    intro made ceff b
    rw [← ceilDiv_eq hs]
    intro waves due
    refine ⟨componentComputation_length hn hB .., fun j p hj hp => ?_, fun t => componentComputation_last_due hn hB hs, rfl,
      decide_eq_true_iff⟩
    intro wave start
    have hstart : latestStart due ceff d.step waves wave = start := latestStart_eq due ceff d.step (wave_lt hs hj)
    refine ⟨_, componentComputation_ticket clock target lead key d hp, rfl, rfl, rfl, rfl, rfl, rfl, rfl, ?_, rfl, rfl, ?_⟩
    · exact congrArg (· + (ceff : Int)) hstart
    · exact (releaseTime_cast ..).trans (congrArg (fun s => max (s - (d.advance : Int)) clock) hstart)
  · rw [← ceilDiv_eq hB, ← batchCount]
    intro made ceff b
    rw [← ceilDiv_eq hs]
    intro waves
    refine ⟨refireComputation_length hn hB .., fun j p hj hp => ?_, rfl, rfl, rfl, rfl⟩
    rw [refireComputation_ticket clock key d hp]
    push_cast
    rfl

/-! ### The largest and the least of a list of times -/

theorem latest_eq_max? (l : List Int) : latest l = l.max? := by cases l <;> rfl

theorem earliest_eq_min? (l : List Int) : earliest l = l.min? := by cases l <;> rfl

theorem latest_none {l : List Int} : latest l = none ↔ l = [] := by
  rw [latest_eq_max?, List.max?_eq_none_iff]

theorem latest_some {l : List Int} {x : Int} : latest l = some x ↔ x ∈ l ∧ ∀ y ∈ l, y ≤ x := by
  rw [latest_eq_max?, List.max?_eq_some_iff]

theorem earliest_none {l : List Int} : earliest l = none ↔ l = [] := by
  rw [earliest_eq_min?, List.min?_eq_none_iff]

theorem earliest_some {l : List Int} {x : Int} : earliest l = some x ↔ x ∈ l ∧ ∀ y ∈ l, x ≤ y := by
  rw [earliest_eq_min?, List.min?_eq_some_iff]

/-! ### The expected done of a ticket (R77) -/

section

variable {clock : Nat} {t : Ticket}

theorem expectedDone_done {d : Nat} (h : t.state = .done) (hd : t.doneAt = some d) : expectedDone clock t = d := by
  rw [expectedDone, h, hd]
  rfl

theorem expectedDone_cooking {b : Nat} (h : t.state = .cooking) (hb : t.startAt = some b) :
    expectedDone clock t = b + t.ceff := by
  rw [expectedDone, h, hb]
  rfl

theorem expectedDone_sent_or_posted (h : t.state = .sent ∨ t.state = .posted) : expectedDone clock t = clock + t.ceff := by
  rcases h with h | h <;> (rw [expectedDone, h]; rfl)

theorem expectedDone_queued_or_due (h : t.state = .queued ∨ t.state = .due) :
    expectedDone clock t = max (t.release : Int) clock + t.advance + t.ceff := by
  rcases h with h | h <;> (rw [expectedDone, h]; push_cast; rfl)

end

/-! ### The projected pass time (R78) -/

theorem restOf_eq (k : Kitchen) (t : Ticket) : restOf k t = ((componentOf k t.item t.comp).map Component.rest).getD 0 := by
  unfold restOf
  cases componentOf k t.item t.comp <;> rfl

section

variable {k : Kitchen} {g : Group}

theorem projection_empty (h : k.tickets.filter (livePlated g.number) = []) : projection k g = g.target := by
  rw [projection, h]
  rfl

/-- P is the greatest, over the live plated tickets, of expected done + R + D (R78). -/
theorem projection_greatest (h : k.tickets.filter (livePlated g.number) ≠ []) :
    (∃ t ∈ k.tickets.filter (livePlated g.number), projection k g = expectedDone k.clock t + restOf k t + g.lead) ∧
      ∀ t ∈ k.tickets.filter (livePlated g.number), expectedDone k.clock t + restOf k t + g.lead ≤ projection k g := by
  unfold projection
  cases hready : latest ((k.tickets.filter (livePlated g.number)).map fun t => expectedDone k.clock t + restOf k t) with
  | none => exact absurd (List.map_eq_nil_iff.1 (latest_none.1 hready)) h
  | some ready =>
    obtain ⟨hmem, hmost⟩ := latest_some.1 hready
    obtain ⟨t, ht, rfl⟩ := List.mem_map.1 hmem
    exact ⟨⟨t, ht, rfl⟩, fun t' ht' => Int.add_le_add_right (hmost _ (List.mem_map_of_mem ht')) _⟩

end

/-! ### The life end (R147) -/

theorem livePlated_iff {n : Nat} {t : Ticket} :
    livePlated n t = true ↔ t.group = n ∧ t.kind ≠ .standing ∧ t.state ≠ .voiding := by
  simp only [livePlated, Bool.and_eq_true, beq_iff_eq, bne_iff_ne, and_assoc]

theorem componentOf_some {k : Kitchen} {item idx : Nat} {c : Component} :
    componentOf k item idx = some c ↔ ∃ i, findItem k item = some i ∧ i.lines[idx]? = some c := by
  unfold componentOf
  cases findItem k item <;> simp

/-- A ticket's life ends H after its done time, where it is a DONE live plated ticket of the group (R147). -/
theorem lifeOf_some {k : Kitchen} {n : Nat} {t : Ticket} {e : Int} :
    lifeOf k n t = some e ↔
      t.group = n ∧ t.kind ≠ .standing ∧ t.state = .done ∧
        ∃ d i c, t.doneAt = some d ∧ findItem k t.item = some i ∧ i.lines[t.comp]? = some c ∧ e = d + c.hold := by
  constructor
  · intro h
    unfold lifeOf at h
    split at h
    · rename_i hlive
      rw [Bool.and_eq_true, livePlated_iff, beq_iff_eq] at hlive
      obtain ⟨⟨hg, hk, -⟩, hs⟩ := hlive
      split at h
      · rename_i d c hd hc
        cases h
        obtain ⟨i, hi, hl⟩ := componentOf_some.1 hc
        exact ⟨hg, hk, hs, d, i, c, hd, hi, hl, Nat.cast_add ..⟩
      · cases h
    · cases h
  · rintro ⟨hg, hk, hs, d, i, c, hd, hi, hl, rfl⟩
    have hlive : (livePlated n t && t.state == .done) = true := by
      rw [Bool.and_eq_true, livePlated_iff, hs]
      exact ⟨⟨hg, hk, nofun⟩, rfl⟩
    rw [lifeOf, if_pos hlive, hd, componentOf_some.2 ⟨i, hi, hl⟩]
    rfl

/-- Settles O56: P is the greatest of the ready times with D added, and the life end the least of the lives of the tickets that have
one. -/
theorem projectionAndLifeEnd : Obligations.ProjectionAndLifeEnd := by
  refine ⟨fun clock t => ⟨fun _ => expectedDone_done, fun _ => expectedDone_cooking, expectedDone_sent_or_posted,
    expectedDone_queued_or_due⟩, fun k g => ?_, fun k n => ?_⟩
  · intro live rest
    have hrest : ∀ t, (restOf k t : Int) = rest t := fun t => by rw [restOf_eq, componentOf_eq]; rfl
    refine ⟨projection_empty, fun h => ?_⟩
    simp only [← hrest]
    exact projection_greatest h
  · intro ends
    have hends : ∀ e, e ∈ k.tickets.filterMap (lifeOf k n) ↔ ∃ t, ends t e := fun e =>
      List.mem_filterMap.trans (exists_congr fun t => and_congr_right' lifeOf_some)
    refine ⟨?_, fun e => ?_⟩
    · rw [lifeEndOf, earliest_none, List.eq_nil_iff_forall_not_mem]
      simp only [hends, not_exists]
      exact forall_comm
    · rw [lifeEndOf, earliest_some, hends]
      simp only [hends, forall_exists_index]
      exact and_congr_right' forall_comm

end Sys2Proof.Machine
end

section
/-! PROOF. The events of a second at a station: releases reached (R86), and overdue tickets (R98). -/

namespace Sys2Proof.Machine

/-! ### A release reached (R86) -/

section

variable {st : Nat} {w : Work}

theorem releaseTickets_idle (h : st ∉ w.owed.release) : releaseTickets st w = w := if_neg (by simpa using h)

theorem releaseTickets_owed (h : st ∈ w.owed.release) (he : w.event = .service) :
    releaseTickets st w =
      passSettle (arbiter st (makeDue (fun t => t.station == st && decide (t.release ≤ w.clock))
        (setOwed (fun o => { o with release := dropNumber st o.release }) w))) :=
  (if_pos (by simpa using h)).trans (if_pos he)

end

/-- Settles O5: the event is owed or it is not; after the tickets have become DUE there is nothing but recomputation and settling. -/
theorem releaseMakesTicketsDue : Obligations.ReleaseMakesTicketsDue := by
  intro s st hs
  have hexec : exec (.ticketRelease st) s = .next (moved s (releaseTickets st (begun s.kit))) :=
    congrArg Host.Outcome.next (inPart_running _ hs)
  refine ⟨fun h => ?_, fun h he => ?_⟩
  · rw [hexec, releaseTickets_idle (w := begun s.kit) h, moved_begun]
  · intro reached w0 w1 told
    have htold : Settles w1 (forEach recompute told w1) := (Settles.refl w1).forEach _ (fun n w => (Settles.refl w).recompute n) told
    refine ⟨_, hexec, releaseTickets_owed (w := begun s.kit) h he, ?_⟩
    rw [releaseTickets_owed (w := begun s.kit) h he]
    exact (htold.arbiter st).passSettle

/-! ### Overdue tickets (R98) -/

/-- A ticket after the tickets of `late` have been marked overdue. -/
def overdueMarked (late : List Ticket) (t : Ticket) : Ticket :=
  if late.any fun u => u.number == t.number then { t with overdue := true } else t

/-- The TKOVER of a ticket (R98). -/
def overdueReport (k : Kitchen) (t : Ticket) : Report :=
  ⟨k.clock, .tkover t.number t.station t.group (((findGroup k t.group).map Group.tag).getD 0) t.item t.comp (t.startAt.getD 0) t.ceff⟩

theorem overdueMarked_cons (t : Ticket) (late : List Ticket) (x : Ticket) :
    overdueMarked late (if x.number = t.number then { x with overdue := true } else x) = overdueMarked (t :: late) x := by
  by_cases h : x.number = t.number
  · simp [overdueMarked, h]
  · simp [overdueMarked, h, Ne.symm h]

/-- Tickets marked overdue one after another (R98). -/
theorem foldl_markOverdue (late : List Ticket) (w : Work) :
    late.foldl (fun w t => markOverdue t w) w =
      { w with tickets := w.tickets.map (overdueMarked late), out := w.out ++ late.map (overdueReport w.toKitchen) } := by
  induction late generalizing w with
  | nil =>
    have hnone : overdueMarked [] = id := funext fun t => rfl
    simp [hnone]
  | cons t late ih =>
    have htickets : (markOverdue t w).tickets.map (overdueMarked late) = w.tickets.map (overdueMarked (t :: late)) :=
      List.map_map.trans (List.map_congr_left fun x _ => overdueMarked_cons t late x)
    have hout : (markOverdue t w).out = w.out ++ [overdueReport w.toKitchen t] := rfl
    have hreport : overdueReport (markOverdue t w).toKitchen = overdueReport w.toKitchen := rfl
    rw [List.foldl_cons, ih, htickets, hout, hreport, List.append_assoc]
    rfl

theorem overdueTickets_owed {st : Nat} {w : Work} {x : Station} (h : st ∈ w.owed.overdue) (he : w.event = .service)
    (hx : findStation w.toKitchen st = some x) :
    overdueTickets st w =
      ((queueOf w.toKitchen st).filter (overdueNow w.toKitchen x)).foldl (fun w t => markOverdue t w)
        (setOwed (fun o => { o with overdue := dropNumber st o.overdue }) w) := by
  have hx' : findStation (setOwed (fun o => { o with overdue := dropNumber st o.overdue }) w).toKitchen st = some x := hx
  unfold overdueTickets
  rw [if_pos (by simpa using h)]
  simp only [hx']
  exact if_pos he

/-- Settles O6: the marking of the overdue tickets one after another, written out. -/
theorem overdueTicketsMarked : Obligations.OverdueTicketsMarked := by
  intro s st x hs he h hx late
  obtain rfl : x.number = st := entryOf_key hx
  have hmarked : overdueTickets x.number (begun s.kit) = _ :=
    (overdueTickets_owed (w := begun s.kit) h he hx).trans (foldl_markOverdue late _)
  have hreports : late.map (fun t => (⟨s.kit.clock, .tkover t.number x.number t.group
      (((findGroup s.kit t.group).map Group.tag).getD 0) t.item t.comp (t.startAt.getD 0) t.ceff⟩ : Report)) =
      late.map (overdueReport s.kit) := List.map_congr_left fun t ht => by
    rw [← (mem_queueOf (List.mem_of_mem_filter ht)).2]
    rfl
  rw [hreports]
  exact congrArg Host.Outcome.next ((inPart_running _ hs).trans (congrArg (moved s) hmarked))

end Sys2Proof.Machine
end

section
/-! PROOF. The Dispatch Unit: a station's queue (R85), eligibility (R87), the slot arbiter and staging (R88, R90), the grant (R91), and
a slot freed (R89, R108). -/

namespace Sys2Proof.Machine

/-! ### Queue order (R85) -/

/-- Behind the rush lane ticket a stands no later than ticket b (R85). -/
def standsNoLater (a b : Ticket) : Prop :=
  a.release < b.release ∨
    (a.release = b.release ∧
      ((a.kind = .standing ∧ b.kind ≠ .standing) ∨
        ((a.kind = .standing ↔ b.kind = .standing) ∧
          (a.due < b.due ∨ (a.due = b.due ∧ (a.group < b.group ∨ (a.group = b.group ∧ a.number ≤ b.number)))))))

theorem kindRank_lt_iff {a b : TicketKind} : kindRank a < kindRank b ↔ a = .standing ∧ b ≠ .standing := by
  cases a <;> cases b <;> decide

theorem kindRank_eq_iff {a b : TicketKind} : kindRank a = kindRank b ↔ (a = .standing ↔ b = .standing) := by
  cases a <;> cases b <;> decide

/-- The order by the five keys as numbers. -/
theorem standsNoLater_iff {a b : Ticket} :
    standsNoLater a b ↔
      a.release < b.release ∨ (a.release = b.release ∧ (kindRank a.kind < kindRank b.kind ∨ (kindRank a.kind = kindRank b.kind ∧
        (a.due < b.due ∨ (a.due = b.due ∧ (a.group < b.group ∨ (a.group = b.group ∧ a.number ≤ b.number))))))) := by
  rw [kindRank_lt_iff, kindRank_eq_iff]
  rfl

theorem standsNoLater.trans {a b c : Ticket} (h : standsNoLater a b) (g : standsNoLater b c) : standsNoLater a c := by
  rw [standsNoLater_iff] at h g ⊢
  omega

theorem standsNoLater.total (a b : Ticket) : standsNoLater a b ∨ standsNoLater b a := by
  rw [standsNoLater_iff, standsNoLater_iff]
  omega

/-- The model's comparison is the strict part of that order. -/
theorem standsBefore_iff {a b : Ticket} : standsBefore a b = true ↔ ¬standsNoLater b a := by
  rw [standsNoLater_iff, standsBefore]
  split_ifs <;> rw [decide_eq_true_iff] <;> omega

theorem insertTicket_perm (t : Ticket) (l : List Ticket) : (insertTicket t l).Perm (t :: l) := by
  induction l with
  | nil => exact .refl _
  | cons u l ih =>
    unfold insertTicket
    split
    · exact .refl _
    · exact (ih.cons u).trans (.swap t u l)

theorem sortTickets_perm (l : List Ticket) : (sortTickets l).Perm l := by
  induction l with
  | nil => exact .refl _
  | cons t l ih => exact (insertTicket_perm t (sortTickets l)).trans (ih.cons t)

theorem insertTicket_ordered (t : Ticket) {l : List Ticket} (h : l.Pairwise standsNoLater) :
    (insertTicket t l).Pairwise standsNoLater := by
  induction l with
  | nil => exact List.pairwise_singleton ..
  | cons u l ih =>
    obtain ⟨hu, hl⟩ := List.pairwise_cons.1 h
    unfold insertTicket
    split
    · rename_i hb
      have htu := (standsNoLater.total t u).resolve_right (standsBefore_iff.1 hb)
      refine List.pairwise_cons.2 ⟨fun v hv => ?_, h⟩
      rcases List.mem_cons.1 hv with rfl | hv
      · exact htu
      · exact htu.trans (hu v hv)
    · rename_i hb
      refine List.pairwise_cons.2 ⟨fun v hv => ?_, ih hl⟩
      rcases (mem_insertTicket t v l).1 hv with rfl | hv
      · exact not_not.1 (mt standsBefore_iff.2 hb)
      · exact hu v hv

theorem sortTickets_ordered (l : List Ticket) : (sortTickets l).Pairwise standsNoLater := by
  induction l with
  | nil => exact .nil
  | cons t l ih => exact insertTicket_ordered t ih

/-- The queue is the rush lane in creation order, and the other tickets sorted. -/
theorem queueOf_eq (k : Kitchen) (st : Nat) :
    queueOf k st =
      (k.tickets.filter fun t => t.station == st && t.state != .done && t.kind == .rush) ++
        sortTickets (k.tickets.filter fun t => t.station == st && t.state != .done && t.kind != .rush) := by
  rw [queueOf, List.filter_filter, List.filter_filter]
  simp only [Bool.and_comm]

/-! ### Eligibility (R87) -/

theorem groupHeld_eq_false_iff {k : Kitchen} {n : Nat} :
    groupHeld k n = false ↔ ∀ g, findGroup k n = some g → g.flags.held = false := by
  unfold groupHeld
  cases findGroup k n <;> simp

theorem terminalLive_iff {k : Kitchen} {a : Nat} : terminalLive k a = true ↔ ∃ z, findTerminal k a = some z ∧ z.state = .live := by
  unfold terminalLive
  cases findTerminal k a <;> simp

theorem stationAdmits_iff {k : Kitchen} {x : Station} :
    stationAdmits k x = true ↔
      k.event = .service ∧ x.mode = .ready ∧ ∃ a z, x.current = some a ∧ findTerminal k a = some z ∧ z.state = .live := by
  unfold stationAdmits
  cases x.current <;> simp [terminalLive_iff, and_assoc]

theorem eligible_iff {k : Kitchen} {x : Station} {t : Ticket} :
    eligible k x t = true ↔
      t.state = .due ∧ (∀ g, findGroup k t.group = some g → g.flags.held = false) ∧ k.event = .service ∧ x.mode = .ready ∧
        ∃ a z, x.current = some a ∧ findTerminal k a = some z ∧ z.state = .live := by
  rw [← groupHeld_eq_false_iff, ← stationAdmits_iff]
  simp [eligible, and_assoc]

theorem holdsSlot_contains (t : Ticket) : holdsSlot t = [TicketState.sent, .posted, .cooking, .voiding].contains t.state := by
  unfold holdsSlot
  cases t.state <;> rfl

theorem slotsHeld_eq (k : Kitchen) (st : Nat) :
    slotsHeld k st =
      (k.tickets.filter fun t => t.station == st && [TicketState.sent, .posted, .cooking, .voiding].contains t.state).length := by
  simp only [slotsHeld, holdsSlot_contains]

/-! ### A grant (R91) -/

/-- A grant, written out (R91, R128, R59). -/
theorem grant_eq (t : Ticket) (w : Work) :
    grant t w =
      recompute t.group
        { w with
          tickets := updateEntry Ticket.number t.number becomeSent w.tickets
          terminals := w.terminals.map fun z =>
            if currentOf w.toKitchen t.station = some z.address then pendPost t.station t.number z else z
          groups :=
            updateEntry Group.number t.group (fun g => if g.state = .planned then { g with state := .firing } else g) w.groups } := by
  rw [grant, groupSent, atCurrent_eq]
  rfl

theorem grant_tickets (t : Ticket) (w : Work) :
    (grant t w).tickets = updateEntry Ticket.number t.number becomeSent w.tickets := by
  rw [grant_eq, recompute_tickets]

theorem grant_stations (t : Ticket) (w : Work) : (grant t w).stations = w.stations := by
  rw [grant_eq, recompute_rest]

theorem updateEntry_if {α : Type} (key : α → Nat) (n : Nat) (p : α → Prop) [DecidablePred p] (f : α → α) (l : List α) :
    updateEntry key n (fun x => if p x then f x else x) l = l.map fun x => if key x = n ∧ p x then f x else x :=
  List.map_congr_left fun x _ => by by_cases h : key x = n <;> simp [h]

theorem currentOf_bind (k : Kitchen) (st : Nat) : currentOf k st = (findStation k st).bind Station.current := by
  unfold currentOf
  cases findStation k st <;> rfl

/-- A change that keeps every hit and makes one more raises the count. -/
theorem countP_lt_countP_map {α : Type} {p : α → Bool} {f : α → α} {l : List α} {x : α}
    (hkeep : ∀ y, p y = true → p (f y) = true) (hx : x ∈ l) (hmiss : p x = false) (hhit : p (f x) = true) :
    l.countP p < (l.map f).countP p := by
  obtain ⟨before, later, rfl⟩ := List.append_of_mem hx
  have hle : ∀ l : List α, l.countP p ≤ (l.map f).countP p := fun l => by
    rw [List.countP_map]
    exact List.countP_mono_left fun y _ => hkeep y
  have hbefore := hle before
  have hlater := hle later
  rw [List.map_append, List.map_cons, List.countP_append, List.countP_append, List.countP_cons_of_neg (by simp [hmiss]),
    List.countP_cons_of_pos hhit]
  omega

theorem becomeSent_due {t : Ticket} (h : t.state = .due) : becomeSent t = { t with state := .sent } := if_pos h

theorem becomeSent_other {t : Ticket} (h : t.state ≠ .due) : becomeSent t = t := if_neg h

/-- A grant to a DUE ticket of a station takes one of its slots at least. -/
theorem slotsHeld_grant {t : Ticket} {st : Nat} {w : Work} (ht : t ∈ w.tickets) (hst : t.station = st) (hd : t.state = .due) :
    slotsHeld w.toKitchen st < slotsHeld (grant t w).toKitchen st := by
  rw [slotsHeld, slotsHeld, grant_tickets, ← List.countP_eq_length_filter, ← List.countP_eq_length_filter]
  refine countP_lt_countP_map (fun u hu => ?_) ht ?_ ?_
  · split
    · rwa [becomeSent_other fun e => by simp [holdsSlot, e] at hu]
    · exact hu
  · simp [holdsSlot, hd]
  · simp [becomeSent_due hd, holdsSlot, hst]

/-! ### One grant, and the grants of one action (R88) -/

section

variable {st : Nat} {w : Work} {x : Station} (hx : findStation w.toKitchen st = some x)

include hx

theorem firstEligible_eq : firstEligible w.toKitchen x = (queueOf w.toKitchen st).find? (eligible w.toKitchen x) := by
  rw [firstEligible, entryOf_key hx]

theorem grantOne_full (h : x.defn.slots ≤ slotsHeld w.toKitchen st) : grantOne st w = w := by
  rw [grantOne, hx]
  exact if_neg (not_lt.2 h)

theorem grantOne_none (h : firstEligible w.toKitchen x = none) : grantOne st w = w := by
  rw [grantOne, hx]
  simp [h]

theorem grantOne_some {t : Ticket} (h : slotsHeld w.toKitchen st < x.defn.slots) (ht : firstEligible w.toKitchen x = some t) :
    grantOne st w = grant t w := by
  rw [grantOne, hx]
  simp [h, ht]

end

/-- One grant does nothing, or grants a slot to a DUE ticket of the station. -/
theorem grantOne_cases (st : Nat) (w : Work) :
    grantOne st w = w ∨ ∃ t ∈ w.tickets, t.station = st ∧ t.state = .due ∧ grantOne st w = grant t w := by
  cases hx : findStation w.toKitchen st with
  | none =>
    left
    rw [grantOne, hx]
  | some x =>
    by_cases hs : slotsHeld w.toKitchen st < x.defn.slots
    · cases ht : firstEligible w.toKitchen x with
      | none => exact .inl (grantOne_none hx ht)
      | some t =>
        rw [firstEligible_eq hx] at ht
        obtain ⟨hmem, hst⟩ := mem_queueOf (List.mem_of_find?_eq_some ht)
        obtain ⟨hdue, -⟩ := eligible_iff.1 (List.find?_some ht)
        exact .inr ⟨t, hmem, hst, hdue, grantOne_some hx hs (firstEligible_eq hx ▸ ht)⟩
    · exact .inl (grantOne_full hx (not_lt.1 hs))

theorem grantOne_stations (st : Nat) (w : Work) : (grantOne st w).stations = w.stations := by
  rcases grantOne_cases st w with h | ⟨t, -, -, -, h⟩
  · rw [h]
  · rw [h, grant_stations]

/-- A grant turns DUE tickets into SENT ones, and changes no ticket else. -/
theorem grantOne_orders (st : Nat) (w : Work) : (grantOne st w).tickets.map Ticket.order = w.tickets.map Ticket.order := by
  rcases grantOne_cases st w with h | ⟨t, -, -, -, h⟩
  · rw [h]
  · rw [h, grant_tickets]
    exact updateEntry_map Ticket.order t.number becomeSent w.tickets fun u _ _ => becomeSent_order u

theorem grantSlots_eq (st n : Nat) (w : Work) : grantSlots st n w = (grantOne st)^[n] w := by
  induction n generalizing w with
  | zero => rfl
  | succ n ih => exact ih (grantOne st w)

theorem grantSlots_stations (st n : Nat) (w : Work) : (grantSlots st n w).stations = w.stations := by
  induction n generalizing w with
  | zero => rfl
  | succ n ih => exact (ih (grantOne st w)).trans (grantOne_stations st w)

theorem grantSlots_orders (st n : Nat) (w : Work) : (grantSlots st n w).tickets.map Ticket.order = w.tickets.map Ticket.order := by
  induction n generalizing w with
  | zero => rfl
  | succ n ih => exact (ih (grantOne st w)).trans (grantOne_orders st w)

theorem grantSlots_fixed {st : Nat} {w : Work} (h : grantOne st w = w) (n : Nat) : grantSlots st n w = w := by
  rw [grantSlots_eq, Function.iterate_fixed h]

theorem findStation_congr {k k' : Kitchen} (h : k'.stations = k.stations) (st : Nat) : findStation k' st = findStation k st := by
  rw [findStation, findStation, h]

/-- After n grants every slot is held, no eligible ticket remains, or n slots more are held. -/
theorem grantSlots_progress {st : Nat} {x : Station} (n : Nat) {w : Work} (hx : findStation w.toKitchen st = some x) :
    x.defn.slots ≤ slotsHeld (grantSlots st n w).toKitchen st ∨ firstEligible (grantSlots st n w).toKitchen x = none ∨
      slotsHeld w.toKitchen st + n ≤ slotsHeld (grantSlots st n w).toKitchen st := by
  induction n generalizing w with
  | zero => exact .inr (.inr (Nat.le_refl _))
  | succ n ih =>
    by_cases hs : slotsHeld w.toKitchen st < x.defn.slots
    · cases ht : firstEligible w.toKitchen x with
      | none =>
        rw [grantSlots_fixed (grantOne_none hx ht)]
        exact .inr (.inl ht)
      | some t =>
        have hone := grantOne_some hx hs ht
        rw [firstEligible_eq hx] at ht
        obtain ⟨hmem, hst⟩ := mem_queueOf (List.mem_of_find?_eq_some ht)
        obtain ⟨hdue, -⟩ := eligible_iff.1 (List.find?_some ht)
        have hmore := slotsHeld_grant hmem hst hdue
        have hrest := ih ((findStation_congr (grant_stations t w) st).trans hx)
        rw [grantSlots, hone]
        exact hrest.imp_right (Or.imp_right fun h => by omega)
    · rw [grantSlots_fixed (grantOne_full hx (not_lt.1 hs))]
      exact .inl (not_lt.1 hs)

/-- As many grants as there are slots leave no slot free while an eligible ticket remains (R88). -/
theorem grantSlots_enough {st : Nat} {w : Work} {x : Station} (hx : findStation w.toKitchen st = some x)
    (hfree : slotsHeld (grantSlots st x.defn.slots w).toKitchen st < x.defn.slots) :
    firstEligible (grantSlots st x.defn.slots w).toKitchen x = none := by
  rcases grantSlots_progress x.defn.slots hx with h | h | h
  · omega
  · exact h
  · omega

/-! ### Staging (R90) -/

theorem currentOf_found {k : Kitchen} {st : Nat} {x : Station} (hx : findStation k st = some x) : currentOf k st = x.current := by
  rw [currentOf, hx]

section

variable {st : Nat} {w : Work} {x : Station} (hx : findStation w.toKitchen st = some x)

include hx

theorem stagedTicket_eq :
    stagedTicket w.toKitchen x =
      if slotsHeld w.toKitchen st < x.defn.slots then none
      else ((queueOf w.toKitchen st).find? (eligible w.toKitchen x)).map Ticket.number := by
  rw [stagedTicket, firstEligible_eq hx, entryOf_key hx]

theorem findStation_staged (n : Option Nat) :
    findStation (setStation st (fun y => { y with staged := n }) w).toKitchen st = some { x with staged := n } :=
  findStation_setStation_same (f := fun y => { y with staged := n }) (by intro y; rfl) hx

theorem reviseStaged_same (h : stagedTicket w.toKitchen x = x.staged) : reviseStaged st w = w := by
  rw [reviseStaged, hx]
  exact if_pos h

theorem reviseStaged_changed (h : stagedTicket w.toKitchen x ≠ x.staged) :
    reviseStaged st w =
      { w with
        stations := w.stations.map fun y => if y.number = st then { y with staged := stagedTicket w.toKitchen x } else y
        terminals := w.terminals.map fun z => if x.current = some z.address then markNext st z else z } := by
  have hcur := currentOf_found (findStation_staged hx (stagedTicket w.toKitchen x))
  rw [reviseStaged, hx]
  refine (if_neg h).trans ?_
  rw [atCurrent_eq, hcur]
  rfl

/-- The revision leaves the station with the ticket staged that R90 gives. -/
theorem reviseStaged_own :
    findStation (reviseStaged st w).toKitchen st = some { x with staged := stagedTicket w.toKitchen x } := by
  by_cases h : stagedTicket w.toKitchen x = x.staged
  · rw [reviseStaged_same hx h, h]
    exact hx
  · rw [reviseStaged_changed hx h]
    exact findStation_staged hx _

end

/-! ### The action of the arbiter (R88, R90) -/

theorem queueOf_congr {k k' : Kitchen} (h : k'.tickets = k.tickets) (st : Nat) : queueOf k' st = queueOf k st := by
  rw [queueOf, queueOf, h]

theorem Steady.terminalLive {a w : Work} (h : Steady a w) (n : Nat) :
    Machine.terminalLive w.toKitchen n = Machine.terminalLive a.toKitchen n := by
  have hlive : ∀ k : Kitchen, Machine.terminalLive k n =
      ((entryOf Prod.fst n (k.terminals.map Terminal.health)).any fun p => p.2.2.1 == .live) := fun k => by
    rw [← entryOf_map Terminal.address Prod.fst Terminal.health fun _ => rfl, Machine.terminalLive, findTerminal]
    cases entryOf Terminal.address n k.terminals <;> rfl
  rw [hlive, hlive, h.terminals]

/-- Eligibility asks nothing of a station but its mode and current terminal, and settling changes nothing else it asks. -/
theorem Settles.eligible {a w : Work} (h : Settles a w) {x y : Station} (hm : y.mode = x.mode) (hc : y.current = x.current) (t : Ticket) :
    Machine.eligible w.toKitchen y t = Machine.eligible a.toKitchen x t := by
  simp only [Machine.eligible, stationAdmits, h.groupHeld, h.steady.event, h.steady.terminalLive, hm, hc]

theorem arbiter_absent {st : Nat} {w : Work} (h : findStation w.toKitchen st = none) : arbiter st w = w := by
  rw [arbiter, h]

theorem arbiter_found {st : Nat} {w : Work} {x : Station} (hx : findStation w.toKitchen st = some x) :
    arbiter st w = reviseStaged st (grantSlots st x.defn.slots w) := by
  rw [arbiter, hx]

theorem arbiter_orders (st : Nat) (w : Work) : (arbiter st w).tickets.map Ticket.order = w.tickets.map Ticket.order := by
  unfold arbiter
  split
  · rw [reviseStaged_tickets, grantSlots_orders]
  · rfl

/-- After the arbiter's action the station is as before but for the staged mark, which is the first eligible ticket where every slot is
held; and while a slot is free no ticket is eligible (R88, R90). -/
theorem arbiter_own {st : Nat} {w : Work} {x : Station} (hx : findStation w.toKitchen st = some x) :
    ∃ staged, findStation (arbiter st w).toKitchen st = some { x with staged := staged } ∧
      (slotsHeld (arbiter st w).toKitchen st < x.defn.slots →
        staged = none ∧ ∀ t ∈ queueOf (arbiter st w).toKitchen st,
          eligible (arbiter st w).toKitchen { x with staged := staged } t = false) ∧
      (x.defn.slots ≤ slotsHeld (arbiter st w).toKitchen st →
        staged = ((queueOf (arbiter st w).toKitchen st).find?
          (eligible (arbiter st w).toKitchen { x with staged := staged })).map Ticket.number) := by
  rw [arbiter_found hx]
  have henough := grantSlots_enough hx
  have hv : findStation (grantSlots st x.defn.slots w).toKitchen st = some x :=
    (findStation_congr (grantSlots_stations st x.defn.slots w) st).trans hx
  generalize grantSlots st x.defn.slots w = v at henough hv
  have htickets := reviseStaged_tickets st v
  have hslots : slotsHeld (reviseStaged st v).toKitchen st = slotsHeld v.toKitchen st := slotsHeld_congr (congrArg _ htickets) st
  have heligible : eligible (reviseStaged st v).toKitchen { x with staged := stagedTicket v.toKitchen x } = eligible v.toKitchen x :=
    funext fun t => ((Settles.refl v).reviseStaged st).eligible rfl rfl t
  refine ⟨_, reviseStaged_own hv, ?_⟩
  rw [hslots, heligible, queueOf_congr htickets, stagedTicket_eq hv]
  refine ⟨fun hfree => ⟨if_pos hfree, fun t ht => ?_⟩, fun hfull => if_neg (not_lt.2 hfull)⟩
  have hnone := henough hfree
  rw [firstEligible_eq hv] at hnone
  simpa using List.find?_eq_none.1 hnone t ht

/-! ### A slot freed (R89, R108) -/

theorem slotFreed_absent {st : Nat} {w : Work} (h : findStation w.toKitchen st = none) : slotFreed st w = w := by
  rw [slotFreed, arbiter_absent h, drainEnd, h]

/-- The end of a drain: the station OFF, reported, and a MODE frame pending (R108, R114). -/
def drained (st : Nat) (w : Work) : Work :=
  atCurrent st (markMode st) (raise (.stnmode st .off .drain 0) (setStation st (fun y => { y with mode := .off, countdown := 0 }) w))

theorem drained_out (st : Nat) (w : Work) : ⟨w.clock, .stnmode st .off .drain 0⟩ ∈ (drained st w).out := by
  rw [drained, atCurrent_eq]
  exact mem_out_raise ..

theorem drained_own {st : Nat} {w : Work} {x : Station} (hx : findStation w.toKitchen st = some x) :
    findStation (drained st w).toKitchen st = some { x with mode := .off, countdown := 0 } :=
  (findStation_congr (atCurrent_stations ..) st).trans
    (findStation_setStation_same (f := fun y => { y with mode := .off, countdown := 0 }) (by intro y; rfl) hx)

section

variable {st : Nat} {w : Work} {x : Station} (hx : findStation w.toKitchen st = some x)

include hx

theorem slotFreed_drained (hm : x.mode = .draining) (hs : slotsHeld (arbiter st w).toKitchen st = 0) :
    slotFreed st w = arbiter st (drained st (arbiter st w)) := by
  obtain ⟨_, hy, -⟩ := arbiter_own hx
  rw [slotFreed, drainEnd, hy]
  exact if_pos ⟨hm, hs⟩

theorem slotFreed_undrained (h : x.mode ≠ .draining ∨ slotsHeld (arbiter st w).toKitchen st ≠ 0) :
    slotFreed st w = arbiter st w := by
  obtain ⟨_, hy, -⟩ := arbiter_own hx
  exact drainEnd_idle hy h

end

theorem find?_first {α : Type} {p : α → Bool} {before later : List α} {t : α} (hb : ∀ u ∈ before, p u = false) (ht : p t = true) :
    (before ++ t :: later).find? p = some t :=
  List.find?_eq_some_iff_append.2 ⟨ht, before, later, rfl, fun u hu => by simp [hb u hu]⟩

/-- Settles O57: the slot freed, the queue, eligibility, the action of the arbiter, its parts, the marks, and the grant. -/
theorem stationQueueAndArbiter : Obligations.StationQueueAndArbiter := by
  refine ⟨fun w st => ⟨slotFreed_absent, fun x hx => ?freed⟩, fun k st => ?queue,
    fun k x t => ⟨eligible_iff, slotsHeld_eq k x.number⟩,
    fun w st x hx => ?action, fun w st => ⟨arbiter_absent, fun sts => ⟨rfl, rfl⟩, fun x hx => ?parts⟩, fun st z => ?marks,
    fun t w => ?grants⟩
  case freed =>
    intro acted off
    refine ⟨fun hm hs => ?_, slotFreed_undrained hx⟩
    have hclock : acted.clock = w.clock := ((Steady.refl w).arbiter st).clock
    obtain ⟨_, hacted, -⟩ := arbiter_own hx
    obtain ⟨_, hoff, -⟩ := arbiter_own (drained_own hacted)
    rw [slotFreed_drained hx hm hs]
    exact ⟨rfl, hclock ▸ ((Steady.refl _).arbiter st).mem_out (drained_out st acted), _, hoff, rfl⟩
  case queue => exact ⟨_, _, queueOf_eq k st, rfl, sortTickets_perm _, sortTickets_ordered _⟩
  case action =>
    intro w'
    obtain ⟨staged, hy, hfree, hfull⟩ := arbiter_own hx
    exact ⟨(arbiter_found hx).trans (congrArg _ (grantSlots_eq ..)), _, hy, rfl, rfl, rfl, hfree, hfull, arbiter_orders st w⟩
  case parts =>
    intro first
    have hfirst : stagedTicket w.toKitchen x = first := stagedTicket_eq hx
    refine ⟨grantOne_full hx, fun h => grantOne_none hx ?_, fun before t later hs hq hb ht => grantOne_some hx hs ?_,
      fun h => reviseStaged_same hx (hfirst.trans h), fun h => ?_⟩
    · rw [firstEligible_eq hx]
      exact List.find?_eq_none.2 fun t ht => by simp [h t ht]
    · rw [firstEligible_eq hx, hq, find?_first hb ht]
    · rw [reviseStaged_changed hx (hfirst ▸ h), hfirst]
  case marks => exact ⟨⟨_, rfl, fun m => mem_addNumber m st z.nextMarks⟩, _, rfl, fun m => mem_addNumber m st z.modeMarks⟩
  case grants =>
    intro current posted
    have hcurrent : currentOf w.toKitchen t.station = current := currentOf_bind ..
    rw [grant_eq, hcurrent, updateEntry_if, show becomeSent = fun u => if u.state = .due then { u with state := .sent } else u from rfl,
      updateEntry_if]
    rfl

end Sys2Proof.Machine
end

section
/-! PROOF. The signals of a station's terminal: the frame acknowledged (R92, R100, R123, R139), START (R93) and BUMP (R94, R95). -/

namespace Sys2Proof.Machine

/-! ### A valid reply to the turn under way (R125) -/

theorem sameTime_terminalHeard (a : Nat) (w : Work) : SameTime w (terminalHeard a w) := by
  unfold terminalHeard
  split
  · have h : SameTime w (setTerminal a (fun t => { t with misses := 0, receipt := true, state := .live }) w) := ⟨rfl, rfl, rfl⟩
    dsimp only
    split
    · exact h
    · exact h.trans (((Steady.refl _).raise _).rechooseBound a).sameTime
  · exact SameTime.refl w

theorem sameTime_heard (s : State) (u : Turn) : SameTime (turnEnded s) (heard s u) := sameTime_terminalHeard u.address (turnEnded s)

theorem heard_event (s : State) (u : Turn) : (heard s u).event = s.kit.event := (sameTime_heard s u).event

theorem heard_clock (s : State) (u : Turn) : (heard s u).clock = s.kit.clock := (sameTime_heard s u).clock

section

variable {s : State} {u : Turn} {t : Terminal} (h : Addressed s u t)

include h

/-- A reply that accepts the frame of the turn: the frame is accepted, the report handed on, and the Pass Unit settles (R125). -/
theorem handleReply_accepting {r : BusReply} (hr : accepts r = true) :
    handleReply r (begun s.kit) = passSettle (handOn u.address r (acceptFrame u (heard s u))) := by
  unfold handleReply
  rw [begun_turn, h.turn]
  have hknown : findTerminal { s.kit with turn := none } u.address = some t := h.known
  refine (if_neg (by simp [h.own, hknown])).trans ?_
  rw [hr]
  rfl

theorem exec_ack {w : Work} (e : acceptFrame u (heard s u) = w) : exec .ack s = .next (moved s (passSettle w)) :=
  e ▸ congrArg Host.Outcome.next ((inPart_running _ h.high).trans (congrArg (moved s) (handleReply_accepting h rfl)))

theorem exec_terminalStart {st : Byte} {n : BitVec 16} {w : Work}
    (e : takeStart u.address st.toNat n.toNat (acceptFrame u (heard s u)) = w) :
    exec (.terminalStart st n) s = .next (moved s (passSettle w)) :=
  e ▸ congrArg Host.Outcome.next ((inPart_running _ h.high).trans (congrArg (moved s) (handleReply_accepting h rfl)))

theorem exec_bump {st : Byte} {n : BitVec 16} {w : Work}
    (e : takeBump u.address st.toNat n.toNat (acceptFrame u (heard s u)) = w) :
    exec (.bump st n) s = .next (moved s (passSettle w)) :=
  e ▸ congrArg Host.Outcome.next ((inPart_running _ h.high).trans (congrArg (moved s) (handleReply_accepting h rfl)))

end

/-! ### A POST acknowledged (R92) -/

section

variable {st n : Nat} {w : Work} {x : Ticket} (hx : findTicket w.toKitchen n = some x)

include hx

theorem postAcked_sent (he : w.event = .service) (hst : x.station = st) (hs : x.state = .sent) :
    postAcked st n w =
      recompute x.group (setTicket n (fun y => { y with state := .posted, postedAt := some w.clock, reprint := false }) w) := by
  unfold postAcked
  rw [hx]
  simp only [he, hst, and_self, if_true, hs]

theorem postAcked_shown (he : w.event = .service) (hst : x.station = st) (hs : x.state = .posted ∨ x.state = .cooking) :
    postAcked st n w = setTicket n (fun y => { y with reprint := false }) w := by
  unfold postAcked
  rw [hx]
  rcases hs with hs | hs <;> simp only [he, hst, and_self, if_true, hs]

end

theorem postAcked_other {st n : Nat} {w : Work}
    (h : ∀ x, findTicket w.toKitchen n = some x → x.station ≠ st ∨ w.event ≠ .service ∨
      x.state = .voiding ∨ x.state = .done ∨ x.state = .queued ∨ x.state = .due) : postAcked st n w = w := by
  unfold postAcked
  split
  · rename_i x hx
    rcases h x hx with h | h | h | h | h | h
    · exact if_neg fun e => h e.2
    · exact if_neg fun e => h e.1
    all_goals
      rw [h]
      exact ite_self w
  · rfl

/-! ### A VOID acknowledged (R100) -/

theorem voidAcked_voiding {st n : Nat} {w : Work} {x : Ticket} (hx : findTicket w.toKitchen n = some x) (hst : x.station = st)
    (hs : x.state = .voiding) : voidAcked st n w = groupTicketFreed x.group (slotFreed st (dropTicket n w)) := by
  unfold voidAcked
  rw [hx]
  exact if_pos ⟨hst, hs⟩

theorem voidAcked_other {st n : Nat} {w : Work}
    (h : ∀ x, findTicket w.toKitchen n = some x → x.station ≠ st ∨ x.state ≠ .voiding) : voidAcked st n w = w := by
  unfold voidAcked
  split
  · rename_i x hx
    exact if_neg fun e => (h x hx).elim (· e.1) (· e.2)
  · rfl

theorem drainEnd_orders (st : Nat) (w : Work) : (drainEnd st w).tickets.map Ticket.order = w.tickets.map Ticket.order := by
  unfold drainEnd
  split
  · split
    · rw [changeMode, arbiter_orders, atCurrent_tickets]
      rfl
    · rfl
  · rfl

theorem slotFreed_orders (st : Nat) (w : Work) : (slotFreed st w).tickets.map Ticket.order = w.tickets.map Ticket.order :=
  (drainEnd_orders st _).trans (arbiter_orders st w)

/-- Tickets that differ by grants alone have the same numbers. -/
theorem numbers_of_orders {l l' : List Ticket} (h : l'.map Ticket.order = l.map Ticket.order) :
    l'.map Ticket.number = l.map Ticket.number := by
  simpa [List.map_map, Function.comp_def, Ticket.order] using congrArg (List.map Ticket.number) h

/-- A ticket freed stays freed through what follows at its station and its group. -/
theorem freed_absent (st n g : Nat) (w : Work) :
    ∀ y ∈ (groupTicketFreed g (slotFreed st (dropTicket n w))).tickets, y.number ≠ n := by
  intro y hy
  have hmem := List.mem_map_of_mem (f := Ticket.number) (mem_groupTicketFreed _ _ y hy)
  rw [numbers_of_orders (slotFreed_orders st (dropTicket n w))] at hmem
  obtain ⟨z, hz, hn⟩ := List.mem_map.1 hmem
  exact hn ▸ bne_iff_ne.1 (List.mem_filter.1 hz).2

/-! ### The frame accepted (R123, R139) -/

section

variable {u : Turn} {w : Work}

theorem acceptFrame_bare (h : u.frame = .poll ∨ (∃ st n, u.frame = .next st n) ∨ ∃ st m, u.frame = .mode st m) :
    acceptFrame u w = w := by
  unfold acceptFrame
  rcases h with h | ⟨st, n, h⟩ | ⟨st, m, h⟩ <;> rw [h]

theorem acceptFrame_railclr {st : Nat} (h : u.frame = .railclr st) :
    acceptFrame u w = setTerminal u.address (fun y => { y with railclrs := dropNumber st y.railclrs }) w := by
  rw [acceptFrame, h]

/-- A terminal after a NOTE accepted: the list without it, unless renewed, and the shown record, unless stale (R139). -/
def noted (renewed stale : Bool) (n : Note) (y : Terminal) : Terminal :=
  { y with
    notes := if renewed then y.notes else y.notes.filter fun m => m.group != n.group
    shown :=
      if stale = true ∨ y.kind ≠ .pass then y.shown
      else if n.state = .gone then y.shown.filter fun m => m.group != n.group
      else placeNote n y.shown }

theorem acceptFrame_note {n : Note} (h : u.frame = .note n) :
    acceptFrame u w = setTerminal u.address (noted u.renewed u.stale n) w := by
  have hnoted : (fun t : Terminal =>
      let t := if u.renewed then t else { t with notes := t.notes.filter fun m => m.group != n.group }
      if u.stale || t.kind != .pass then t else showNote n t) = noted u.renewed u.stale n := by
    funext t
    unfold noted showNote
    by_cases hs : u.stale = true ∨ t.kind ≠ .pass
    · simp only [if_pos hs]
      cases u.renewed <;> exact if_pos (by simpa using hs)
    · simp only [if_neg hs]
      cases u.renewed <;> refine (if_neg (by simpa using hs)).trans ?_ <;> split <;> rfl
  rw [acceptFrame, h]
  exact congrArg (setTerminal u.address · w) hnoted

/-- A POST or VOID whose ticket has been freed, or whose terminal is no longer current for the station, has no effect (R92, R125). -/
theorem acceptFrame_lapsed {st n : Nat}
    (h : (∃ p name kind re due, u.frame = .post st n p name kind re due) ∨ u.frame = .void st n)
    (hc : u.stale = true ∨ currentOf w.toKitchen st ≠ some u.address) : acceptFrame u w = w := by
  have htest : ¬(!u.stale && currentOf w.toKitchen st == some u.address) = true := by
    rcases hc with hc | hc <;> simp [hc]
  rcases h with ⟨p, name, kind, re, due, h⟩ | h <;> rw [acceptFrame, h] <;> exact if_neg htest

theorem acceptFrame_post {st n p : Nat} {name : List Byte} {kind : TicketKind} {re : Bool} {due : Int}
    (h : u.frame = .post st n name p kind re due) (hs : u.stale = false) (hc : currentOf w.toKitchen st = some u.address) :
    acceptFrame u w = postAcked st n (setTerminal u.address (unpendPost n) w) := by
  rw [acceptFrame, h]
  exact if_pos (by simp [hs, hc])

theorem acceptFrame_void {st n : Nat} (h : u.frame = .void st n) (hs : u.stale = false)
    (hc : currentOf w.toKitchen st = some u.address) :
    acceptFrame u w = voidAcked st n (setTerminal u.address (unpendVoid n) w) := by
  rw [acceptFrame, h]
  exact if_pos (by simp [hs, hc])

end

theorem mem_placeNote {n : Note} {l : List Note} {m : Note} : m ∈ placeNote n l ↔ m = n ∨ (m ∈ l ∧ m.group ≠ n.group) := by
  unfold placeNote
  split
  · rename_i h
    obtain ⟨old, hold, hg⟩ := List.any_eq_true.1 h
    rw [List.mem_map]
    constructor
    · rintro ⟨x, hx, rfl⟩
      split
      · exact .inl rfl
      · rename_i hne
        exact .inr ⟨hx, by simpa using hne⟩
    · rintro (rfl | ⟨hm, hne⟩)
      · exact ⟨old, hold, if_pos hg⟩
      · exact ⟨m, hm, if_neg (by simpa using hne)⟩
  · rename_i h
    have hnew : ∀ x ∈ l, x.group ≠ n.group := by simpa using h
    rw [List.mem_append, List.mem_singleton, or_comm]
    exact or_congr_right (iff_self_and.2 (hnew m))

/-! ### A freed ticket told to its group (R53, R59) -/

section

variable {n : Nat} {w : Work}

theorem groupTicketFreed_absent (h : findGroup w.toKitchen n = none) : groupTicketFreed n w = w := by
  rw [groupTicketFreed, h]

variable {g : Group} (hg : findGroup w.toKitchen n = some g)

include hg

theorem groupTicketFreed_recomputed (h : g.state ≠ .cancelled) : groupTicketFreed n w = recompute n w := by
  rw [groupTicketFreed, hg]
  exact if_neg h

theorem groupTicketFreed_stays (h : g.state = .cancelled) (ht : ∃ t ∈ w.tickets, t.group = n) : groupTicketFreed n w = w := by
  rw [groupTicketFreed, hg]
  refine (if_pos h).trans (if_neg ?_)
  simpa [ticketsOf] using ht

theorem groupTicketFreed_frees (h : g.state = .cancelled) (ht : ∀ t ∈ w.tickets, t.group ≠ n) :
    groupTicketFreed n w =
      { handNote ⟨n, g.sect, .gone⟩ w with
        groups := w.groups.filter fun x => x.number != n
        drawOrder := w.drawOrder.filter fun m => m != n
        out := w.out ++ [⟨w.clock, .grpgone n g.tag .cancelled⟩] } := by
  have hnone : ticketsOf w.toKitchen n = [] := by simpa [ticketsOf] using ht
  rw [groupTicketFreed, hg]
  refine (if_pos h).trans ((if_pos hnone).trans ?_)
  rw [freeGroup_found .cancelled hg, hnone]
  rfl

end

/-- Settles O47: the frame accepted by its kind, and a POST or VOID by what became of its ticket and terminal. -/
theorem ackAcceptsFrame : Obligations.AckAcceptsFrame := by
  refine ⟨fun s u t st n p name kind re due h hf => ?post, fun s u t st n h hf => ?void, fun s u t h => ?other,
    fun _ _ _ => mem_placeNote, fun n w => ⟨groupTicketFreed_absent, fun g hg => ⟨groupTicketFreed_recomputed hg,
      groupTicketFreed_stays hg, groupTicketFreed_frees hg⟩⟩⟩
  case post =>
    intro w0
    have hevent : w0.event = s.kit.event := heard_event s u
    have hclock : w0.clock = s.kit.clock := heard_clock s u
    refine ⟨fun hc => exec_ack h (acceptFrame_lapsed (.inl ⟨_, _, _, _, _, hf⟩) hc), fun hs hc => ?_⟩
    have haccept : acceptFrame u (heard s u) = postAcked st n w0 := acceptFrame_post hf hs hc
    refine ⟨fun x hx hst he => ⟨fun hsent => ?_, fun hshown => ?_⟩, fun hother => ?_⟩
    · intro w1
      have hposted : postAcked st n w0 = recompute x.group w1 :=
        (postAcked_sent (w := w0) hx (hevent.trans he) hst hsent).trans (by rw [hclock])
      exact ⟨_, exec_ack h (haccept.trans hposted), rfl, ((Settles.refl w1).recompute x.group).passSettle⟩
    · intro w1
      exact ⟨exec_ack h (haccept.trans (postAcked_shown (w := w0) hx (hevent.trans he) hst hshown)), (Settles.refl w1).passSettle⟩
    · exact exec_ack h (haccept.trans (postAcked_other (w := w0) (hevent ▸ hother)))
  case void =>
    intro w0
    refine ⟨fun hc => exec_ack h (acceptFrame_lapsed (.inr hf) hc), fun hs hc => ?_⟩
    have haccept : acceptFrame u (heard s u) = voidAcked st n w0 := acceptFrame_void hf hs hc
    exact ⟨fun x hx hst hv =>
        ⟨_, exec_ack h (haccept.trans (voidAcked_voiding (w := w0) hx hst hv)), freed_absent st n x.group w0, rfl⟩,
      fun hother => exec_ack h (haccept.trans (voidAcked_other (w := w0) hother))⟩
  case other =>
    exact ⟨fun st hf => exec_ack h (acceptFrame_railclr hf), fun n hf => exec_ack h (acceptFrame_note hf),
      fun hf => exec_ack h (acceptFrame_bare hf)⟩

/-! ### A signal taken or ignored (R93, R94, R96) -/

theorem signalTaken_iff {k : Kitchen} {a st : Nat} {x : Ticket} :
    signalTaken k a st x = true ↔ x.station = st ∧ currentOf k st = some a ∧ k.event = .service := by
  rw [signalTaken, Bool.and_eq_true, Bool.and_eq_true, beq_iff_eq, beq_iff_eq, beq_iff_eq]
  tauto

theorem signalTaken_eq_false {k : Kitchen} {a st : Nat} {x : Ticket}
    (h : x.station ≠ st ∨ currentOf k st ≠ some a ∨ k.event ≠ .service) : signalTaken k a st x = false := by
  rw [← Bool.not_eq_true, signalTaken_iff]
  tauto

theorem forall_not_found {n : Nat} {k : Kitchen} {p : Ticket → Prop} (h : findTicket k n = none) :
    ∀ x, findTicket k n = some x → p x := fun _ hx => absurd (h.symm.trans hx) nofun

/-! ### START (R93) -/

section

variable {a st n : Nat} {w : Work}

theorem takeStart_ignored (h : ∀ x, findTicket w.toKitchen n = some x →
    signalTaken w.toKitchen a st x = false ∨ (x.state ≠ .sent ∧ x.state ≠ .posted)) : takeStart a st n w = w := by
  unfold takeStart
  split
  · rename_i x hx
    split
    · rename_i hsig
      obtain ⟨hsent, hposted⟩ := (h x hx).resolve_left (by simp [hsig])
      cases hs : x.state with
      | sent => exact absurd hs hsent
      | posted => exact absurd hs hposted
      | queued | due | cooking | done | voiding => rfl
    · rfl
  · rfl

variable {x : Ticket} (hx : findTicket w.toKitchen n = some x) (hsig : signalTaken w.toKitchen a st x = true)

include hx hsig

theorem takeStart_sent (hs : x.state = .sent) :
    takeStart a st n w =
      recompute x.group (setTerminal a (unpendPost n) (setTicket n (fun y =>
        { y with state := .cooking, startAt := some w.clock, postedAt := some w.clock, reprint := false }) w)) := by
  rw [takeStart, hx]
  simp only [hsig, hs, if_true]

theorem takeStart_posted (hs : x.state = .posted) :
    takeStart a st n w =
      recompute x.group (setTicket n (fun y => { y with state := .cooking, startAt := some w.clock }) w) := by
  rw [takeStart, hx]
  simp only [hsig, hs, if_true]

end

/-- Settles O48: a START taken, by the state of its ticket, and a START ignored. -/
theorem startSetsCooking : Obligations.StartSetsCooking := by
  intro s u t st n h w0 leads
  have hleads : ∀ {w}, takeStart u.address st.toNat n.toNat w0 = w → leads w := fun e => exec_terminalStart h e
  refine ⟨fun x hx hst hc he => ?_, fun hx => ?_, fun x hx hnot => ?_⟩
  · have hsig := signalTaken_iff.2 ⟨hst, hc, he⟩
    refine ⟨fun hs => hleads (takeStart_sent hx hsig hs), fun hs => hleads (takeStart_posted hx hsig hs), fun hsent hposted => ?_⟩
    refine hleads (takeStart_ignored fun y hy => .inr ?_)
    cases hx.symm.trans hy
    exact ⟨hsent, hposted⟩
  · exact hleads (takeStart_ignored (forall_not_found hx))
  · refine hleads (takeStart_ignored fun y hy => .inl ?_)
    cases hx.symm.trans hy
    exact signalTaken_eq_false hnot

/-! ### BUMP (R94, R95) -/

section

variable {a st n : Nat} {w : Work}

theorem takeBump_ignored (h : ∀ x, findTicket w.toKitchen n = some x →
    signalTaken w.toKitchen a st x = false ∨ onRail x = false) : takeBump a st n w = w := by
  unfold takeBump
  split
  · rename_i x hx
    refine if_neg ?_
    rcases h x hx with h | h <;> simp [h]
  · rfl

theorem takeBump_taken {x : Ticket} (hx : findTicket w.toKitchen n = some x) (hsig : signalTaken w.toKitchen a st x = true)
    (hr : onRail x = true) :
    takeBump a st n w =
      afterBump x (if x.state = .sent then setTerminal a (unpendPost n) (setTicket n (bumped w.clock) w)
        else setTicket n (bumped w.clock) w) := by
  rw [takeBump, hx]
  simp only [hsig, hr, Bool.and_self, if_true]

end

theorem bumped_sent {clock : Nat} {x : Ticket} (h : x.state = .sent) :
    bumped clock x =
      { x with state := .done, doneAt := some clock, startAt := some clock, postedAt := some clock, reprint := false } := by
  rw [bumped, h]

theorem bumped_posted {clock : Nat} {x : Ticket} (h : x.state = .posted) :
    bumped clock x = { x with state := .done, doneAt := some clock, startAt := x.postedAt } := by
  rw [bumped, h]

theorem bumped_cooking {clock : Nat} {x : Ticket} (h : x.state = .cooking) :
    bumped clock x = { x with state := .done, doneAt := some clock } := by
  rw [bumped, h]

/-- Settles O49: a BUMP taken, by the kind of its ticket, and a BUMP ignored; and the times it fills. -/
theorem bumpSetsDone : Obligations.BumpSetsDone := by
  intro s u t st n h w0 leads
  have hleads : ∀ {w}, takeBump u.address st.toNat n.toNat w0 = w → leads w := fun e => exec_bump h e
  refine ⟨fun x hx hst hc he => ?_, fun hx => ?_, fun x hx hnot => ?_, fun _ _ => ⟨bumped_sent, bumped_posted, bumped_cooking⟩⟩
  · intro done cleared
    refine ⟨fun hs => ?_, fun hsent hposted hcooking => hleads (takeBump_ignored fun y hy => .inr ?_)⟩
    · have htaken : takeBump u.address st.toNat n.toNat w0 = afterBump x cleared :=
        takeBump_taken hx (signalTaken_iff.2 ⟨hst, hc, he⟩) (onRail_iff.2 hs)
      exact ⟨fun hk => hleads (htaken.trans (if_pos hk)), fun hk => hleads (htaken.trans (if_neg hk))⟩
    · cases hx.symm.trans hy
      rw [← Bool.not_eq_true, onRail_iff]
      tauto
  · exact hleads (takeBump_ignored (forall_not_found hx))
  · refine hleads (takeBump_ignored fun y hy => .inl ?_)
    cases hx.symm.trans hy
    exact signalTaken_eq_false hnot

end Sys2Proof.Machine
end

section
/-! PROOF. The modes of stations (R104 to R114): a completed mode change, the end of a warm-up (R106), the mode requests taken, and the
requests for all stations (R110). -/

namespace Sys2Proof.Machine

/-! ### A completed mode change (R114) -/

section

variable (st : Nat) (m : Mode) (c : Nat) (cause : ModeCause) (t : Nat) (w : Work)

/-- The station in its new mode, with STNMODE raised and a MODE frame pending, before its arbiter acts (R114). -/
def modeGiven : Work :=
  atCurrent st (markMode st) (raise (.stnmode st m cause t) (setStation st (fun x => { x with mode := m, countdown := c }) w))

theorem changeMode_settles : Settles (modeGiven st m c cause t w) (changeMode st m c cause t w) := (Settles.refl _).arbiter st

theorem modeGiven_out : (modeGiven st m c cause t w).out = w.out ++ [⟨w.clock, .stnmode st m cause t⟩] := by
  rw [modeGiven, atCurrent_eq]
  rfl

theorem modeGiven_groups : (modeGiven st m c cause t w).groups = w.groups := by
  rw [modeGiven, atCurrent_eq]
  rfl

theorem changeMode_reported : ⟨w.clock, .stnmode st m cause t⟩ ∈ (changeMode st m c cause t w).out := by
  refine (changeMode_settles st m c cause t w).steady.mem_out ?_
  rw [modeGiven_out]
  exact List.mem_append_right _ (List.mem_singleton_self _)

theorem changeMode_plans : (changeMode st m c cause t w).groups.map Group.plan = w.groups.map Group.plan :=
  (changeMode_settles st m c cause t w).groups.trans (congrArg _ (modeGiven_groups st m c cause t w))

end

/-! ### The end of a warm-up (R106) -/

section

variable {st : Nat} {w : Work}

theorem endWarmup_idle (h : st ∉ w.owed.warm) : endWarmup st w = w := if_neg (by simpa using h)

theorem endWarmup_owed {x : Station} (h : st ∈ w.owed.warm) (hx : findStation w.toKitchen st = some x) (hm : x.mode = .warming)
    (hc : x.countdown = 0) :
    endWarmup st w = passSettle (changeMode st .ready 0 .warm 0 (setOwed (fun o => { o with warm := dropNumber st o.warm }) w)) := by
  have hx' : findStation (setOwed (fun o => { o with warm := dropNumber st o.warm }) w).toKitchen st = some x := hx
  unfold endWarmup
  rw [if_pos (by simpa using h)]
  simp only [hx']
  exact if_pos ⟨hm, hc⟩

end

/-- Settles O4: the event is owed or it is not; owed, it is one mode change, which the Pass Unit follows. -/
theorem warmupEndMakesReady : Obligations.WarmupEndMakesReady := by
  intro s st hs
  have hexec : exec (.warmupEnd st) s = .next (moved s (endWarmup st (begun s.kit))) :=
    congrArg Host.Outcome.next (inPart_running _ hs)
  refine ⟨fun h => ?_, fun x h hx hm hc => ?_⟩
  · rw [hexec, endWarmup_idle (w := begun s.kit) h, moved_begun]
  · intro w0 w1
    have hended : endWarmup st (begun s.kit) = passSettle (arbiter st w1) := endWarmup_owed (w := begun s.kit) h hx hm hc
    exact ⟨_, hexec, hended, hended ▸ ((Settles.refl w1).arbiter st).passSettle⟩

/-! ### A mode request by the mode of its station (R105, R107, R109, R111, R113) -/

section

variable {n : Nat} {w : Work} {x : Station}

theorem warmUp_long (h : 0 < x.defn.warmup) (cause : ModeCause) :
    warmUp n x cause w = takeMode n .warming x.defn.warmup cause w := if_neg h.ne'

theorem warmUp_none (h : x.defn.warmup = 0) (cause : ModeCause) : warmUp n x cause w = takeMode n .ready 0 cause w := if_pos h

variable (hn : 1 ≤ n ∧ n ≤ 24) (hx : findStation w.toKitchen n = some x)

include hn hx

theorem stationOn_off (h : x.mode = .off) : stationOn n w = warmUp n x .stnon w := (judgeStation_found hn hx _).trans (if_pos h)

theorem stationOff_on (h : x.mode = .warming ∨ x.mode = .ready ∨ x.mode = .paused) :
    stationOff n w = takeMode n (if slotsHeld w.toKitchen n = 0 then .off else .draining) 0 .stnoff w :=
  (judgeStation_found hn hx _).trans (if_pos h)

theorem stationOff_holding (h : x.mode = .warming ∨ x.mode = .ready ∨ x.mode = .paused) (hs : 0 < slotsHeld w.toKitchen n) :
    stationOff n w = takeMode n .draining 0 .stnoff w := by
  rw [stationOff_on hn hx h, if_neg hs.ne']

theorem stationOff_free (h : x.mode = .warming ∨ x.mode = .ready ∨ x.mode = .paused) (hs : slotsHeld w.toKitchen n = 0) :
    stationOff n w = takeMode n .off 0 .stnoff w := by
  rw [stationOff_on hn hx h, if_pos hs]

theorem pauseStation_ready (h : x.mode = .ready) : pauseStation n w = takeMode n .paused 0 .pause w :=
  (judgeStation_found hn hx _).trans (if_pos h)

theorem resumeStation_paused (h : x.mode = .paused) : resumeStation n w = takeMode n .ready 0 .resume w :=
  (judgeStation_found hn hx _).trans (if_pos h)

theorem haltStation_running (h : x.mode ≠ .off) (hh : x.mode ≠ .halted) : haltStation n w = takeMode n .halted 0 .halt w :=
  (judgeStation_found hn hx _).trans (if_neg fun e => e.elim h hh)

theorem clearStation_halted (h : x.mode = .halted) : clearStation n w = warmUp n x .clear w :=
  (judgeStation_found hn hx _).trans (if_pos h)

end

/-- A mode request whose owner takes it is the mode change and the settling of the Pass Unit, and is answered with the mode (R114). -/
theorem exec_modeTaken {s : State} {r : Request} {seq : Byte} {rest : List Frame} {n : Nat} {m : Mode} {c : Nat} {cause : ModeCause}
    (h : Asks s r seq rest) (hk : r.kind ≠ .restart)
    (hp : perform s.host.reports.length s.host.gap r (begun s.kit) = takeMode n m c cause (begun s.kit)) :
    ∃ w : Work, exec r.kind.command s = .next (answered s r.kind seq rest (.ok (.modeSet n m)) w) ∧
      w = passSettle (arbiter n (modeGiven n m c cause 0 (begun s.kit))) ∧ Settles (modeGiven n m c cause 0 (begun s.kit)) w :=
  ⟨_, exec_asks h hk hp, rfl, (changeMode_settles n m c cause 0 (begun s.kit)).passSettle⟩

/-! ### PAUSEALL and RESUMEALL (R110) -/

/-- A station after the stations numbered in `sts` have been given a mode. -/
def modeAmong (m : Mode) (sts : List Nat) (x : Station) : Station :=
  if sts.contains x.number then { x with mode := m, countdown := 0 } else x

theorem modeAmong_nil (m : Mode) (x : Station) : modeAmong m [] x = x := rfl

theorem modeAmong_post (m : Mode) (sts : List Nat) (x : Station) : (modeAmong m sts x).post = modeAmong m sts x.post := by
  by_cases h : sts.contains x.number = true
  · exact (congrArg Station.post (if_pos h)).trans (if_pos h).symm
  · exact (congrArg Station.post (if_neg h)).trans (if_neg h).symm

theorem modeAmong_cons (m : Mode) (n : Nat) (sts : List Nat) (x : Station) :
    modeAmong m sts (if x.number = n then { x with mode := m, countdown := 0 } else x) = modeAmong m (n :: sts) x := by
  by_cases h : x.number = n
  · simp [modeAmong, h]
  · simp [modeAmong, h]

section

variable (m : Mode) (cause : ModeCause) (sts : List Nat) (w : Work)

/-- The mode changes of several stations, one after another (R110). -/
def changeModes : Work := forEach (fun n => changeMode n m 0 cause 0) sts w

theorem changeModes_steady : Steady w (changeModes m cause sts w) :=
  (Steady.refl w).forEach _ (fun n w => (Steady.refl w).changeMode n m 0 cause 0) sts

/-- The mode changes change the mode of these stations alone (R110). -/
theorem changeModes_posts :
    (changeModes m cause sts w).stations.map Station.post = (w.stations.map (modeAmong m sts)).map Station.post := by
  induction sts generalizing w with
  | nil => exact congrArg _ (List.map_id'' (modeAmong_nil m) w.stations).symm
  | cons n sts ih =>
    have hpost : Station.post ∘ modeAmong m sts = modeAmong m sts ∘ Station.post := funext (modeAmong_post m sts)
    have hfirst := changeMode_posts n m 0 cause 0 w
    calc (changeModes m cause sts (changeMode n m 0 cause 0 w)).stations.map Station.post
      _ = ((changeMode n m 0 cause 0 w).stations.map Station.post).map (modeAmong m sts) := by
        rw [ih, List.map_map, hpost, ← List.map_map]
      _ = ((setStation n (fun x => { x with mode := m, countdown := 0 }) w).stations.map (modeAmong m sts)).map Station.post := by
        rw [hfirst, List.map_map, List.map_map, hpost]
      _ = (w.stations.map (modeAmong m (n :: sts))).map Station.post :=
        congrArg (List.map Station.post) (List.map_map.trans (List.map_congr_left fun x _ => modeAmong_cons m n sts x))

theorem changeModes_reported : ∀ n ∈ sts, ⟨w.clock, .stnmode n m cause 0⟩ ∈ (changeModes m cause sts w).out := by
  induction sts generalizing w with
  | nil => exact fun n hn => absurd hn List.not_mem_nil
  | cons n sts ih =>
    have hfirst : Steady w (changeMode n m 0 cause 0 w) := (Steady.refl w).changeMode n m 0 cause 0
    have hrest : Steady (changeMode n m 0 cause 0 w) (changeModes m cause (n :: sts) w) := changeModes_steady ..
    intro k hk
    rcases List.mem_cons.1 hk with rfl | hk
    · exact hrest.mem_out (changeMode_reported k m 0 cause 0 w)
    · exact hfirst.clock ▸ ih (changeMode n m 0 cause 0 w) k hk

theorem changeModes_plans : (changeModes m cause sts w).groups.map Group.plan = w.groups.map Group.plan := by
  induction sts generalizing w with
  | nil => rfl
  | cons n sts ih => exact (ih _).trans (changeMode_plans n m 0 cause 0 w)

end

/-- A request for all stations is the mode changes of the stations in the old mode, and is answered with their count (R110). -/
theorem exec_modesTaken {s : State} {r : Request} {seq : Byte} {rest : List Frame} {old new : Mode} {cause : ModeCause}
    (h : Asks s r seq rest) (hk : r.kind ≠ .restart)
    (hp : perform s.host.reports.length s.host.gap r (begun s.kit) = changeAll old new cause (begun s.kit)) :
    let sts := stationsWhere s.kit fun x => x.mode == old
    ∃ w : Work, exec r.kind.command s = .next (answered s r.kind seq rest (.ok (.modesSet sts.length)) w) ∧
      w = passSettle (changeModes new cause sts (begun s.kit)) ∧
      w.stations.map Station.post = (s.kit.stations.map (modeAmong new sts)).map Station.post ∧
      (∀ n ∈ sts, ⟨s.kit.clock, .stnmode n new cause 0⟩ ∈ w.out) ∧
      w.groups.map Group.plan = s.kit.groups.map Group.plan := by
  intro sts
  have hset : Settles (changeModes new cause sts (begun s.kit)) (passSettle (changeModes new cause sts (begun s.kit))) :=
    (Settles.refl _).passSettle
  exact ⟨_, exec_asks h hk hp, rfl, hset.stations.trans (changeModes_posts new cause sts (begun s.kit)),
    fun n hn => hset.steady.mem_out (changeModes_reported new cause sts (begun s.kit) n hn),
    hset.groups.trans (changeModes_plans new cause sts (begun s.kit))⟩

/-- Settles O41: each request by the mode of its station, its W and its slots, and the two requests for all stations. -/
theorem modeRequestsTaken : Obligations.ModeRequestsTaken := by
  refine ⟨fun s seq rest n x h1 h24 hx => ?_, fun s seq rest => ?_⟩
  · intro taken held
    have hn : 1 ≤ n ∧ n ≤ 24 := ⟨h1, h24⟩
    have hx0 : findStation (begun s.kit).toKitchen n = some x := hx
    have take : ∀ {r : Request} {m : Mode} {c : Nat} {cause : ModeCause}, r.kind ≠ .restart →
        perform s.host.reports.length s.host.gap r (begun s.kit) = takeMode n m c cause (begun s.kit) → taken r m c cause :=
      fun hk hp h => exec_modeTaken h hk hp
    exact ⟨fun hm hw => take nofun ((stationOn_off hn hx0 hm).trans (warmUp_long hw _)),
      fun hm hw => take nofun ((stationOn_off hn hx0 hm).trans (warmUp_none hw _)),
      fun hm hs => take nofun (stationOff_holding hn hx0 hm hs),
      fun hm hs => take nofun (stationOff_free hn hx0 hm hs),
      fun hm => take nofun (pauseStation_ready hn hx0 hm),
      fun hm => take nofun (resumeStation_paused hn hx0 hm),
      fun hm hh => take nofun (haltStation_running hn hx0 hm hh),
      fun hm hw => take nofun ((clearStation_halted hn hx0 hm).trans (warmUp_long hw _)),
      fun hm hw => take nofun ((clearStation_halted hn hx0 hm).trans (warmUp_none hw _))⟩
  · exact ⟨fun h => exec_modesTaken h nofun rfl, fun h => exec_modesTaken h nofun rfl⟩

end Sys2Proof.Machine
end

section
/-! PROOF. REBIND (R136), and the choice of a station's current terminal in its parts (R132, R133). -/

namespace Sys2Proof.Machine

/-! ### REBIND (R136) -/

section

variable {n p f : Nat} {w : Work}

theorem rebind_unnumbered (h : n < 1 ∨ 24 < n) : rebind n p f w = (w, .badField .number 0) := if_pos (outside_eq_true h)

theorem rebind_undefined (hn : 1 ≤ n ∧ n ≤ 24) (hx : findStation w.toKitchen n = none) : rebind n p f w = (w, .noSuch) := by
  obtain ⟨h1, h24⟩ := hn
  rw [rebind, outside_eq_false h1 h24, hx]
  rfl

variable {x : Station} (hn : 1 ≤ n ∧ n ≤ 24) (hx : findStation w.toKitchen n = some x)

include hn hx

theorem rebind_bad {a : Answer} (ha : firstBad (bindingChecks w.toKitchen n p f) = some a) : rebind n p f w = (w, a) := by
  obtain ⟨h1, h24⟩ := hn
  rw [rebind, outside_eq_false h1 h24, hx, ha]
  rfl

theorem rebind_taken (ha : firstBad (bindingChecks w.toKitchen n p f) = none) :
    let bound := setStation n (fun y => { y with defn := { y.defn with primary := p, fallback := present f } }) w
    rebind n p f w =
      (passSettle (rechoose n bound), .ok (.rebound n p (present f) (currentOf (passSettle (rechoose n bound)).toKitchen n))) := by
  obtain ⟨h1, h24⟩ := hn
  rw [rebind, outside_eq_false h1 h24, hx, ha]
  rfl

end

/-- The choice by a binding as a request gives it, in which a fallback of 0 is absent (R132, R176). -/
theorem chooseCurrent_bound {k : Kitchen} {x : Station} {p f : Nat} (hp : x.defn.primary = p) (hf : x.defn.fallback = present f) :
    chooseCurrent k x =
      if terminalLive k p then some p else if f ≠ 0 ∧ terminalLive k f then some f else none := by
  rw [chooseCurrent, hp, hf]
  by_cases h : f = 0 <;> simp [present, h]

/-! ### The VOIDING tickets of a station that loses its terminal (R132) -/

/-- A ticket freed that is told to its group frees no other. -/
theorem groupTicketFreed_tickets (n : Nat) (w : Work) : (groupTicketFreed n w).tickets = w.tickets := by
  cases hg : findGroup w.toKitchen n with
  | none => rw [groupTicketFreed_absent hg]
  | some g =>
    by_cases hs : g.state = .cancelled
    · by_cases ht : ∃ t ∈ w.tickets, t.group = n
      · rw [groupTicketFreed_stays hg hs ht]
      · rw [groupTicketFreed_frees hg hs (by simpa using ht)]
        rfl
    · rw [groupTicketFreed_recomputed hg hs, recompute_tickets]

theorem freeTickets_tickets (ts : List Ticket) (w : Work) :
    (ts.foldl (fun w t => groupTicketFreed t.group (dropTicket t.number w)) w).tickets =
      w.tickets.filter fun t => !(ts.any fun u => u.number == t.number) := by
  induction ts generalizing w with
  | nil => simp
  | cons u ts ih =>
    rw [List.foldl_cons, ih, groupTicketFreed_tickets, dropTicket, List.filter_filter]
    refine List.filter_congr fun t _ => ?_
    rw [List.any_cons, Bool.not_or, Bool.and_comm, bne, Bool.beq_comm]

theorem freeVoiding_tickets (st : Nat) (w : Work) :
    (freeVoiding st w).tickets =
      w.tickets.filter fun t => !(w.tickets.any fun u => u.number == t.number && (u.station == st && u.state == .voiding)) := by
  rw [freeVoiding, freeTickets_tickets]
  refine List.filter_congr fun t _ => ?_
  rw [List.any_filter]
  simp only [Bool.and_comm]

/-- Settles O26: what REBIND refuses and what it leaves, and the choice with each of its parts. -/
theorem stationRebound : Obligations.StationRebound := by
  refine ⟨fun s seq rest n p f h => ?request, fun st w x hx => ?choice, fun _ _ => rfl, fun _ _ => terminalLive_iff,
    fun st t => ⟨rfl, rfl, rfl, rfl, fun m => mem_addNumber m st t.railclrs, rfl⟩, fun st w => ⟨rfl, freeVoiding_tickets st w⟩⟩
  case request =>
    refine ⟨fun hn => exec_turnedAway h nofun (rebind_unnumbered hn), fun hn hx => ?_, checksAre_binding s.kit n p f,
      fun x a hn hx ha => ?_, fun x hn hx ha => ?_⟩
    · exact exec_turnedAway h nofun (rebind_undefined (w := begun s.kit) hn hx)
    · exact exec_turnedAway h nofun (rebind_bad (w := begun s.kit) hn hx ha)
    · intro current bound
      have hbound : findStation bound.toKitchen n = some { x with defn := { x.defn with primary := p, fallback := present f } } :=
        findStation_setStation_same (w := begun s.kit) (by intro y; rfl) hx
      have hsettles : Settles (rechoose n bound) (passSettle (rechoose n bound)) := (Settles.refl _).passSettle
      have hsteady : Steady (begun s.kit) (passSettle (rechoose n bound)) :=
        (((Steady.refl (begun s.kit)).setStation n _ (by intro y; rfl)).rechoose n).passSettle
      obtain ⟨y, hy, hdefn, hcurrent, -⟩ := rechoose_own hbound
      obtain ⟨z, hz, ez⟩ := PostsStay.find_some hsettles.stations hy
      obtain ⟨-, hzdefn, -, -, hzcurrent⟩ := post_eq_iff.1 ez
      have hchosen : z.current = current := hzcurrent.trans (hcurrent.trans (chooseCurrent_bound rfl rfl))
      refine ⟨_, ?_, rfl, ⟨z, hz, hzdefn.trans hdefn, hchosen⟩, fun m hm => ?_, hsteady.items, hsteady.terminals, hsteady.event,
        hsteady.clock, hsteady.courses⟩
      · rw [← hchosen, ← currentOf_found hz]
        exact exec_asks h nofun (rebind_taken (w := begun s.kit) hn hx ha)
      · calc (findStation (passSettle (rechoose n bound)).toKitchen m).map Station.post
          _ = (findStation (rechoose n bound).toKitchen m).map Station.post := PostsStay.find hsettles.stations m
          _ = (findStation bound.toKitchen m).map Station.post := rechoose_other hm bound
          _ = (findStation s.kit m).map Station.post :=
            congrArg _ (findStation_setStation_other (w := begun s.kit) (by intro y; rfl) hm)
  case choice =>
    exact ⟨fun hsame => rechoose_stays hx hsame.symm, fun hmoves => rechoose_moves hx (Ne.symm hmoves)⟩

end Sys2Proof.Machine
end

section
/-! PROOF. The replies of terminals in characters, and how characters received are judged (R118, R119, R182, R183). -/

namespace Sys2Proof.Machine

/-! ### The check byte (R183) -/

/-- With its check byte a frame sums to 0 (R183). -/
theorem sum_checkByte (bs : List Byte) : (bs ++ [checkByte bs]).sum = 0 := by
  rw [List.sum_append, List.sum_singleton, checkByte, ← List.sum_eq_foldl]
  simp

/-- A check byte off by x leaves the sum x. -/
theorem sum_checkByte_add (bs : List Byte) (x : Byte) : (bs ++ [checkByte bs + x]).sum = x := by
  have h := sum_checkByte bs
  rw [List.sum_append, List.sum_singleton] at h ⊢
  rw [← add_assoc, h, zero_add]

/-! ### The judgement of a reply (R119, R182) -/

/-- Characters with their address marks clear (R118). -/
def unmarked (bs : List Byte) : List BusChar := bs.map fun b => ⟨b, false⟩

theorem judgeReply_marked (a : Nat) (d : Byte) (cs : List BusChar) : judgeReply a (⟨d, true⟩ :: cs) = .bad := rfl

theorem judgeReply_foreign {a : Nat} {d : Byte} (h : d.toNat ≠ a) (cs : List BusChar) : judgeReply a (⟨d, false⟩ :: cs) = .bad :=
  if_pos (by simpa using h)

/-- Unmarked characters from the terminal addressed, of the length of their kind: their sum decides, whatever follows them. -/
theorem judgeReply_whole {a : Nat} {d k st check : Byte} {body : List Byte} (hd : d.toNat = a)
    (hk : replyBodyLength k = some body.length) (more : List BusChar) :
    judgeReply a (unmarked (d :: k :: st :: body ++ [check]) ++ more) =
      if (k :: st :: body ++ [check]).sum = 0 then .valid (readReply k st body) else .bad := by
  have htail : (unmarked (st :: body ++ [check]) ++ more).take (body.length + 2) = unmarked (st :: body ++ [check]) :=
    List.take_left' (by simp [unmarked])
  have hdata : (unmarked (st :: body ++ [check])).map BusChar.data = st :: body ++ [check] := by
    simp [unmarked, Function.comp_def]
  have hclear : (unmarked (st :: body ++ [check])).any BusChar.mark = false := by simp [unmarked]
  have hlength : ¬(unmarked (st :: body ++ [check])).length < body.length + 2 := by simp [unmarked]
  have hbody : ((st :: body ++ [check]).drop 1).take body.length = body := List.take_left
  calc judgeReply a (unmarked (d :: k :: st :: body ++ [check]) ++ more)
    _ = judgeReply a (⟨d, false⟩ :: ⟨k, false⟩ :: (unmarked (st :: body ++ [check]) ++ more)) := rfl
    _ = _ := by
      rw [judgeReply, if_neg (by simp [hd])]
      simp only [hk, htail, hclear, hlength, hdata, hbody, ← List.sum_eq_foldl, Bool.or_self, Bool.false_eq_true, if_false]
      rfl

/-! ### The replies of terminals (R118, R124, R182) -/

theorem byte_toNat {n : Nat} (h : n < 256) : (BitVec.ofNat 8 n).toNat = n := by
  rw [BitVec.toNat_ofNat]
  exact Nat.mod_eq_of_lt h

theorem u16_be2 {n : Nat} (h : n < 65536) : u16 (be2 n) 0 = n := by
  have hhigh : u8 (be2 n) 0 = n / 256 := byte_toNat (by omega)
  have hlow : u8 (be2 n) 1 = n % 256 := BitVec.toNat_ofNat ..
  rw [u16, hhigh, hlow]
  omega

theorem replyBodyLength_parts (r : BusReply) : replyBodyLength r.parts.1 = some r.parts.2.2.length := by cases r <;> rfl

theorem readReply_parts {r : BusReply} (hsignal : ∀ st n, r = .start st n ∨ r = .bump st n → st < 256 ∧ n < 65536)
    (htaken : ∀ g, r = .taken g → g < 65536) : readReply r.parts.1 r.parts.2.1 r.parts.2.2 = r := by
  cases r with
  | start st n =>
    obtain ⟨hst, hn⟩ := hsignal st n (.inl rfl)
    exact congrArg₂ BusReply.start (byte_toNat hst) (u16_be2 hn)
  | bump st n =>
    obtain ⟨hst, hn⟩ := hsignal st n (.inr rfl)
    exact congrArg₂ BusReply.bump (byte_toNat hst) (u16_be2 hn)
  | taken g => exact congrArg BusReply.taken (u16_be2 (htaken g rfl))
  | ack | wait | fault | hello => rfl

theorem chars_eq (a : Nat) (r : BusReply) :
    r.chars a =
      unmarked (BitVec.ofNat 8 a :: r.parts.1 :: r.parts.2.1 :: r.parts.2.2 ++
        [checkByte (r.parts.1 :: r.parts.2.1 :: r.parts.2.2)]) := rfl

/-- The characters of a reply with another check byte. -/
theorem chars_rechecked (a : Nat) (r : BusReply) (check : Byte) :
    (r.chars a).dropLast ++ [⟨check, false⟩] =
      unmarked (BitVec.ofNat 8 a :: r.parts.1 :: r.parts.2.1 :: r.parts.2.2 ++ [check]) := by
  rw [chars_eq, unmarked, List.map_append, List.map_singleton, List.dropLast_concat, unmarked, List.map_append, List.map_singleton]

/-- Settles O43: the characters of each reply, and how they, and the same characters gone wrong, are judged. -/
theorem busRepliesReadBack : Obligations.BusRepliesReadBack := by
  refine ⟨fun a r kind st fields h => ?characters, fun a r more ha hsignal htaken => ?judged⟩
  case characters =>
    have hparts : (kind, BitVec.ofNat 8 st, fields) = r.parts := by
      cases r <;> cases h <;> rfl
    refine ⟨checkByte (kind :: BitVec.ofNat 8 st :: fields), ?_, sum_checkByte _⟩
    rw [chars_eq, ← hparts]
    rfl
  case judged =>
    have hown : (BitVec.ofNat 8 a).toNat = a := byte_toNat ha
    have hlength := replyBodyLength_parts r
    refine ⟨?_, fun b _ hb => judgeReply_foreign (hown.symm ▸ hb.symm) _, judgeReply_marked a _ _, fun x hx => ?_⟩
    · rw [chars_eq, judgeReply_whole hown hlength, if_pos (sum_checkByte _), readReply_parts hsignal htaken]
    · rw [chars_rechecked, judgeReply_whole hown hlength, if_neg]
      exact (sum_checkByte_add _ x).symm ▸ hx

end Sys2Proof.Machine
end

section
/-! PROOF. Turns (R120 to R122, R126, R127): the frame chosen, the round, the broadcast between turns, and the characters sent. -/

namespace Sys2Proof.Machine

/-! ### The frames of the part (R122, R182) -/

theorem noteState_byte (s : NoteState) :
    BitVec.ofNat 8 s.code = match s with | .ready => 1 | .dying => 2 | .gone => 3 := by cases s <;> rfl

/-- The body of a POST: number, name, three bytes and the due time (R182). -/
theorem body_post (st n : Nat) (name : List Byte) (p : Nat) (k : TicketKind) (re : Bool) (due : Int) :
    (BusFrame.post st n name p k re due).body =
      be2 n ++ name ++ [BitVec.ofNat 8 p, BitVec.ofNat 8 k.code, BitVec.ofNat 8 (bit re 0)] ++ signed4 due := by
  simp [BusFrame.body, be1, mark1]

/-- The characters of a frame by its kind, station, receipt mark and fields; with the check byte they sum to 0 (R182, R183). -/
theorem frameChars_of_fields {a st : Nat} {receipt : Bool} {f : BusFrame} {kind : Byte} {fields : List Byte} (hk : f.kind = kind)
    (hst : f.station = st) (hf : f.body = fields) :
    let bytes := kind :: BitVec.ofNat 8 st :: (if receipt then 1 else 0) :: fields
    ∃ check : Byte, frameChars a receipt f = ⟨BitVec.ofNat 8 a, true⟩ :: (bytes ++ [check]).map (fun b => ⟨b, false⟩) ∧
      (bytes ++ [check]).sum = 0 := by
  subst hk hst hf
  refine ⟨_, ?_, sum_checkByte _⟩
  rw [← mark_byte]
  rfl

/-! ### The frame chosen (R121) -/

section

variable {k : Kitchen} {t : Terminal}

theorem chooseFrame_down (h : t.state ≠ .live) : chooseFrame k t = .poll := by
  unfold chooseFrame
  cases hs : t.state with
  | live => exact absurd hs h
  | unknown | lost => rfl

theorem chooseFrame_pass (h : t.state = .live) (hk : t.kind = .pass) :
    (t.notes = [] → chooseFrame k t = .poll) ∧ ∀ n rest, t.notes = n :: rest → chooseFrame k t = .note n := by
  unfold chooseFrame
  rw [h, hk]
  exact ⟨fun hn => by rw [hn], fun n rest hn => by rw [hn]⟩

theorem postFrame_found {p : Slip} {x : Ticket} (hx : findTicket k p.ticket = some x) :
    postFrame k p = .post p.station p.ticket (itemName k x.item) x.portions x.kind x.reprint x.due := by
  have hn : x.number = p.ticket := entryOf_key hx
  rw [postFrame, hx, ← hn]

variable (h : t.state = .live) (hk : t.kind = .station)

include h hk

theorem chooseFrame_railclr {st : Nat} {rest : List Nat} (hr : t.railclrs = st :: rest) : chooseFrame k t = .railclr st := by
  rw [chooseFrame, h, hk, hr]

theorem chooseFrame_void {p : Slip} {rest : List Slip} (hr : t.railclrs = []) (hv : t.voids = p :: rest) :
    chooseFrame k t = .void p.station p.ticket := by
  rw [chooseFrame, h, hk, hr, hv]

theorem chooseFrame_post {p : Slip} {rest : List Slip} (hr : t.railclrs = []) (hv : t.voids = []) (hp : t.posts = p :: rest) :
    chooseFrame k t = postFrame k p := by
  rw [chooseFrame, h, hk, hr, hv, hp]

theorem chooseFrame_next {st : Nat} {rest : List Nat} {x : Station} (hr : t.railclrs = []) (hv : t.voids = []) (hp : t.posts = [])
    (hn : t.nextMarks = st :: rest) (hx : findStation k st = some x) : chooseFrame k t = .next st (x.staged.getD 0) := by
  rw [chooseFrame, h, hk, hr, hv, hp, hn]
  exact congrArg (fun y : Option Station => BusFrame.next st ((y.bind Station.staged).getD 0)) hx

theorem chooseFrame_mode {st : Nat} {rest : List Nat} {x : Station} (hr : t.railclrs = []) (hv : t.voids = []) (hp : t.posts = [])
    (hn : t.nextMarks = []) (hm : t.modeMarks = st :: rest) (hx : findStation k st = some x) :
    chooseFrame k t = .mode st x.mode := by
  rw [chooseFrame, h, hk, hr, hv, hp, hn, hm]
  exact congrArg (fun y : Option Station => BusFrame.mode st ((y.map Station.mode).getD .off)) hx

theorem chooseFrame_idle (hr : t.railclrs = []) (hv : t.voids = []) (hp : t.posts = []) (hn : t.nextMarks = [])
    (hm : t.modeMarks = []) : chooseFrame k t = .poll := by
  rw [chooseFrame, h, hk, hr, hv, hp, hn, hm]

end

/-- The mark of a NEXT or MODE frame alone is cleared when its turn begins (R127). -/
theorem clearMark_eq (f : BusFrame) (t : Terminal) :
    (∀ st n, f = .next st n → clearMark f t = { t with nextMarks := t.nextMarks.filter fun m => m != st }) ∧
    (∀ st m, f = .mode st m → clearMark f t = { t with modeMarks := t.modeMarks.filter fun m => m != st }) ∧
    ((∀ st n, f ≠ .next st n) → (∀ st m, f ≠ .mode st m) → clearMark f t = t) := by
  refine ⟨?_, ?_, fun hn hm => ?_⟩
  · rintro st n rfl
    rfl
  · rintro st m rfl
    rfl
  · cases f with
    | next st n => exact absurd rfl (hn st n)
    | mode st m => exact absurd rfl (hm st m)
    | poll | post | void | railclr | note => rfl

/-! ### The round (R120) -/

/-- The terminal whose turn it is: the lowest address above the last one served, or the lowest of all. -/
def InTurn (k : Kitchen) (t : Terminal) : Prop :=
  (k.lastTurn < t.address ∧ ∀ x ∈ k.terminals, k.lastTurn < x.address → t.address ≤ x.address) ∨
    ((∀ x ∈ k.terminals, x.address ≤ k.lastTurn) ∧ ∀ x ∈ k.terminals, t.address ≤ x.address)

/-- In an ascending table the first entry that a test picks out is the least. -/
theorem find?_least {l : List Terminal} (hl : l.Pairwise fun x y => x.address < y.address) {p : Terminal → Bool} {t : Terminal}
    (ht : t ∈ l) (hp : p t = true) (hleast : ∀ x ∈ l, p x = true → t.address ≤ x.address) : l.find? p = some t := by
  induction l with
  | nil => cases ht
  | cons y l ih =>
    obtain ⟨hy, hl⟩ := List.pairwise_cons.1 hl
    rcases List.mem_cons.1 ht with rfl | ht
    · exact List.find?_cons_of_pos hp
    · have hnot : ¬p y = true := fun h => absurd (hleast y List.mem_cons_self h) (Nat.not_le.2 (hy t ht))
      rw [List.find?_cons_of_neg hnot]
      exact ih hl ht fun x hx => hleast x (List.mem_cons_of_mem y hx)

theorem nextAddress_inTurn {k : Kitchen} {t : Terminal} (ht : t ∈ k.terminals)
    (hl : k.terminals.Pairwise fun x y => x.address < y.address) (h : InTurn k t) : nextAddress k = some t.address := by
  unfold nextAddress
  rcases h with ⟨habove, hleast⟩ | ⟨hnone, hleast⟩
  · rw [find?_least hl ht (decide_eq_true habove) fun x hx hp => hleast x hx (of_decide_eq_true hp)]
  · have hfind : (k.terminals.find? fun x => decide (k.lastTurn < x.address)) = none :=
      List.find?_eq_none.2 fun x hx => by simpa using hnone x hx
    have hhead : k.terminals.head? = k.terminals.find? fun _ => true := by cases k.terminals <;> rfl
    rw [hfind, hhead, find?_least hl ht rfl fun x hx _ => hleast x hx]
    rfl

/-! ### Turns and the broadcast (R120, R122, R126, R127) -/

/-- The kitchen with a pending broadcast sent (R122). -/
theorem sendBroadcast_eq (w : Work) :
    sendBroadcast w = { w with broadcast := false, busLine := if w.broadcast then broadcastChars else w.busLine } := by
  unfold sendBroadcast
  cases h : w.broadcast with
  | true => rfl
  | false => exact congrArg (fun b => ({ w with broadcast := b } : Work)) h

theorem takeTurn_busy {w : Work} (h : w.turn ≠ none) : takeTurn w = w := if_pos (Option.isSome_iff_ne_none.2 h)

section

variable {w : Work} (h : w.turn = none)

include h

theorem takeTurn_free :
    takeTurn w =
      match nextAddress w.toKitchen with
      | some a => beginTurn a (sendBroadcast w)
      | none => sendBroadcast w := by
  have hn : nextAddress (sendBroadcast w).toKitchen = nextAddress w.toKitchen := by
    rw [sendBroadcast_eq]
    rfl
  rw [takeTurn, h, ← hn]
  rfl

theorem takeTurn_empty (ht : w.terminals = []) : takeTurn w = sendBroadcast w := by
  have hn : nextAddress w.toKitchen = none := by
    rw [nextAddress, ht]
    rfl
  rw [takeTurn_free h, hn]

theorem takeTurn_begins {t : Terminal} (ht : t ∈ w.terminals) (hl : w.terminals.Pairwise fun x y => x.address < y.address)
    (hturn : InTurn w.toKitchen t) :
    let f := chooseFrame w.toKitchen t
    takeTurn w =
      { w with
        terminals := updateEntry Terminal.address t.address (clearMark f) w.terminals
        turn := some ⟨t.address, t.receipt, f, false, false, false⟩
        broadcast := false
        lastTurn := t.address
        busLine := frameChars t.address t.receipt f } := by
  have hfind : entryOf Terminal.address t.address w.terminals = some t := entryOf_of_mem hl ht
  rw [takeTurn_free h, nextAddress_inTurn ht hl hturn]
  simp only [sendBroadcast_eq, beginTurn, findTerminal, hfind]
  rfl

end

/-- Settles O44: the characters of each frame, the frame chosen, and the two commands with and without a turn under way. -/
theorem turnAndBroadcast : Obligations.TurnAndBroadcast := by
  refine ⟨⟨fun a receipt f kind st fields h => ?characters, rfl⟩, clearMark_eq, fun k t => ?chosen, fun s hs => ?broadcast,
    fun s hs => ?turn⟩
  case characters =>
    cases f with
    | post _ n name p k re due =>
      cases h
      refine frameChars_of_fields rfl rfl ((body_post ..).trans ?_)
      rw [ticketKind_byte, mark_byte, signed4, be4_eq]
      rfl
    | mode _ m =>
      cases h
      exact frameChars_of_fields rfl rfl (congrArg (fun b => [b]) (mode_byte m))
    | note n =>
      cases h
      exact frameChars_of_fields rfl rfl (congrArg (fun b => be2 n.group ++ [BitVec.ofNat 8 n.sect, b]) (noteState_byte n.state))
    | poll | void | next | railclr =>
      cases h
      exact frameChars_of_fields rfl rfl rfl
  case chosen =>
    exact ⟨chooseFrame_down, chooseFrame_pass, fun h hk => ⟨fun _ _ => chooseFrame_railclr h hk, fun _ _ => chooseFrame_void h hk,
      fun _ _ _ hr hv hp hx => (chooseFrame_post h hk hr hv hp).trans (postFrame_found hx), fun _ _ _ => chooseFrame_next h hk,
      fun _ _ _ => chooseFrame_mode h hk, chooseFrame_idle h hk⟩⟩
  case broadcast =>
    have hexec : exec .railclrBroadcast s = .next (moved s (broadcastTurn (begun s.kit))) :=
      congrArg Host.Outcome.next (inPart_running _ hs)
    refine ⟨fun hturn hb => ?_, fun h => ?_⟩
    · have hsent : broadcastTurn (begun s.kit) = { begun s.kit with broadcast := false, busLine := broadcastChars } :=
        (if_neg (by simp [hturn])).trans (if_pos hb)
      rw [hexec, hsent]
      rfl
    · have hnone : broadcastTurn (begun s.kit) = begun s.kit := by
        by_cases hturn : s.kit.turn = none
        · exact (if_neg (by simp [hturn])).trans (if_neg (by simp [h.resolve_left (not_not_intro hturn)]))
        · exact if_pos (Option.isSome_iff_ne_none.2 hturn)
      rw [hexec, hnone, moved_begun]
  case turn =>
    have hexec : exec .turn s = .next (moved s (takeTurn (begun s.kit))) := congrArg Host.Outcome.next (inPart_running _ hs)
    refine ⟨fun hturn => ?_, fun hturn ht => ?_, fun t hturn ht hl hround => ?_⟩
    · rw [hexec, takeTurn_busy (w := begun s.kit) hturn, moved_begun]
    · rw [hexec, takeTurn_empty (w := begun s.kit) hturn ht, sendBroadcast_eq]
      rfl
    · intro f
      rw [hexec, takeTurn_begins (w := begun s.kit) hturn ht hl hround]
      rfl

end Sys2Proof.Machine
end

section
/-! PROOF. The end of a turn: a valid reply in its steps (R125), WAIT and FAULT (R112, R129), and misses with the loss of a terminal
(R119, R130). -/

namespace Sys2Proof.Machine

/-! ### A valid reply in the steps of R125 -/

/-- What follows once the terminal is heard: the frame is accepted or stays pending, the report is handed on, and the Pass Unit
settles (R125 steps 3 and 4). -/
def replyTaken (u : Turn) (r : BusReply) (w : Work) : Work :=
  passSettle (handOn u.address r (if accepts r then acceptFrame u w else keepFrame u w))

theorem handleReply_noTurn {r : BusReply} {w : Work} (h : w.turn = none) : handleReply r w = w := by
  rw [handleReply, h]

theorem accepts_eq_false_iff (r : BusReply) : accepts r = false ↔ r = .wait ∨ r = .fault ∨ r = .hello := by
  cases r <;> simp [accepts]

section

variable {s : State} {u : Turn}

/-- The turn of a terminal that CLRCFG removed just ends (R120). -/
theorem handleReply_discarded {r : BusReply} (hu : s.kit.turn = some u)
    (h : u.orphan = true ∨ findTerminal s.kit u.address = none) : handleReply r (begun s.kit) = turnEnded s := by
  have hgone : (u.orphan || (findTerminal (turnEnded s).toKitchen u.address).isNone) = true := by
    rw [Bool.or_eq_true, Option.isNone_iff_eq_none]
    exact h
  rw [handleReply, begun_turn, hu]
  exact if_pos hgone

variable {t : Terminal} (h : Addressed s u t)

include h

theorem Addressed.stays : (u.orphan || (findTerminal (turnEnded s).toKitchen u.address).isNone) = false := by
  have hknown : findTerminal (turnEnded s).toKitchen u.address = some t := h.known
  rw [h.own, hknown]
  rfl

theorem handleReply_taken (r : BusReply) : handleReply r (begun s.kit) = replyTaken u r (heard s u) := by
  rw [handleReply, begun_turn, h.turn]
  exact if_neg (Bool.eq_false_iff.1 h.stays)

theorem heard_eq :
    heard s u =
      let told := setTerminal u.address (fun x => { x with misses := 0, receipt := true, state := .live }) (turnEnded s)
      if t.state = .live then told else rechooseBound u.address (raise (.termstate u.address t.kind t.state .live) told) := by
  have hknown : findTerminal (turnEnded s).toKitchen u.address = some t := h.known
  rw [heard, terminalHeard, hknown]

theorem heard_live (hl : t.state = .live) :
    heard s u = setTerminal u.address (fun x => { x with misses := 0, receipt := true, state := .live }) (turnEnded s) :=
  (heard_eq h).trans (if_pos hl)

theorem heard_revived (hl : t.state ≠ .live) :
    heard s u =
      rechooseBound u.address (raise (.termstate u.address t.kind t.state .live)
        (setTerminal u.address (fun x => { x with misses := 0, receipt := true, state := .live }) (turnEnded s))) :=
  (heard_eq h).trans (if_neg hl)

end

/-- Settles O46: no turn, a turn whose terminal is gone, and a reply in its steps. -/
theorem repliesTakenInSteps : Obligations.RepliesTakenInSteps := by
  intro c r st n g s hc hs
  have hexec : exec c s = .next (moved s (handleReply r (begun s.kit))) :=
    (exec_reply hc s).trans (congrArg Host.Outcome.next (inPart_running _ hs))
  refine ⟨fun hu => ?_, fun u hu hgone => ?_, fun u t h => ⟨?_, accepts_eq_false_iff r, heard_live h, heard_revived h⟩⟩
  · rw [hexec, handleReply_noTurn (w := begun s.kit) hu, moved_begun]
  · rw [hexec, handleReply_discarded hu hgone]
  · rw [hexec, handleReply_taken h]
    rfl

/-! ### WAIT (R127, R129) -/

section

variable {u : Turn} {w : Work}

theorem keepFrame_next {st n : Nat} (h : u.frame = .next st n) :
    keepFrame u w = if currentOf w.toKitchen st = some u.address then setTerminal u.address (markNext st) w else w := by
  rw [keepFrame, h]

theorem keepFrame_mode {st : Nat} {m : Mode} (h : u.frame = .mode st m) :
    keepFrame u w = if currentOf w.toKitchen st = some u.address then setTerminal u.address (markMode st) w else w := by
  rw [keepFrame, h]

theorem keepFrame_other (hn : ∀ st n, u.frame ≠ .next st n) (hm : ∀ st m, u.frame ≠ .mode st m) : keepFrame u w = w := by
  unfold keepFrame
  cases hf : u.frame with
  | next st n => exact absurd hf (hn st n)
  | mode st m => exact absurd hf (hm st m)
  | poll | post | void | railclr | note => rfl

end

theorem exec_wait {s : State} {u : Turn} {t : Terminal} (h : Addressed s u t) :
    exec .wait s = .next (moved s (passSettle (keepFrame u (heard s u)))) :=
  congrArg Host.Outcome.next ((inPart_running _ h.high).trans (congrArg (moved s) (handleReply_taken h .wait)))

/-! ### FAULT (R112) -/

section

variable (a : Nat) (sts : List Nat) (w : Work)

/-- The stations numbered in `sts` halted, one after another, for a FAULT of a terminal (R112). -/
def faultHalts : Work := forEach (fun n => changeMode n .halted 0 .fault a) sts w

theorem faultHalts_steady : Steady w (faultHalts a sts w) :=
  (Steady.refl w).forEach _ (fun n w => (Steady.refl w).changeMode n .halted 0 .fault a) sts

theorem faultHalts_posts :
    (faultHalts a sts w).stations.map Station.post = (w.stations.map (modeAmong .halted sts)).map Station.post := by
  have hmodes : ∀ sts (l : List Station), (l.map (modeAmong .halted sts)).map Station.post =
      (l.map Station.post).map (modeAmong .halted sts) := fun sts l => by
    simp only [List.map_map, Function.comp_def, modeAmong_post]
  induction sts generalizing w with
  | nil => exact congrArg _ (List.map_id'' (modeAmong_nil .halted) w.stations).symm
  | cons n sts ih =>
    refine (ih (changeMode n .halted 0 .fault a w)).trans ?_
    rw [hmodes, changeMode_posts, ← hmodes, setStation_stations, updateEntry]
    exact congrArg (List.map Station.post) (List.map_map.trans (List.map_congr_left fun x _ => modeAmong_cons .halted n sts x))

theorem faultHalts_reported : ∀ n ∈ sts, ⟨w.clock, .stnmode n .halted .fault a⟩ ∈ (faultHalts a sts w).out := by
  induction sts generalizing w with
  | nil => exact fun n hn => absurd hn List.not_mem_nil
  | cons n sts ih =>
    have hfirst : Steady w (changeMode n .halted 0 .fault a w) := (Steady.refl w).changeMode n .halted 0 .fault a
    intro k hk
    rcases List.mem_cons.1 hk with rfl | hk
    · exact (faultHalts_steady a sts _).mem_out (changeMode_reported k .halted 0 .fault a w)
    · exact hfirst.clock ▸ ih (changeMode n .halted 0 .fault a w) k hk

end

/-- Settles O51: WAIT by the frame it leaves pending, and FAULT with the stations it halts. -/
theorem waitAndFaultTaken : Obligations.WaitAndFaultTaken := by
  refine ⟨fun s u t h hl => ?wait, fun s u t h => ?fault⟩
  case wait =>
    intro told leads
    have hleads : ∀ {w}, keepFrame u told = w → leads w := by
      rintro w rfl
      have hexec := exec_wait h
      rwa [heard_live h hl] at hexec
    exact ⟨fun st n hf => hleads (keepFrame_next hf), fun st m hf => hleads (keepFrame_mode hf),
      fun hn hm => hleads (keepFrame_other hn hm)⟩
  case fault =>
    intro w0 sts
    have hclock : w0.clock = s.kit.clock := ((Steady.refl (heard s u)).keepFrame u).clock.trans (heard_clock s u)
    have hsettles : Settles (faultHalts u.address sts w0) (passSettle (faultHalts u.address sts w0)) := (Settles.refl _).passSettle
    refine ⟨_, ?_, rfl, hsettles.stations.trans (faultHalts_posts u.address sts w0), fun n hn => ?_⟩
    · exact congrArg Host.Outcome.next ((inPart_running _ h.high).trans (congrArg (moved s) (handleReply_taken h .fault)))
    · exact hsettles.steady.mem_out (hclock ▸ faultHalts_reported u.address sts w0 n hn)

/-! ### Misses (R119, R130) -/

theorem atLimit_iff {t : Terminal} : atLimit t = true ↔ t.state = .live ∧ 8 ≤ t.misses := by
  rw [atLimit, Bool.and_eq_true, beq_iff_eq, decide_eq_true_iff]

theorem terminalDown_found {a : Nat} {w : Work} {x : Terminal} (hx : findTerminal w.toKitchen a = some x) :
    terminalDown a w =
      rechooseBound a (raise (.termstate a x.kind .live .lost) (setTerminal a (fun t => { t with state := .lost }) w)) := by
  rw [terminalDown, hx]

section

variable {s : State} {u : Turn} {t : Terminal} (h : Addressed s u t)

include h

/-- The terminal after its miss, with the frame of the turn pending again, before it is found LOST (R130). -/
theorem findTerminal_missed :
    ∃ x, findTerminal (keepFrame u (setTerminal u.address missed (turnEnded s))).toKitchen u.address = some x ∧
      x.kind = t.kind ∧ (atLimit x = true ↔ t.state = .live ∧ 8 ≤ t.misses + 1) := by
  have hmissed : findTerminal (setTerminal u.address missed (turnEnded s)).toKitchen u.address = some (missed t) :=
    (entryOf_updateEntry_same (key := Terminal.address) u.address missed s.kit.terminals fun _ hx => hx).trans
      (congrArg (Option.map missed) h.known)
  have hkeep := ((Steady.refl (setTerminal u.address missed (turnEnded s))).keepFrame u).terminals
  have hhealth : ∀ k : Kitchen, (findTerminal k u.address).map Terminal.health =
      entryOf Prod.fst u.address (k.terminals.map Terminal.health) :=
    fun k => entryOf_map Terminal.address Prod.fst Terminal.health (fun _ => rfl) u.address k.terminals
  have hfound := (hhealth _).trans ((congrArg _ hkeep).trans (hhealth _).symm)
  rw [hmissed] at hfound
  obtain ⟨x, hx, ex⟩ := Option.map_eq_some_iff.1 hfound
  obtain ⟨-, hkind, hstate, hmisses, -⟩ : x.address = t.address ∧ x.kind = t.kind ∧ x.state = t.state ∧
      x.misses = min (t.misses + 1) 8 ∧ x.receipt = false := by simpa [Terminal.health, missed] using ex
  refine ⟨x, hx, hkind, ?_⟩
  rw [atLimit_iff, hstate, hmisses]
  exact and_congr_right fun _ => by omega

theorem missTurn_eq :
    missTurn (begun s.kit) = loseAtLimit u.address (keepFrame u (setTerminal u.address missed (turnEnded s))) := by
  rw [missTurn, begun_turn, h.turn]
  exact if_neg (Bool.eq_false_iff.1 h.stays)

theorem missTurn_kept (hmiss : t.state ≠ .live ∨ t.misses + 1 < 8) :
    missTurn (begun s.kit) = keepFrame u (setTerminal u.address missed (turnEnded s)) := by
  obtain ⟨x, hx, -, hlimit⟩ := findTerminal_missed h
  rw [missTurn_eq h, loseAtLimit, hx]
  exact if_neg (hlimit.not.2 fun ⟨hl, h8⟩ => hmiss.elim (· hl) (by omega))

theorem missTurn_lost (hl : t.state = .live) (hmiss : 8 ≤ t.misses + 1) :
    missTurn (begun s.kit) =
      passSettle (rechooseBound u.address (raise (.termstate u.address t.kind .live .lost)
        (setTerminal u.address (fun x => { x with state := .lost })
          (keepFrame u (setTerminal u.address missed (turnEnded s)))))) := by
  obtain ⟨x, hx, hkind, hlimit⟩ := findTerminal_missed h
  rw [missTurn_eq h, ← hkind, ← terminalDown_found hx, loseAtLimit, hx]
  exact if_pos (hlimit.2 ⟨hl, hmiss⟩)

theorem badReply_miss {cs : List BusChar} (hne : cs ≠ []) (hbad : ∀ r, judgeReply u.address cs ≠ .valid r) :
    badReply cs (begun s.kit) = missTurn (begun s.kit) := by
  rw [badReply, begun_turn, h.turn]
  refine (if_neg hne).trans ?_
  cases hj : judgeReply u.address cs with
  | valid r => exact absurd hj (hbad r)
  | bad | incomplete => rfl

theorem badReply_none {cs : List BusChar} (hnot : ¬(cs ≠ [] ∧ ∀ r, judgeReply u.address cs ≠ .valid r)) :
    badReply cs (begun s.kit) = begun s.kit := by
  rw [badReply, begun_turn, h.turn]
  by_cases hne : cs = []
  · exact if_pos hne
  · obtain ⟨r, hr⟩ : ∃ r, judgeReply u.address cs = .valid r := by
      simpa [hne] using hnot
    refine (if_neg hne).trans ?_
    rw [hr]

theorem lastMissDue_iff (a : Nat) :
    lastMissDue s.kit a = true ↔ u.address = a ∧ t.state = .live ∧ t.misses = 7 := by
  unfold lastMissDue
  rw [h.turn]
  by_cases ha : u.address = a
  · subst ha
    rw [h.known]
    simp only [h.own, beq_self_eq_true, Bool.not_false, Bool.and_self, Bool.true_and, Bool.and_eq_true, beq_iff_eq, true_and]
    exact and_congr_right fun _ => Nat.succ_inj
  · cases findTerminal s.kit a <;> simp [ha]

theorem loseTerminal_due (hl : t.state = .live) (hmiss : t.misses = 7) :
    loseTerminal u.address (begun s.kit) = missTurn (begun s.kit) := if_pos ((lastMissDue_iff h u.address).2 ⟨rfl, hl, hmiss⟩)

theorem loseTerminal_notDue {a : Nat} (hnot : ¬(u.address = a ∧ t.state = .live ∧ t.misses = 7)) :
    loseTerminal a (begun s.kit) = begun s.kit := if_neg fun hdue => hnot ((lastMissDue_iff h a).1 hdue)

end

/-- Settles O45: the miss that the terminal survives, the one that makes it LOST, and the commands that are no miss. -/
theorem missesAndLoss : Obligations.MissesAndLoss := by
  intro s u t cs h w1 bad
  have hexpiry : exec .replyWindowExpiry s = .next (moved s (missTurn (begun s.kit))) :=
    congrArg Host.Outcome.next (inPart_running _ h.high)
  have hreply : exec (.badReply cs) s = .next (moved s (badReply cs (begun s.kit))) :=
    congrArg Host.Outcome.next (inPart_running _ h.high)
  have hlost : ∀ a, exec (.terminalLost a) s = .next (moved s (loseTerminal a (begun s.kit))) := fun a =>
    congrArg Host.Outcome.next (inPart_running _ h.high)
  refine ⟨fun hmiss => ?kept, fun hl hmiss => ?lost, fun hnot => ?_, fun a ha => ?_⟩
  case kept =>
    have hkept : missTurn (begun s.kit) = w1 := missTurn_kept h hmiss
    refine ⟨hkept ▸ hexpiry, fun ⟨hne, hbad⟩ => ?_, ?_⟩
    · rw [hreply, badReply_miss h hne hbad, hkept]
    · rw [hlost, loseTerminal_notDue h (by rintro ⟨-, hl, h7⟩; exact hmiss.elim (· hl) (by omega)), moved_begun]
  case lost =>
    intro w2 w3
    have hgone : missTurn (begun s.kit) = w3 := missTurn_lost h hl hmiss
    refine ⟨hgone ▸ hexpiry, fun ⟨hne, hbad⟩ => ?_, fun h7 => ?_⟩
    · rw [hreply, badReply_miss h hne hbad, hgone]
    · rw [hlost, loseTerminal_due h hl h7, hgone]
  · rw [hreply, badReply_none h hnot, moved_begun]
  · rw [hlost, loseTerminal_notDue h fun hdue => ha hdue.1.symm, moved_begun]

end Sys2Proof.Machine
end

section
/-! PROOF. HELLO: the rails re-posted and the shown groups noted again (R127, R128, R133, R137). -/

namespace Sys2Proof.Machine

/-! ### POSTs made pending one after another (R127, R128) -/

/-- A terminal with a POST of each of the tickets pending (R128). -/
def pendPosts (st : Nat) (ns : List Nat) (t : Terminal) : Terminal := ns.foldl (fun t n => pendPost st n t) t

theorem pendPost_posted {st n : Nat} {t : Terminal} (h : t.posts.any (fun p => p.ticket == n) = true) : pendPost st n t = t := if_pos h

theorem pendPost_unposted {st n : Nat} {t : Terminal} (h : t.posts.any (fun p => p.ticket == n) = false) :
    pendPost st n t = { t with posts := t.posts ++ [⟨st, n⟩] } := if_neg (Bool.eq_false_iff.1 h)

theorem pendPost_posts_only (st n : Nat) (t : Terminal) : ∃ ps, pendPost st n t = { t with posts := ps } := by
  unfold pendPost
  split
  · exact ⟨t.posts, rfl⟩
  · exact ⟨_, rfl⟩

theorem pendPosts_posts_only (st : Nat) (ns : List Nat) (t : Terminal) : ∃ ps, pendPosts st ns t = { t with posts := ps } := by
  induction ns generalizing t with
  | nil => exact ⟨t.posts, rfl⟩
  | cons n ns ih =>
    obtain ⟨qs, hone⟩ := pendPost_posts_only st n t
    obtain ⟨ps, hrest⟩ := ih (pendPost st n t)
    exact ⟨ps, hrest.trans (by rw [hone])⟩

theorem posted_pendPost (st n m : Nat) (t : Terminal) :
    (pendPost st n t).posts.any (fun p => p.ticket == m) = (n == m || t.posts.any fun p => p.ticket == m) := by
  cases h : t.posts.any fun p => p.ticket == n with
  | true =>
    rw [pendPost_posted h]
    by_cases hm : n = m
    · subst hm
      rw [h, Bool.or_true]
    · simp [hm]
  | false =>
    rw [pendPost_unposted h, List.any_append, Bool.or_comm]
    simp

/-- A ticket has a POST pending exactly if it had one or is among those posted. -/
theorem posted_pendPosts (st m : Nat) (ns : List Nat) (t : Terminal) :
    (pendPosts st ns t).posts.any (fun p => p.ticket == m) = (ns.contains m || t.posts.any fun p => p.ticket == m) := by
  induction ns generalizing t with
  | nil => rfl
  | cons n ns ih =>
    refine (ih (pendPost st n t)).trans ?_
    rw [posted_pendPost, List.contains_cons, Bool.beq_comm, ← Bool.or_assoc, Bool.or_comm (ns.contains m)]

/-- The new POSTs stand behind those pending, in the order given, and a pending one stays in its place (R128). -/
theorem pendPosts_posts {st : Nat} {ns : List Nat} (h : ns.Nodup) (t : Terminal) :
    (pendPosts st ns t).posts =
      t.posts ++ (ns.filter fun n => !(t.posts.any fun p => p.ticket == n)).map fun n => ⟨st, n⟩ := by
  induction ns generalizing t with
  | nil => exact (List.append_nil _).symm
  | cons n ns ih =>
    obtain ⟨hn, hns⟩ := List.nodup_cons.1 h
    refine (ih hns (pendPost st n t)).trans ?_
    have hlater : ns.filter (fun m => !((pendPost st n t).posts.any fun p => p.ticket == m)) =
        ns.filter fun m => !(t.posts.any fun p => p.ticket == m) :=
      List.filter_congr fun m hm => by
        have hne : (n == m) = false := beq_eq_false_iff_ne.2 fun e => hn (e ▸ hm)
        rw [posted_pendPost, hne, Bool.false_or]
    rw [hlater, List.filter_cons]
    cases hp : t.posts.any fun p => p.ticket == n with
    | true => rw [pendPost_posted hp]; rfl
    | false => rw [pendPost_unposted hp]; exact List.append_assoc ..

/-! ### A rail rebuilt (R128, R133, R137) -/

/-- A ticket with its reprint mark set, if it is one of those posted again (R128). -/
def reprinted (ns : List Nat) (x : Ticket) : Ticket := if ns.contains x.number then { x with reprint := true } else x

theorem reprinted_cons (n : Nat) (ns : List Nat) (x : Ticket) :
    reprinted ns (if x.number = n then { x with reprint := true } else x) = reprinted (n :: ns) x := by
  by_cases h : x.number = n <;> simp [reprinted, h]

theorem reposts_eq (st a : Nat) (ns : List Nat) (w : Work) :
    forEach (repost st a) ns w =
      { w with
        tickets := w.tickets.map (reprinted ns)
        terminals := updateEntry Terminal.address a (pendPosts st ns) w.terminals } := by
  induction ns generalizing w with
  | nil =>
    have htickets : w.tickets.map (reprinted []) = w.tickets := List.map_id'' (fun _ => rfl) w.tickets
    have hterminals : updateEntry Terminal.address a (pendPosts st []) w.terminals = w.terminals :=
      List.map_id'' (fun _ => ite_self _) w.terminals
    rw [htickets, hterminals]
    rfl
  | cons n ns ih =>
    have haddress : ∀ t, (pendPost st n t).address = t.address := fun t => by
      obtain ⟨_, h⟩ := pendPost_posts_only st n t
      rw [h]
    refine (ih (repost st a n w)).trans ?_
    simp only [repost, setTerminal, setTicket, updateEntry_updateEntry _ _ haddress]
    simp only [updateEntry, List.map_map, Function.comp_def, reprinted_cons]
    rfl

/-- The numbers of the tickets on a station's rail, in queue order (R83, R85). -/
def railNumbers (k : Kitchen) (st : Nat) : List Nat := ((queueOf k st).filter onRail).map Ticket.number

/-- A terminal's share of a rail rebuilt: its POSTs, and the station's NEXT and MODE marks (R133). -/
def railShare (st : Nat) (ns : List Nat) (t : Terminal) : Terminal := markMode st (markNext st (pendPosts st ns t))

theorem rebuildRail_eq (st a : Nat) (w : Work) :
    rebuildRail st a w =
      { w with
        tickets := w.tickets.map (reprinted (railNumbers w.toKitchen st))
        terminals := updateEntry Terminal.address a (railShare st (railNumbers w.toKitchen st)) w.terminals } := by
  have haddress : ∀ t, (pendPosts st (railNumbers w.toKitchen st) t).address = t.address := fun t => by
    obtain ⟨_, h⟩ := pendPosts_posts_only st (railNumbers w.toKitchen st) t
    rw [h]
  rw [rebuildRail, ← railNumbers, reposts_eq, setTerminal]
  simp only [updateEntry_updateEntry _ _ haddress]
  rfl

theorem railShare_eq (st : Nat) (ns : List Nat) (t : Terminal) :
    railShare st ns t =
      { t with
        posts := (pendPosts st ns t).posts
        nextMarks := addNumber st t.nextMarks
        modeMarks := addNumber st t.modeMarks } := by
  obtain ⟨ps, h⟩ := pendPosts_posts_only st ns t
  rw [railShare, h]
  rfl

/-! ### The rail (R83, R85) -/

theorem queueOf_perm (k : Kitchen) (st : Nat) :
    (queueOf k st).Perm (k.tickets.filter fun t => t.station == st && t.state != .done) :=
  ((sortTickets_perm _).append_left _).trans (List.filter_append_perm (fun t : Ticket => t.kind == .rush) _)

theorem railNumbers_nodup {k : Kitchen} (h : (k.tickets.map Ticket.number).Nodup) (st : Nat) : (railNumbers k st).Nodup := by
  have hqueue : ((queueOf k st).map Ticket.number).Nodup :=
    ((queueOf_perm k st).map Ticket.number).nodup_iff.2 (h.sublist (List.filter_sublist.map Ticket.number))
  exact hqueue.sublist (List.filter_sublist.map Ticket.number)

theorem any_number_eq_contains (l : List Ticket) (n : Nat) : l.any (fun y => y.number == n) = (l.map Ticket.number).contains n := by
  rw [List.contains_eq_any_beq, List.any_map]
  simp only [Function.comp_def, Bool.beq_comm]

/-- Settles O52: HELLO is a rail rebuilt for each station and the NOTEs; and a rail rebuilt in its two tables. -/
theorem helloRepostsRails : Obligations.HelloRepostsRails := by
  refine ⟨fun s u t h => ?hello, fun st a w => ?rail⟩
  case hello =>
    exact congrArg Host.Outcome.next ((inPart_running _ h.high).trans (congrArg (moved s) (handleReply_taken h .hello)))
  case rail =>
    intro rail w'
    have hrail : rail.map Ticket.number = railNumbers w.toKitchen st := rfl
    have hrebuilt : w' = _ := rebuildRail_eq st a w
    refine ⟨?tickets, ⟨railShare st (railNumbers w.toKitchen st), ?terminals, fun x => ?share⟩, ?rest⟩
    case tickets =>
      rw [hrebuilt]
      refine List.map_congr_left fun x _ => ?_
      rw [any_number_eq_contains, hrail]
      rfl
    case terminals => rw [hrebuilt, updateEntry]
    case share =>
      rw [railShare_eq]
      refine ⟨rfl, fun m => mem_addNumber m st x.nextMarks, fun m => mem_addNumber m st x.modeMarks, fun y hy => ?_, fun hnodup => ?_⟩
      · have hposted : (pendPosts st (railNumbers w.toKitchen st) x).posts.any (fun p => p.ticket == y.number) = true := by
          rw [posted_pendPosts, ← hrail, List.contains_iff_mem.2 (List.mem_map_of_mem hy), Bool.true_or]
        obtain ⟨p, hp, hn⟩ := List.any_eq_true.1 hposted
        exact ⟨p, hp, beq_iff_eq.1 hn⟩
      · refine (pendPosts_posts (railNumbers_nodup hnodup st) x).trans ?_
        rw [← hrail, List.filter_map, List.map_map]
        rfl
    case rest => rw [hrebuilt]

end Sys2Proof.Machine
end

section
/-! PROOF. The draw order, the draw pass, and entry to READY (R144, R153 to R155). -/

namespace Sys2Proof.Machine

/-! ### The draw order (R153) -/

/-- Group a stands ahead of group b in the draw order: by T, and among equal T by number. -/
def standsAhead (k : Kitchen) (a b : Nat) : Prop :=
  ((findGroup k a).map Group.target).getD 0 < ((findGroup k b).map Group.target).getD 0 ∨
    (((findGroup k a).map Group.target).getD 0 = ((findGroup k b).map Group.target).getD 0 ∧ a < b)

section

variable {k : Kitchen} {a b c n : Nat} {l : List Nat}

theorem drawsBefore_iff : drawsBefore k a b = true ↔ standsAhead k a b := by
  unfold drawsBefore standsAhead
  dsimp only
  split <;> simp only [decide_eq_true_eq] <;> omega

theorem standsAhead.trans (h : standsAhead k a b) (g : standsAhead k b c) : standsAhead k a c := by
  unfold standsAhead at *
  omega

theorem standsAhead_of_not (hne : a ≠ b) (h : ¬standsAhead k a b) : standsAhead k b a := by
  unfold standsAhead at *
  omega

theorem insertDraw_perm (k : Kitchen) (n : Nat) (l : List Nat) : (insertDraw k n l).Perm (n :: l) := by
  induction l with
  | nil => exact .refl _
  | cons m l ih =>
    unfold insertDraw
    split
    · exact .refl _
    · exact (ih.cons m).trans (.swap n m l)

theorem insertDraw_ordered (hn : n ∉ l) (h : l.Pairwise (standsAhead k)) : (insertDraw k n l).Pairwise (standsAhead k) := by
  induction l with
  | nil => exact List.pairwise_singleton _ n
  | cons m l ih =>
    obtain ⟨hm, hl⟩ := List.pairwise_cons.1 h
    obtain ⟨hne, hnl⟩ := not_or.1 (mt List.mem_cons.2 hn)
    unfold insertDraw
    split
    case isTrue hb =>
      have hnm : standsAhead k n m := drawsBefore_iff.1 hb
      exact List.pairwise_cons.2 ⟨List.forall_mem_cons.2 ⟨hnm, fun x hx => hnm.trans (hm x hx)⟩, h⟩
    case isFalse hb =>
      have hmn : standsAhead k m n := standsAhead_of_not hne (mt drawsBefore_iff.2 hb)
      refine List.pairwise_cons.2 ⟨fun x hx => ?_, ih hnl hl⟩
      rcases List.mem_cons.1 ((insertDraw_perm k n l).mem_iff.1 hx) with rfl | hx
      · exact hmn
      · exact hm x hx

theorem mem_joinDraw {m : Nat} {w : Work} : m ∈ (joinDraw n w).drawOrder ↔ m = n ∨ m ∈ w.drawOrder := by
  refine (insertDraw_perm w.toKitchen n (dropNumber n w.drawOrder)).mem_iff.trans ?_
  simp only [dropNumber, List.mem_cons, List.mem_filter, bne_iff_ne]
  tauto

theorem joinDraw_ordered {w : Work} (h : w.drawOrder.Pairwise (standsAhead w.toKitchen)) :
    (joinDraw n w).drawOrder.Pairwise (standsAhead w.toKitchen) :=
  insertDraw_ordered (by simp [dropNumber]) (h.filter _)

end

/-! ### The lines of a group that wait (R154) -/

/-- The STANDING lines of a group not yet drawn (R153). -/
def undrawnLines (k : Kitchen) (g : Group) : List Line := g.lines.filter (undrawn k)

/-- An undrawn line of the group waits, `ahead` being the items of undrawn lines of the groups ahead of it (R154). -/
def drawWaits (k : Kitchen) (ahead : List Nat) (g : Group) : Bool :=
  (undrawnLines k g).any fun l => lineWaits k ahead l.item (undrawnCount k g l.item)

section

variable {k : Kitchen} {g : Group} {ahead : List Nat}

theorem undrawnLines_eq (k : Kitchen) (g : Group) :
    undrawnLines k g = g.lines.filter fun l => !l.drawn && ((findItem k l.item).map Item.kind == some .standing) :=
  List.filter_congr fun _ _ => Bool.and_comm ..

theorem undrawnCount_eq (k : Kitchen) (g : Group) (item : Nat) :
    undrawnCount k g item = (((undrawnLines k g).filter fun l => l.item == item).map Line.count).sum := by
  rw [undrawnLines, List.filter_filter]
  exact congrArg (fun ls => (List.map Line.count ls).sum) (List.filter_congr fun _ _ => Bool.and_comm ..)

theorem hasRun_iff {item : Nat} : hasRun k item = true ↔ ∃ t ∈ k.tickets, t.kind = .standing ∧ t.item = item := by
  simp [hasRun]

theorem lineWaits_iff {item c : Nat} {i : Item} (hi : findItem k item = some i) :
    lineWaits k ahead item c = true ↔
      item ∈ ahead ∨ (i.pool < c ∧ (i.exhausted = false ∨ ∃ t ∈ k.tickets, t.kind = .standing ∧ t.item = item)) := by
  rw [← hasRun_iff, lineWaits, hi]
  simp

theorem mem_undrawnLines {l : Line} :
    l ∈ undrawnLines k g ↔ l ∈ g.lines ∧ l.drawn = false ∧ ∃ i, findItem k l.item = some i ∧ i.kind = .standing := by
  rw [undrawnLines, List.mem_filter, undrawn_iff]

theorem drawWaits_iff :
    drawWaits k ahead g = true ↔ ∃ l ∈ undrawnLines k g, ∃ i, findItem k l.item = some i ∧
      (l.item ∈ ahead ∨ (i.pool < undrawnCount k g l.item ∧
        (i.exhausted = false ∨ ∃ t ∈ k.tickets, t.kind = .standing ∧ t.item = l.item))) := by
  refine List.any_eq_true.trans (exists_congr fun l => and_congr_right fun hl => ?_)
  obtain ⟨-, -, i, hi, -⟩ := mem_undrawnLines.1 hl
  rw [lineWaits_iff hi, hi]
  exact ⟨fun h => ⟨i, rfl, h⟩, fun ⟨j, hj, h⟩ => Option.some.inj hj ▸ h⟩

end

/-! ### The walk (R154) -/

section

variable {n : Nat} {w : Work}

theorem drawWalk_absent (hg : findGroup w.toKitchen n = none) (rest ahead : List Nat) :
    drawWalk (n :: rest) ahead w = drawWalk rest ahead w := by
  rw [drawWalk, hg]

theorem drawWalk_found {g : Group} (hg : findGroup w.toKitchen n = some g) (rest ahead : List Nat) :
    drawWalk (n :: rest) ahead w =
      if drawWaits w.toKitchen ahead g then drawWalk rest (ahead ++ (undrawnLines w.toKitchen g).map Line.item) w
      else drawWalk rest ahead (drawGroup n (undrawnLines w.toKitchen g) w) := by
  rw [drawWalk, hg, drawWaits]
  simp only [List.any_map]
  rfl

end

/-! ### The display refreshed, and entry to READY (R144, R146) -/

section

variable {n : Nat} {w : Work}

/-- What a refreshed display may change: the group's display, and the NOTEs with the mark of the turn under way. -/
theorem refreshDisplay_eq (n : Nat) (w : Work) :
    refreshDisplay n w =
      { w with
        groups := (refreshDisplay n w).groups, terminals := (refreshDisplay n w).terminals, turn := (refreshDisplay n w).turn } := by
  unfold refreshDisplay
  split
  · split <;> rfl
  · rfl

variable {g : Group} (hg : findGroup w.toKitchen n = some g)

include hg

theorem findGroup_refreshDisplay_same :
    findGroup (refreshDisplay n w).toKitchen n = some { g with display := displayOf g } := by
  by_cases h : displayOf g = g.display
  · rw [refreshDisplay_same hg h, hg, h]
  · rw [refreshDisplay_changed hg h]
    exact findGroup_setGroup_same (f := fun x => { x with display := displayOf x }) (fun _ => rfl) hg

theorem findGroup_refreshDisplay_other {m : Nat} (hm : m ≠ n) :
    findGroup (refreshDisplay n w).toKitchen m = findGroup w.toKitchen m := by
  by_cases h : displayOf g = g.display
  · rw [refreshDisplay_same hg h]
  · rw [refreshDisplay_changed hg h]
    exact findGroup_setGroup_other (f := fun x => { x with display := displayOf x }) (fun _ => rfl) hm

theorem becomeReady_found :
    becomeReady n w =
      { refreshDisplay n (raise (.grpready n g.tag g.proj g.target g.flags) (setGroup n (fun x => { x with state := .ready }) w)) with
        drawOrder := dropNumber n w.drawOrder } := by
  have hdraw : ∀ v : Work, (refreshDisplay n v).drawOrder = v.drawOrder := fun v => by rw [refreshDisplay_eq]
  rw [becomeReady, hg]
  simp only [hdraw]
  rfl

theorem becomeReady_own :
    findGroup (becomeReady n w).toKitchen n = some { g with state := .ready, display := displayOf { g with state := .ready } } := by
  rw [becomeReady_found hg]
  exact findGroup_refreshDisplay_same
    (w := raise (.grpready n g.tag g.proj g.target g.flags) (setGroup n (fun x => { x with state := .ready }) w))
    (findGroup_setGroup_same (f := fun x => { x with state := .ready }) (fun _ => rfl) hg)

theorem becomeReady_out : (becomeReady n w).out = w.out ++ [⟨w.clock, .grpready n g.tag g.proj g.target g.flags⟩] := by
  rw [becomeReady_found hg, refreshDisplay_eq]
  rfl

theorem becomeReady_drawOrder : (becomeReady n w).drawOrder = dropNumber n w.drawOrder := by
  rw [becomeReady_found hg]

end

/-! ### One line's draw (R154, R155) -/

/-- The group with the line that item and substituted-from of `l` name drawn (R38, R155). -/
def Group.drew (l : Line) (took : Nat) (g : Group) : Group :=
  { g with
    lines := g.lines.map fun m =>
      if m.item == l.item && m.subFrom == l.subFrom then { m with drawn := true, shortfall := l.count - took } else m
    flags := { g.flags with short := g.flags.short || decide (took < l.count) } }

/-- An item with `took` portions gone from its pool. -/
def Item.drawnFrom (took : Nat) (i : Item) : Item := { i with pool := i.pool - took }

section

variable {n : Nat} {l : Line} {w : Work} {g : Group} {i : Item}

theorem drawLine_found (hg : findGroup w.toKitchen n = some g) (hi : findItem w.toKitchen l.item = some i) :
    drawLine n l w =
      { setGroup n (Group.drew l (min l.count i.pool)) (setItem l.item (Item.drawnFrom (min l.count i.pool)) w) with
        out := w.out ++ if min l.count i.pool < l.count then
            [⟨w.clock, .grpshort n g.tag l.item l.subFrom l.count (l.count - min l.count i.pool)⟩] else [] } := by
  have hshort : (0 < l.count - min l.count i.pool) = (min l.count i.pool < l.count) := propext Nat.sub_pos_iff_lt
  unfold drawLine
  rw [hg, hi]
  simp only [hshort]
  split
  · rfl
  · rw [List.append_nil]
    rfl

theorem findItem_setItem_same {f : Item → Item} {item : Nat} (hf : ∀ x, (f x).number = x.number)
    (h : findItem w.toKitchen item = some i) : findItem (setItem item f w).toKitchen item = some (f i) :=
  (entryOf_updateEntry_same item f w.items fun x hx => (hf x).trans hx).trans (congrArg (Option.map f) h)

theorem findItem_setItem_other {f : Item → Item} {item m : Nat} (hf : ∀ x, (f x).number = x.number) (hm : m ≠ item) :
    findItem (setItem item f w).toKitchen m = findItem w.toKitchen m :=
  entryOf_updateEntry_other hm f w.items fun x hx => (hf x).trans hx

end

/-- Settles O38: the draw order by insertion, the walk by whether the group waits, a line's draw in its parts, and entry to READY. -/
theorem drawPassDrawsGroups : Obligations.DrawPassDrawsGroups := by
  refine ⟨fun n w => ?joins, fun n rest ahead w g hg => ?walks, fun n l w g i hg hi => ?draws, fun n w g hg => becomeReady_found hg,
    fun _ => rfl⟩
  case joins =>
    exact ⟨rfl, fun _ => mem_joinDraw, joinDraw_ordered⟩
  case walks =>
    intro lines waits
    have hlines : undrawnLines w.toKitchen g = lines := undrawnLines_eq w.toKitchen g
    have hwaits : drawWaits w.toKitchen ahead g = true ↔ waits := by
      simp only [drawWaits_iff, undrawnCount_eq, hlines]
      rfl
    rw [drawWalk_found hg, hlines]
    exact ⟨fun h => if_pos (hwaits.2 h), fun h => if_neg (mt hwaits.1 h)⟩
  case draws =>
    intro took same w'
    have hw' : w' = _ := drawLine_found hg hi
    clear_value w'
    subst hw'
    exact ⟨findItem_setItem_same (f := Item.drawnFrom took) (fun _ => rfl) hi,
      fun m hm => findItem_setItem_other (f := Item.drawnFrom took) (fun _ => rfl) hm,
      findGroup_setGroup_same (f := Group.drew l took) (fun _ => rfl) hg,
      fun m hm => findGroup_setGroup_other (f := Group.drew l took) (fun _ => rfl) hm, rfl, rfl⟩

end Sys2Proof.Machine
end

section
/-! PROOF. The run test: when a standing run is created, and what it is (R76, R150 to R152). -/

namespace Sys2Proof.Machine

/-! ### The conditions of a run (R150, R151) -/

/-- The run tickets of an item (R151). -/
def runsOf (k : Kitchen) (item : Nat) : List Ticket := k.tickets.filter fun t => t.kind == .standing && t.item == item

/-- The groups that ask for an item with lookahead K: PLANNED or FIRING, not held, T − D at or before clock + K (R150). -/
def askingGroups (k : Kitchen) (lookahead : Nat) : List Group :=
  k.groups.filter fun g =>
    (g.state == .planned || g.state == .firing) && !g.flags.held && decide ((g.target : Int) - g.lead ≤ (k.clock + lookahead : Nat))

section

variable {k : Kitchen} {item : Nat} {i : Item}

theorem inRuns_eq (k : Kitchen) (item : Nat) :
    inRuns k item = (((runsOf k item).filter fun t => t.state != .done).map Ticket.portions).sum := by
  rw [runsOf, List.filter_filter]
  exact congrArg (fun ts => (List.map Ticket.portions ts).sum) (List.filter_congr fun _ _ => Bool.and_comm ..)

/-- The undrawn lines of a standing item are those of the item not drawn: its kind need not be asked again. -/
theorem demand_eq (hi : findItem k item = some i) (hk : i.kind = .standing) :
    demand k i =
      ((askingGroups k i.lookahead).map fun g => ((g.lines.filter fun l => l.item == item && !l.drawn).map Line.count).sum).sum := by
  obtain rfl : i.number = item := entryOf_key hi
  have hkind : itemKind k i.number = some .standing := (itemKind_some hi).trans (congrArg some hk)
  refine congrArg List.sum (List.map_congr_left fun g _ => ?_)
  refine congrArg (fun ls => (List.map Line.count ls).sum) (List.filter_congr fun l _ => ?_)
  by_cases hl : l.item = i.number
  · simp [undrawn, hl, hkind]
  · simp [beq_false_of_ne hl]

theorem runWanted_iff (hi : findItem k item = some i) :
    runWanted k i = true ↔
      k.event = .service ∧ i.kind = .standing ∧ i.stock ≠ .limited 0 ∧
        (∀ t ∈ runsOf k item, t.state ≠ .queued ∧ t.state ≠ .due) ∧
        i.pool + (((runsOf k item).filter fun t => t.state != .done).map Ticket.portions).sum <
          ((askingGroups k i.lookahead).map fun g =>
            ((g.lines.filter fun l => l.item == item && !l.drawn).map Line.count).sum).sum + i.reorder ∧
        k.tickets.length < 2048 := by
  obtain rfl : i.number = item := entryOf_key hi
  have hwaiting : (!k.tickets.any fun t => t.kind == .standing && t.item == i.number && undispatched t) = true ↔
      ∀ t ∈ runsOf k i.number, t.state ≠ .queued ∧ t.state ≠ .due := by
    simp [runsOf, undispatched]
  have hroom : 0 < freeRecords k ↔ k.tickets.length < 2048 := Nat.sub_pos_iff_lt
  simp only [runWanted, Bool.and_eq_true, hwaiting, beq_iff_eq, bne_iff_ne, decide_eq_true_eq, hroom, ← inRuns_eq, and_assoc]
  refine and_congr_right fun _ => and_congr_right fun hk => ?_
  rw [demand_eq hi hk]

end

/-! ### The run created (R152) -/

/-- The kitchen with the run of an item taken from the stock and entered, before the arbiter of its station acts. -/
def runMade (i : Item) (c : Component) (d : StationDef) (w : Work) : Work :=
  createTicket (runComputation w.clock i c d (takeable i.stock i.runSize))
    (settleStock w.items (commit i.number (takeable i.stock i.runSize) w).1)

section

variable {item : Nat} {i : Item} {c : Component} {w : Work}

theorem createRun_made {later : List Component} {x : Station} (hl : i.lines = c :: later)
    (hx : findStation w.toKitchen c.station = some x) : createRun i w = arbiter c.station (runMade i c x.defn w) := by
  rw [createRun, hl]
  dsimp only
  rw [hx]
  rfl

theorem createRun_lineless (hl : i.lines = []) : createRun i w = w := by
  rw [createRun, hl]

theorem createRun_loose {later : List Component} (hl : i.lines = c :: later) (hx : findStation w.toKitchen c.station = none) :
    createRun i w = w := by
  rw [createRun, hl]
  dsimp only
  rw [hx]

theorem runTest_unwanted (hi : findItem w.toKitchen item = some i) (h : ¬runWanted w.toKitchen i = true) : runTest item w = w := by
  rw [runTest, hi]
  exact if_neg h

theorem runTest_wanted (hi : findItem w.toKitchen item = some i) (h : runWanted w.toKitchen i = true) :
    runTest item w = createRun i w := by
  rw [runTest, hi]
  exact if_pos h

/-- What a run changes: the item's stock, the tickets with their counter, and the reports. -/
theorem runMade_eq (i : Item) (c : Component) (d : StationDef) (w : Work) :
    let took := commit i.number (takeable i.stock i.runSize) w
    runMade i c d w =
      { w with
        items := took.1.items, tickets := (runMade i c d w).tickets, nextTicket := (runMade i c d w).nextTicket
        out := w.out ++ (took.1.items.filter fun j => j.exhausted && !(w.items.any fun y => y.number == j.number && y.exhausted)).map
          fun j => ⟨w.clock, .item86 j.number .commit⟩ } := by
  intro took
  have htook : took.1 = { w with items := took.1.items } := commit_items ..
  rw [runMade, settleStock_eq, htook]
  rfl

theorem runMade_tickets (i : Item) (c : Component) (d : StationDef) (w : Work) :
    ∃ t : Ticket, (runMade i c d w).tickets = w.tickets ++ [t] ∧
      t.desc = runComputation w.clock i c d (takeable i.stock i.runSize) ∧ t.isNew w.event w.clock := by
  obtain ⟨items, htook⟩ : ∃ items, (commit i.number (takeable i.stock i.runSize) w).1 = { w with items := items } :=
    ⟨_, commit_items ..⟩
  rw [runMade, htook, settleStock_eq]
  exact createTicket_tickets ..

theorem Item.less_stock (n : Nat) (i : Item) :
    i.less n = { i with stock := (i.less n).stock, exhausted := (i.less n).exhausted } ∧
      ((i.less n).exhausted = true ↔ (i.less n).stock = .limited 0) ∧ (i.less n).stock = stockAfter i.stock n :=
  ⟨rfl, beq_iff_eq, rfl⟩

end

/-- Settles O40: the conditions of the test are those of R151, and the run is the ticket made, with the portions committed, before
the arbiter of its station acts. -/
theorem runTicketsCreated : Obligations.RunTicketsCreated := by
  intro item w i hi asking demand runs wanted
  have hwanted : runWanted w.toKitchen i = true ↔ wanted := runWanted_iff hi
  refine ⟨fun h => runTest_unwanted hi (mt hwanted.1 h), fun c later x h hl hx => ?_⟩
  obtain rfl : i.number = item := entryOf_key hi
  intro p ceff
  have hp : takeable i.stock i.runSize = p := by
    simp only [p, takeable]
    cases i.stock <;> rfl
  have hfound : findItem (runMade i c x.defn w).toKitchen i.number = some (i.less p) := by
    rw [runMade_eq]
    exact hp ▸ findItem_commit_same hi
  obtain ⟨t, ht, hdesc, hstate, hnew⟩ := runMade_tickets i c x.defn w
  obtain ⟨hless, hmark, hstock⟩ := i.less_stock p
  have hrelease : t.release = w.clock := congrArg TicketDesc.release hdesc
  refine ⟨runMade i c x.defn w, (runTest_wanted hi (hwanted.2 h)).trans (createRun_made hl hx), ⟨t, ht, ?_, ?_, hnew⟩,
    ⟨_, hfound, hless, hmark, fun hu => ?_, fun k hk => ?_⟩, fun m hm => ?_, ?_, ?_⟩
  · rw [hdesc, hp]
    rfl
  · rw [hstate, if_pos ⟨h.1, hrelease.le⟩]
  · rw [hstock, hu]
    rfl
  · rw [hstock, hk]
    rfl
  · rw [runMade_eq]
    exact findItem_commit_other hm
  · rw [runMade_eq]
  · rw [runMade_eq]

end Sys2Proof.Machine
end

section
/-! PROOF. The settling of the Pass Unit: a draw pass leaves only groups that wait, a run frees none of them, and a round that creates
no run changes nothing more (R151, R154). -/

namespace Sys2Proof.Machine

/-! ### Kitchens in which whatever waited still waits (R154) -/

/-- The items keep their kinds, and undrawn lines of an item that would wait in the one kitchen would wait in the other. -/
structure Tighter (k k' : Kitchen) : Prop where
  kind : ∀ n, itemKind k' n = itemKind k n
  waits : ∀ ahead n c, lineWaits k ahead n c = true → lineWaits k' ahead n c = true

theorem Tighter.refl (k : Kitchen) : Tighter k k := ⟨fun _ => rfl, fun _ _ _ => id⟩

section

variable {k k' k'' : Kitchen}

theorem Tighter.trans (h : Tighter k k') (h' : Tighter k' k'') : Tighter k k'' :=
  ⟨fun n => (h'.kind n).trans (h.kind n), fun ahead n c hc => h'.waits ahead n c (h.waits ahead n c hc)⟩

/-- An item's pool may fall; and where it does not stay short of being exhausted, it has a run. -/
theorem Tighter.of_items (kind : ∀ n, itemKind k' n = itemKind k n)
    (items : ∀ n i, findItem k n = some i → ∃ j, findItem k' n = some j ∧ j.pool ≤ i.pool ∧
      (i.exhausted = false ∨ hasRun k n = true → j.exhausted = false ∨ hasRun k' n = true)) : Tighter k k' := by
  refine ⟨kind, fun ahead n c h => ?_⟩
  cases hi : findItem k n with
  | none =>
    have hnone : findItem k' n = none := Option.map_eq_none_iff.1 ((kind n).trans (congrArg (Option.map Item.kind) hi))
    rw [lineWaits, hnone, Bool.or_true]
  | some i =>
    obtain ⟨j, hj, hpool, hopen⟩ := items n i hi
    rw [lineWaits_iff hi, ← hasRun_iff] at h
    rw [lineWaits_iff hj, ← hasRun_iff]
    exact h.imp_right fun ⟨hc, ho⟩ => ⟨hpool.trans_lt hc, hopen ho⟩

theorem Tighter.of_same_items (items : k'.items = k.items) (runs : ∀ n, hasRun k n = true → hasRun k' n = true) : Tighter k k' := by
  have hfind : ∀ n, findItem k' n = findItem k n := fun n => congrArg (entryOf Item.number n) items
  exact .of_items (fun n => congrArg (Option.map Item.kind) (hfind n))
    fun n i hi => ⟨i, (hfind n).trans hi, le_rfl, Or.imp_right (runs n)⟩

theorem Tighter.undrawnLines (h : Tighter k k') {g g' : Group} (hl : g'.lines = g.lines) :
    Machine.undrawnLines k' g' = Machine.undrawnLines k g := by
  rw [Machine.undrawnLines, hl]
  exact List.filter_congr fun l _ => by rw [undrawn, h.kind, undrawn]

theorem Tighter.drawWaits (h : Tighter k k') {g g' : Group} (hl : g'.lines = g.lines) {ahead : List Nat}
    (hw : Machine.drawWaits k ahead g = true) : Machine.drawWaits k' ahead g' = true := by
  obtain ⟨l, hmem, hwait⟩ := List.any_eq_true.1 hw
  refine List.any_eq_true.2 ⟨l, (h.undrawnLines hl).symm ▸ hmem, ?_⟩
  rw [undrawnCount_eq, h.undrawnLines hl, ← undrawnCount_eq]
  exact h.waits ahead l.item _ hwait

end

/-! ### A draw order in which every group waits -/

/-- A walk over the groups finds none that would draw (R154). -/
def allWait (k : Kitchen) : List Nat → List Nat → Prop
  | [], _ => True
  | n :: rest, ahead =>
    match findGroup k n with
    | some g => drawWaits k ahead g = true ∧ allWait k rest (ahead ++ (undrawnLines k g).map Line.item)
    | none => allWait k rest ahead

section

variable {k k' : Kitchen} {n : Nat}

theorem allWait_absent (hg : findGroup k n = none) (rest ahead : List Nat) :
    allWait k (n :: rest) ahead ↔ allWait k rest ahead := by
  rw [allWait, hg]

theorem allWait_found {g : Group} (hg : findGroup k n = some g) (rest ahead : List Nat) :
    allWait k (n :: rest) ahead ↔
      drawWaits k ahead g = true ∧ allWait k rest (ahead ++ (undrawnLines k g).map Line.item) := by
  rw [allWait, hg]

theorem drawWalk_allWait {w : Work} {ns ahead : List Nat} (h : allWait w.toKitchen ns ahead) : drawWalk ns ahead w = w := by
  induction ns generalizing ahead with
  | nil => rfl
  | cons n rest ih =>
    cases hg : findGroup w.toKitchen n with
    | none => exact (drawWalk_absent hg rest ahead).trans (ih ((allWait_absent hg rest ahead).1 h))
    | some g =>
      obtain ⟨hw, hrest⟩ := (allWait_found hg rest ahead).1 h
      exact (drawWalk_found hg rest ahead).trans ((if_pos hw).trans (ih hrest))

theorem Tighter.allWait (h : Tighter k k') (lines : ∀ n, (findGroup k' n).map Group.lines = (findGroup k n).map Group.lines)
    {ns ahead : List Nat} (hw : Machine.allWait k ns ahead) : Machine.allWait k' ns ahead := by
  induction ns generalizing ahead with
  | nil => trivial
  | cons n rest ih =>
    have hn := lines n
    cases hg : findGroup k n with
    | none =>
      rw [hg] at hn
      exact (allWait_absent (Option.map_eq_none_iff.1 hn) rest ahead).2 (ih ((allWait_absent hg rest ahead).1 hw))
    | some g =>
      rw [hg] at hn
      obtain ⟨g', hg', hl⟩ := Option.map_eq_some_iff.1 hn
      obtain ⟨hwait, hrest⟩ := (allWait_found hg rest ahead).1 hw
      refine (allWait_found hg' rest ahead).2 ⟨h.drawWaits hl hwait, ?_⟩
      rw [h.undrawnLines hl]
      exact ih hrest

end

/-! ### Operations that draw nothing -/

/-- The items are as they were, and so are the lines of every group. -/
structure SameLines (w w' : Work) : Prop where
  items : w'.items = w.items
  lines : ∀ n, (findGroup w'.toKitchen n).map Group.lines = (findGroup w.toKitchen n).map Group.lines

theorem SameLines.refl (w : Work) : SameLines w w := ⟨rfl, fun _ => rfl⟩

theorem SameLines.trans {a b c : Work} (h : SameLines a b) (g : SameLines b c) : SameLines a c :=
  ⟨g.items.trans h.items, fun n => (g.lines n).trans (h.lines n)⟩

theorem SameLines.of_map {w w' : Work} (items : w'.items = w.items) (f : Group → Group) (groups : w'.groups = w.groups.map f)
    (hf : ∀ g, (f g).number = g.number ∧ (f g).lines = g.lines) : SameLines w w' := by
  refine ⟨items, fun n => ?_⟩
  have hfound : findGroup w'.toKitchen n = (findGroup w.toKitchen n).map f := by
    rw [findGroup, groups, ← entryOf_map Group.number Group.number f fun g => (hf g).1]
    rfl
  rw [hfound, Option.map_map]
  exact congrArg (Option.map · _) (funext fun g => (hf g).2)

theorem SameLines.updateGroup {w w' : Work} (items : w'.items = w.items) (n : Nat) (f : Group → Group)
    (groups : w'.groups = updateEntry Group.number n f w.groups) (hf : ∀ g, (f g).number = g.number ∧ (f g).lines = g.lines) :
    SameLines w w' :=
  .of_map items (fun g => if g.number = n then f g else g) groups fun g => by
    split
    · exact hf g
    · exact ⟨rfl, rfl⟩

theorem SameLines.tighter {w w' : Work} (h : SameLines w w')
    (runs : ∀ n, hasRun w.toKitchen n = true → hasRun w'.toKitchen n = true) : Tighter w.toKitchen w'.toKitchen :=
  .of_same_items h.items runs

section

variable {n : Nat} {w : Work}

theorem hasRun_congr {k k' : Kitchen} (h : k'.tickets.map Ticket.order = k.tickets.map Ticket.order) (n : Nat) :
    hasRun k' n = hasRun k n := by
  have horder : ∀ k : Kitchen, hasRun k n = (k.tickets.map Ticket.order).any fun t => t.kind == .standing && t.item == n := by
    intro k
    rw [List.any_map]
    rfl
  rw [horder, horder, h]

theorem refreshDisplay_sameLines (n : Nat) (w : Work) : SameLines w (refreshDisplay n w) := by
  unfold refreshDisplay
  split
  · split
    · exact .refl w
    · exact .updateGroup rfl n (fun g => { g with display := displayOf g }) rfl fun _ => ⟨rfl, rfl⟩
  · exact .refl w

theorem becomeReady_sameLines (n : Nat) (w : Work) : SameLines w (becomeReady n w) := by
  cases hg : findGroup w.toKitchen n with
  | none =>
    rw [becomeReady, hg]
    exact .refl w
  | some g =>
    have hready : SameLines w (setGroup n (fun x => { x with state := .ready }) w) := .updateGroup rfl n _ rfl fun _ => ⟨rfl, rfl⟩
    rw [becomeReady_found hg]
    exact ⟨(refreshDisplay_sameLines n _).items, fun m => ((refreshDisplay_sameLines n _).lines m).trans (hready.lines m)⟩

theorem becomeReady_tighter (n : Nat) (w : Work) : Tighter w.toKitchen (becomeReady n w).toKitchen :=
  (becomeReady_sameLines n w).tighter fun m h =>
    (hasRun_congr (congrArg (List.map Ticket.order) (becomeReady_tickets n w)) m).trans h

theorem recompute_sameLines (n : Nat) (w : Work) : SameLines w (recompute n w) := by
  obtain ⟨f, hf, hkeep⟩ := recompute_groups n w
  refine .of_map (by rw [recompute_rest]) f hf fun g => ?_
  obtain ⟨hn, -, hl, -⟩ := hkeep g
  exact ⟨hn, hl⟩

theorem grant_sameLines (t : Ticket) (w : Work) : SameLines w (grant t w) := by
  rw [grant_eq]
  refine .trans ?_ (recompute_sameLines t.group _)
  refine .updateGroup rfl t.group _ rfl fun g => ?_
  split <;> exact ⟨rfl, rfl⟩

theorem grantSlots_sameLines (st n : Nat) (w : Work) : SameLines w (grantSlots st n w) := by
  induction n generalizing w with
  | zero => exact .refl w
  | succ n ih =>
    refine .trans ?_ (ih (grantOne st w))
    rcases grantOne_cases st w with h | ⟨t, -, -, -, h⟩
    · rw [h]
      exact .refl w
    · rw [h]
      exact grant_sameLines t w

theorem reviseStaged_sameLines (st : Nat) (w : Work) : SameLines w (reviseStaged st w) := by
  unfold reviseStaged
  split
  · split
    · exact .refl w
    · rw [atCurrent_eq]
      exact ⟨rfl, fun _ => rfl⟩
  · exact .refl w

theorem arbiter_sameLines (st : Nat) (w : Work) : SameLines w (arbiter st w) := by
  cases hx : findStation w.toKitchen st with
  | none =>
    rw [arbiter_absent hx]
    exact .refl w
  | some x =>
    rw [arbiter_found hx]
    exact (grantSlots_sameLines st _ w).trans (reviseStaged_sameLines st _)

theorem arbiter_drawOrder (st : Nat) (w : Work) : (arbiter st w).drawOrder = w.drawOrder := by
  have hgrant : ∀ (n : Nat) (w : Work), (grantSlots st n w).drawOrder = w.drawOrder := fun n => by
    induction n with
    | zero => exact fun _ => rfl
    | succ n ih =>
      intro w
      refine (ih (grantOne st w)).trans ?_
      rcases grantOne_cases st w with h | ⟨t, -, -, -, h⟩
      · rw [h]
      · rw [h, grant_eq, recompute_rest]
  have hstage : ∀ w : Work, (reviseStaged st w).drawOrder = w.drawOrder := fun w => by
    unfold reviseStaged
    split
    · split
      · rfl
      · rw [atCurrent_eq]
        rfl
    · rfl
  cases hx : findStation w.toKitchen st with
  | none => rw [arbiter_absent hx]
  | some x => rw [arbiter_found hx, hstage, hgrant]

end

/-! ### What a group's draw leaves (R154, R144) -/

/-- Group n, where it stands, has no line left to draw. -/
def drainedOf (k : Kitchen) (n : Nat) : Prop := ∀ g, findGroup k n = some g → undrawnLines k g = []

/-- Lines of group n alone have been drawn: nothing that waited has come free, and no group has left the draw order. -/
structure DrawsOnly (n : Nat) (w v : Work) : Prop where
  tighter : Tighter w.toKitchen v.toKitchen
  others : ∀ m, m ≠ n → findGroup v.toKitchen m = findGroup w.toKitchen m
  order : v.drawOrder = w.drawOrder

section

variable {n : Nat} {w : Work}

theorem drawLine_idle {l : Line} (h : findGroup w.toKitchen n = none ∨ findItem w.toKitchen l.item = none) : drawLine n l w = w := by
  unfold drawLine
  split
  · rename_i hg hi
    simp [hg, hi] at h
  · rfl

theorem drawLine_drawsOnly (n : Nat) (l : Line) (w : Work) : DrawsOnly n w (drawLine n l w) := by
  have hkind := itemKind_congr ((Steady.refl w).drawLine n l).items
  by_cases hidle : findGroup w.toKitchen n = none ∨ findItem w.toKitchen l.item = none
  · rw [drawLine_idle hidle]
    exact ⟨.refl _, fun _ _ => rfl, rfl⟩
  · obtain ⟨hg, hi⟩ := not_or.1 hidle
    obtain ⟨g, hg⟩ := Option.ne_none_iff_exists'.1 hg
    obtain ⟨i, hi⟩ := Option.ne_none_iff_exists'.1 hi
    rw [drawLine_found hg hi] at hkind ⊢
    refine ⟨.of_items hkind fun m j hj => ?_, fun m hm => ?_, rfl⟩
    · by_cases hm : m = l.item
      · subst hm
        obtain rfl : i = j := Option.some.inj (hi.symm.trans hj)
        exact ⟨_, findItem_setItem_same (f := Item.drawnFrom (min l.count i.pool)) (fun _ => rfl) hi, Nat.sub_le .., id⟩
      · exact ⟨j, (findItem_setItem_other (f := Item.drawnFrom _) (fun _ => rfl) hm).trans hj, le_rfl, id⟩
    · exact findGroup_setGroup_other (f := Group.drew _ _) (fun _ => rfl) hm

theorem DrawsOnly.trans {a b c : Work} (h : DrawsOnly n a b) (g : DrawsOnly n b c) : DrawsOnly n a c :=
  ⟨h.tighter.trans g.tighter, fun m hm => (g.others m hm).trans (h.others m hm), g.order.trans h.order⟩

theorem drawLines_drawsOnly (n : Nat) (ls : List Line) (w : Work) : DrawsOnly n w (ls.foldl (fun w l => drawLine n l w) w) := by
  induction ls generalizing w with
  | nil => exact ⟨.refl _, fun _ _ => rfl, rfl⟩
  | cons l ls ih => exact (drawLine_drawsOnly n l w).trans (ih _)

/-- A line's draw leaves the other undrawn lines of the group. -/
theorem drawLine_leaves {l : Line} {ls : List Line}
    (h : ∀ g, findGroup w.toKitchen n = some g → ∀ m ∈ undrawnLines w.toKitchen g, m ∈ l :: ls) :
    ∀ g, findGroup (drawLine n l w).toKitchen n = some g → ∀ m ∈ undrawnLines (drawLine n l w).toKitchen g, m ∈ ls := by
  intro g' hg' m hm
  have hkind := (drawLine_drawsOnly n l w).tighter.kind
  by_cases hidle : findGroup w.toKitchen n = none ∨ findItem w.toKitchen l.item = none
  · rw [drawLine_idle hidle] at hg' hm
    obtain ⟨-, -, i, hi, -⟩ := mem_undrawnLines.1 hm
    refine (List.mem_cons.1 (h g' hg' m hm)).resolve_left fun e => ?_
    rcases hidle with hno | hno
    · exact absurd (hno.symm.trans hg') nofun
    · rw [e, hno] at hi
      exact absurd hi nofun
  · obtain ⟨hg, hi⟩ := not_or.1 hidle
    obtain ⟨g, hg⟩ := Option.ne_none_iff_exists'.1 hg
    obtain ⟨i, hi⟩ := Option.ne_none_iff_exists'.1 hi
    have hdrew : findGroup (drawLine n l w).toKitchen n = some (g.drew l (min l.count i.pool)) := by
      rw [drawLine_found hg hi]
      exact findGroup_setGroup_same (f := Group.drew l _) (fun _ => rfl) hg
    obtain rfl := Option.some.inj (hdrew.symm.trans hg')
    obtain ⟨hmem, hopen⟩ := List.mem_filter.1 hm
    obtain ⟨x, hx, rfl⟩ := List.mem_map.1 hmem
    have hother : ¬((x.item == l.item && x.subFrom == l.subFrom) = true) := fun e => by
      rw [if_pos e, undrawn] at hopen
      simp at hopen
    rw [if_neg hother] at hopen ⊢
    rw [undrawn, hkind, ← undrawn] at hopen
    refine (List.mem_cons.1 (h g hg x (List.mem_filter.2 ⟨hx, hopen⟩))).resolve_left fun e => hother ?_
    rw [e, beq_self_eq_true, beq_self_eq_true]
    rfl

theorem drawLines_drain {ls : List Line}
    (h : ∀ g, findGroup w.toKitchen n = some g → ∀ m ∈ undrawnLines w.toKitchen g, m ∈ ls) :
    drainedOf (ls.foldl (fun w l => drawLine n l w) w).toKitchen n := by
  induction ls generalizing w with
  | nil => exact fun g hg => List.eq_nil_iff_forall_not_mem.2 fun m hm => List.not_mem_nil (h g hg m hm)
  | cons l ls ih => exact ih (drawLine_leaves h)

variable {g : Group} (hg : findGroup w.toKitchen n = some g)

include hg

theorem drawGroup_drawOrder (ls : List Line) : (drawGroup n ls w).drawOrder = dropNumber n w.drawOrder := by
  obtain ⟨x, hx, -⟩ := ((Settles.refl w).foldl (fun w l => drawLine n l w) (fun w l => (Settles.refl w).drawLine n l) ls).findGroup_some hg
  rw [drawGroup, becomeReady_drawOrder hx, (drawLines_drawsOnly n ls w).order]

omit hg in
theorem drawGroup_tighter (n : Nat) (ls : List Line) (w : Work) : Tighter w.toKitchen (drawGroup n ls w).toKitchen :=
  (drawLines_drawsOnly n ls w).tighter.trans (becomeReady_tighter n _)

omit hg in
theorem drawGroup_others {m : Nat} (hm : m ≠ n) (ls : List Line) (w : Work) :
    (findGroup (drawGroup n ls w).toKitchen m).map Group.lines = (findGroup w.toKitchen m).map Group.lines :=
  ((becomeReady_sameLines n _).lines m).trans (congrArg (Option.map Group.lines) ((drawLines_drawsOnly n ls w).others m hm))

theorem drawGroup_drained : drainedOf (drawGroup n (undrawnLines w.toKitchen g) w).toKitchen n := by
  have hdrain := drawLines_drain (w := w) (ls := undrawnLines w.toKitchen g) fun x hx m hm => Option.some.inj (hx.symm.trans hg) ▸ hm
  intro x hx
  have hlines := (becomeReady_sameLines n ((undrawnLines w.toKitchen g).foldl (fun w l => drawLine n l w) w)).lines n
  rw [← drawGroup, hx] at hlines
  obtain ⟨y, hy, hl⟩ := Option.map_eq_some_iff.1 hlines.symm
  exact ((becomeReady_tighter n _).undrawnLines hl.symm).trans (hdrain y hy)

end

/-! ### What a walk leaves (R154) -/

section

variable {w : Work}

theorem drawWalk_tighter (ns ahead : List Nat) (w : Work) : Tighter w.toKitchen (drawWalk ns ahead w).toKitchen := by
  induction ns generalizing ahead w with
  | nil => exact .refl _
  | cons n rest ih =>
    cases hg : findGroup w.toKitchen n with
    | none => exact drawWalk_absent hg rest ahead ▸ ih ahead w
    | some g =>
      rw [drawWalk_found hg]
      split
      · exact ih _ w
      · exact (drawGroup_tighter n _ w).trans (ih ahead _)

/-- A walk takes groups out of the draw order, and puts none in. -/
theorem drawWalk_drawOrder (ns ahead : List Nat) (w : Work) : ∃ p, (drawWalk ns ahead w).drawOrder = w.drawOrder.filter p := by
  induction ns generalizing ahead w with
  | nil => exact ⟨fun _ => true, (List.filter_true _).symm⟩
  | cons n rest ih =>
    cases hg : findGroup w.toKitchen n with
    | none => exact drawWalk_absent hg rest ahead ▸ ih ahead w
    | some g =>
      rw [drawWalk_found hg]
      split
      · exact ih _ w
      · obtain ⟨p, hp⟩ := ih ahead (drawGroup n (undrawnLines w.toKitchen g) w)
        rw [drawGroup_drawOrder hg, dropNumber, List.filter_filter] at hp
        exact ⟨_, hp⟩

theorem mem_of_drawWalk {ns ahead : List Nat} {m : Nat} (h : m ∈ (drawWalk ns ahead w).drawOrder) : m ∈ w.drawOrder := by
  obtain ⟨p, hp⟩ := drawWalk_drawOrder ns ahead w
  exact List.mem_of_mem_filter (hp ▸ h)

theorem drawWaits_of_ahead {k : Kitchen} {ahead : List Nat} {g : Group} {l : Line} (hl : l ∈ undrawnLines k g) (ha : l.item ∈ ahead) :
    drawWaits k ahead g = true := by
  obtain ⟨-, -, i, hi, -⟩ := mem_undrawnLines.1 hl
  exact drawWaits_iff.2 ⟨l, hl, i, hi, .inl ha⟩

/-- A group with an undrawn line of an item that an earlier group waits for is passed over (R154). -/
theorem drawWalk_blocked {n : Nat} {g : Group} {l : Line} {ns ahead : List Nat} (hg : findGroup w.toKitchen n = some g)
    (hl : l ∈ undrawnLines w.toKitchen g) (ha : l.item ∈ ahead) :
    (findGroup (drawWalk ns ahead w).toKitchen n).map Group.lines = some g.lines ∧
      (n ∈ w.drawOrder → n ∈ (drawWalk ns ahead w).drawOrder) := by
  induction ns generalizing ahead w g with
  | nil => exact ⟨congrArg (Option.map Group.lines) hg, id⟩
  | cons m rest ih =>
    cases hm : findGroup w.toKitchen m with
    | none => exact drawWalk_absent hm rest ahead ▸ ih hg hl ha
    | some x =>
      rw [drawWalk_found hm]
      split
      case isTrue => exact ih hg hl (List.mem_append_left _ ha)
      case isFalse hdraws =>
        have hne : n ≠ m := fun e => by
          subst e
          obtain rfl := Option.some.inj (hg.symm.trans hm)
          exact hdraws (drawWaits_of_ahead hl ha)
        have hsame := drawGroup_others hne (undrawnLines w.toKitchen x) w
        rw [hg] at hsame
        obtain ⟨g', hg', hlines⟩ := Option.map_eq_some_iff.1 hsame
        have hl' := (drawGroup_tighter m (undrawnLines w.toKitchen x) w).undrawnLines hlines ▸ hl
        obtain ⟨h1, h2⟩ := ih hg' hl' ha
        refine ⟨h1.trans (congrArg some hlines), fun hn => h2 ?_⟩
        rw [drawGroup_drawOrder hm]
        exact List.mem_filter.2 ⟨hn, bne_iff_ne.2 hne⟩

/-- After a walk, the groups of it still in the draw order all wait. -/
theorem drawWalk_leaves_waiting {ns ahead : List Nat} (hns : ∀ n ∈ ns, n ∈ w.drawOrder ∨ drainedOf w.toKitchen n) :
    allWait (drawWalk ns ahead w).toKitchen (ns.filter fun n => (drawWalk ns ahead w).drawOrder.contains n) ahead := by
  induction ns generalizing ahead w with
  | nil => trivial
  | cons n rest ih =>
    obtain ⟨hn, hrest⟩ := List.forall_mem_cons.1 hns
    cases hg : findGroup w.toKitchen n with
    | none =>
      have hplan := ((Settles.refl w).drawWalk rest ahead).findGroup n
      rw [hg] at hplan
      have hnone := Option.map_eq_none_iff.1 hplan
      rw [drawWalk_absent hg, List.filter_cons]
      split
      · exact (allWait_absent hnone _ _).2 (ih hrest)
      · exact ih hrest
    | some g =>
      rw [drawWalk_found hg]
      split
      case isTrue hwaits =>
        obtain ⟨l, hl, -⟩ := List.any_eq_true.1 hwaits
        have hin : n ∈ w.drawOrder := hn.resolve_right fun hd => by
          rw [hd g hg] at hl
          exact List.not_mem_nil hl
        obtain ⟨hlines, horder⟩ := drawWalk_blocked (ns := rest)
          (ahead := ahead ++ (undrawnLines w.toKitchen g).map Line.item) hg hl (List.mem_append_right _ (List.mem_map_of_mem hl))
        obtain ⟨g', hg', hl'⟩ := Option.map_eq_some_iff.1 hlines
        have htight := drawWalk_tighter rest (ahead ++ (undrawnLines w.toKitchen g).map Line.item) w
        rw [List.filter_cons_of_pos (List.contains_iff_mem.2 (horder hin))]
        refine (allWait_found hg' _ _).2 ⟨htight.drawWaits hl' hwaits, ?_⟩
        rw [htight.undrawnLines hl']
        exact ih hrest
      case isFalse hdraws =>
        have hout : n ∉ (drawWalk rest ahead (drawGroup n (undrawnLines w.toKitchen g) w)).drawOrder := fun h => by
          have := mem_of_drawWalk h
          rw [drawGroup_drawOrder hg] at this
          simp [dropNumber] at this
        rw [List.filter_cons_of_neg (by rw [List.contains_iff_mem]; exact hout)]
        refine ih fun m hm => ?_
        by_cases hmn : m = n
        · exact .inr (hmn.symm ▸ drawGroup_drained hg)
        · refine (hrest m hm).imp (fun h => ?_) fun h x hx => ?_
          · rw [drawGroup_drawOrder hg]
            exact List.mem_filter.2 ⟨h, bne_iff_ne.2 hmn⟩
          · have hsame := drawGroup_others hmn (undrawnLines w.toKitchen g) w
            rw [hx] at hsame
            obtain ⟨y, hy, hlines⟩ := Option.map_eq_some_iff.1 hsame.symm
            exact ((drawGroup_tighter n _ w).undrawnLines hlines.symm).trans (h y hy)

theorem drawPass_leaves_waiting (w : Work) : allWait (drawPass w).toKitchen (drawPass w).drawOrder [] := by
  have hwaits : allWait (drawPass w).toKitchen (w.drawOrder.filter fun n => (drawPass w).drawOrder.contains n) [] :=
    drawWalk_leaves_waiting fun n hn => .inl hn
  obtain ⟨p, hp⟩ : ∃ p, (drawPass w).drawOrder = w.drawOrder.filter p := drawWalk_drawOrder w.drawOrder [] w
  have hsame : w.drawOrder.filter (fun n => (drawPass w).drawOrder.contains n) = (drawPass w).drawOrder := by
    rw [hp]
    exact List.filter_congr fun n hn => by simp [hn]
  rwa [hsame] at hwaits

theorem drawPass_allWait (h : allWait w.toKitchen w.drawOrder []) : drawPass w = w := drawWalk_allWait h

end

/-! ### A run test (R151, R152) -/

section

variable {item : Nat} {w : Work}

/-- A test creates no run, or, where a record is free, makes one and lets an arbiter act. -/
theorem runTest_cases (item : Nat) (w : Work) :
    runTest item w = w ∨ ∃ i c d, findItem w.toKitchen i.number = some i ∧ w.tickets.length < 2048 ∧
      runTest item w = arbiter c.station (runMade i c d w) := by
  cases hi : findItem w.toKitchen item with
  | none => exact .inl (by rw [runTest, hi])
  | some i =>
    by_cases hwanted : runWanted w.toKitchen i = true
    · obtain ⟨-, -, -, -, -, hroom⟩ := (runWanted_iff hi).1 hwanted
      rw [runTest_wanted hi hwanted]
      cases hl : i.lines with
      | nil => exact .inl (createRun_lineless hl)
      | cons c later =>
        cases hx : findStation w.toKitchen c.station with
        | none => exact .inl (createRun_loose hl hx)
        | some x =>
          obtain rfl : i.number = item := entryOf_key hi
          exact .inr ⟨i, c, x.defn, hi, hroom, createRun_made hl hx⟩
    · exact .inl (runTest_unwanted hi hwanted)

theorem runTest_full (h : 2048 ≤ w.tickets.length) : runTest item w = w :=
  (runTest_cases item w).resolve_right fun ⟨_, _, _, _, hroom, _⟩ => absurd hroom (not_lt.2 h)

theorem runTest_absent (h : findItem w.toKitchen item = none) : runTest item w = w := by
  rw [runTest, h]

theorem runTest_counts (item : Nat) (w : Work) :
    runTest item w = w ∨ (runTest item w).tickets.length = w.tickets.length + 1 := by
  refine (runTest_cases item w).imp_right fun ⟨i, c, d, _, _, h⟩ => ?_
  obtain ⟨t, ht, -⟩ := runMade_tickets i c d w
  have horders := congrArg List.length (arbiter_orders c.station (runMade i c d w))
  rw [List.length_map, List.length_map, ht, List.length_append, List.length_singleton] at horders
  rw [h, horders]

/-- Where a run has been made, its item has one, and no item's pool has grown (R149, R151). -/
theorem runMade_tighter {i : Item} (hi : findItem w.toKitchen i.number = some i) (c : Component) (d : StationDef) :
    Tighter w.toKitchen (runMade i c d w).toKitchen := by
  obtain ⟨t, ht, hdesc, -⟩ := runMade_tickets i c d w
  have hkind : t.kind = .standing := congrArg TicketDesc.kind hdesc
  have hitem : t.item = i.number := congrArg TicketDesc.item hdesc
  have hruns : ∀ n, hasRun w.toKitchen n = true ∨ n = i.number → hasRun (runMade i c d w).toKitchen n = true := fun n h => by
    rw [hasRun, ht, List.any_append, Bool.or_eq_true]
    exact h.imp id fun e => by simp [hkind, hitem, e]
  have hsame : (runMade i c d w).items = (commit i.number (takeable i.stock i.runSize) w).1.items := by rw [runMade_eq]
  refine .of_items (fun n => ?_) fun n j hj => ?_
  · refine (congrArg (Option.map Item.kind) (congrArg (entryOf Item.number n) hsame)).trans ?_
    exact itemKind_congr ((Steady.refl w).commit i.number (takeable i.stock i.runSize)).items n
  · have hfind : findItem (runMade i c d w).toKitchen n = findItem (commit i.number (takeable i.stock i.runSize) w).1.toKitchen n :=
      congrArg (entryOf Item.number n) hsame
    by_cases hn : n = i.number
    · subst hn
      obtain rfl : i = j := Option.some.inj (hi.symm.trans hj)
      exact ⟨_, hfind.trans (findItem_commit_same hi), le_rfl, fun _ => .inr (hruns _ (.inr rfl))⟩
    · exact ⟨j, (hfind.trans (findItem_commit_other hn)).trans hj, le_rfl, Or.imp_right fun h => hruns n (.inl h)⟩

theorem runTest_keeps_waiting (item : Nat) (h : allWait w.toKitchen w.drawOrder []) :
    allWait (runTest item w).toKitchen (runTest item w).drawOrder [] := by
  rcases runTest_cases item w with e | ⟨i, c, d, hi, -, e⟩
  · rwa [e]
  · have hsame := arbiter_sameLines c.station (runMade i c d w)
    have hmade : (runMade i c d w).groups = w.groups ∧ (runMade i c d w).drawOrder = w.drawOrder := by
      rw [runMade_eq]
      exact ⟨rfl, rfl⟩
    have htight := (runMade_tighter hi c d).trans
      (hsame.tighter fun n hn => (hasRun_congr (arbiter_orders c.station (runMade i c d w)) n).trans hn)
    rw [e, arbiter_drawOrder, hmade.2]
    refine htight.allWait (fun n => (hsame.lines n).trans ?_) h
    rw [findGroup, hmade.1]
    rfl

/-- A run of tests creates runs or changes nothing. -/
theorem runTests_count (ns : List Nat) (w : Work) :
    w.tickets.length ≤ (forEach runTest ns w).tickets.length ∧
      ((forEach runTest ns w).tickets.length = w.tickets.length → forEach runTest ns w = w ∧ ∀ n ∈ ns, runTest n w = w) := by
  induction ns generalizing w with
  | nil => exact ⟨le_rfl, fun _ => ⟨rfl, fun _ hn => absurd hn List.not_mem_nil⟩⟩
  | cons n ns ih =>
    obtain ⟨hle, hsame⟩ := ih (runTest n w)
    change w.tickets.length ≤ (forEach runTest ns (runTest n w)).tickets.length ∧
      ((forEach runTest ns (runTest n w)).tickets.length = w.tickets.length →
        forEach runTest ns (runTest n w) = w ∧ ∀ m ∈ n :: ns, runTest m w = w)
    rcases runTest_counts n w with e | e
    · rw [e] at hle hsame ⊢
      exact ⟨hle, fun h => ⟨(hsame h).1, List.forall_mem_cons.2 ⟨e, (hsame h).2⟩⟩⟩
    · exact ⟨by omega, fun h => by omega⟩

end

/-! ### The rounds (R151, R154) -/

/-- One round of the Pass Unit: a draw pass, then the run tests. -/
def passRound (w : Work) : Work := runTests (drawPass w)

/-- Neither a draw pass nor a run test changes anything. -/
def Work.settled (w : Work) : Prop := drawPass w = w ∧ ∀ item, runTest item w = w

section

variable {w : Work}

theorem passRound_leaves_waiting (w : Work) : allWait (passRound w).toKitchen (passRound w).drawOrder [] := by
  have hkeep : ∀ (ns : List Nat) (v : Work), allWait v.toKitchen v.drawOrder [] →
      allWait (forEach runTest ns v).toKitchen (forEach runTest ns v).drawOrder [] := fun ns v h =>
    List.foldlRecOn (motive := fun v : Work => allWait v.toKitchen v.drawOrder []) ns _ h fun v hv n _ => runTest_keeps_waiting n hv
  exact hkeep _ _ (drawPass_leaves_waiting w)

/-- A round in which no run is created ends in a settled kitchen. -/
theorem passRound_settled (h : (passRound w).tickets.length = (drawPass w).tickets.length) : (passRound w).settled := by
  obtain ⟨hsame, htests⟩ := (runTests_count ((drawPass w).items.map Item.number) (drawPass w)).2 h
  have hround : passRound w = drawPass w := hsame
  refine ⟨drawPass_allWait (passRound_leaves_waiting w), fun item => ?_⟩
  rw [hround]
  cases hi : findItem (drawPass w).toKitchen item with
  | none => exact runTest_absent hi
  | some i => exact htests item (List.mem_map.2 ⟨i, List.mem_of_find?_eq_some hi, entryOf_key hi⟩)

/-- Rounds enough for the free records settle the kitchen: each round but the last takes one. -/
theorem passRounds_settled {n : Nat} (hroom : 2048 ≤ n + w.tickets.length) (hw : n = 0 → allWait w.toKitchen w.drawOrder []) :
    ∃ rounds, (n ≠ 0 → 1 ≤ rounds) ∧ passRounds n w = passRound^[rounds] w ∧ (passRounds n w).settled := by
  induction n generalizing w with
  | zero => exact ⟨0, fun h => absurd rfl h, rfl, drawPass_allWait (hw rfl), fun item => runTest_full (w := w) (by omega)⟩
  | succ n ih =>
    have hround : passRounds (n + 1) w =
        if (passRound w).tickets.length = (drawPass w).tickets.length then passRound w else passRounds n (passRound w) := rfl
    have hdraw : (drawPass w).tickets = w.tickets := drawWalk_tickets ..
    rw [hround]
    split
    case isTrue hsame => exact ⟨1, fun _ => le_rfl, rfl, passRound_settled hsame⟩
    case isFalse hmore =>
      have hgrown : (drawPass w).tickets.length < (passRound w).tickets.length :=
        lt_of_le_of_ne (runTests_count ((drawPass w).items.map Item.number) (drawPass w)).1 (Ne.symm hmore)
      rw [hdraw] at hgrown
      obtain ⟨rounds, -, he, hs⟩ := ih (w := passRound w) (by omega) fun _ => passRound_leaves_waiting w
      exact ⟨rounds + 1, fun _ => Nat.le_add_left 1 rounds, he, hs⟩

end

/-- Settles O39: outside SERVICE nothing is done; in SERVICE there are rounds enough, since each round but the last takes a record. -/
theorem passUnitSettles : Obligations.PassUnitSettles := by
  refine fun w => ⟨passSettle_idle, fun he => ?_⟩
  have hrounds : passSettle w = passRounds 2048 w := if_pos he
  obtain ⟨rounds, h1, he, hs⟩ := passRounds_settled (n := 2048) (w := w) (Nat.le_add_right ..) nofun
  rw [hrounds]
  exact ⟨⟨rounds, h1 nofun, he⟩, hs⟩

end Sys2Proof.Machine
end

section
/-! PROOF. The Pass Unit's events: a plating start (R143, R153), a life end (R148), and a TAKEN (R157). -/

namespace Sys2Proof.Machine

/-! ### The readiness test (R143) -/

section

variable {k : Kitchen} {g : Group} {n : Nat} {w : Work}

theorem allDone_iff : allDone k n = true ↔
    ∀ t ∈ k.tickets, t.group = n → t.kind ≠ .standing → t.state ≠ .voiding → t.state = .done := by
  simp only [allDone, List.all_filter, List.all_eq_true, Bool.or_eq_true, Bool.not_eq_true', ← Bool.not_eq_true, livePlated_iff,
    beq_iff_eq, ← imp_iff_not_or, and_imp]

theorem testPasses_iff :
    testPasses k g = true ↔
      k.event = .service ∧ (g.state = .planned ∨ g.state = .firing) ∧ g.flags.held = false ∧
        (∀ t ∈ k.tickets, t.group = g.number → t.kind ≠ .standing → t.state ≠ .voiding → t.state = .done) ∧
        (g.target : Int) - g.lead ≤ k.clock := by
  rw [← allDone_iff]
  simp only [testPasses, platingReached, Bool.and_eq_true, beq_iff_eq, keepsProjection_iff, Bool.not_eq_true', decide_eq_true_eq,
    and_assoc]

theorem any_undrawn_iff :
    g.lines.any (undrawn k) = true ↔ ∃ l ∈ g.lines, l.drawn = false ∧ (findItem k l.item).map Item.kind = some .standing := by
  simp only [List.any_eq_true, undrawn_iff, Option.map_eq_some_iff]

theorem joins_iff :
    joins k n = true ↔ ∃ g, findGroup k n = some g ∧ testPasses k g = true ∧ g.lines.any (undrawn k) = true := by
  rw [joins]
  cases findGroup k n <;> simp

theorem testGroup_found (hg : findGroup w.toKitchen n = some g) :
    testGroup n w =
      if testPasses w.toKitchen g then if g.lines.any (undrawn w.toKitchen) then joinDraw n w else becomeReady n w
      else leaveDraw n w := by
  rw [testGroup, hg]

end

/-! ### A plating start reached (R143, R153) -/

/-- The kitchen with the test of group n no longer owed. -/
def platingTaken (n : Nat) (w : Work) : Work := setOwed (fun o => { o with plating := dropNumber n o.plating }) w

/-- Groups join the draw order one after another: nothing else changes (R153). -/
theorem forEach_joinDraw (ns : List Nat) (w : Work) :
    forEach joinDraw ns w = { w with drawOrder := (forEach joinDraw ns w).drawOrder } ∧
      ∀ m, m ∈ (forEach joinDraw ns w).drawOrder ↔ m ∈ ns ∨ m ∈ w.drawOrder := by
  induction ns generalizing w with
  | nil => exact ⟨rfl, fun m => by simp [forEach]⟩
  | cons n ns ih =>
    obtain ⟨hrest, hmem⟩ := ih (joinDraw n w)
    refine ⟨hrest, fun m => (hmem m).trans ?_⟩
    rw [mem_joinDraw, List.mem_cons]
    tauto

section

variable {n : Nat} {w : Work}

theorem startPlating_idle (h : n ∉ w.owed.plating) : startPlating n w = w := if_neg (by simpa using h)

/-- The groups still to be tested that join the draw order with group n (log entry 6). -/
def joining (n : Nat) (w : Work) : List Nat := (dropNumber n w.owed.plating).filter (joins w.toKitchen)

variable {g : Group} (h : n ∈ w.owed.plating) (hg : findGroup w.toKitchen n = some g)

include h hg

theorem startPlating_tested {v : Work}
    (hv : (if testPasses w.toKitchen g then if g.lines.any (undrawn w.toKitchen) then joinDraw n (platingTaken n w)
      else becomeReady n (platingTaken n w) else leaveDraw n (platingTaken n w)) = v) :
    startPlating n w = passSettle (if joins v.toKitchen n then forEach joinDraw (v.owed.plating.filter (joins v.toKitchen)) v else v) := by
  have htest : testGroup n (platingTaken n w) = v := (testGroup_found (w := platingTaken n w) hg).trans hv
  rw [← htest]
  exact if_pos (by simpa using h)

theorem startPlating_ready (hp : testPasses w.toKitchen g = true) (hw : ¬g.lines.any (undrawn w.toKitchen) = true) :
    startPlating n w = passSettle (becomeReady n (platingTaken n w)) := by
  have hout : ¬joins (becomeReady n (platingTaken n w)).toKitchen n = true := fun hj => by
    obtain ⟨x, hx, hpasses, -⟩ := joins_iff.1 hj
    obtain rfl := Option.some.inj ((becomeReady_own (w := platingTaken n w) hg).symm.trans hx)
    obtain ⟨-, hstate, -⟩ := testPasses_iff.1 hpasses
    exact hstate.elim nofun nofun
  rw [startPlating_tested h hg ((if_pos hp).trans (if_neg hw)), if_neg hout]

theorem startPlating_joining (hp : testPasses w.toKitchen g = true) (hw : g.lines.any (undrawn w.toKitchen) = true) :
    startPlating n w = passSettle (forEach joinDraw (joining n w) (joinDraw n (platingTaken n w))) := by
  have hin : joins (joinDraw n (platingTaken n w)).toKitchen n = true := joins_iff.2 ⟨g, hg, hp, hw⟩
  rw [startPlating_tested h hg ((if_pos hp).trans (if_pos hw)), if_pos hin]
  rfl

theorem startPlating_failing (hp : testPasses w.toKitchen g = false) :
    startPlating n w = passSettle (leaveDraw n (platingTaken n w)) := by
  have hout : ¬joins (leaveDraw n (platingTaken n w)).toKitchen n = true := fun hj => by
    obtain ⟨x, hx, hpasses, -⟩ := joins_iff.1 hj
    obtain rfl := Option.some.inj (hg.symm.trans hx)
    exact Bool.false_ne_true (hp.symm.trans hpasses)
  rw [startPlating_tested h hg (if_neg (Bool.eq_false_iff.1 hp)), if_neg hout]

end

theorem mem_joining {n m : Nat} {w : Work} (hm : m ≠ n) :
    m ∈ joining n w ↔
      m ∈ w.owed.plating ∧ ∃ g, findGroup w.toKitchen m = some g ∧ testPasses w.toKitchen g = true ∧
        g.lines.any (undrawn w.toKitchen) = true := by
  simp [joining, dropNumber, hm, joins_iff]

/-- Settles O7: the test in its conditions; and the group tested, with the others of the same value, before the Pass Unit settles. -/
theorem platingStartTestsGroup : Obligations.PlatingStartTestsGroup := by
  refine ⟨fun k g => testPasses_iff, fun s n hs => ?_⟩
  have hexec : exec (.platingStart n) s = .next (moved s (startPlating n (begun s.kit))) :=
    congrArg Host.Outcome.next (inPart_running _ hs)
  rw [hexec]
  refine ⟨fun h => ?idle, fun g h hg => ?owed⟩
  case idle => rw [startPlating_idle (w := begun s.kit) h, moved_begun]
  case owed =>
    intro waits w0
    have hwaits : ∀ x : Group, x.lines.any (undrawn s.kit) = true ↔ waits x := fun _ => any_undrawn_iff
    have hstart : Settles w0 w0 := .refl w0
    refine ⟨fun hp hw => ⟨becomeReady n w0, ?_, (hstart.becomeReady n).passSettle, ⟨_, becomeReady_own (w := w0) hg, rfl, rfl, rfl⟩,
      becomeReady_out (w := w0) hg, ?_, becomeReady_tickets n w0⟩, fun hp hw => ?joins, fun hp => ?fails⟩
    · rw [startPlating_ready (w := begun s.kit) h hg hp (mt (hwaits g).1 hw)]
      rfl
    · rw [becomeReady_drawOrder (w := w0) hg]
      simp [dropNumber]
    case joins =>
      obtain ⟨hrest, hmem⟩ := forEach_joinDraw (joining n (begun s.kit)) (joinDraw n w0)
      refine ⟨forEach joinDraw (joining n (begun s.kit)) (joinDraw n w0), ?_,
        ((hstart.joinDraw n).forEach joinDraw (fun m w => (Settles.refl w).joinDraw m) _).passSettle, by rw [hrest]; rfl,
        by rw [hrest]; rfl, by rw [hrest]; rfl, fun m => ?_⟩
      · rw [startPlating_joining (w := begun s.kit) h hg hp ((hwaits g).2 hw)]
        rfl
      · rw [hmem, mem_joinDraw]
        by_cases hm : m = n
        · simp [hm]
        · rw [mem_joining hm]
          simp only [begun_toKitchen, hwaits, hm, false_or]
          exact or_comm
    case fails =>
      rw [startPlating_failing (w := begun s.kit) h hg hp]
      rfl

/-! ### A life end reached (R148) -/

section

variable {k : Kitchen} {g : Group} {e : Int}

/-- A DONE ticket of component c of the line gives the life end: its done time + H (R147, R148). -/
def givesLife (k : Kitchen) (g : Group) (e : Int) (l : Line) (c : Nat) : Bool :=
  k.tickets.any fun t => ofComponent g.number l.item l.subFrom c t && lifeOf k g.number t == some e

theorem givesLife_iff {l : Line} {c : Nat} :
    givesLife k g e l c = true ↔
      ∃ t ∈ k.tickets, t.group = g.number ∧ t.item = l.item ∧ t.subFrom = l.subFrom ∧ t.comp = c ∧ t.kind ≠ .standing ∧
        t.state = .done ∧ ∃ d i x, t.doneAt = some d ∧ findItem k l.item = some i ∧ i.lines[c]? = some x ∧ e = d + x.hold := by
  refine List.any_eq_true.trans (exists_congr fun t => and_congr_right fun _ => ?_)
  simp only [ofComponent, Bool.and_eq_true, beq_iff_eq, bne_iff_ne, lifeOf_some]
  constructor
  · rintro ⟨⟨⟨⟨⟨h1, h2⟩, h3⟩, h4⟩, h5⟩, -, -, h6, h7⟩
    subst h4
    exact ⟨h1, h2, h3, rfl, h5, h6, h2 ▸ h7⟩
  · rintro ⟨h1, h2, h3, h4, h5, h6, h7⟩
    subst h4
    exact ⟨⟨⟨⟨⟨h1, h2⟩, h3⟩, rfl⟩, h5⟩, h1, h5, h6, h2.symm ▸ h7⟩

theorem givesLife_index {l : Line} {c : Nat} (h : givesLife k g e l c = true) :
    c < ((findItem k l.item).map fun i => i.lines.length).getD 0 := by
  obtain ⟨t, -, -, -, -, -, -, -, d, i, x, -, hi, hx, -⟩ := givesLife_iff.1 h
  rw [hi]
  exact (List.getElem?_eq_some_iff.1 hx).1

/-- The source of a life end is the first hit in record order of lines, and in the order of components. -/
theorem lifeEndSource_eq (k : Kitchen) (g : Group) (e : Int) :
    lifeEndSource k g e =
      (g.lines.findSome? fun l =>
        (List.range (((findItem k l.item).map fun i => i.lines.length).getD 0)).findSome? fun c =>
          if givesLife k g e l c then some (l.item, c) else none).getD (0, 0) := by
  rw [lifeEndSource, List.headD_eq_head?_getD, List.head?_flatMap]
  simp only [List.head?_filterMap]
  rfl

theorem findSome?_range_first {α : Type} {p : Nat → Bool} (f : Nat → α) {n c : Nat} (hc : c < n) (hp : p c = true)
    (hb : ∀ j, j < c → ¬p j = true) : ((List.range n).findSome? fun j => if p j then some (f j) else none) = some (f c) := by
  obtain ⟨m, rfl⟩ := Nat.exists_eq_add_of_lt hc
  rw [Nat.add_assoc, List.range_add, List.range_succ_eq_map, List.findSome?_append]
  have hnone : ((List.range c).findSome? fun j => if p j then some (f j) else none) = none :=
    List.findSome?_eq_none_iff.2 fun j hj => if_neg (hb j (List.mem_range.1 hj))
  rw [hnone]
  simp [hp]

theorem lifeEndSource_first {before later : List Line} {l : Line} {c : Nat} (hg : g.lines = before ++ l :: later)
    (hb : ∀ m ∈ before, ∀ j, ¬givesLife k g e m j = true) (hl : givesLife k g e l c = true)
    (hc : ∀ j, j < c → ¬givesLife k g e l j = true) : lifeEndSource k g e = (l.item, c) := by
  rw [lifeEndSource_eq, hg, List.findSome?_append, List.findSome?_cons, findSome?_range_first _ (givesLife_index hl) hl hc,
    List.findSome?_eq_none_iff.2 fun m hm => List.findSome?_eq_none_iff.2 fun j _ => if_neg (hb m hm j)]
  rfl

end

/-- The group with the dying flag set (R148). -/
def Group.dies (g : Group) : Group := { g with flags := { g.flags with dying := true } }

/-- The kitchen with the dying flag of group n set and GRPDYING raised, before the display follows (R148). -/
def lifeTaken (n : Nat) (g : Group) (e : Int) (w : Work) : Work :=
  raise (.grpdying n g.tag e (lifeEndSource w.toKitchen g e).1 (lifeEndSource w.toKitchen g e).2 g.state)
    (setGroup n Group.dies (setOwed (fun o => { o with life := dropNumber n o.life }) w))

section

variable {n : Nat} {w : Work} {g : Group} {e : Int}

theorem reachLife_idle (h : n ∉ w.owed.life) : reachLife n w = w := if_neg (by simpa using h)

theorem displayOf_dies (hs : g.state = .firing ∨ g.state = .ready) : displayOf g.dies = some .dying := by
  rw [displayOf_eq]
  exact if_pos ⟨rfl, hs⟩

theorem reachLife_reached (h : n ∈ w.owed.life) (he : w.event = .service) (hg : findGroup w.toKitchen n = some g)
    (hs : g.state = .firing ∨ g.state = .ready) (hd : g.flags.dying = false) (hl : g.lifeEnd = some e) (hc : e ≤ w.clock) :
    reachLife n w = refreshDisplay n (lifeTaken n g e w) := by
  have hreached : lifeReached w.toKitchen g = true := by
    rcases hs with hs | hs <;> simp [lifeReached, hs, hd, hl, hc]
  have hfound : findGroup (setOwed (fun o => { o with life := dropNumber n o.life }) w).toKitchen n = some g := hg
  refine (if_pos (by simpa using h)).trans ?_
  dsimp only
  rw [hfound]
  refine (if_pos ⟨hreached, he⟩).trans ?_
  rw [hl]
  rfl

end

/-- Settles O8: the source of the life end as the first hit; and the flag, the report, and the display that follows. -/
theorem lifeEndMarksDying : Obligations.LifeEndMarksDying := by
  refine ⟨fun k g e => ?source, fun s n hs => ?event⟩
  case source =>
    intro gives before l later c hlines hbefore hl hc
    have hgives : ∀ l c, givesLife k g e l c = true ↔ gives l c := fun _ _ => givesLife_iff
    exact lifeEndSource_first hlines (fun m hm j => mt (hgives m j).1 (hbefore m hm j)) ((hgives l c).2 hl)
      fun j hj => mt (hgives l j).1 (hc j hj)
  case event =>
    have hexec : exec (.lifeEnd n) s = .next (moved s (reachLife n (begun s.kit))) :=
      congrArg Host.Outcome.next (inPart_running _ hs)
    rw [hexec]
    refine ⟨fun h => by rw [reachLife_idle (w := begun s.kit) h, moved_begun], fun g e h he hg hstate hdying hlife hclock => ?_⟩
    intro told
    have hv : findGroup (lifeTaken n g e (begun s.kit)).toKitchen n = some g.dies :=
      findGroup_setGroup_same (f := Group.dies) (fun _ => rfl) hg
    have hshown : displayOf g.dies = some .dying := displayOf_dies hstate
    have hother : ∀ m, m ≠ n → findGroup (lifeTaken n g e (begun s.kit)).toKitchen m = findGroup s.kit m := fun m hm =>
      findGroup_setGroup_other (f := Group.dies) (fun _ => rfl) hm
    rw [reachLife_reached (w := begun s.kit) h he hg hstate hdying hlife hclock]
    refine ⟨_, rfl, ⟨_, findGroup_refreshDisplay_same hv, rfl, rfl, hshown, rfl, rfl, hlife⟩, ?_, fun hne => ?_,
      fun hsame => ?_, ?_, fun m hm => (findGroup_refreshDisplay_other hv hm).trans (hother m hm)⟩
    · rw [refreshDisplay_eq]
      rfl
    · rw [refreshDisplay_changed hv (fun h => hne (h.symm.trans hshown)), hshown]
      exact ⟨rfl, rfl⟩
    · rw [refreshDisplay_same hv (hshown.trans hsame.symm)]
      exact ⟨rfl, rfl⟩
    · rw [refreshDisplay_eq]
      rfl

/-! ### A TAKEN from a pass terminal (R157) -/

section

variable {a n : Nat} {w : Work} {t : Terminal}

theorem takeTaken_served {x : Group} (ht : findTerminal w.toKitchen a = some t) (hk : t.kind = .pass)
    (hx : findGroup w.toKitchen n = some x) (hs : x.state = .ready) (he : w.event = .service) :
    takeTaken a n w = freeGroup n .served w := by
  rw [takeTaken, ht, hx]
  exact if_pos ⟨hk, hs, he⟩

theorem takeTaken_ignored (ht : findTerminal w.toKitchen a = some t)
    (h : t.kind ≠ .pass ∨ w.event ≠ .service ∨ ∀ x, findGroup w.toKitchen n = some x → x.state ≠ .ready) : takeTaken a n w = w := by
  rw [takeTaken, ht]
  cases hx : findGroup w.toKitchen n with
  | none => rfl
  | some x => exact if_neg fun ⟨hk, hs, he⟩ => h.elim (· hk) (Or.elim · (· he) (· x hx hs))

end

theorem Steady.findTerminal_kind {a w : Work} (h : Steady a w) (n : Nat) :
    (findTerminal w.toKitchen n).map Terminal.kind = (findTerminal a.toKitchen n).map Terminal.kind := by
  have hkind : ∀ k : Kitchen, (findTerminal k n).map Terminal.kind =
      (entryOf Prod.fst n (k.terminals.map Terminal.health)).map fun p => p.2.1 := fun k => by
    rw [← entryOf_map Terminal.address Prod.fst Terminal.health fun _ => rfl, Option.map_map]
    rfl
  rw [hkind, hkind, h.terminals]

theorem findGroup_freeGroup {n : Nat} {w : Work} {x : Group} (final : GroupState) (hx : findGroup w.toKitchen n = some x) :
    findGroup (freeGroup n final w).toKitchen n = none := by
  rw [freeGroup_found final hx]
  exact (entryOf_none (l := w.groups.filter fun y => y.number != n)).2 fun y hy => bne_iff_ne.1 (List.mem_filter.1 hy).2

theorem freeGroup_reported {n : Nat} {w : Work} {x : Group} (final : GroupState) (hx : findGroup w.toKitchen n = some x) :
    ⟨w.clock, .grpgone n x.tag final⟩ ∈ (freeGroup n final w).out := by
  obtain ⟨-, hout, -⟩ := forEach_dropTicket_rest (ticketsOf w.toKitchen n) (announced n x final w)
  rw [freeGroup_found final hx]
  exact hout ▸ mem_out_raise (.grpgone n x.tag final) w

/-- Settles O50: the reply is taken in its steps, and the TAKEN by the terminal, the group and the event. -/
theorem takenServesGroup : Obligations.TakenServesGroup := by
  intro s u t g h hl w0
  have hexec : ∀ {w}, takeTaken u.address g.toNat w0 = w → exec (.taken g) s = .next (moved s (passSettle w)) := by
    rintro w rfl
    exact congrArg Host.Outcome.next ((inPart_running _ h.high).trans (congrArg (moved s) (handleReply_accepting h rfl)))
  obtain ⟨x, hx, hkind⟩ : ∃ x, findTerminal w0.toKitchen u.address = some x ∧ x.kind = t.kind := by
    have hheard : findTerminal (heard s u).toKitchen u.address =
        some { t with misses := 0, receipt := true, state := .live } := by
      rw [heard_live h hl]
      refine (entryOf_updateEntry_same (key := Terminal.address) u.address
        (fun x => { x with misses := 0, receipt := true, state := .live }) s.kit.terminals fun _ hz => hz).trans ?_
      exact congrArg (Option.map _) h.known
    have hsame := ((Steady.refl (heard s u)).acceptFrame u).findTerminal_kind u.address
    rw [hheard] at hsame
    exact Option.map_eq_some_iff.1 hsame
  refine ⟨fun y hk hy hs he => ⟨hexec (takeTaken_served hx (hkind.trans hk) hy hs he), freeGroup_reported .served hy,
    findGroup_freeGroup .served hy⟩, fun hno => hexec (takeTaken_ignored hx ?_)⟩
  rwa [hkind]

end Sys2Proof.Machine
end

section
/-! PROOF. The arithmetic of a REFIRE: what each line redoes, loses and frees (R159). -/

namespace Sys2Proof.Machine

/-! ### The portions of a component (R159) -/

theorem doneOf_eq (k : Kitchen) (n : Nat) (l : Line) (c : Nat) : doneOf k n l c = portionsIn k n l c [.done] := by
  simp only [doneOf, portionsIn, state_contains]

theorem waitingOf_eq (k : Kitchen) (n : Nat) (l : Line) (c : Nat) : waitingOf k n l c = portionsIn k n l c [.queued, .due] := by
  simp only [waitingOf, portionsIn, undispatched_contains]

theorem foldl_max_range {f : Nat → Nat} {n r : Nat} (hle : ∀ c, c < n → f c ≤ r) (hr : r = 0 ∨ ∃ c, c < n ∧ f c = r) :
    ((List.range n).map f).foldl max 0 = r := by
  rw [List.foldl_max, Nat.zero_max]
  have hbound : ((List.range n).map f).max?.getD 0 ≤ r := by
    cases hm : ((List.range n).map f).max? with
    | none => exact Nat.zero_le r
    | some d =>
      obtain ⟨c, hc, rfl⟩ := List.mem_map.1 (List.max?_mem hm)
      exact hle c (List.mem_range.1 hc)
  refine Nat.le_antisymm hbound ?_
  rcases hr with rfl | ⟨c, hc, rfl⟩
  · exact Nat.zero_le _
  · exact List.le_max?_getD_of_mem (List.mem_map_of_mem (List.mem_range.2 hc))

/-! ### One line's plan (R159) -/

section

variable {k : Kitchen} {g : Group} {l : Line} {later : List Line} {stock : Stock}

theorem refirePlans_skips (h : refirePortions k g.number l = 0) : refirePlans k g (l :: later) stock = refirePlans k g later stock := by
  rw [refirePlans]
  exact if_pos h

theorem refirePlans_plans {r : Nat} (hr : refirePortions k g.number l = r) (hpos : 0 < r) :
    refirePlans k g (l :: later) stock =
      ⟨l, r, r - takeable stock r, (componentsOf k l.item).mapIdx (refireComp k g l (r - takeable stock r))⟩ ::
        refirePlans k g later (stockAfter stock r) := by
  rw [refirePlans, hr]
  exact if_neg hpos.ne'

theorem refireComp_eq {e idx : Nat} {c : Component} {x : Station} (hx : findStation k c.station = some x) :
    refireComp k g l e idx c =
      { index := idx, done := doneOf k g.number l idx, waiting := waitingOf k g.number l idx, redone := doneOf k g.number l idx - e
        rush :=
          if e < doneOf k g.number l idx then
            [refireComputation k.clock ⟨g.number, l.item, idx, l.subFrom⟩ c x.defn (doneOf k g.number l idx - e)]
          else []
        rebuilt :=
          if doneOf k g.number l idx < e ∧ e - doneOf k g.number l idx < waitingOf k g.number l idx then
            [componentComputation k.clock g.target g.lead ⟨g.number, l.item, idx, l.subFrom⟩ c x.defn
              (waitingOf k g.number l idx - (e - doneOf k g.number l idx))]
          else [] } := by
  unfold refireComp computeFor
  rw [hx]
  have hredone : (doneOf k g.number l idx - e = 0) = ¬e < doneOf k g.number l idx := by rw [Nat.sub_eq_zero_iff_le, not_lt]
  have hrebuilt : (waitingOf k g.number l idx - (e - doneOf k g.number l idx) = 0) =
      ¬e - doneOf k g.number l idx < waitingOf k g.number l idx := by rw [Nat.sub_eq_zero_iff_le, not_lt]
  simp only [hredone, hrebuilt, ite_not, ite_and]

end

/-! ### What the plans free and count (R159, R160) -/

theorem refiredLines_eq (plans : List RefirePlan) (ls : List Line) :
    refiredLines plans ls =
      ls.map fun l =>
        { l with
          shortfall := l.shortfall +
            ((plans.find? fun q => l.item == q.line.item && l.subFrom == q.line.subFrom).map RefirePlan.lost).getD 0 } := by
  refine List.map_congr_left fun l _ => ?_
  change (match plans.find? fun q => l.item == q.line.item && l.subFrom == q.line.subFrom with
    | some p => { l with shortfall := l.shortfall + p.lost }
    | none => l) = _
  cases plans.find? fun q => l.item == q.line.item && l.subFrom == q.line.subFrom <;> rfl

theorem sum_map_flatMap {α β : Type} (f : α → List β) (v : β → Nat) (l : List α) :
    ((l.flatMap f).map v).sum = (l.map fun x => ((f x).map v).sum).sum := by
  rw [List.map_flatMap, List.flatMap_def, List.sum_flatten, List.map_map]
  rfl

theorem refireCounts_eq (k : Kitchen) (item : Nat) (plans : List RefirePlan) :
    refireCounts k item plans =
      (List.range (componentsOf k item).length).map fun idx =>
        let mine := plans.flatMap fun q => q.comps.filter fun c => c.index == idx
        ((mine.map RefireComp.redone).sum, (mine.map fun c => (c.rush.map fun x => x.tickets.length).sum).sum) :=
  List.map_congr_left fun _ _ => congrArg (Prod.mk _) (sum_map_flatMap RefireComp.rush (fun x => x.tickets.length) _)

end Sys2Proof.Machine
end

section
/-! PROOF. REFIRE: its refusals, the portions committed again, the group fired again, and what is reported (R158 to R160). -/

namespace Sys2Proof.Machine

/-! ### The refusals (R158) -/

section

variable {n item : Nat} {w : Work} {g : Group} (hn : 1 ≤ n ∧ n ≤ 512) (hg : findGroup w.toKitchen n = some g)
  (hs : g.state = .firing ∨ g.state = .ready)

include hn hg hs

theorem refire_undefined (h : item = 0 ∨ findItem w.toKitchen item = none) : refire n item w = (w, .badField .item 0) := by
  refine (judgeGroup_found hn hg _).trans ((if_neg fun q => hs.elim q.1 q.2).trans ?_)
  cases hx : findItem w.toKitchen item with
  | none => rfl
  | some x => exact if_pos (h.resolve_right fun e => absurd (hx.symm.trans e) nofun)

theorem refire_judged {x : Item} (h0 : item ≠ 0) (hx : findItem w.toKitchen item = some x) :
    refire n item w =
      let plans := refirePlans w.toKitchen g (refireLines g item) x.stock
      if !(g.lines.any fun l => l.item == item) then (w, .noSuch)
      else if plans = [] then (w, .badState)
      else if plans.any RefirePlan.inFire then (w, .inFire)
      else takeRefire g item plans w := by
  refine (judgeGroup_found hn hg _).trans ((if_neg fun q => hs.elim q.1 q.2).trans ?_)
  rw [hx]
  exact if_neg h0

end

theorem any_inFire_iff {plans : List RefirePlan} :
    plans.any RefirePlan.inFire = true ↔ ∃ p ∈ plans, ∃ c ∈ p.comps, c.done < p.lost ∧ c.waiting < p.lost - c.done := by
  simp [RefirePlan.inFire]

/-! ### The portions committed again (R32, R159) -/

theorem stockAfter_add (st : Stock) (a b : Nat) : stockAfter (stockAfter st a) b = stockAfter st (a + b) := by
  cases st with
  | unlimited => rfl
  | limited k => exact congrArg Stock.limited (Nat.sub_sub k a b)

/-- Portions of an item committed one amount after another (R32). -/
def commits (item : Nat) (rs : List Nat) (w : Work) : Work := rs.foldl (fun w r => (commit item r w).1) w

section

variable {item : Nat}

theorem commits_eq (item : Nat) (rs : List Nat) (w : Work) : ∃ items, commits item rs w = { w with items := items } := by
  induction rs generalizing w with
  | nil => exact ⟨w.items, rfl⟩
  | cons r rs ih =>
    obtain ⟨items, h⟩ := ih (commit item r w).1
    exact ⟨items, h.trans (by rw [commit_items])⟩

theorem findItem_commits_other {m : Nat} (hm : m ≠ item) (rs : List Nat) (w : Work) :
    findItem (commits item rs w).toKitchen m = findItem w.toKitchen m :=
  List.foldlRecOn (motive := fun v : Work => findItem v.toKitchen m = findItem w.toKitchen m) rs _ rfl
    fun _ hv _ _ => (findItem_commit_other hm).trans hv

/-- After the commitments the stock is down by their sum, and the mark follows it. -/
theorem findItem_commits_same {rs : List Nat} {w : Work} {x : Item} (hx : findItem w.toKitchen item = some x)
    (hmark : (x.exhausted = true ↔ x.stock = .limited 0) ∨ rs ≠ []) :
    ∃ y, findItem (commits item rs w).toKitchen item = some y ∧ y.pool = x.pool ∧ y.stock = stockAfter x.stock rs.sum ∧
      (y.exhausted = true ↔ y.stock = .limited 0) := by
  induction rs generalizing w x with
  | nil => exact ⟨x, hx, rfl, by cases x.stock <;> rfl, hmark.resolve_right fun h => h rfl⟩
  | cons r rs ih =>
    obtain ⟨-, hless, -⟩ := x.less_stock r
    obtain ⟨y, hy, hpool, hstock, hy'⟩ := ih (findItem_commit_same hx) (.inl hless)
    refine ⟨y, hy, hpool, hstock.trans ?_, hy'⟩
    rw [List.sum_cons, ← stockAfter_add]
    rfl

end

/-! ### What a rebuild leaves as it is -/

theorem createTickets_rest (ds : List TicketDesc) (w : Work) :
    (createTickets ds w).items = w.items ∧ (createTickets ds w).out = w.out :=
  List.foldlRecOn (motive := fun v : Work => v.items = w.items ∧ v.out = w.out) ds _ ⟨rfl, rfl⟩ fun _ hv _ _ => hv

theorem rebuild_rest (frees : List Nat) (cs : List Computation) (w : Work) :
    (rebuild frees cs w).items = w.items ∧ (rebuild frees cs w).out = w.out ∧ (rebuild frees cs w).clock = w.clock := by
  obtain ⟨hitems, hout⟩ := createTickets_rest (descsOf cs) (forEach dropTicket frees w)
  obtain ⟨hitems', hout', -⟩ := forEach_dropTicket_rest frees w
  have hclock := (((Steady.refl w).forEach _ (fun n w => (Steady.refl w).dropTicket n) frees).createTickets (descsOf cs)).clock
  exact ⟨hitems.trans hitems', hout.trans hout', hclock⟩

/-! ### The group fired again (R160) -/

theorem lifeEndOf_congr {k k' : Kitchen} (items : k'.items = k.items) (tickets : k'.tickets = k.tickets) (n : Nat) :
    lifeEndOf k' n = lifeEndOf k n := by
  have hlife : lifeOf k' n = lifeOf k n := funext fun t => by
    rw [lifeOf, componentOf_congr (congrArg (List.map Item.definition) items), ← lifeOf]
  rw [lifeEndOf, tickets, hlife, ← lifeEndOf]

theorem displayOf_firing {g : Group} (h : g.state = .firing) : displayOf g = if g.flags.dying then some .dying else none := by
  rw [displayOf_eq, h]
  simp

/-- The group fired again: FIRING, with the life end given, the dying flag only where that has been reached, and its display by both. -/
def Group.refired (life : Option Int) (clock : Nat) (g : Group) : Group :=
  { g with
    state := .firing
    lifeEnd := life
    flags := { g.flags with dying := g.flags.dying && life.any fun e => decide (e ≤ (clock : Int)) }
    display := if (g.flags.dying && life.any fun e => decide (e ≤ (clock : Int))) then some .dying else none }

/-- A group fired again, once its tickets are rebuilt: its state, its life end, its dying flag and its display (R160). -/
def refireGroup (n : Nat) (w : Work) : Work :=
  refreshDisplay n (clearDying n (recomputeLife n
    (setGroup n (fun y => { y with state := if y.state = .ready then .firing else y.state }) w)))

section

variable {n : Nat} {w : Work} {g : Group}

theorem clearDying_found (hg : findGroup w.toKitchen n = some g) :
    findGroup (clearDying n w).toKitchen n =
      some { g with flags := { g.flags with
        dying := g.flags.dying && (lifeEndOf w.toKitchen n).any fun e => decide (e ≤ (w.clock : Int)) } } := by
  have hcleared : findGroup (setGroup n (fun g => { g with flags := { g.flags with dying := false } }) w).toKitchen n = some _ :=
    findGroup_setGroup_same (f := fun g => { g with flags := { g.flags with dying := false } }) (fun _ => rfl) hg
  unfold clearDying
  cases lifeEndOf w.toKitchen n with
  | none => simpa using hcleared
  | some e =>
    by_cases he : (w.clock : Int) < e
    · simpa [he, not_le.2 he] using hcleared
    · simpa [he, not_lt.1 he] using hg

theorem clearDying_eq (n : Nat) (w : Work) : clearDying n w = { w with groups := (clearDying n w).groups } := by
  unfold clearDying
  split
  · split <;> rfl
  · rfl

theorem refireGroup_eq (n : Nat) (w : Work) :
    ∃ gs ts u, refireGroup n w = { w with groups := gs, terminals := ts, turn := u } := by
  obtain ⟨gs, hgs⟩ : ∃ gs, clearDying n (recomputeLife n
      (setGroup n (fun y => { y with state := if y.state = .ready then .firing else y.state }) w)) = { w with groups := gs } :=
    ⟨_, clearDying_eq ..⟩
  rw [refireGroup, hgs]
  exact ⟨_, _, _, refreshDisplay_eq ..⟩

theorem refireGroup_found (hg : findGroup w.toKitchen n = some g) (hs : g.state = .firing ∨ g.state = .ready) :
    findGroup (refireGroup n w).toKitchen n = some (g.refired (lifeEndOf w.toKitchen n) w.clock) := by
  have hstate : (if g.state = .ready then .firing else g.state) = GroupState.firing := by
    rcases hs with h | h <;> rw [h] <;> rfl
  have hfired := findGroup_setGroup_same (f := fun y => { y with state := if y.state = .ready then .firing else y.state })
    (fun _ => rfl) hg
  have haged := findGroup_setGroup_same (f := fun y => { y with lifeEnd := lifeEndOf w.toKitchen n }) (fun _ => rfl) hfired
  have hshown := findGroup_refreshDisplay_same (clearDying_found haged)
  rw [hstate] at hshown
  refine hshown.trans (congrArg some ?_)
  rw [displayOf_firing rfl]
  rfl

end

/-! ### The taking (R159, R160) -/

section

variable (g : Group) (item : Nat) (plans : List RefirePlan) (w : Work)

/-- The kitchen of a REFIRE with the portions committed again and the tickets rebuilt. -/
def refireRebuilt : Work :=
  rebuild (plans.flatMap (RefirePlan.frees w.toKitchen g.number)) (plans.flatMap RefirePlan.computations)
    (commits item (plans.map RefirePlan.asked) w)

/-- The kitchen of a REFIRE with the group fired again and its part settled, before the arbiters and the Pass Unit act. -/
def refireSettled : Work :=
  settleGroup w.items g (refiredLines plans g.lines) (plans.flatMap RefirePlan.computations)
    (refireGroup g.number (refireRebuilt g item plans w))

theorem refireRebuilt_rest :
    (refireRebuilt g item plans w).groups = w.groups ∧
      (refireRebuilt g item plans w).items = (commits item (plans.map RefirePlan.asked) w).items ∧
      (refireRebuilt g item plans w).out = w.out ∧ (refireRebuilt g item plans w).clock = w.clock := by
  obtain ⟨items, h⟩ := commits_eq item (plans.map RefirePlan.asked) w
  obtain ⟨hitems, hout, hclock⟩ := rebuild_rest (plans.flatMap (RefirePlan.frees w.toKitchen g.number))
    (plans.flatMap RefirePlan.computations) (commits item (plans.map RefirePlan.asked) w)
  refine ⟨(rebuild_groups ..).trans ?_, hitems, hout.trans ?_, hclock.trans ?_⟩ <;> rw [h]

theorem refireRebuilt_tickets :
    ∃ news : List Ticket, (refireRebuilt g item plans w).tickets =
        (w.tickets.filter fun t => !(plans.flatMap (RefirePlan.frees w.toKitchen g.number)).contains t.number) ++ news ∧
      news.map Ticket.desc = descsOf (plans.flatMap RefirePlan.computations) := by
  obtain ⟨news, htickets, hdesc, -⟩ := rebuild_tickets (plans.flatMap (RefirePlan.frees w.toKitchen g.number))
    (plans.flatMap RefirePlan.computations) (commits item (plans.map RefirePlan.asked) w)
  obtain ⟨items, h⟩ := commits_eq item (plans.map RefirePlan.asked) w
  refine ⟨news, htickets.trans ?_, hdesc⟩
  rw [h]

theorem refireSettled_tables :
    (refireSettled g item plans w).items = (refireRebuilt g item plans w).items ∧
      (refireSettled g item plans w).tickets = (refireRebuilt g item plans w).tickets := by
  obtain ⟨gs, ts, u, h⟩ := refireGroup_eq g.number (refireRebuilt g item plans w)
  rw [refireSettled, settleGroup_tickets, settleGroup_eq, recompute_rest, h]
  exact ⟨rfl, rfl⟩

variable {g item plans w}

theorem takeRefire_full (h : ¬poolHas w.toKitchen (plans.flatMap (RefirePlan.frees w.toKitchen g.number))
    (plans.flatMap RefirePlan.computations) = true) : takeRefire g item plans w = (w, .full) := if_neg h

theorem takeRefire_taken {h : Group} (hh : findGroup (refireSettled g item plans w).toKitchen g.number = some h)
    (hp : poolHas w.toKitchen (plans.flatMap (RefirePlan.frees w.toKitchen g.number))
      (plans.flatMap RefirePlan.computations) = true) :
    takeRefire g item plans w =
      (passSettle (arbiters (touched w.toKitchen (plans.flatMap (RefirePlan.frees w.toKitchen g.number))
          (plans.flatMap RefirePlan.computations)) (checkDraw g.number (refireSettled g item plans w))),
        .ok (.refired h.flags h.proj (refireCounts w.toKitchen item plans) ((plans.map RefirePlan.lost).sum))) := by
  have hfp := flagsAndP_found hh
  refine (if_pos hp).trans (Prod.ext rfl ?_)
  change Answer.ok (.refired (flagsAndP (refireSettled g item plans w).toKitchen g.number).1
    (flagsAndP (refireSettled g item plans w).toKitchen g.number).2 _ _) = _
  rw [hfp]

/-- The group after a REFIRE is taken, and the reports in their order (R160; log entry 25). -/
theorem refireSettled_group (hg : findGroup w.toKitchen g.number = some g) (hs : g.state = .firing ∨ g.state = .ready) :
    let w4 := refireSettled g item plans w
    let lines := refiredLines plans g.lines
    let cs := plans.flatMap RefirePlan.computations
    ∃ h, findGroup w4.toKitchen g.number = some h ∧ h.state = .firing ∧ h.lines = lines ∧ h.lifeEnd = lifeEndOf w4.toKitchen g.number ∧
      (h.flags.dying = true ↔ g.flags.dying = true ∧ ∃ e, h.lifeEnd = some e ∧ e ≤ w.clock) ∧
      h.display = (if h.flags.dying then some .dying else none) ∧ (h.flags.short = true ↔ ∃ l ∈ lines, 0 < l.shortfall) ∧
      h.flags.stretched = (g.flags.stretched || cs.any fun c => c.hold < c.held) ∧ h.flags.held = g.flags.held ∧
      h.proj = projection w4.toKitchen h ∧
      w4.out = w.out ++
        ((w4.items.filter fun i => i.exhausted && !(w.items.any fun j => j.number == i.number && j.exhausted)).map fun i =>
          ⟨w.clock, .item86 i.number .commit⟩) ++
        ((lines.filter fun l => oldShortfall g.lines l < l.shortfall).map fun l =>
          ⟨w.clock, .grpshort g.number g.tag l.item l.subFrom l.count l.shortfall⟩) ++
        ((cs.filter fun c => c.hold < c.held).map fun c =>
          ⟨w.clock, .grpstretch g.number g.tag c.item c.comp c.held c.hold⟩) ++
        (if h.flags.late = g.flags.late then []
         else [⟨w.clock, .grplate g.number g.tag h.proj g.target h.flags.late⟩]) := by
  intro w4 lines cs
  obtain ⟨hgroups, -, hout, hclock⟩ := refireRebuilt_rest g item plans w
  obtain ⟨hitems, htickets⟩ := refireSettled_tables g item plans w
  obtain ⟨gs, ts, u, hfired⟩ := refireGroup_eq g.number (refireRebuilt g item plans w)
  have hlife : lifeEndOf w4.toKitchen g.number = lifeEndOf (refireRebuilt g item plans w).toKitchen g.number :=
    lifeEndOf_congr hitems htickets g.number
  have hfound := refireGroup_found (w := refireRebuilt g item plans w)
    ((congrArg (entryOf Group.number g.number) hgroups).trans hg) hs
  rw [← hlife, hclock] at hfound
  obtain ⟨-, -, hsettled⟩ := groupSettled
  obtain ⟨h, hh, hshape, hshort, hstretched, hproj, -, -, hreports, -⟩ :=
    hsettled w.items g _ lines cs (refireGroup g.number (refireRebuilt g item plans w)) hfound (.inr rfl)
  have hdying : h.flags.dying = (g.flags.dying && (lifeEndOf w4.toKitchen g.number).any fun e => decide (e ≤ (w.clock : Int))) :=
    congrArg (fun x => x.flags.dying) hshape
  have hlifeEnd : h.lifeEnd = lifeEndOf w4.toKitchen g.number := congrArg Group.lifeEnd hshape
  refine ⟨h, hh, congrArg Group.state hshape, congrArg Group.lines hshape, hlifeEnd, ?_, ?_, hshort, ?_,
    congrArg (fun x => x.flags.held) hshape, hproj, hreports.trans ?_⟩
  · rw [hdying, hlifeEnd, Bool.and_eq_true, Option.any_eq_true]
    simp only [decide_eq_true_eq]
  · rw [hdying]
    exact congrArg Group.display hshape
  · rw [Bool.eq_iff_iff, hstretched, Bool.or_eq_true, List.any_eq_true]
    simp only [decide_eq_true_eq]
    rfl
  · rw [hfired]
    dsimp only
    rw [hout, hclock, ← hitems]
    -- Only the lines reported short differ in form: a line's shortfall has risen past its old one.
    exact congrArg (· ++ _) (congrArg (· ++ _) (congrArg (_ ++ ·) (congrArg (List.map _)
      (List.filter_congr fun l _ => (oldShortfall_lt g.lines l).symm))))

end

/-- Settles O37: the plans line by line, what they free and count; and the request by its refusals, and its taking. -/
theorem itemRefired : Obligations.ItemRefired := by
  refine ⟨fun k g l later stock => ?plans, fun k g item n p plans ls => ⟨rfl, rfl, rfl, refiredLines_eq plans ls, refireCounts_eq k item plans⟩,
    fun s seq rest n item g h h1 h2 hg hs => ?request⟩
  case plans =>
    intro comps portions n u
    have hdone : ∀ c, doneOf k g.number l c = n c := doneOf_eq k g.number l
    have hwaiting : ∀ c, waitingOf k g.number l c = u c := waitingOf_eq k g.number l
    refine ⟨rfl, fun h0 => refirePlans_skips (foldl_max_range (fun c hc => ((hdone c).trans (h0 c hc)).le) (.inl rfl)),
      fun r hr hle hmost => ?_⟩
    intro e left
    obtain ⟨c, hc, hcr⟩ := hmost
    have hasked : refirePortions k g.number l = r :=
      foldl_max_range (fun c hc => (hdone c).le.trans (hle c hc)) (.inr ⟨c, hc, (hdone c).trans hcr⟩)
    have hlost : r - takeable stock r = e := by
      simp only [e, takeable]
      cases stock with
      | unlimited => exact Nat.sub_self r
      | limited v =>
        dsimp only
        omega
    have hleft : stockAfter stock r = left := by
      simp only [left]
      cases stock <;> rfl
    have hplans := refirePlans_plans (later := later) (stock := stock) hasked hr
    rw [hlost, hleft] at hplans
    refine ⟨_, hplans, rfl, rfl, rfl, List.length_mapIdx, fun idx c x hc hx => ?_⟩
    have hcomp : componentsOf k l.item = comps := rfl
    rw [List.getElem?_mapIdx, hcomp, hc]
    refine congrArg some ((refireComp_eq hx).trans ?_)
    simp only [hdone, hwaiting]
  case request =>
    obtain rfl : g.number = n := entryOf_key hg
    intro turned
    have hn : 1 ≤ g.number ∧ g.number ≤ 512 := ⟨h1, h2⟩
    refine ⟨fun hno => exec_turnedAway h nofun (refire_undefined (w := begun s.kit) hn hg hs hno), fun x h0 hx hnone => ?_,
      fun x h0 hx hline => ?_⟩
    all_goals have hjudged := refire_judged (w := begun s.kit) hn hg hs h0 hx
    · exact exec_turnedAway h nofun (hjudged.trans (if_pos (by simpa using hnone)))
    · intro plans frees cs asked lines fitting
      replace hjudged := hjudged.trans (if_neg (by simpa using hline))
      refine ⟨fun hempty => exec_turnedAway h nofun (hjudged.trans (if_pos hempty)),
        fun hsome hbad => exec_turnedAway h nofun (hjudged.trans ((if_neg hsome).trans (if_pos (any_inFire_iff.2 hbad)))),
        fun hsome hgood => ?_⟩
      have hcalm : ¬plans.any RefirePlan.inFire = true := fun hbad => by
        obtain ⟨p, hp, c, hc, hdone, hwaiting⟩ := any_inFire_iff.1 hbad
        have := hgood p hp c hc
        omega
      replace hjudged := hjudged.trans ((if_neg hsome).trans (if_neg hcalm))
      refine ⟨fun hfull => exec_turnedAway h nofun (hjudged.trans (takeRefire_full (poolHas_iff.not.2 hfull))), fun hfits => ?_⟩
      intro w1 w2 w3 w4 sts
      have hsettled := refireSettled_group (plans := plans) (item := item) (w := begun s.kit) hg hs
      obtain ⟨hitems, htickets⟩ := refireSettled_tables g item plans (begun s.kit)
      obtain ⟨-, hcommitted, -, -⟩ := refireRebuilt_rest g item plans (begun s.kit)
      have hentry : ∀ m, findItem w4.toKitchen m = findItem (commits item asked (begun s.kit)).toKitchen m := fun m =>
        congrArg (entryOf Item.number m) (hitems.trans hcommitted)
      obtain ⟨y, hy, hpool, hstock, hmark⟩ := findItem_commits_same (w := begun s.kit) hx (.inr (mt List.map_eq_nil_iff.1 hsome))
      obtain ⟨told, htold, hrest⟩ := hsettled
      obtain ⟨news, hnews, hdesc⟩ := refireRebuilt_tickets g item plans (begun s.kit)
      refine ⟨told, _, htold, exec_asks h nofun (hjudged.trans (takeRefire_taken htold (poolHas_iff.2 hfits))), rfl,
        (((Settles.refl w4).checkDraw _).arbiters sts).passSettle, ⟨news, htickets.trans hnews, hdesc⟩,
        ⟨y, (hentry item).trans hy, hpool, hmark, fun hunlimited => ?_, fun k hlimited => ?_⟩,
        fun m hm => (hentry m).trans (findItem_commits_other hm asked (begun s.kit)), told, htold, hrest⟩
      · rw [hstock, hunlimited]
        rfl
      · rw [hstock, hlimited]
        rfl

end Sys2Proof.Machine
end

section
/-! PROOF. The Host Port's line: the receiver by its table, a frame from its bytes to the intake (R161 to R165, R168, R183). -/

namespace Sys2Proof.Machine

/-! ### The receiver, step by step (R163) -/

section

variable {h : HostPort} {b hi lo c : Byte} {kept : List Byte}

theorem receiveByte_sync (hrx : h.rx = .hunt) : receiveByte 0xA5 h = { h with rx := .length none } := by
  rw [receiveByte, hrx]
  exact if_pos rfl

theorem receiveByte_noSync (hrx : h.rx = .hunt) (hb : b ≠ 0xA5) : receiveByte b h = { h with rx := .hunt } := by
  have : h = { h with rx := .hunt } := by rw [← hrx]
  rw [receiveByte, hrx]
  exact (if_neg hb).trans this

theorem receiveByte_lengthHigh (hrx : h.rx = .length none) : receiveByte b h = { h with rx := .length (some b) } := by
  rw [receiveByte, hrx]

theorem receiveByte_lengthLow (hrx : h.rx = .length (some hi))
    (hn : 2 ≤ hi.toNat * 256 + b.toNat ∧ hi.toNat * 256 + b.toNat ≤ 258) :
    receiveByte b h = { h with rx := .content hi b [] } := by
  rw [receiveByte, hrx]
  exact if_pos hn

theorem receiveByte_badLength (hrx : h.rx = .length (some hi))
    (hn : hi.toNat * 256 + b.toNat < 2 ∨ 258 < hi.toNat * 256 + b.toNat) :
    receiveByte b h = { h with rx := .hunt } := by
  rw [receiveByte, hrx]
  exact if_neg (by omega)

theorem receiveByte_contentLast (hrx : h.rx = .content hi lo kept) (hn : kept.length + 1 = hi.toNat * 256 + lo.toNat) :
    receiveByte b h = { h with rx := .check hi lo (kept ++ [b]) none } := by
  rw [receiveByte, hrx]
  exact if_pos (by simpa using hn)

theorem receiveByte_content (hrx : h.rx = .content hi lo kept) (hn : kept.length + 1 ≠ hi.toNat * 256 + lo.toNat) :
    receiveByte b h = { h with rx := .content hi lo (kept ++ [b]) } := by
  rw [receiveByte, hrx]
  exact if_neg (by simpa using hn)

theorem receiveByte_crcHigh (hrx : h.rx = .check hi lo kept none) :
    receiveByte b h = { h with rx := .check hi lo kept (some b) } := by
  rw [receiveByte, hrx]

theorem receiveByte_crcLow (hrx : h.rx = .check hi lo kept (some c)) : receiveByte b h = h := by
  rw [receiveByte, hrx]

/-! ### A completed frame (R165, R168) -/

theorem completeFrame_right (hrx : h.rx = .check hi lo kept (some c)) (hcrc : crc16 (hi :: lo :: kept) = c ++ b) :
    completeFrame b h = arrive (frameOf kept) { h with rx := .hunt } := by
  rw [completeFrame, hrx]
  exact if_pos hcrc

theorem completeFrame_wrong (hrx : h.rx = .check hi lo kept (some c)) (hcrc : crc16 (hi :: lo :: kept) ≠ c ++ b) :
    completeFrame b h = { h with rx := .hunt } := by
  rw [completeFrame, hrx]
  exact if_neg hcrc

/-- Outside the second CRC byte no frame is completed. -/
theorem completeFrame_early (hrx : ∀ hi lo kept c, h.rx ≠ .check hi lo kept (some c)) : completeFrame b h = h := by
  unfold completeFrame
  split
  · rename_i e
    exact absurd e (hrx _ _ _ _)
  all_goals rfl

theorem arrive_joins (f : Frame) (hroom : h.intake.length < 4) : arrive f h = { h with intake := h.intake ++ [f] } := if_pos hroom

theorem arrive_busy (f : Frame) (hfull : 4 ≤ h.intake.length) (hroom : (h.replyPath.filter isBusy).length < 4) :
    arrive f h = { h with replyPath := h.replyPath ++ [⟨f.seq, f.kind, .busy⟩] } :=
  (if_neg (Nat.not_lt.2 hfull)).trans (if_pos hroom)

theorem arrive_discards (f : Frame) (hfull : 4 ≤ h.intake.length) (hbusy : 4 ≤ (h.replyPath.filter isBusy).length) :
    arrive f h = h :=
  (if_neg (Nat.not_lt.2 hfull)).trans (if_neg (Nat.not_lt.2 hbusy))

/-- A frame arrives in the intake, in the reply path or nowhere: the receiver takes no part. -/
theorem arrive_rx (f : Frame) (h : HostPort) : (arrive f h).rx = h.rx := by
  unfold arrive
  split
  · rfl
  · split <;> rfl

theorem completeFrame_rx (hrx : h.rx = .check hi lo kept (some c)) : (completeFrame b h).rx = .hunt := by
  by_cases hcrc : crc16 (hi :: lo :: kept) = c ++ b
  · rw [completeFrame_right hrx hcrc, arrive_rx]
  · rw [completeFrame_wrong hrx hcrc]

end

/-! ### The commands of the receiver, while the part runs -/

section

variable {s : State} (hs : s.resetLow = false)

include hs

theorem inReceiver_running (f : HostPort → HostPort) : inReceiver f s = { s with host := f s.host } := unlessReset_running _ hs

theorem exec_hostByte {b : Byte} {h : HostPort} (e : receiveByte b s.host = h) :
    exec (.hostByte b) s = .next { s with host := h } :=
  e ▸ congrArg Host.Outcome.next (inReceiver_running hs (receiveByte b))

theorem exec_hostFrame {b : Byte} {h : HostPort} (e : completeFrame b s.host = h) :
    exec (.hostFrame b) s = .next { s with host := h } :=
  e ▸ congrArg Host.Outcome.next (inReceiver_running hs (completeFrame b))

end

/-! ### What a frame's end, a clock limit and a request leave of the receiver and the reply path (R11, R163, R166) -/

/-- The receiver's step, the intake and the reply path: what of the Host Port the end of a frame, a RESTART's clearing and new
reports leave as it is. -/
def HostPort.line (h : HostPort) : Rx × List Frame × List Reply := (h.rx, h.intake, h.replyPath)

theorem pushReports_line (h : HostPort) (rs : List Report) : (pushReports h rs).line = h.line := by simp [HostPort.line]

theorem frameEnded_line (s : State) : (frameEnded s).host.line = s.host.line := by
  unfold frameEnded
  dsimp only
  split <;> rfl

theorem replyEnded_line (s : State) : (replyEnded s).host.line = s.host.line := by
  unfold replyEnded
  split
  · exact frameEnded_line s
  · rfl

theorem limitFirst_line (s : State) : (limitFirst s).host.line = s.host.line := by
  unfold limitFirst
  split
  · exact pushReports_line s.host _
  · rfl

theorem actOn_rx (f : Frame) (s : State) : (actOn f s).host.rx = s.host.rx := pushReports_rx _ _

/-- Acting on a frame leaves the receiver's step as it is, whatever the request (R163). -/
theorem actOnOldest_rx (mine : Byte → Bool) (s : State) : (actOnOldest mine s).host.rx = s.host.rx := by
  unfold actOnOldest
  split
  · rename_i f rest _
    split
    · rw [actOn_rx]
      exact congrArg Prod.fst ((limitFirst_line _).trans (replyEnded_line { s with host := { s.host with intake := rest } }))
    · rfl
  · rfl

theorem completeClearing_rx (s : State) : (completeClearing s).host.rx = s.host.rx := by
  unfold completeClearing
  split
  · exact congrArg Prod.fst (frameEnded_line s)
  · rfl

theorem unlessReset_host {P : HostPort → Prop} {f : State → State} {s : State} (h : P s.host) (hf : P (f s).host) :
    P (unlessReset f s).host := by
  unfold unlessReset
  split
  · exact h
  · exact hf

theorem exec_command_rx (k : ReqKind) {s t : State} (h : exec k.command s = .next t) : t.host.rx = s.host.rx := by
  obtain rfl := Host.Outcome.next.inj ((exec_command k s).symm.trans h)
  exact unlessReset_host (P := fun p => p.rx = s.host.rx) rfl (actOnOldest_rx _ s)

/-- Settles O10: a row of the table by the receiver's own equation, and the requests named leave the receiver alone. -/
theorem hostBytesFollowTable : Obligations.HostBytesFollowTable := by
  refine ⟨fun s b hs => ?rows, fun s t c hc h => ?kept, rfl⟩
  case rows =>
    have leads := fun {r : Rx} (e : receiveByte b s.host = { s.host with rx := r }) => exec_hostByte hs e
    refine ⟨?_, fun hrx hb => leads (receiveByte_noSync hrx hb), fun hrx => leads (receiveByte_lengthHigh hrx),
      fun hi hrx => ⟨fun hn => leads (receiveByte_lengthLow hrx hn), fun hn => leads (receiveByte_badLength hrx hn)⟩,
      fun hi lo kept hrx =>
        ⟨fun hn => leads (receiveByte_contentLast hrx hn), fun hn => leads (receiveByte_content hrx hn)⟩,
      fun hi lo kept hrx => leads (receiveByte_crcHigh hrx),
      fun hi lo kept c hrx => ⟨_, exec_hostFrame hs rfl, completeFrame_rx hrx, rfl⟩⟩
    rintro hrx rfl
    exact leads (receiveByte_sync hrx)
  case kept =>
    simp only [List.mem_cons, List.not_mem_nil, or_false] at hc
    rcases hc with rfl | rfl | rfl | rfl
    · exact exec_command_rx .restart h
    · cases h
      exact unlessReset_host (P := fun p => p.rx = s.host.rx) rfl (completeClearing_rx s)
    · exact exec_command_rx .clrcfg h
    · exact exec_command_rx .close h

/-! ### The CRC-16 (R183) -/

/-- One more covered byte: it meets the register's high byte, and 8 shifts follow. -/
theorem crc16_concat (bs : List Byte) (b : Byte) : crc16 (bs ++ [b]) = crcShift^[8] (crc16 bs ^^^ (b.setWidth 16 <<< 8)) := by
  rw [crc16, List.foldl_concat]
  rfl

/-- Settles O11: the CRC by its bytes, the four fates of a completed frame, and the frame abandoned. -/
theorem framesJudgedOrAbandoned : Obligations.FramesJudgedOrAbandoned := by
  refine ⟨⟨rfl, crc16_concat⟩, fun s hi lo c b kept hs hrx => ?_, fun s c hs hc => ?_⟩
  · have arrives := fun {h : HostPort} hcrc (e : arrive (frameOf kept) { s.host with rx := .hunt } = { h with rx := .hunt }) =>
      exec_hostFrame hs ((completeFrame_right (b := b) hrx hcrc).trans e)
    exact ⟨fun hcrc => exec_hostFrame hs (completeFrame_wrong hrx hcrc), fun hcrc hroom => arrives hcrc (arrive_joins _ hroom),
      fun hcrc hfull hroom => arrives hcrc (arrive_busy _ hfull hroom),
      fun hcrc hfull hbusy => arrives hcrc (arrive_discards _ hfull hbusy)⟩
  · rcases hc with rfl | rfl
    · exact congrArg Host.Outcome.next (inReceiver_running hs abandonFrame)
    · exact congrArg Host.Outcome.next (inReceiver_running hs abandonFrame)

/-! ### The bytes of a frame, received one after another (R162, R163, R177) -/

/-- The receiver after bytes that complete no frame. -/
def receiveBytes (bs : List Byte) (h : HostPort) : HostPort := bs.foldl (fun h b => receiveByte b h) h

theorem receiveBytes_cons (b : Byte) (bs : List Byte) (h : HostPort) :
    receiveBytes (b :: bs) h = receiveBytes bs (receiveByte b h) := rfl

theorem receiveBytes_concat (bs : List Byte) (b : Byte) (h : HostPort) :
    receiveBytes (bs ++ [b]) h = receiveByte b (receiveBytes bs h) := List.foldl_concat ..

/-- The rest of a frame's content, to its last byte: the receiver goes on to the check. -/
theorem receiveBytes_content {hi lo : Byte} {kept rest : List Byte} {h : HostPort} (hrx : h.rx = .content hi lo kept)
    (hne : rest ≠ []) (hn : kept.length + rest.length = hi.toNat * 256 + lo.toNat) :
    receiveBytes rest h = { h with rx := .check hi lo (kept ++ rest) none } := by
  induction rest generalizing kept h with
  | nil => exact absurd rfl hne
  | cons b rest ih =>
    rw [List.length_cons] at hn
    rw [receiveBytes_cons]
    by_cases hrest : rest = []
    · subst hrest
      exact receiveByte_contentLast hrx hn
    · have hmore : kept.length + 1 ≠ hi.toNat * 256 + lo.toNat := by
        have := List.length_pos_iff.2 hrest
        omega
      have hleft : (kept ++ [b]).length + rest.length = hi.toNat * 256 + lo.toNat := by
        rw [List.length_append, List.length_singleton]
        omega
      rw [receiveByte_content hrx hmore, ih rfl hrest hleft, List.append_assoc]
      rfl

/-- The two bytes of a field read back as its value (R176). -/
theorem field_bytes {n : Nat} (hn : n < 65536) : (BitVec.ofNat 8 (n / 256)).toNat * 256 + (BitVec.ofNat 8 n).toNat = n :=
  u16_be2 hn

/-- A register is its high byte and its low byte (R183). -/
theorem register_bytes (v : BitVec 16) : BitVec.ofNat 8 (v.toNat / 256) ++ BitVec.ofNat 8 v.toNat = v := by
  apply BitVec.eq_of_toNat_eq
  rw [BitVec.toNat_append, ← Nat.shiftLeft_add_eq_or_of_lt (BitVec.isLt _), Nat.shiftLeft_eq]
  exact field_bytes v.isLt

/-- A frame's bytes: the sync byte, the length, the content, and the CRC-16 of length and content (R162). -/
theorem hostBytes_eq (kind seq : Byte) (body : List Byte) :
    let n := body.length + 2
    let hi := BitVec.ofNat 8 (n / 256)
    let lo := BitVec.ofNat 8 n
    let crc := (crc16 (hi :: lo :: kind :: seq :: body)).toNat
    hostBytes kind seq body =
      0xA5 :: hi :: lo :: (kind :: seq :: body) ++ [BitVec.ofNat 8 (crc / 256)] ++ [BitVec.ofNat 8 crc] := by
  simp [hostBytes, be2, Nat.add_comm 2]

/-- From HUNT, the sync byte, a length and its content lead to the check. -/
theorem receiveBytes_frame {hi lo : Byte} {content : List Byte} {h : HostPort} (hrx : h.rx = .hunt)
    (hn : hi.toNat * 256 + lo.toNat = content.length) (h2 : 2 ≤ content.length) (h258 : content.length ≤ 258) :
    receiveBytes (0xA5 :: hi :: lo :: content) h = { h with rx := .check hi lo content none } := by
  have hne : content ≠ [] := List.ne_nil_of_length_pos (by omega)
  rw [receiveBytes_cons, receiveByte_sync hrx, receiveBytes_cons, receiveByte_lengthHigh rfl, receiveBytes_cons,
    receiveByte_lengthLow rfl (hn ▸ ⟨h2, h258⟩)]
  exact receiveBytes_content (h := { h with rx := _ }) (kept := []) rfl hne (by rw [hn, List.length_nil, Nat.zero_add])

/-! ### Runs of bytes -/

theorem run_next {M : Host.Core} {s t : M.State} (k : Nat) (h : M.step s = .next t) : M.run (k + 1) s = M.run k t := by
  rw [Host.Core.run, h]

/-- A run takes the front command and goes on from the state it leaves. -/
theorem run_command {c : Instr} {rest : List Instr} {s t : State} (k : Nat) (h : exec c { s with pending := rest } = .next t) :
    Host.Core.run Sys2Proof.core (k + 1) ({ s with pending := c :: rest } : State) = Host.Core.run Sys2Proof.core k t :=
  run_next k h

/-- A run over bytes of the host line is the receiver's run over them. -/
theorem run_hostBytes {s : State} (hs : s.resetLow = false) (bs : List Byte) (rest : List Instr) (k : Nat) :
    Host.Core.run Sys2Proof.core (bs.length + k) ({ s with pending := bs.map Instr.hostByte ++ rest } : State) =
      Host.Core.run Sys2Proof.core k ({ s with pending := rest, host := receiveBytes bs s.host } : State) := by
  induction bs generalizing s with
  | nil => rw [List.length_nil, Nat.zero_add]; rfl
  | cons b bs ih =>
    have hbyte := exec_hostByte (b := b) (s := { s with pending := bs.map Instr.hostByte ++ rest }) hs rfl
    rw [List.length_cons, Nat.add_right_comm]
    exact (run_command _ hbyte).trans (ih (s := { s with host := receiveByte b s.host }) hs)

/-- Settles O12: the bytes but the last lead from HUNT to the check, and the last is the CRC's. -/
theorem hostFramesReadBack : Obligations.HostFramesReadBack := by
  intro kind seq body s hbody hs hrx hroom bytes commands
  obtain ⟨hi, lo, chi, clo, hlength, hcrc, hbytes⟩ : ∃ hi lo chi clo : Byte, hi.toNat * 256 + lo.toNat = body.length + 2 ∧
      crc16 (hi :: lo :: kind :: seq :: body) = chi ++ clo ∧
      bytes = (0xA5 :: hi :: lo :: kind :: seq :: body) ++ [chi] ++ [clo] :=
    ⟨_, _, _, _, field_bytes (by omega), (register_bytes _).symm, hostBytes_eq kind seq body⟩
  have hcommands : commands = ((0xA5 :: hi :: lo :: kind :: seq :: body) ++ [chi]).map Instr.hostByte ++ [.hostFrame clo] := by
    simp only [commands, hbytes, List.dropLast_concat, List.getLastD_concat]
  obtain ⟨checked, hreceived, hframe⟩ : ∃ checked,
      receiveBytes ((0xA5 :: hi :: lo :: kind :: seq :: body) ++ [chi]) s.host = checked ∧
      completeFrame clo checked = { s.host with intake := s.host.intake ++ [⟨kind, seq, body⟩] } := by
    refine ⟨{ s.host with rx := .check hi lo (kind :: seq :: body) (some chi) }, ?_, ?_⟩
    · rw [receiveBytes_concat,
        receiveBytes_frame (content := kind :: seq :: body) hrx hlength (Nat.le_add_left 2 _) (Nat.add_le_add_right hbody 2)]
      exact receiveByte_crcHigh rfl
    · rw [completeFrame_right rfl hcrc, ← hrx]
      exact arrive_joins (h := s.host) _ hroom
  rw [hcommands, List.length_append, List.length_map]
  refine (run_hostBytes hs _ _ _).trans ?_
  rw [hreceived]
  have hlast := exec_hostFrame (s := { s with pending := [], host := checked }) hs hframe
  exact run_command (s := { s with host := checked }) 0 hlast

end Sys2Proof.Machine
end

section
/-! PROOF. The bounds of the Host Port, which every step keeps (R163, R166, R168, R172, R173). -/

namespace Sys2Proof.Machine

/-! ### No owner of a request answers BUSY, the answer to a frame that finds no room (R165, R168) -/

section

variable {w : Work} {n : Nat}

theorem judgeGroup_notBusy {act : Group → Work × Answer} (ha : ∀ g, (act g).2 ≠ .busy) :
    (judgeGroup n w act).2 ≠ .busy := by
  unfold judgeGroup
  split
  · nofun
  · split
    · nofun
    · exact ha _

theorem judgeActive_notBusy {act : Group → Work × Answer} (ha : ∀ g, (act g).2 ≠ .busy) :
    (judgeActive n w act).2 ≠ .busy := by
  refine judgeGroup_notBusy fun g => ?_
  split
  · exact ha g
  · nofun

theorem judgeStation_notBusy {act : Station → Work × Answer} (ha : ∀ x, (act x).2 ≠ .busy) :
    (judgeStation n w act).2 ≠ .busy := by
  unfold judgeStation
  split
  · nofun
  · split
    · nofun
    · exact ha _

theorem firstBad_notBusy {cs : List FieldCheck} {a : Answer} (h : firstBad cs = some a) : a ≠ .busy := by
  unfold firstBad at h
  split at h
  · cases h
    nofun
  · cases h

theorem define_notBusy {cs : List FieldCheck} {take : Work → Work × Answer} (ht : (take w).2 ≠ .busy) :
    (define cs take w).2 ≠ .busy := by
  unfold define
  split
  · nofun
  · split
    · rename_i hbad
      exact firstBad_notBusy hbad
    · exact ht

theorem takeStation_notBusy (r : StationReq) : (takeStation r w).2 ≠ .busy := by
  unfold takeStation
  split <;> nofun

theorem takeTerminal_notBusy (a kind : Nat) : (takeTerminal a kind w).2 ≠ .busy := by
  unfold takeTerminal
  split
  · nofun
  · split <;> nofun

theorem startEvent_notBusy : (startEvent w).2 ≠ .busy := by
  unfold startEvent
  split
  · nofun
  · split <;> nofun

theorem clearConfig_notBusy : (clearConfig w).2 ≠ .busy := by
  unfold clearConfig
  split <;> nofun

theorem setStock_notBusy (item stock : Nat) : (setStock item stock w).2 ≠ .busy := by
  unfold setStock
  split
  · nofun
  · split <;> nofun

theorem rebind_notBusy (primary fallback : Nat) : (rebind n primary fallback w).2 ≠ .busy := by
  unfold rebind
  split
  · nofun
  · split
    · nofun
    · split
      · rename_i hbad
        exact firstBad_notBusy hbad
      · nofun

theorem submit_notBusy (r : SubmitReq) : (submit r w).2 ≠ .busy := by
  unfold submit
  split
  · rename_i hbad
    exact firstBad_notBusy hbad
  · split
    · nofun
    · dsimp only
      split <;> nofun

theorem amendRefusal_notBusy {k : Kitchen} {g : Group} {item sf count : Nat} {a : Answer}
    (h : amendRefusal k g item sf count = some a) : a ≠ .busy := by
  rintro rfl
  unfold amendRefusal at h
  dsimp only at h
  repeat' split at h
  all_goals cases h

theorem takeAmend_notBusy (w0 : Work) (g : Group) (lines changed : List Line) (info : List AmendLine) :
    (takeAmend w0 g lines changed info w).2 ≠ .busy := by
  unfold takeAmend
  dsimp only
  split <;> nofun

theorem amendStanding_notBusy (g : Group) (l : Line) (count : Nat) : (amendStanding g l count w).2 ≠ .busy := by
  unfold amendStanding
  split
  · nofun
  · exact takeAmend_notBusy _ _ _ _ _

theorem amendDown_notBusy (g : Group) (l : Line) (count : Nat) : (amendDown g l count w).2 ≠ .busy := by
  unfold amendDown
  dsimp only
  split
  · nofun
  · exact takeAmend_notBusy _ _ _ _ _

theorem amendUp_notBusy (g : Group) (x : Item) (l : Line) (adding : Bool) (count : Nat) :
    (amendUp g x l adding count w).2 ≠ .busy := by
  unfold amendUp
  extract_lets
  split
  · exact takeAmend_notBusy _ _ _ _ _
  · exact takeAmend_notBusy _ _ _ _ _

theorem amend_notBusy (item sf count : Nat) : (amend n item sf count w).2 ≠ .busy := by
  refine judgeActive_notBusy fun g => ?_
  split
  · rename_i hrefused
    exact amendRefusal_notBusy hrefused
  · nofun
  · dsimp only
    split
    · nofun
    · split
      · exact amendStanding_notBusy g _ count
      · split
        · exact amendDown_notBusy g _ count
        · exact amendUp_notBusy g _ _ _ count

theorem hold_notBusy : (hold n w).2 ≠ .busy := by
  refine judgeActive_notBusy fun g => ?_
  dsimp only
  split <;> nofun

theorem cancel_notBusy : (cancel n w).2 ≠ .busy := by
  refine judgeGroup_notBusy fun g => ?_
  split <;> nofun

theorem pickup_notBusy : (pickup n w).2 ≠ .busy := by
  refine judgeGroup_notBusy fun g => ?_
  split <;> nofun

theorem takeRefire_notBusy (g : Group) (item : Nat) (plans : List RefirePlan) : (takeRefire g item plans w).2 ≠ .busy := by
  unfold takeRefire
  dsimp only
  split <;> nofun

theorem refire_notBusy (item : Nat) : (refire n item w).2 ≠ .busy := by
  refine judgeGroup_notBusy fun g => ?_
  split
  · nofun
  · split
    · nofun
    · dsimp only
      split
      · nofun
      · split
        · nofun
        · split
          · nofun
          · split
            · nofun
            · exact takeRefire_notBusy g item _

theorem warmUp_notBusy (x : Station) (cause : ModeCause) : (warmUp n x cause w).2 ≠ .busy := by
  unfold warmUp
  split <;> nofun

/-- A mode request of one station takes a mode or is refused BADSTATE. -/
theorem modeRequest_notBusy {p : Station → Prop} [DecidablePred p] {take : Station → Work × Answer}
    (ht : ∀ x, (take x).2 ≠ .busy) :
    (judgeStation n w fun x => if p x then take x else (w, .badState)).2 ≠ .busy := by
  refine judgeStation_notBusy fun x => ?_
  split
  · exact ht x
  · nofun

theorem haltStation_notBusy : (haltStation n w).2 ≠ .busy := by
  refine judgeStation_notBusy fun x => ?_
  split <;> nofun

theorem queryItem_notBusy : (queryItem n w).2 ≠ .busy := by
  unfold queryItem
  split
  · nofun
  · split <;> nofun

theorem queryTerminal_notBusy : (queryTerminal n w).2 ≠ .busy := by
  unfold queryTerminal
  split
  · nofun
  · split <;> nofun

theorem perform_notBusy (reports : Nat) (gap : Bool) (r : Request) : (perform reports gap r w).2 ≠ .busy := by
  cases r with
  | start => exact startEvent_notBusy
  | clrcfg => exact clearConfig_notBusy
  | defitem q => exact define_notBusy (by nofun)
  | defcrs => exact define_notBusy (by nofun)
  | defstn q => exact define_notBusy (takeStation_notBusy q)
  | defterm a k => exact define_notBusy (takeTerminal_notBusy a k)
  | stock => exact setStock_notBusy _ _
  | rebind => exact rebind_notBusy _ _
  | submit q => exact submit_notBusy (w := w) q
  | amend => exact amend_notBusy _ _ _
  | retime => exact judgeActive_notBusy fun _ => nofun
  | hold => exact hold_notBusy
  | cancel => exact cancel_notBusy
  | pickup => exact pickup_notBusy
  | refire => exact refire_notBusy _
  | stnon => exact modeRequest_notBusy fun x => warmUp_notBusy x _
  | stnoff => exact modeRequest_notBusy fun _ => nofun
  | pause => exact modeRequest_notBusy fun _ => nofun
  | resume => exact modeRequest_notBusy fun _ => nofun
  | halt => exact haltStation_notBusy
  | clear => exact modeRequest_notBusy fun x => warmUp_notBusy x _
  | qgroup => exact judgeGroup_notBusy fun _ => nofun
  | qstn => exact judgeStation_notBusy fun _ => nofun
  | qitem => exact queryItem_notBusy
  | qterm => exact queryTerminal_notBusy
  | close | restart | pauseall | resumeall | qstat => nofun

end

/-- A frame acted on is answered, but not BUSY (R167). -/
theorem answerFrame_notBusy (reports : Nat) (gap : Bool) (f : Frame) (w : Work) : (answerFrame reports gap f w).2 ≠ .busy := by
  unfold answerFrame
  split
  · nofun
  · nofun
  · split
    · exact perform_notBusy reports gap _
    · nofun

/-! ### The replies in the reply path (R166, R168) -/

theorem isBusy_iff (r : Reply) : isBusy r = true ↔ r.answer = .busy := beq_iff_eq

theorem replyWaiting_iff (h : HostPort) : replyWaiting h = true ↔ ∃ q ∈ h.replyPath, isBusy q = false := by
  simp [replyWaiting]

theorem noReplyWaiting_iff (h : HostPort) : replyWaiting h = false ↔ ∀ q ∈ h.replyPath, isBusy q = true := by
  simp [replyWaiting]

/-! ### The receiver and the intake -/

section

variable {h : HostPort}

/-- A change of the receiver's step alone. -/
theorem HostPort.sound.toStep (hs : h.sound) {r : Rx} (hr : r.sound) : ({ h with rx := r } : HostPort).sound :=
  { hs with rx := hr }

/-- Each row of the table keeps a frame under way of a right length, and no more of it (R163). -/
theorem receiveByte_sound (b : Byte) (hs : h.sound) : (receiveByte b h).sound := by
  have hrx := hs.rx
  cases e : h.rx with
  | hunt =>
    by_cases hb : b = 0xA5
    · rw [hb, receiveByte_sync e]
      exact hs.toStep trivial
    · rw [receiveByte_noSync e hb]
      exact hs.toStep trivial
  | length high =>
    cases high with
    | none =>
      rw [receiveByte_lengthHigh e]
      exact hs.toStep trivial
    | some hi =>
      by_cases hn : 2 ≤ hi.toNat * 256 + b.toNat ∧ hi.toNat * 256 + b.toNat ≤ 258
      · rw [receiveByte_lengthLow e hn]
        exact hs.toStep ⟨hn.1, hn.2, Nat.lt_of_lt_of_le Nat.two_pos hn.1⟩
      · rw [receiveByte_badLength e (by omega)]
        exact hs.toStep trivial
  | content hi lo kept =>
    rw [e] at hrx
    obtain ⟨hleast, hmost, hkept⟩ := hrx
    by_cases hn : kept.length + 1 = hi.toNat * 256 + lo.toNat
    · rw [receiveByte_contentLast e hn]
      exact hs.toStep ⟨hleast, hmost, by rwa [List.length_append]⟩
    · rw [receiveByte_content e hn]
      exact hs.toStep ⟨hleast, hmost, by rw [List.length_append, List.length_singleton]; omega⟩
  | check hi lo kept high =>
    cases high with
    | none =>
      rw [receiveByte_crcHigh e]
      rw [e] at hrx
      exact hs.toStep hrx
    | some c =>
      rw [receiveByte_crcLow e]
      exact hs

/-- A BUSY reply joins where fewer than four wait (R168). -/
theorem HostPort.sound.withBusy (hs : h.sound) {r : Reply} (hr : isBusy r = true)
    (hroom : (h.replyPath.filter isBusy).length < 4) : ({ h with replyPath := h.replyPath ++ [r] } : HostPort).sound :=
  { hs with
    busy := by simpa [hr] using hroom
    answers := by simpa [hr] using hs.answers
    restart := fun ho => (hs.restart ho).imp_left fun hw => by
      obtain ⟨q, hq, hb⟩ := (replyWaiting_iff h).1 hw
      exact (replyWaiting_iff _).2 ⟨q, List.mem_append_left _ hq, hb⟩ }

theorem arrive_sound (f : Frame) (hs : h.sound) : (arrive f h).sound := by
  by_cases hroom : h.intake.length < 4
  · rw [arrive_joins f hroom]
    exact { hs with intake := by simpa using hroom }
  · by_cases hbusy : (h.replyPath.filter isBusy).length < 4
    · rw [arrive_busy f (Nat.not_lt.1 hroom) hbusy]
      exact hs.withBusy rfl hbusy
    · rw [arrive_discards f (Nat.not_lt.1 hroom) (Nat.not_lt.1 hbusy)]
      exact hs

theorem completeFrame_sound (b : Byte) (hs : h.sound) : (completeFrame b h).sound := by
  by_cases hlast : ∃ hi lo kept c, h.rx = .check hi lo kept (some c)
  · obtain ⟨hi, lo, kept, c, hrx⟩ := hlast
    have hhunt := hs.toStep (r := .hunt) trivial
    by_cases hcrc : crc16 (hi :: lo :: kept) = c ++ b
    · rw [completeFrame_right hrx hcrc]
      exact arrive_sound _ hhunt
    · rw [completeFrame_wrong hrx hcrc]
      exact hhunt
  · rw [completeFrame_early fun hi lo kept c hrx => hlast ⟨hi, lo, kept, c, hrx⟩]
    exact hs

/-! ### The transmitter (R11, R171, R173) -/

/-- No frame is being sent, and a RESTART's clearing is still to come only behind its reply in the reply path. -/
structure HostPort.idle (h : HostPort) : Prop where
  sound : h.sound
  owed : h.restartOwed = true → replyWaiting h = true

/-- A reply goes: it may be the RESTART's own, which is then being sent. -/
theorem HostPort.idle.sendReply (hi : h.idle) {r : Reply} {rest : List Reply} (hpath : h.replyPath = r :: rest) :
    ({ h with tx := some (.reply r), replyPath := rest } : HostPort).sound := by
  have hfewer : ∀ p : Reply → Bool, (rest.filter p).length ≤ (h.replyPath.filter p).length := fun p =>
    hpath ▸ ((List.sublist_cons_self r rest).filter p).length_le
  refine { hi.sound with
    busy := (hfewer _).trans hi.sound.busy, answers := (hfewer _).trans hi.sound.answers, restart := fun ho => ?_ }
  obtain ⟨q, hq, hb⟩ := (replyWaiting_iff h).1 (hi.owed ho)
  rcases List.mem_cons.1 (hpath ▸ hq) with rfl | hq
  · exact .inr (by simp [sendingReply, hb])
  · exact .inl ((replyWaiting_iff _).2 ⟨q, hq, hb⟩)

/-- A report goes: a set gap mark means a full queue, so a GAP finds the place that it leaves (R173). -/
theorem HostPort.idle.sendReport (hi : h.idle) (clock : Nat) {r : Report} {rest : List Report} (hqueue : h.reports = r :: rest) :
    (sendReport clock r rest h).sound := by
  have hlength : h.reports.length = rest.length + 1 := hqueue ▸ List.length_cons
  have hplaces := hi.sound.reports
  have hrestart : h.restartOwed = true → replyWaiting h = true ∨ sendingReply { h with tx := some (.report r) } = true :=
    fun ho => .inl (hi.owed ho)
  unfold Machine.sendReport
  split
  · exact { hi.sound with
      reports := by simpa [hlength] using hplaces, gapFull := nofun, gapCounts := by simp, discards := Nat.zero_le _
      restart := hrestart }
  · rename_i hgap
    exact { hi.sound with
      reports := by show rest.length ≤ _; omega
      gapFull := fun hg => absurd hg hgap
      restart := hrestart }

theorem HostPort.idle.chooseNext (hi : h.idle) (clock : Nat) : (chooseNext clock h).sound := by
  unfold Machine.chooseNext
  split
  · rename_i hpath
    exact hi.sendReply hpath
  · split
    · rename_i hqueue
      exact hi.sendReport clock hqueue
    · exact hi.sound

end

/-! ### The end of a frame, and a frame acted on -/

section

variable {s : State}

theorem frameEnded_waits (h : s.host.restartOwed = false ∨ replyWaiting s.host = true) :
    frameEnded s = { s with host := { s.host with tx := none } } := by
  unfold frameEnded
  exact if_neg (by rcases h with h | h <;> simp [h])

/-- A frame's end leaves no frame being sent: a RESTART's clearing that waited for it is done (R11). -/
theorem frameEnded_idle (hs : s.host.sound) : (frameEnded s).host.idle := by
  by_cases hcleared : s.host.restartOwed = true ∧ replyWaiting s.host = false
  · rw [frameEnded_clears hcleared.1 hcleared.2]
    have hone : (clearedPart s).host.reports.length ≤ Config.reportPlaces := Nat.le_of_ble_eq_true rfl
    have hnone : (clearedPart s).host.gap = true ↔ 0 < (clearedPart s).host.discards := ⟨nofun, nofun⟩
    exact ⟨{ hs with
      reports := hone, gapFull := nofun, gapCounts := hnone, discards := Nat.zero_le _, restart := nofun }, nofun⟩
  · have howed : s.host.restartOwed = true → replyWaiting s.host = true := fun ho =>
      Bool.eq_true_of_not_eq_false fun hw => hcleared ⟨ho, hw⟩
    rw [frameEnded_waits ((Bool.eq_false_or_eq_true _).symm.imp_right howed)]
    exact ⟨{ hs with restart := fun ho => .inl (howed ho) }, howed⟩

theorem replyEnded_sound (hs : s.host.sound) : (replyEnded s).host.sound := by
  unfold replyEnded
  split
  · exact (frameEnded_idle hs).sound
  · exact hs

theorem limitFirst_sound (hs : s.host.sound) : (limitFirst s).host.sound := by
  unfold limitFirst
  split
  · exact pushReports_sound hs _
  · exact hs

/-- With no reply of a request waiting, the reply of one more keeps to the one place, and is what a RESTART waits for (R166). -/
theorem HostPort.sound.withAnswer {h : HostPort} (hs : h.sound) (hnone : replyWaiting h = false) {r : Reply}
    (hr : r.answer ≠ .busy) (owed : Bool) :
    ({ h with replyPath := h.replyPath ++ [r], restartOwed := owed } : HostPort).sound := by
  have hanswer : isBusy r = false := Bool.eq_false_of_not_eq_true fun hb => hr ((isBusy_iff r).1 hb)
  have hbusy := (noReplyWaiting_iff h).1 hnone
  have hone : (h.replyPath ++ [r]).filter (fun q => !isBusy q) = [r] := by
    rw [List.filter_append, List.filter_eq_nil_iff.2 fun q hq => by simp [hbusy q hq]]
    simp [hanswer]
  exact { hs with
    busy := by simpa [hanswer] using hs.busy
    answers := by rw [hone]; exact Nat.le_refl 1
    restart := fun _ => .inl ((replyWaiting_iff _).2 ⟨r, List.mem_append_right _ (List.mem_singleton_self r), hanswer⟩) }

theorem actOn_sound (f : Frame) (hs : s.host.sound) (hnone : replyWaiting s.host = false) : (actOn f s).host.sound :=
  pushReports_sound (hs.withAnswer (r := ⟨f.seq, f.kind, _⟩) hnone (answerFrame_notBusy _ _ f _) _) _

/-- The frame leaves the intake and is answered; what comes first, a reply's end or the clock limit, puts no reply in the path. -/
theorem actOnOldest_sound (mine : Byte → Bool) (hs : s.host.sound) : (actOnOldest mine s).host.sound := by
  unfold actOnOldest
  split
  · rename_i f rest hintake
    split
    · rename_i hmine
      have hnone : replyWaiting s.host = false := by simpa using (Bool.and_eq_true_iff.1 hmine).2
      have hplaces := hs.intake
      rw [hintake] at hplaces
      have htaken : (takenFrom s rest).host.sound := { hs with intake := Nat.le_of_succ_le hplaces }
      have hline := (limitFirst_line (replyEnded (takenFrom s rest))).trans (replyEnded_line (takenFrom s rest))
      have hpath : (limitFirst (replyEnded (takenFrom s rest))).host.replyPath = s.host.replyPath :=
        congrArg (fun line => line.2.2) hline
      refine actOn_sound f (limitFirst_sound (replyEnded_sound htaken)) ?_
      rw [replyWaiting]
      exact hpath ▸ hnone
    · exact hs
  · exact hs

theorem completeClearing_sound (hs : s.host.sound) : (completeClearing s).host.sound := by
  unfold completeClearing
  split
  · exact (frameEnded_idle hs).sound
  · exact hs

/-! ### Every command -/

theorem assertReset_sound (hs : s.host.sound) : (assertReset s).host.sound := by
  unfold assertReset
  split
  · exact hs
  · exact { powerOn_host_sound with reports := Nat.zero_le _, gapFull := nofun }

theorem releaseReset_sound (hs : s.host.sound) : (releaseReset s).host.sound := by
  unfold releaseReset
  split
  · exact powerOn_host_sound
  · exact hs

/-- Every command keeps the bounds: the first rows are of reset, the receiver and the transmitter, the next of the kitchen, and the
last arm is the requests' own. -/
theorem exec_host_sound (c : Instr) (hs : s.host.sound) : ∃ t, exec c s = .next t ∧ t.host.sound := by
  have running : ∀ {f : State → State}, (f s).host.sound → (unlessReset f s).host.sound := unlessReset_host hs
  have kitchen : ∀ f, (inPart f s).host.sound := fun f => running (f := inKitchen f) (pushReports_sound hs _)
  have receiver : ∀ {f}, (f s.host).sound → (inReceiver f s).host.sound := fun {f} hf =>
    running (f := fun s => { s with host := f s.host }) hf
  cases c with
  | resetAssert => exact ⟨_, rfl, assertReset_sound hs⟩
  | resetRelease => exact ⟨_, rfl, releaseReset_sound hs⟩
  | hostByte b => exact ⟨_, rfl, receiver (receiveByte_sound b hs)⟩
  | hostFrame b => exact ⟨_, rfl, receiver (completeFrame_sound b hs)⟩
  | interByteGapExpiry | framingError => exact ⟨_, rfl, receiver (f := abandonFrame) (hs.toStep trivial)⟩
  | transmitterChoice => exact ⟨_, rfl, running (f := transmit) ((frameEnded_idle hs).chooseNext _)⟩
  | restartClearing => exact ⟨_, rfl, running (completeClearing_sound hs)⟩
  | deviceSecond | warmupEnd | ticketRelease | ticketOverdue | platingStart | lifeEnd | clockLimit | turn | railclrBroadcast
  | replyWindowExpiry | badReply | terminalLost | ack | terminalStart | bump | taken | wait | fault | hello =>
    exact ⟨_, rfl, kitchen _⟩
  | _ => exact ⟨_, rfl, running (actOnOldest_sound _ hs)⟩

end

/-- Settles O14: the idle step, and every command by `exec_host_sound`. -/
theorem hostPortSoundKept : Obligations.HostPortSoundKept := by
  intro s t hs hstep
  unfold step at hstep
  split at hstep
  · rename_i c rest _
    obtain ⟨u, hu, hsound⟩ := exec_host_sound (s := { s with pending := rest }) c hs
    obtain rfl : u = t := Host.Outcome.next.inj (hu.symm.trans hstep)
    exact hsound
  · cases hstep
    exact hs

end Sys2Proof.Machine
end

section
/-! PROOF. A frame acted on in its turn (R166, R167), the transmitter's choice (R171 to R173, R11), and the bytes it sends
(R177 to R181). -/

namespace Sys2Proof.Machine

/-! ### Frames that are no requests (R167) -/

theorem isRestart_refused (f : Frame) {a : Answer} (ha : a ≠ .ok .empty) : isRestart f a = false := by
  simp [isRestart, ha]

/-- A frame answered without a change of the kitchen, and not as a RESTART is: of the part only the intake and the reply path
change. -/
theorem actOn_turnedAway {s : State} {f : Frame} {rest : List Frame} {a : Answer} (ha : a ≠ .ok .empty)
    (hanswer : answerFrame s.host.reports.length s.host.gap f (begun s.kit) = (begun s.kit, a)) :
    actOn f (takenFrom s rest) =
      { s with host := { s.host with intake := rest, replyPath := s.host.replyPath ++ [⟨f.seq, f.kind, a⟩] } } := by
  rw [actOn_answered (s := takenFrom s rest) hanswer, isRestart_refused f ha, Bool.or_false]
  rfl

theorem answerFrame_badKind {reports : Nat} {gap : Bool} {f : Frame} {w : Work} (hk : kindOf f.kind = none) :
    answerFrame reports gap f w = (w, .badKind) := by
  simp [answerFrame, parseRequest, hk]

theorem answerFrame_badLength {reports : Nat} {gap : Bool} {f : Frame} {w : Work} {k : ReqKind} (hk : f.kind = k.code)
    (hl : f.body.length ≠ bodyLength k f.body) : answerFrame reports gap f w = (w, .badField .length 0) := by
  simp [answerFrame, parseRequest, hk, kindOf_code, hl]

/-! ### When a request is acted on (R166) -/

section

variable {s : State} {mine : Byte → Bool} {f : Frame} {rest : List Frame}

theorem actOnOldest_empty (h : s.host.intake = []) : actOnOldest mine s = s := by
  rw [actOnOldest, h]

theorem actOnOldest_behindReply (h : replyWaiting s.host = true) : actOnOldest mine s = s := by
  unfold actOnOldest
  split
  · exact if_neg (by simp [h])
  · rfl

theorem actOnOldest_foreign (hf : s.host.intake = f :: rest) (hm : mine f.kind = false) : actOnOldest mine s = s := by
  rw [actOnOldest, hf]
  exact if_neg (by simp [hm])

theorem actOnOldest_mine (hf : s.host.intake = f :: rest) (hm : mine f.kind = true) (hw : replyWaiting s.host = false) :
    actOnOldest mine s = actOn f (limitFirst (replyEnded (takenFrom s rest))) := by
  rw [actOnOldest, hf]
  exact if_pos (by simp [hm, hw])

/-- A request's reply being sent, no RESTART's, has ended when the next frame is acted on. -/
theorem replyEnded_sending (h : sendingReply s.host = true) (ho : s.host.restartOwed = false) :
    replyEnded s = { s with host := { s.host with tx := none } } := by
  unfold replyEnded
  rw [if_pos (by simp [h]), frameEnded_waits (.inl ho)]

theorem actOnOldest_sending (hsend : sendingReply s.host = true) (ho : s.host.restartOwed = false)
    (hw : replyWaiting s.host = false) (hf : s.host.intake = f :: rest) (hm : mine f.kind = true) :
    actOnOldest mine s = actOnOldest mine { s with host := { s.host with tx := none } } := by
  have hended : replyEnded (takenFrom s rest) = takenFrom { s with host := { s.host with tx := none } } rest :=
    replyEnded_sending (s := takenFrom s rest) hsend ho
  have hidle := replyEnded_idle (s := takenFrom { s with host := { s.host with tx := none } } rest) rfl ho
  rw [actOnOldest_mine hf hm hw, actOnOldest_mine (s := { s with host := { s.host with tx := none } }) hf hm hw, hended, hidle]

/-! ### A clock limit still owed (R9) -/

/-- An owed clock limit in SERVICE closes the event before the request is judged. -/
theorem limitFirst_closes (hl : s.kit.owed.limit = true) (he : s.kit.event = .service) :
    limitFirst s = moved s (closeEvent .limit (begun s.kit)) := by
  have hreach : reachLimit (begun s.kit) = closeEvent .limit (begun s.kit) := if_pos (by simp [hl, he])
  rw [limitFirst, if_pos hl, ← hreach]
  rfl

theorem pushReport_intake_comm (h : HostPort) (r : Report) (intake : List Frame) :
    pushReport { h with intake := intake } r = { pushReport h r with intake := intake } := by
  unfold pushReport
  dsimp only
  split <;> rfl

theorem pushReports_intake_comm (h : HostPort) (rs : List Report) (intake : List Frame) :
    pushReports { h with intake := intake } rs = { pushReports h rs with intake := intake } := by
  unfold pushReports
  induction rs generalizing h with
  | nil => rfl
  | cons r rs ih => rw [List.foldl_cons, pushReport_intake_comm, ih, List.foldl_cons]

/-- Taking the frame and closing the event do not meet. -/
theorem moved_takenFrom (s : State) (rest : List Frame) (w : Work) : moved (takenFrom s rest) w = takenFrom (moved s w) rest := by
  unfold moved takenFrom
  rw [pushReports_intake_comm]

theorem actOnOldest_limit (hf : s.host.intake = f :: rest) (hm : mine f.kind = true) (hsend : sendingReply s.host = false)
    (ho : s.host.restartOwed = false) (hw : replyWaiting s.host = false) (hl : s.kit.owed.limit = true)
    (he : s.kit.event = .service) : actOnOldest mine s = actOnOldest mine (moved s (closeEvent .limit (begun s.kit))) := by
  generalize hclosed : closeEvent .limit (begun s.kit) = w
  have howed : w.owed.limit = false := by rw [← hclosed, closeEvent_begun]; rfl
  have hf' : (moved s w).host.intake = f :: rest := by simpa using hf
  have hw' : replyWaiting (moved s w).host = false := by simpa [replyWaiting] using hw
  have hsend' : sendingReply (takenFrom (moved s w) rest).host = false := by simpa [sendingReply, takenFrom] using hsend
  have ho' : (takenFrom (moved s w) rest).host.restartOwed = false := by simpa [takenFrom] using ho
  rw [actOnOldest_mine hf hm hw, replyEnded_idle (s := takenFrom s rest) hsend ho, limitFirst_closes (s := takenFrom s rest) hl he,
    actOnOldest_mine hf' hm hw', replyEnded_idle hsend' ho', limitFirst_idle (s := takenFrom (moved s w) rest) howed,
    ← moved_takenFrom, ← hclosed]
  rfl

theorem exec_command_running (hs : s.resetLow = false) (k : ReqKind) :
    exec k.command s = .next (actOnOldest (fun b => b == k.code) s) :=
  (exec_command k s).trans (congrArg Host.Outcome.next (unlessReset_running _ hs))

theorem exec_unknownKind_running (hs : s.resetLow = false) :
    exec .unknownKind s = .next (actOnOldest (fun b => (kindOf b).isNone) s) :=
  congrArg Host.Outcome.next (unlessReset_running _ hs)

end

/-- Settles O17: the two answers to a frame that is no request, and what must hold of the intake, the reply path, the transmitter
and the clock limit for a request to be acted on. -/
theorem framesActedOnInTurn : Obligations.FramesActedOnInTurn := by
  refine ⟨fun s f rest h => ⟨fun hk => ?badKind, fun k hk hl => ?badLength⟩,
    fun s k hs => ⟨fun hempty => ?empty, fun hw => ?behind, fun f rest hf hk => ?foreign, fun f rest hf hk => ?known,
      fun hsend ho hw _ f rest hf hk => ?sending, fun f rest hf hk hsend ho hw hl he => ?limit⟩⟩
  case badKind =>
    exact (exec_unknownKind_faces h hk).trans (congrArg Host.Outcome.next (actOn_turnedAway nofun (answerFrame_badKind hk)))
  case badLength =>
    exact (exec_faces h hk).trans (congrArg Host.Outcome.next (actOn_turnedAway nofun (answerFrame_badLength hk hl)))
  case empty =>
    rw [exec_command_running hs, exec_unknownKind_running hs, actOnOldest_empty hempty, actOnOldest_empty hempty]
    exact ⟨rfl, rfl⟩
  case behind =>
    rw [exec_command_running hs, exec_unknownKind_running hs, actOnOldest_behindReply hw, actOnOldest_behindReply hw]
    exact ⟨rfl, rfl⟩
  case foreign =>
    have hother : (f.kind == k.code) = false := beq_eq_false_iff_ne.2 hk
    rw [exec_command_running hs, actOnOldest_foreign (mine := fun b => b == k.code) hf hother]
  case known =>
    have hother : (kindOf f.kind).isNone = false := by rw [← Option.not_isSome, hk]; rfl
    rw [exec_unknownKind_running hs, actOnOldest_foreign (mine := fun b => (kindOf b).isNone) hf hother]
  case sending =>
    have hacted := actOnOldest_sending (mine := fun b => b == k.code) hsend ho hw hf (beq_iff_eq.2 hk)
    rw [exec_command_running hs, hacted]
    exact (exec_command_running (s := { s with host := { s.host with tx := none } }) hs k).symm
  case limit =>
    have hacted := actOnOldest_limit (mine := fun b => b == k.code) hf (beq_iff_eq.2 hk) hsend ho hw hl he
    rw [exec_command_running hs, hacted]
    exact (exec_command_running (s := moved s (closeEvent .limit (begun s.kit))) hs k).symm

/-! ### The transmitter's choice (R171, R173, R11) -/

section

variable {h : HostPort} {clock : Nat}

theorem chooseNext_reply {r : Reply} {rest : List Reply} (hpath : h.replyPath = r :: rest) :
    chooseNext clock h = { h with tx := some (.reply r), replyPath := rest } := by
  rw [chooseNext, hpath]

theorem chooseNext_report {r : Report} {rest : List Report} (hpath : h.replyPath = []) (hqueue : h.reports = r :: rest)
    (hgap : h.gap = false) : chooseNext clock h = { h with tx := some (.report r), reports := rest } := by
  have hsend : sendReport clock r rest h = { h with tx := some (.report r), reports := rest } := if_neg (by rw [hgap]; nofun)
  rw [← hsend, chooseNext, hpath, hqueue]

theorem chooseNext_gap {r : Report} {rest : List Report} (hpath : h.replyPath = []) (hqueue : h.reports = r :: rest)
    (hgap : h.gap = true) :
    chooseNext clock h =
      { h with tx := some (.report r), reports := rest ++ [⟨clock, .gap h.discards⟩], gap := false, discards := 0 } := by
  have hsend : sendReport clock r rest h =
      { h with tx := some (.report r), reports := rest ++ [⟨clock, .gap h.discards⟩], gap := false, discards := 0 } :=
    if_pos hgap
  rw [← hsend, chooseNext, hpath, hqueue]

theorem chooseNext_nothing (hpath : h.replyPath = []) (hqueue : h.reports = []) : chooseNext clock h = h := by
  rw [chooseNext, hpath, hqueue]

end

section

variable {s : State} {h : HostPort} (hs : s.resetLow = false)

include hs

/-- The transmitter's choice with no clearing to complete: the frame being sent has ended, and the Host Port chooses. -/
theorem exec_transmitterChoice_waits (ho : s.host.restartOwed = false ∨ replyWaiting s.host = true)
    (hchoice : chooseNext s.kit.clock { s.host with tx := none } = h) : exec .transmitterChoice s = .next { s with host := h } := by
  refine congrArg Host.Outcome.next ((unlessReset_running _ hs).trans ?_)
  rw [transmit, frameEnded_waits ho, ← hchoice]

/-- At the end of RESTART's reply the clearing comes first, and the Host Port then chooses at clock 0 (R11). -/
theorem exec_transmitterChoice_clears (ho : s.host.restartOwed = true) (hw : replyWaiting s.host = false)
    (hchoice : chooseNext 0 (clearedPart s).host = h) :
    exec .transmitterChoice s = .next { s with kit := clearedKitchen s.kit, host := h } := by
  refine congrArg Host.Outcome.next ((unlessReset_running _ hs).trans ?_)
  rw [transmit, frameEnded_clears ho hw, ← hchoice]
  rfl

end

/-! ### How a report joins the queue (R172) -/

theorem pushReports_room {h : HostPort} {r : Report} (hroom : h.reports.length < 96) (rs : List Report) :
    pushReports h (r :: rs) = pushReports { h with reports := h.reports ++ [r] } rs :=
  congrArg (pushReports · rs) (if_pos hroom)

theorem pushReports_full {h : HostPort} {r : Report} (hfull : 96 ≤ h.reports.length) (rs : List Report) :
    pushReports h (r :: rs) = pushReports { h with gap := true, discards := min (h.discards + 1) 65535 } rs :=
  congrArg (pushReports · rs) (if_neg (Nat.not_lt.2 hfull))

/-! ### Codes of one byte (R178) -/

theorem eventState_byte (e : EventState) :
    BitVec.ofNat 8 e.code = match e with | .setup => 1 | .service => 2 | .closed => 3 := by cases e <;> rfl

theorem eventCause_byte (c : EventCause) :
    BitVec.ofNat 8 c.code = match c with | .start => 1 | .close => 2 | .limit => 3 | .restart => 4 := by cases c <;> rfl

theorem modeCause_byte (c : ModeCause) :
    BitVec.ofNat 8 c.code =
      match c with
      | .stnon => 1 | .stnoff => 2 | .pause => 3 | .pauseall => 4 | .resume => 5 | .resumeall => 6 | .halt => 7 | .fault => 8
      | .clear => 9 | .warm => 10 | .drain => 11 | .close => 12 := by cases c <;> rfl

theorem item86Cause_byte (c : Item86Cause) :
    BitVec.ofNat 8 c.code = match c with | .commit => 1 | .stock => 2 | .define => 3 := by cases c <;> rfl

theorem defMark_byte (m : DefMark) : BitVec.ofNat 8 m.code = match m with | .new => 1 | .replaced => 2 := by cases m <;> rfl

theorem incomplete_byte (i : Incomplete) : BitVec.ofNat 8 i.code = match i with | .noStation => 1 | .itemStn => 3 := by
  cases i <;> rfl

/-! ### The bytes of frames, replies and reports (R162, R177, R179, R181) -/

theorem signed4_eq (v : Int) : signed4 v = be4 (BitVec.ofInt 32 v).toNat := rfl

theorem reply_bytes {r : Reply} {status : Byte} {more : List Byte}
    (h : (status, more) = (BitVec.ofNat 8 r.answer.bytes.1, r.answer.bytes.2)) :
    r.bytes = hostBytes (if (kindOf r.kind).isSome then r.kind + 0x80 else 0xFF) r.seq (status :: r.kind :: more) := by
  obtain ⟨rfl, rfl⟩ := Prod.mk.inj h
  rfl

theorem report_bytes {r : Report} {kind : Byte} {more : List Byte} (h : (kind, more) = (r.body.kind, r.body.bytes)) :
    r.bytes = hostBytes kind 0 (be2 r.clock ++ more) := by
  obtain ⟨rfl, rfl⟩ := Prod.mk.inj h
  rfl

theorem fieldCode_table :
    [FieldCode.number, .name, .course, .kind, .lines, .station, .cook, .batch, .rest, .hold, .runsize, .reorder, .lookahead,
      .subst, .subof, .platebase, .tol, .slots, .advance, .step, .warmup, .grace, .load, .primary, .fallback, .address, .sect,
      .covers, .item, .count, .sum, .length].map FieldCode.code = (List.range 32).map fun i => i + 1 := by
  decide

/-- Settles O13: the choice by what waits, how reports join, and the bytes field by field. -/
theorem transmitterChooses : Obligations.TransmitterChooses := by
  refine ⟨fun s hs => ⟨fun ho => ?choice, fun ho hpath => ?cleared,
      fun r rest ho hpath => ⟨fun hown => ?own, fun hbusy => ?others⟩, isBusy_iff⟩,
    fun h => ⟨rfl, fun r rs => ⟨fun hroom => pushReports_room hroom rs, fun hfull => pushReports_full hfull rs⟩⟩, ?bytes⟩
  case choice =>
    have leads := fun {h : HostPort} => exec_transmitterChoice_waits (h := h) hs (.inl ho)
    exact ⟨fun r rest hpath => leads (chooseNext_reply hpath),
      fun r rest hpath hqueue hgap => leads (chooseNext_report hpath hqueue hgap),
      fun r rest hpath hqueue hgap => leads (chooseNext_gap hpath hqueue hgap),
      fun hpath hqueue => leads (chooseNext_nothing hpath hqueue)⟩
  case cleared =>
    have hw : replyWaiting s.host = false := by simp [replyWaiting, hpath]
    exact exec_transmitterChoice_clears hs ho hw (chooseNext_report hpath rfl rfl)
  case own =>
    exact exec_transmitterChoice_waits hs (.inr ((replyWaiting_iff _).2 hown)) (chooseNext_reply hpath)
  case others =>
    exact exec_transmitterChoice_clears hs ho ((noReplyWaiting_iff _).2 hbusy) (chooseNext_reply hpath)
  case bytes =>
    intro byte two four signed none0 mark flags stock event group mode heard cause
    have hfour : ∀ v, be4 v = four v := be4_eq
    have hflags : ∀ f : Flags, BitVec.ofNat 8 f.byte = flags f := fun _ => rfl
    refine ⟨fun kind seq body => ?frame, fun r status more h => ?reply, fieldCode_table, fun b => ?ok,
      fun r kind more h => ?report⟩
    case frame => simp [hostBytes, be2, two, byte, Nat.add_comm 2]
    case reply =>
      refine reply_bytes (h.trans ?_)
      cases r.answer with
      | incomplete why st i => simp only [Answer.bytes, be1, incomplete_byte]; rfl
      | _ => rfl
    case ok =>
      cases b with
      | defined n m => simp only [OkBody.bytes, be1, defMark_byte]; rfl
      | stockSet i st e => simp only [OkBody.bytes, mark1, be1, mark_byte, stock_bytes]; rfl
      | submitted g f p ls => simp only [OkBody.bytes, signed4_eq, hfour, be1, hflags]; rfl
      | amended f p ls => simp only [OkBody.bytes, signed4_eq, hfour, be1, hflags]; rfl
      | timed f p => simp only [OkBody.bytes, signed4_eq, hfour, be1, hflags]; rfl
      | served g tag => simp only [OkBody.bytes, hfour]; rfl
      | refired f p cs e => simp only [OkBody.bytes, signed4_eq, hfour, be1, hflags, count1_eq]; rfl
      | modeSet st m => simp only [OkBody.bytes, be1, mode_byte]; rfl
      | group | station | item | terminal | part => trivial
      | empty | rebound | cancelled | modesSet => rfl
    case report =>
      refine report_bytes (h.trans ?_)
      cases r.body with
      | evstate st c => simp only [ReportBody.bytes, be1, eventState_byte, eventCause_byte]; rfl
      | grpready g tag p t f => simp only [ReportBody.bytes, groupTag, signed4_eq, hfour, be1, hflags]; rfl
      | grplate g tag p t l => simp only [ReportBody.bytes, groupTag, signed4_eq, hfour, mark1, be1, mark_byte]; rfl
      | grpstretch g tag i c held h => simp only [ReportBody.bytes, groupTag, hfour, be1]; rfl
      | grpshort g tag i sf c v => simp only [ReportBody.bytes, groupTag, hfour, be1]; rfl
      | grpdying g tag e i c st => simp only [ReportBody.bytes, groupTag, signed4_eq, hfour, be1, groupState_byte]; rfl
      | grpgone g tag st => simp only [ReportBody.bytes, groupTag, hfour, be1, groupState_byte]; rfl
      | tkover n st g tag i c start ceff => simp only [ReportBody.bytes, hfour, be1]; rfl
      | stnmode st m c t => simp only [ReportBody.bytes, be1, mode_byte, modeCause_byte]; rfl
      | termstate a k l e => simp only [ReportBody.bytes, be1, termKind_byte, termState_byte]; rfl
      | item86 i c => simp only [ReportBody.bytes, be1, item86Cause_byte]; rfl
      | started | gap => rfl

end Sys2Proof.Machine
end

section
/-! PROOF. The bodies of the requests: their lengths, and the fields read back from them (R167, R176, R179). -/

namespace Sys2Proof.Machine

/-! ### Fields at a place of a body (R176) -/

theorem u8_head (x : Byte) (b : List Byte) : u8 (x :: b) 0 = x.toNat := rfl

theorem u8_tail (x : Byte) (b : List Byte) (i : Nat) : u8 (x :: b) (i + 1) = u8 b i := rfl

theorem byteField_toNat {n : Nat} (h : byteField n = true) : (BitVec.ofNat 8 n).toNat = n := byte_toNat (of_decide_eq_true h)

theorem wordField_toNat {n : Nat} (h : wordField n = true) :
    (BitVec.ofNat 8 (n / 256)).toNat * 256 + (BitVec.ofNat 8 n).toNat = n := u16_be2 (of_decide_eq_true h)

/-- Two bytes hold a value modulo 65,536. -/
theorem u16_be2_mod (n : Nat) : u16 (be2 n) 0 = n % 65536 := by
  have hhigh : u8 (be2 n) 0 = n / 256 % 256 := BitVec.toNat_ofNat ..
  have hlow : u8 (be2 n) 1 = n % 256 := BitVec.toNat_ofNat ..
  rw [u16, hhigh, hlow]
  omega

theorem u32_be4 {n : Nat} (h : n < 4294967296) (b : List Byte) : u32 (be4 n ++ b) 0 = n := by
  have hhigh : u16 (be4 n ++ b) 0 = n / 65536 := u16_be2 (by omega)
  have hlow : u16 (be4 n ++ b) 2 = n % 65536 := u16_be2_mod n
  rw [u32, hhigh, hlow]
  omega

/-- Behind a part of a body the bytes are those of the rest. -/
theorem u8_behind (a b : List Byte) (i : Nat) : u8 (a ++ b) (a.length + i) = u8 b i := by
  rw [u8, List.getD_append_right _ _ _ _ (Nat.le_add_right _ _), Nat.add_sub_cancel_left]
  rfl

theorem u16_behind (a b : List Byte) (i : Nat) : u16 (a ++ b) (a.length + i) = u16 b i := by
  rw [u16, u8_behind, Nat.add_assoc, u8_behind]
  rfl

/-! ### Lines of a DEFITEM and of a SUBMIT (R179) -/

/-- Lines of one size, sent one after another behind the head of a body, are read back at their offsets. -/
theorem lines_readBack {α : Type} {read : List Byte → Nat → α} {bytes : α → List Byte} {size : Nat}
    (hbehind : ∀ a b i, read (a ++ b) (a.length + i) = read b i) (hsize : ∀ x, (bytes x).length = size) (head : List Byte)
    {lines : List α} (hread : ∀ x ∈ lines, ∀ rest, read (bytes x ++ rest) 0 = x) :
    ((List.range lines.length).map fun j => read (head ++ lines.flatMap bytes) (head.length + size * j)) = lines := by
  induction lines generalizing head with
  | nil => rfl
  | cons x lines ih =>
    have hfirst : read (head ++ (x :: lines).flatMap bytes) head.length = x :=
      (hbehind head _ 0).trans (hread x List.mem_cons_self _)
    have hoffset : ∀ j, head.length + size * (j + 1) = (head ++ bytes x).length + size * j := by
      intro j
      rw [List.length_append, hsize, Nat.mul_succ, Nat.add_comm (size * j), Nat.add_assoc]
    have hrest := ih (head ++ bytes x) fun y hy => hread y (List.mem_cons_of_mem x hy)
    simp only [List.length_cons, List.range_succ_eq_map, List.map_cons, List.map_map, Function.comp_def, Nat.succ_eq_add_one,
      hoffset, Nat.mul_zero, Nat.add_zero, hfirst]
    rw [List.flatMap_cons, ← List.append_assoc, hrest]

theorem length_lines {α : Type} {bytes : α → List Byte} {size : Nat} (hsize : ∀ x, (bytes x).length = size) (lines : List α) :
    (lines.flatMap bytes).length = size * lines.length := by
  simp [List.length_flatMap, hsize, Nat.mul_comm]

theorem componentBytes_length (c : Component) : (componentBytes c).length = 8 := rfl

theorem componentAt_behind (a b : List Byte) (i : Nat) : componentAt (a ++ b) (a.length + i) = componentAt b i := by
  simp only [componentAt, Nat.add_assoc, u8_behind, u16_behind]

theorem componentAt_componentBytes {c : Component} (h : c.fits = true) (rest : List Byte) :
    componentAt (componentBytes c ++ rest) 0 = c := by
  simp only [Component.fits, Bool.and_eq_true] at h
  obtain ⟨⟨⟨⟨hstation, hcook⟩, hbatch⟩, hrest⟩, hhold⟩ := h
  simp only [componentAt, componentBytes, be1, be2, u16, u8_head, u8_tail, List.cons_append, List.nil_append, Nat.zero_add,
    byteField_toNat, wordField_toNat, hstation, hcook, hbatch, hrest, hhold]

/-- A line of a SUBMIT as it is sent. -/
def orderLineBytes (l : OrderLine) : List Byte := be1 l.item ++ be2 l.count

/-- The line at an offset of a SUBMIT body. -/
def orderLineAt (b : List Byte) (i : Nat) : OrderLine := ⟨u8 b i, u16 b (i + 1)⟩

theorem orderLineBytes_length (l : OrderLine) : (orderLineBytes l).length = 3 := rfl

theorem orderLineAt_behind (a b : List Byte) (i : Nat) : orderLineAt (a ++ b) (a.length + i) = orderLineAt b i := by
  simp only [orderLineAt, Nat.add_assoc, u8_behind, u16_behind]

theorem orderLineAt_orderLineBytes {l : OrderLine} (hitem : byteField l.item = true) (hcount : wordField l.count = true)
    (rest : List Byte) : orderLineAt (orderLineBytes l ++ rest) 0 = l :=
  congrArg₂ OrderLine.mk (byteField_toNat hitem) (wordField_toNat hcount)

/-! ### The bodies with lines, in their parts (R179) -/

/-- The fields of a DEFITEM between its name and its lines. -/
def itemFields (r : ItemReq) : List Byte :=
  be1 r.course ++ be1 r.kind ++ be1 r.subst ++ be2 r.stock ++ be1 r.runSize ++ be2 r.reorder ++ be2 r.lookahead ++
    be1 r.lines.length

/-- The fields of a SUBMIT before its lines. -/
def submitFields (r : SubmitReq) : List Byte :=
  be4 r.tag ++ be1 r.sect ++ be1 r.course ++ be2 r.covers ++ be2 r.target ++ be1 r.lines.length

/-- A DEFITEM body behind its name. -/
def itemBehindName (r : ItemReq) : List Byte := itemFields r ++ r.lines.flatMap componentBytes

theorem defitem_body (r : ItemReq) : (Request.defitem r).body = (be1 r.number ++ r.name) ++ itemBehindName r := by
  simp only [Request.body, itemBehindName, itemFields, List.append_assoc]

theorem submit_body (r : SubmitReq) : (Request.submit r).body = submitFields r ++ r.lines.flatMap orderLineBytes := rfl

theorem itemFields_length (r : ItemReq) : (itemFields r).length = 11 := rfl

theorem submitFields_length (r : SubmitReq) : (submitFields r).length = 11 := rfl

section

variable {r : ItemReq} (hname : r.name.length = 16)

include hname

theorem defitem_front_length : (be1 r.number ++ r.name).length = 17 := by
  rw [List.length_append, hname]
  rfl

theorem u8_behindName (i : Nat) : u8 (Request.defitem r).body (17 + i) = u8 (itemBehindName r) i := by
  rw [defitem_body, ← defitem_front_length hname]
  exact u8_behind _ _ i

theorem u16_behindName (i : Nat) : u16 (Request.defitem r).body (17 + i) = u16 (itemBehindName r) i := by
  rw [defitem_body, ← defitem_front_length hname]
  exact u16_behind _ _ i

/-- The line count of a DEFITEM stands 27 bytes into its body. -/
theorem defitem_lineCount (hlines : byteField r.lines.length = true) : u8 (Request.defitem r).body 27 = r.lines.length :=
  (u8_behindName hname 10).trans (byteField_toNat hlines)

end

theorem submit_lineCount {r : SubmitReq} (hlines : byteField r.lines.length = true) :
    u8 (Request.submit r).body 10 = r.lines.length :=
  byteField_toNat hlines

/-! ### Lengths (R167, R179) -/

theorem defitem_length {r : ItemReq} (hname : r.name.length = 16) (hlines : byteField r.lines.length = true) :
    (Request.defitem r).body.length = bodyLength .defitem (Request.defitem r).body := by
  rw [bodyLength, defitem_lineCount hname hlines, defitem_body, List.length_append, defitem_front_length hname, itemBehindName,
    List.length_append, itemFields_length, length_lines componentBytes_length, ← Nat.add_assoc]

theorem submit_length {r : SubmitReq} (hlines : byteField r.lines.length = true) :
    (Request.submit r).body.length = bodyLength .submit (Request.submit r).body := by
  rw [bodyLength, submit_lineCount hlines, submit_body, List.length_append, submitFields_length,
    length_lines orderLineBytes_length]

/-- Each request has the body length its kind requires (R167). -/
theorem body_length {r : Request} (h : r.fits = true) : r.body.length = bodyLength r.kind r.body := by
  cases r with
  | defitem r =>
    simp only [Request.fits, Bool.and_eq_true, beq_iff_eq] at h
    obtain ⟨⟨⟨⟨⟨⟨⟨⟨⟨⟨-, hname⟩, -⟩, -⟩, -⟩, -⟩, -⟩, -⟩, -⟩, hlines⟩, -⟩ := h
    exact defitem_length hname hlines
  | submit r =>
    simp only [Request.fits, Bool.and_eq_true] at h
    obtain ⟨⟨-, hlines⟩, -⟩ := h
    exact submit_length hlines
  | defstn r =>
    simp only [Request.fits, Bool.and_eq_true, beq_iff_eq] at h
    obtain ⟨⟨⟨⟨-, hload⟩, -⟩, -⟩, -⟩ := h
    simp [Request.body, Request.kind, bodyLength, be1, be2, flatMap_be1, hload]
  | _ => rfl

/-! ### Fields read back (R176, R179) -/

theorem readRequest_defitem {r : ItemReq} (h : (Request.defitem r).fits = true) :
    readRequest .defitem (Request.defitem r).body = .defitem r := by
  simp only [Request.fits, Bool.and_eq_true, beq_iff_eq, List.all_eq_true] at h
  obtain ⟨⟨⟨⟨⟨⟨⟨⟨⟨⟨hnumber, hname⟩, hcourse⟩, hkind⟩, hsubst⟩, hstock⟩, hrun⟩, hreorder⟩, hlook⟩, hcount⟩, hlines⟩ := h
  have hnumberBack : u8 (Request.defitem r).body 0 = r.number := byteField_toNat hnumber
  have hnameBack : ((Request.defitem r).body.drop 1).take 16 = r.name := by
    rw [defitem_body, List.append_assoc]
    exact List.take_left' hname
  have hlinesBack :
      ((List.range r.lines.length).map fun j => componentAt (Request.defitem r).body (28 + 8 * j)) = r.lines := by
    have hback := lines_readBack componentAt_behind componentBytes_length ((be1 r.number ++ r.name) ++ itemFields r)
      fun c hc => componentAt_componentBytes (hlines c hc)
    rwa [List.length_append, defitem_front_length hname, List.append_assoc, ← itemBehindName, ← defitem_body] at hback
  calc readRequest .defitem (Request.defitem r).body
    _ = .defitem
        { number := r.number, name := r.name, course := u8 (itemBehindName r) 0, kind := u8 (itemBehindName r) 1
          subst := u8 (itemBehindName r) 2, stock := u16 (itemBehindName r) 3, runSize := u8 (itemBehindName r) 5
          reorder := u16 (itemBehindName r) 6, lookahead := u16 (itemBehindName r) 8, lines := r.lines } := by
      simp only [readRequest, hnumberBack, hnameBack, defitem_lineCount hname hcount, hlinesBack, ← u8_behindName hname,
        ← u16_behindName hname]
    _ = .defitem r := by
      simp only [itemBehindName, itemFields, be1, be2, u16, u8_head, u8_tail, List.cons_append, List.nil_append, Nat.reduceAdd,
        byteField_toNat, wordField_toNat, hcourse, hkind, hsubst, hstock, hrun, hreorder, hlook]

theorem readRequest_submit {r : SubmitReq} (h : (Request.submit r).fits = true) :
    readRequest .submit (Request.submit r).body = .submit r := by
  simp only [Request.fits, Bool.and_eq_true, List.all_eq_true, decide_eq_true_eq] at h
  obtain ⟨⟨⟨⟨⟨⟨htag, hsect⟩, hcourse⟩, hcovers⟩, htarget⟩, hcount⟩, hlines⟩ := h
  have htagBack : u32 (Request.submit r).body 0 = r.tag := by
    simp only [Request.body, List.append_assoc]
    exact u32_be4 htag _
  have hsectBack : u8 (Request.submit r).body 4 = r.sect := byteField_toNat hsect
  have hcourseBack : u8 (Request.submit r).body 5 = r.course := byteField_toNat hcourse
  have hcoversBack : u16 (Request.submit r).body 6 = r.covers := wordField_toNat hcovers
  have htargetBack : u16 (Request.submit r).body 8 = r.target := wordField_toNat htarget
  have hlinesBack : ((List.range r.lines.length).map fun j => orderLineAt (Request.submit r).body (11 + 3 * j)) = r.lines :=
    lines_readBack orderLineAt_behind orderLineBytes_length (submitFields r) fun l hl =>
      orderLineAt_orderLineBytes (hlines l hl).1 (hlines l hl).2
  simp only [orderLineAt, Nat.add_right_comm 11 _ 1, Nat.reduceAdd] at hlinesBack
  simp only [readRequest, htagBack, hsectBack, hcourseBack, hcoversBack, htargetBack, submit_lineCount hcount, hlinesBack]

theorem readRequest_defstn {r : StationReq} (h : (Request.defstn r).fits = true) :
    readRequest .defstn (Request.defstn r).body = .defstn r := by
  simp only [Request.fits, Bool.and_eq_true, beq_iff_eq, List.all_eq_true] at h
  obtain ⟨⟨⟨⟨⟨⟨⟨⟨⟨hnumber, hslots⟩, hadvance⟩, hstep⟩, hwarmup⟩, hgrace⟩, hfour⟩, hload⟩, hprimary⟩, hfallback⟩ := h
  obtain ⟨l0, l1, l2, l3, hl⟩ := List.length_eq_four.1 hfour
  obtain ⟨h0, h1, h2, h3⟩ : byteField l0 = true ∧ byteField l1 = true ∧ byteField l2 = true ∧ byteField l3 = true := by
    simpa [hl] using hload
  simp only [readRequest, Request.body, hl, List.flatMap_cons, List.flatMap_nil, be1, be2, u16, u8_head, u8_tail,
    List.cons_append, List.nil_append, Nat.reduceAdd, byteField_toNat, wordField_toNat, hnumber, hslots, hadvance, hstep,
    hwarmup, hgrace, h0, h1, h2, h3, hprimary, hfallback]
  rw [← hl]

/-- The fields of a request that fits are read back from its body. -/
theorem readRequest_body {r : Request} (h : r.fits = true) : readRequest r.kind r.body = r := by
  cases r with
  | defitem r => exact readRequest_defitem h
  | submit r => exact readRequest_submit h
  | defstn r => exact readRequest_defstn h
  | start | close | restart | clrcfg | pauseall | resumeall | qstat => rfl
  | stnon n | stnoff n | pause n | resume n | halt n | clear n | qstn n | qitem n | qterm n =>
    exact congrArg _ (byteField_toNat h)
  | hold g | cancel g | pickup g => exact congrArg _ (wordField_toNat h)
  | defcrs | defterm | stock | rebind | amend | retime | refire | qgroup =>
    simp only [Request.fits, Bool.and_eq_true] at h
    simp only [readRequest, Request.kind, Request.body, be1, be2, u16, u8_head, u8_tail, List.cons_append, List.nil_append,
      Nat.zero_add, Nat.reduceAdd, byteField_toNat, wordField_toNat, h]

/-- Settles O15: each kind of R179 field by field, its length, and the reading back. -/
theorem requestBodiesReadBack : Obligations.RequestBodiesReadBack := by
  refine ⟨fun r h => ?readBack, rfl, fun b k => ⟨code_of_kindOf, fun h => h ▸ kindOf_code k⟩, ?layouts,
    fun b k n h => ?lengths⟩
  case readBack =>
    have hparsed := parseRequest_code (f := ⟨r.kind.code, 0, r.body⟩) rfl (body_length h)
    rwa [readRequest_body h] at hparsed
  case layouts =>
    intro byte two r kind fields h
    have hkind : (kind, fields) = (r.kind, r.body) := by
      refine h.trans ?_
      cases r with
      | defitem r => simp only [Request.body, List.append_assoc]; rfl
      | submit r => simp only [Request.body, be4_eq]; rfl
      | defstn r => simp only [Request.body, flatMap_be1, List.append_assoc]; rfl
      | _ => rfl
    obtain ⟨rfl, rfl⟩ := Prod.mk.inj hkind
    exact ⟨rfl, rfl⟩
  case lengths =>
    rw [h]
    cases k <;> rfl

end Sys2Proof.Machine
end

section
/-! PROOF. The step of the block, by its queue of commands. -/

namespace Sys2Proof.Machine

/-- A command at the front is taken from the queue and carried out. -/
theorem step_of_pending_cons {c : Instr} {rest : List Instr} {s : State} (h : s.pending = c :: rest) :
    step s = exec c { s with pending := rest } := by
  rw [step, h]

/-- An empty queue leaves the state as it is (log entry 1). -/
theorem step_of_pending_nil {s : State} (h : s.pending = []) : step s = .next s := by
  rw [step, h]

/-- Settles O1: the step by its queue, which has a front command or is empty. -/
theorem stepRunsFrontCommand : Obligations.StepRunsFrontCommand :=
  ⟨fun _ _ _ => step_of_pending_cons, fun _ => step_of_pending_nil⟩

end Sys2Proof.Machine
end
